-- ==== Sys2Proof/Word.lean ====
section
/-! DEFINITION. The word types of the machine. -/

namespace Sys2Proof

/-- A 32-bit register, address or instruction word (spec 10 R20, 20 R100, 30 R150). -/
abbrev Word := BitVec 32

/-- A 16-bit halfword (spec 45 R445). -/
abbrev Half := BitVec 16

/-- The smallest addressable unit (spec 20 R100). -/
abbrev Byte := BitVec 8

/-- The number of a general register (spec 30 R156). -/
abbrev Reg := BitVec 5

/-- A 3-bit register field of a MIPS16e instruction (spec 45 R442). -/
abbrev Reg3 := BitVec 3

end Sys2Proof
end

