-- ==== Sys2Proof/Syntax.lean ====
section
/-! DEFINITION. The instructions: one constructor for each row of spec/opcode_table.json. -/

namespace Sys2Proof

/-- The instruction set in force, `ISAMode` (spec 10 R29): 0 is MIPS32, 1 is MIPS16e. -/
inductive Isa where
  | mips32
  | mips16
  deriving DecidableEq, Repr

/-- A MIPS16e instruction widened by the EXTEND prefix, with its assembled immediate (spec 45 R448). -/
inductive ExtOp where
  | addiusp (x : Reg3) (imm : BitVec 16)
  | addiupc (x : Reg3) (imm : BitVec 16)
  | b (offset : BitVec 16)
  | beqz (x : Reg3) (offset : BitVec 16)
  | bnez (x : Reg3) (offset : BitVec 16)
  | sll (x y : Reg3) (sa : BitVec 5)
  | srl (x y : Reg3) (sa : BitVec 5)
  | sra (x y : Reg3) (sa : BitVec 5)
  | addiu (y x : Reg3) (imm : BitVec 15)
  | addiu8 (x : Reg3) (imm : BitVec 16)
  | slti (x : Reg3) (imm : BitVec 16)
  | sltiu (x : Reg3) (imm : BitVec 16)
  | bteqz (offset : BitVec 16)
  | btnez (offset : BitVec 16)
  | swrasp (imm : BitVec 16)
  | adjsp (imm : BitVec 16)
  | save (xsregs : BitVec 3) (aregs : BitVec 4) (frame : BitVec 8) (ra s0 s1 : Bool)
  | restore (xsregs : BitVec 3) (aregs : BitVec 4) (frame : BitVec 8) (ra s0 s1 : Bool)
  | li (x : Reg3) (imm : BitVec 16)
  | cmpi (x : Reg3) (imm : BitVec 16)
  | lb (y x : Reg3) (imm : BitVec 16)
  | lh (y x : Reg3) (imm : BitVec 16)
  | lwsp (x : Reg3) (imm : BitVec 16)
  | lw (y x : Reg3) (imm : BitVec 16)
  | lbu (y x : Reg3) (imm : BitVec 16)
  | lhu (y x : Reg3) (imm : BitVec 16)
  | lwpc (x : Reg3) (imm : BitVec 16)
  | sb (y x : Reg3) (imm : BitVec 16)
  | sh (y x : Reg3) (imm : BitVec 16)
  | swsp (x : Reg3) (imm : BitVec 16)
  | sw (y x : Reg3) (imm : BitVec 16)
  deriving DecidableEq, Repr

/-- An instruction. Each docstring names the rule of the spec that gives it. -/
inductive Instr where
  /-- NOP (spec 30 R168, 43 R375). -/
  | nop
  /-- SSNOP (spec 30 R168, 43 R376). -/
  | ssnop
  /-- EHB (spec 43 R377). -/
  | ehb
  /-- LB (spec 40 R201). -/
  | lb (rt base : Reg) (offset : BitVec 16)
  /-- LBU (spec 40 R202). -/
  | lbu (rt base : Reg) (offset : BitVec 16)
  /-- LH (spec 40 R203). -/
  | lh (rt base : Reg) (offset : BitVec 16)
  /-- LHU (spec 40 R204). -/
  | lhu (rt base : Reg) (offset : BitVec 16)
  /-- LW (spec 40 R205). -/
  | lw (rt base : Reg) (offset : BitVec 16)
  /-- LWL (spec 40 R207). -/
  | lwl (rt base : Reg) (offset : BitVec 16)
  /-- LWR (spec 40 R208). -/
  | lwr (rt base : Reg) (offset : BitVec 16)
  /-- SB (spec 40 R206). -/
  | sb (rt base : Reg) (offset : BitVec 16)
  /-- SH (spec 40 R213). -/
  | sh (rt base : Reg) (offset : BitVec 16)
  /-- SW (spec 40 R214). -/
  | sw (rt base : Reg) (offset : BitVec 16)
  /-- SWL (spec 40 R209). -/
  | swl (rt base : Reg) (offset : BitVec 16)
  /-- SWR (spec 40 R210). -/
  | swr (rt base : Reg) (offset : BitVec 16)
  /-- LL (spec 40 R211). -/
  | ll (rt base : Reg) (offset : BitVec 16)
  /-- SC (spec 40 R212). -/
  | sc (rt base : Reg) (offset : BitVec 16)
  /-- PREF (spec 40 R215). -/
  | pref (hint base : Reg) (offset : BitVec 16)
  /-- CACHE (spec 40 R216). -/
  | cache (op base : Reg) (offset : BitVec 16)
  /-- LWC1 (spec 40 R217). -/
  | lwc1 (rt base : Reg) (offset : BitVec 16)
  /-- LWC2 (spec 40 R218). -/
  | lwc2 (rt base : Reg) (offset : BitVec 16)
  /-- LDC1 (spec 40 R219). -/
  | ldc1 (rt base : Reg) (offset : BitVec 16)
  /-- LDC2 (spec 40 R220). -/
  | ldc2 (rt base : Reg) (offset : BitVec 16)
  /-- SWC1 (spec 40 R221). -/
  | swc1 (rt base : Reg) (offset : BitVec 16)
  /-- SWC2 (spec 40 R222). -/
  | swc2 (rt base : Reg) (offset : BitVec 16)
  /-- SDC1 (spec 40 R223). -/
  | sdc1 (rt base : Reg) (offset : BitVec 16)
  /-- SDC2 (spec 40 R224). -/
  | sdc2 (rt base : Reg) (offset : BitVec 16)
  /-- ADD (spec 41 R243). -/
  | add (rd rs rt : Reg)
  /-- ADDU (spec 41 R244). -/
  | addu (rd rs rt : Reg)
  /-- SUB (spec 41 R245). -/
  | sub (rd rs rt : Reg)
  /-- SUBU (spec 41 R246). -/
  | subu (rd rs rt : Reg)
  /-- SLT (spec 41 R249). -/
  | slt (rd rs rt : Reg)
  /-- SLTU (spec 41 R250). -/
  | sltu (rd rs rt : Reg)
  /-- AND (spec 41 R253). -/
  | and (rd rs rt : Reg)
  /-- OR (spec 41 R254). -/
  | or (rd rs rt : Reg)
  /-- XOR (spec 41 R255). -/
  | xor (rd rs rt : Reg)
  /-- NOR (spec 41 R256). -/
  | nor (rd rs rt : Reg)
  /-- ADDI (spec 41 R247). -/
  | addi (rt rs : Reg) (imm : BitVec 16)
  /-- ADDIU (spec 41 R248). -/
  | addiu (rt rs : Reg) (imm : BitVec 16)
  /-- SLTI (spec 41 R251). -/
  | slti (rt rs : Reg) (imm : BitVec 16)
  /-- SLTIU (spec 41 R252). -/
  | sltiu (rt rs : Reg) (imm : BitVec 16)
  /-- ANDI (spec 41 R257). -/
  | andi (rt rs : Reg) (imm : BitVec 16)
  /-- ORI (spec 41 R258). -/
  | ori (rt rs : Reg) (imm : BitVec 16)
  /-- XORI (spec 41 R259). -/
  | xori (rt rs : Reg) (imm : BitVec 16)
  /-- LUI (spec 41 R260). -/
  | lui (rt : Reg) (imm : BitVec 16)
  /-- SLL (spec 41 R261). -/
  | sll (rd rt sa : Reg)
  /-- SRL (spec 41 R262). -/
  | srl (rd rt sa : Reg)
  /-- SRA (spec 41 R263). -/
  | sra (rd rt sa : Reg)
  /-- ROTR (spec 41 R267). -/
  | rotr (rd rt sa : Reg)
  /-- SLLV (spec 41 R264). -/
  | sllv (rd rt rs : Reg)
  /-- SRLV (spec 41 R265). -/
  | srlv (rd rt rs : Reg)
  /-- SRAV (spec 41 R266). -/
  | srav (rd rt rs : Reg)
  /-- ROTRV (spec 41 R268). -/
  | rotrv (rd rt rs : Reg)
  /-- MULT (spec 41 R269). -/
  | mult (rs rt : Reg)
  /-- MULTU (spec 41 R270). -/
  | multu (rs rt : Reg)
  /-- DIV (spec 41 R271). -/
  | div (rs rt : Reg)
  /-- DIVU (spec 41 R272). -/
  | divu (rs rt : Reg)
  /-- MADD (spec 41 R273). -/
  | madd (rs rt : Reg)
  /-- MADDU (spec 41 R274). -/
  | maddu (rs rt : Reg)
  /-- MSUB (spec 41 R275). -/
  | msub (rs rt : Reg)
  /-- MSUBU (spec 41 R276). -/
  | msubu (rs rt : Reg)
  /-- MUL (spec 41 R277). -/
  | mul (rd rs rt : Reg)
  /-- MFHI (spec 41 R278). -/
  | mfhi (rd : Reg)
  /-- MFLO (spec 41 R279). -/
  | mflo (rd : Reg)
  /-- MTHI (spec 41 R280). -/
  | mthi (rs : Reg)
  /-- MTLO (spec 41 R281). -/
  | mtlo (rs : Reg)
  /-- CLZ (spec 41 R282; the rt field must equal rd). -/
  | clz (rd rs rt : Reg)
  /-- CLO (spec 41 R283; the rt field must equal rd). -/
  | clo (rd rs rt : Reg)
  /-- EXT (spec 41 R284). -/
  | ext (rt rs msbd lsb : Reg)
  /-- INS (spec 41 R285). -/
  | ins (rt rs msb lsb : Reg)
  /-- SEB (spec 41 R286). -/
  | seb (rd rt : Reg)
  /-- SEH (spec 41 R287). -/
  | seh (rd rt : Reg)
  /-- WSBH (spec 41 R291). -/
  | wsbh (rd rt : Reg)
  /-- J (spec 42 R330). -/
  | j (index : BitVec 26)
  /-- JAL (spec 42 R331). -/
  | jal (index : BitVec 26)
  /-- JALX (spec 42 R332). -/
  | jalx (index : BitVec 26)
  /-- JR (spec 42 R333, 30 R168). -/
  | jr (rs : Reg) (hint : BitVec 4)
  /-- JR.HB (spec 42 R334, 30 R168). -/
  | jrHb (rs : Reg) (hint : BitVec 4)
  /-- JALR (spec 42 R335, 30 R168). -/
  | jalr (rd rs : Reg) (hint : BitVec 4)
  /-- JALR.HB (spec 42 R336, 30 R168). -/
  | jalrHb (rd rs : Reg) (hint : BitVec 4)
  /-- BEQ (spec 42 R337). -/
  | beq (rs rt : Reg) (offset : BitVec 16)
  /-- BNE (spec 42 R338). -/
  | bne (rs rt : Reg) (offset : BitVec 16)
  /-- BEQL (spec 42 R345). -/
  | beql (rs rt : Reg) (offset : BitVec 16)
  /-- BNEL (spec 42 R346). -/
  | bnel (rs rt : Reg) (offset : BitVec 16)
  /-- BLEZ (spec 42 R339). -/
  | blez (rs : Reg) (offset : BitVec 16)
  /-- BGTZ (spec 42 R340). -/
  | bgtz (rs : Reg) (offset : BitVec 16)
  /-- BLEZL (spec 42 R347). -/
  | blezl (rs : Reg) (offset : BitVec 16)
  /-- BGTZL (spec 42 R348). -/
  | bgtzl (rs : Reg) (offset : BitVec 16)
  /-- BLTZ (spec 42 R341). -/
  | bltz (rs : Reg) (offset : BitVec 16)
  /-- BGEZ (spec 42 R342). -/
  | bgez (rs : Reg) (offset : BitVec 16)
  /-- BLTZL (spec 42 R349). -/
  | bltzl (rs : Reg) (offset : BitVec 16)
  /-- BGEZL (spec 42 R350). -/
  | bgezl (rs : Reg) (offset : BitVec 16)
  /-- BLTZAL (spec 42 R343). -/
  | bltzal (rs : Reg) (offset : BitVec 16)
  /-- BGEZAL (spec 42 R344). -/
  | bgezal (rs : Reg) (offset : BitVec 16)
  /-- BLTZALL (spec 42 R351). -/
  | bltzall (rs : Reg) (offset : BitVec 16)
  /-- BGEZALL (spec 42 R352). -/
  | bgezall (rs : Reg) (offset : BitVec 16)
  /-- SYNC (spec 43 R360). -/
  | sync (stype : Reg)
  /-- SYNCI (spec 43 R361). -/
  | synci (base : Reg) (offset : BitVec 16)
  /-- SYSCALL (spec 43 R363). -/
  | syscall (code : BitVec 20)
  /-- BREAK (spec 43 R364). -/
  | break_ (code : BitVec 20)
  /-- SDBBP (spec 43 R365). -/
  | sdbbp (code : BitVec 20)
  /-- TGE (spec 43 R366). -/
  | tge (rs rt : Reg) (code : BitVec 10)
  /-- TGEU (spec 43 R367). -/
  | tgeu (rs rt : Reg) (code : BitVec 10)
  /-- TLT (spec 43 R368). -/
  | tlt (rs rt : Reg) (code : BitVec 10)
  /-- TLTU (spec 43 R369). -/
  | tltu (rs rt : Reg) (code : BitVec 10)
  /-- TEQ (spec 43 R370). -/
  | teq (rs rt : Reg) (code : BitVec 10)
  /-- TNE (spec 43 R371). -/
  | tne (rs rt : Reg) (code : BitVec 10)
  /-- TGEI (spec 43 R372). -/
  | tgei (rs : Reg) (imm : BitVec 16)
  /-- TGEIU (spec 43 R373). -/
  | tgeiu (rs : Reg) (imm : BitVec 16)
  /-- TLTI (spec 43 R374). -/
  | tlti (rs : Reg) (imm : BitVec 16)
  /-- TLTIU (spec 43 R382). -/
  | tltiu (rs : Reg) (imm : BitVec 16)
  /-- TEQI (spec 43 R383). -/
  | teqi (rs : Reg) (imm : BitVec 16)
  /-- TNEI (spec 43 R384). -/
  | tnei (rs : Reg) (imm : BitVec 16)
  /-- MOVZ (spec 43 R378). -/
  | movz (rd rs rt : Reg)
  /-- MOVN (spec 43 R379). -/
  | movn (rd rs rt : Reg)
  /-- RDHWR (spec 43 R380). -/
  | rdhwr (rt rd : Reg)
  /-- WAIT (spec 43 R381). -/
  | wait (code : BitVec 19)
  /-- MFC0 (spec 44 R403). -/
  | mfc0 (rt rd : Reg) (sel : Reg3)
  /-- MTC0 (spec 44 R408). -/
  | mtc0 (rt rd : Reg) (sel : Reg3)
  /-- RDPGPR (spec 44 R406). -/
  | rdpgpr (rd rt : Reg)
  /-- WRPGPR (spec 44 R407). -/
  | wrpgpr (rd rt : Reg)
  /-- DI (spec 44 R409). -/
  | di (rt : Reg)
  /-- EI (spec 44 R415). -/
  | ei (rt : Reg)
  /-- ERET (spec 44 R404). -/
  | eret
  /-- DERET (spec 44 R405). -/
  | deret
  /-- TLBR (spec 44 R414). -/
  | tlbr
  /-- TLBWI (spec 44 R414). -/
  | tlbwi
  /-- TLBWR (spec 44 R414). -/
  | tlbwr
  /-- TLBP (spec 44 R414). -/
  | tlbp
  /-- COP1 (spec 44 R410). -/
  | cop1 (cofun : BitVec 26)
  /-- COP2 (spec 44 R411). -/
  | cop2 (cofun : BitVec 26)
  /-- COP1X (spec 44 R412). -/
  | cop1x (cofun : BitVec 26)
  /-- MOVCI (spec 44 R413). -/
  | movci (operands : BitVec 20)
  /-- MIPS16e.EXTEND (spec 45 R448: the prefix with the instruction it extends). -/
  | m16Extend (op : ExtOp)
  /-- MIPS16e.ADDIUSP (spec 45 R460). -/
  | m16Addiusp (x : Reg3) (imm : BitVec 8)
  /-- MIPS16e.ADDIUPC (spec 45 R461). -/
  | m16Addiupc (x : Reg3) (imm : BitVec 8)
  /-- MIPS16e.B (spec 45 R462). -/
  | m16B (offset : BitVec 11)
  /-- MIPS16e.JAL (spec 45 R463). -/
  | m16Jal (index : BitVec 26)
  /-- MIPS16e.JALX (spec 45 R464). -/
  | m16Jalx (index : BitVec 26)
  /-- MIPS16e.BEQZ (spec 45 R465). -/
  | m16Beqz (x : Reg3) (offset : BitVec 8)
  /-- MIPS16e.BNEZ (spec 45 R466). -/
  | m16Bnez (x : Reg3) (offset : BitVec 8)
  /-- MIPS16e.SLL (spec 45 R467). -/
  | m16Sll (x y sa : Reg3)
  /-- MIPS16e.SRL (spec 45 R468). -/
  | m16Srl (x y sa : Reg3)
  /-- MIPS16e.SRA (spec 45 R469). -/
  | m16Sra (x y sa : Reg3)
  /-- MIPS16e.ADDIU (spec 45 R470). -/
  | m16Addiu (y x : Reg3) (imm : BitVec 4)
  /-- MIPS16e.ADDIU8 (spec 45 R471). -/
  | m16Addiu8 (x : Reg3) (imm : BitVec 8)
  /-- MIPS16e.SLTI (spec 45 R472). -/
  | m16Slti (x : Reg3) (imm : BitVec 8)
  /-- MIPS16e.SLTIU (spec 45 R473). -/
  | m16Sltiu (x : Reg3) (imm : BitVec 8)
  /-- MIPS16e.BTEQZ (spec 45 R474). -/
  | m16Bteqz (offset : BitVec 8)
  /-- MIPS16e.BTNEZ (spec 45 R475). -/
  | m16Btnez (offset : BitVec 8)
  /-- MIPS16e.SWRASP (spec 45 R476). -/
  | m16Swrasp (imm : BitVec 8)
  /-- MIPS16e.ADJSP (spec 45 R477). -/
  | m16Adjsp (imm : BitVec 8)
  /-- MIPS16e.SAVE (spec 45 R478). -/
  | m16Save (ra s0 s1 : Bool) (frame : BitVec 4)
  /-- MIPS16e.RESTORE (spec 45 R479). -/
  | m16Restore (ra s0 s1 : Bool) (frame : BitVec 4)
  /-- MIPS16e.MOV32R (spec 45 R480). -/
  | m16Mov32r (r32 : Reg) (z : Reg3)
  /-- MIPS16e.MOVR32 (spec 45 R481). -/
  | m16Movr32 (y : Reg3) (r32 : Reg)
  /-- MIPS16e.LI (spec 45 R482). -/
  | m16Li (x : Reg3) (imm : BitVec 8)
  /-- MIPS16e.CMPI (spec 45 R483). -/
  | m16Cmpi (x : Reg3) (imm : BitVec 8)
  /-- MIPS16e.LB (spec 45 R484). -/
  | m16Lb (y x : Reg3) (imm : Reg)
  /-- MIPS16e.LH (spec 45 R485). -/
  | m16Lh (y x : Reg3) (imm : Reg)
  /-- MIPS16e.LWSP (spec 45 R486). -/
  | m16Lwsp (x : Reg3) (imm : BitVec 8)
  /-- MIPS16e.LW (spec 45 R487). -/
  | m16Lw (y x : Reg3) (imm : Reg)
  /-- MIPS16e.LBU (spec 45 R488). -/
  | m16Lbu (y x : Reg3) (imm : Reg)
  /-- MIPS16e.LHU (spec 45 R489). -/
  | m16Lhu (y x : Reg3) (imm : Reg)
  /-- MIPS16e.LWPC (spec 45 R490). -/
  | m16Lwpc (x : Reg3) (imm : BitVec 8)
  /-- MIPS16e.SB (spec 45 R491). -/
  | m16Sb (y x : Reg3) (imm : Reg)
  /-- MIPS16e.SH (spec 45 R492). -/
  | m16Sh (y x : Reg3) (imm : Reg)
  /-- MIPS16e.SWSP (spec 45 R493). -/
  | m16Swsp (x : Reg3) (imm : BitVec 8)
  /-- MIPS16e.SW (spec 45 R494). -/
  | m16Sw (y x : Reg3) (imm : Reg)
  /-- MIPS16e.ADDU (spec 45 R495). -/
  | m16Addu (z x y : Reg3)
  /-- MIPS16e.SUBU (spec 45 R496). -/
  | m16Subu (z x y : Reg3)
  /-- MIPS16e.JR (spec 45 R497). -/
  | m16Jr (x : Reg3)
  /-- MIPS16e.JALR (spec 45 R499). -/
  | m16Jalr (x : Reg3)
  /-- MIPS16e.JRC (spec 45 R500). -/
  | m16Jrc (x : Reg3)
  /-- MIPS16e.JALRC (spec 45 R502). -/
  | m16Jalrc (x : Reg3)
  /-- MIPS16e.JR.ra (spec 45 R498). -/
  | m16JrRa
  /-- MIPS16e.JRC.ra (spec 45 R501). -/
  | m16JrcRa
  /-- MIPS16e.SDBBP (spec 45 R503). -/
  | m16Sdbbp (code : BitVec 6)
  /-- MIPS16e.BREAK (spec 45 R507). -/
  | m16Break (code : BitVec 6)
  /-- MIPS16e.SLT (spec 45 R504). -/
  | m16Slt (x y : Reg3)
  /-- MIPS16e.SLTU (spec 45 R505). -/
  | m16Sltu (x y : Reg3)
  /-- MIPS16e.CMP (spec 45 R510). -/
  | m16Cmp (x y : Reg3)
  /-- MIPS16e.NEG (spec 45 R511). -/
  | m16Neg (x y : Reg3)
  /-- MIPS16e.AND (spec 45 R512). -/
  | m16And (x y : Reg3)
  /-- MIPS16e.OR (spec 45 R513). -/
  | m16Or (x y : Reg3)
  /-- MIPS16e.XOR (spec 45 R514). -/
  | m16Xor (x y : Reg3)
  /-- MIPS16e.NOT (spec 45 R515). -/
  | m16Not (x y : Reg3)
  /-- MIPS16e.MULT (spec 45 R518). -/
  | m16Mult (x y : Reg3)
  /-- MIPS16e.MULTU (spec 45 R519). -/
  | m16Multu (x y : Reg3)
  /-- MIPS16e.DIV (spec 45 R520). -/
  | m16Div (x y : Reg3)
  /-- MIPS16e.DIVU (spec 45 R521). -/
  | m16Divu (x y : Reg3)
  /-- MIPS16e.SLLV (spec 45 R506). -/
  | m16Sllv (y x : Reg3)
  /-- MIPS16e.SRLV (spec 45 R508). -/
  | m16Srlv (y x : Reg3)
  /-- MIPS16e.SRAV (spec 45 R509). -/
  | m16Srav (y x : Reg3)
  /-- MIPS16e.MFHI (spec 45 R516). -/
  | m16Mfhi (x : Reg3)
  /-- MIPS16e.MFLO (spec 45 R517). -/
  | m16Mflo (x : Reg3)
  /-- MIPS16e.ZEB (spec 45 R522). -/
  | m16Zeb (x : Reg3)
  /-- MIPS16e.ZEH (spec 45 R523). -/
  | m16Zeh (x : Reg3)
  /-- MIPS16e.SEB (spec 45 R524). -/
  | m16Seb (x : Reg3)
  /-- MIPS16e.SEH (spec 45 R525). -/
  | m16Seh (x : Reg3)
  /-- MIPS16e.NOP (spec 45 R526). -/
  | m16Nop
  deriving DecidableEq, Repr

end Sys2Proof
end

