-- ==== Sys2Proof/WellFormed.lean ====
section
/-! DEFINITION. The operand conditions of an instruction: what the spec asks beyond the width of a field. -/

namespace Sys2Proof

/-- The operands are such that the spec gives the word a meaning, and the word is written as this constructor (spec 30 R164, 41 R282 to R285, 42 R323, 45 R478, R526). -/
def Instr.WellFormed : Instr → Bool
  | .clz rd _ rt | .clo rd _ rt => rt = rd
  | .ext _ _ msbd lsb => lsb.toNat + msbd.toNat ≤ 31
  | .ins _ _ msb lsb => lsb.toNat ≤ msb.toNat
  | .jalr rd rs _ | .jalrHb rd rs _ => rd ≠ rs
  | .bltzal rs _ | .bgezal rs _ | .bltzall rs _ | .bgezall rs _ => rs ≠ 31
  | .sll rd rt sa => ¬ (rd = 0 ∧ rt = 0 ∧ (sa = 0 ∨ sa = 1 ∨ sa = 3))
  | .m16Mov32r r32 z => ¬ (r32 = 0 ∧ z = 0)
  | .m16Extend (.save xsregs aregs _ _ _ _) | .m16Extend (.restore xsregs aregs _ _ _ _) => xsregs = 0 ∧ aregs = 0
  | _ => true

end Sys2Proof
end

