-- ==== Sys2Proof/Decode.lean ====
section
/-! DEFINITION. Decoding, total on any bytes, and encoding. -/

namespace Sys2Proof

/-! ## The fields of a word and of a halfword -/

/-- The fields of a MIPS32 word (spec 30 R151, R152). -/
structure Fields where
  op : BitVec 6
  rs : BitVec 5
  rt : BitVec 5
  rd : BitVec 5
  sa : BitVec 5
  fn : BitVec 6
  deriving DecidableEq, Repr

/-- The word with these fields. -/
def Fields.toWord (f : Fields) : Word := f.op ++ f.rs ++ f.rt ++ f.rd ++ f.sa ++ f.fn

/-- The fields of a word (spec 30 R152). -/
def Fields.ofWord (w : Word) : Fields :=
  ⟨w.extractLsb' 26 6, w.extractLsb' 21 5, w.extractLsb' 16 5, w.extractLsb' 11 5, w.extractLsb' 6 5, w.extractLsb' 0 6⟩

/-- `immediate`, bits 15:0 (spec 30 R152). -/
def Fields.imm (f : Fields) : BitVec 16 := f.rd ++ f.sa ++ f.fn

/-- `instr_index`, bits 25:0 (spec 30 R152). -/
def Fields.index (f : Fields) : BitVec 26 := f.rs ++ f.rt ++ f.rd ++ f.sa ++ f.fn

/-- `code` of SYSCALL, BREAK and SDBBP, bits 25:6 (spec 30 R153). -/
def Fields.code20 (f : Fields) : BitVec 20 := f.rs ++ f.rt ++ f.rd ++ f.sa

/-- `code` of the traps, bits 15:6 (spec 30 R153). -/
def Fields.code10 (f : Fields) : BitVec 10 := f.rd ++ f.sa

/-- `code` of WAIT, bits 24:6 (spec 43 R381). -/
def Fields.code19 (f : Fields) : BitVec 19 := f.rs.extractLsb' 0 4 ++ f.rt ++ f.rd ++ f.sa

/-- An I-type word (spec 30 R151). -/
def Fields.ofImm (op : BitVec 6) (rs rt : BitVec 5) (imm : BitVec 16) : Fields :=
  ⟨op, rs, rt, imm.extractLsb' 11 5, imm.extractLsb' 6 5, imm.extractLsb' 0 6⟩

/-- A J-type word (spec 30 R151). -/
def Fields.ofIndex (op : BitVec 6) (i : BitVec 26) : Fields :=
  ⟨op, i.extractLsb' 21 5, i.extractLsb' 16 5, i.extractLsb' 11 5, i.extractLsb' 6 5, i.extractLsb' 0 6⟩

/-- A word of format R-code20 (spec 30 R153). -/
def Fields.ofCode20 (op : BitVec 6) (c : BitVec 20) (fn : BitVec 6) : Fields :=
  ⟨op, c.extractLsb' 15 5, c.extractLsb' 10 5, c.extractLsb' 5 5, c.extractLsb' 0 5, fn⟩

/-- A word of format R-code10 under SPECIAL (spec 30 R153). -/
def Fields.ofCode10 (rs rt : BitVec 5) (c : BitVec 10) (fn : BitVec 6) : Fields :=
  ⟨0, rs, rt, c.extractLsb' 5 5, c.extractLsb' 0 5, fn⟩

/-- A COP0 word with bit 25 set and a code in bits 24:6 (spec 43 R381). -/
def Fields.ofCode19 (c : BitVec 19) (fn : BitVec 6) : Fields :=
  ⟨0x10, 1#1 ++ c.extractLsb' 15 4, c.extractLsb' 10 5, c.extractLsb' 5 5, c.extractLsb' 0 5, fn⟩

/-- The fields of a MIPS16e halfword, cut where some format cuts them: `ry` is `y2 y1 y0`, `rz` is `z2 z1 z0` (spec 45 R447). -/
structure Halfword where
  op : BitVec 5
  rx : BitVec 3
  y2 : BitVec 1
  y1 : BitVec 1
  y0 : BitVec 1
  z2 : BitVec 1
  z1 : BitVec 1
  z0 : BitVec 1
  f  : BitVec 2
  deriving DecidableEq, Repr

/-- The halfword with these fields. -/
def Halfword.toHalf (h : Halfword) : Half :=
  h.op ++ h.rx ++ h.y2 ++ h.y1 ++ h.y0 ++ h.z2 ++ h.z1 ++ h.z0 ++ h.f

/-- The fields of a halfword (spec 45 R447). -/
def Halfword.ofHalf (w : Half) : Halfword :=
  ⟨w.extractLsb' 11 5, w.extractLsb' 8 3, w.extractLsb' 7 1, w.extractLsb' 6 1, w.extractLsb' 5 1,
    w.extractLsb' 4 1, w.extractLsb' 3 1, w.extractLsb' 2 1, w.extractLsb' 0 2⟩

/-- `ry`, bits 7:5 (spec 45 R447). -/
def Halfword.ry (h : Halfword) : Reg3 := h.y2 ++ h.y1 ++ h.y0

/-- `rz` and `sa3`, bits 4:2 (spec 45 R447). -/
def Halfword.rz (h : Halfword) : Reg3 := h.z2 ++ h.z1 ++ h.z0

/-- `imm4`, bits 3:0 (spec 45 R447). -/
def Halfword.imm4 (h : Halfword) : BitVec 4 := h.z1 ++ h.z0 ++ h.f

/-- `imm5` and `funct`, bits 4:0 (spec 45 R447). -/
def Halfword.imm5 (h : Halfword) : BitVec 5 := h.z2 ++ h.z1 ++ h.z0 ++ h.f

/-- `imm8`, bits 7:0 (spec 45 R447). -/
def Halfword.imm8 (h : Halfword) : BitVec 8 := h.y2 ++ h.y1 ++ h.y0 ++ h.z2 ++ h.z1 ++ h.z0 ++ h.f

/-- `imm11`, bits 10:0; of a prefix, its bits `E` (spec 45 R447, R448). -/
def Halfword.imm11 (h : Halfword) : BitVec 11 := h.rx ++ h.y2 ++ h.y1 ++ h.y0 ++ h.z2 ++ h.z1 ++ h.z0 ++ h.f

/-- The 5-bit register number of MOV32R: bits 4:3 above bits 7:5 (spec 45 R480). -/
def Halfword.r32 (h : Halfword) : Reg := h.z2 ++ h.z1 ++ h.y2 ++ h.y1 ++ h.y0

/-- The `rz` of MOV32R: bits 2:0 (spec 45 R480). -/
def Halfword.movz (h : Halfword) : Reg3 := h.z0 ++ h.f

/-- `code` of SDBBP and BREAK, bits 10:5 (spec 45 R503, R507). -/
def Halfword.code6 (h : Halfword) : BitVec 6 := h.rx ++ h.y2 ++ h.y1 ++ h.y0

/-- A halfword with `op`, `rx` and `imm8`. -/
def Halfword.ofImm8 (op : BitVec 5) (rx : Reg3) (i : BitVec 8) : Halfword :=
  ⟨op, rx, i.extractLsb' 7 1, i.extractLsb' 6 1, i.extractLsb' 5 1, i.extractLsb' 4 1, i.extractLsb' 3 1,
    i.extractLsb' 2 1, i.extractLsb' 0 2⟩

/-- A halfword with `op`, `rx`, `ry` and `imm5` (or `funct`). -/
def Halfword.ofImm5 (op : BitVec 5) (rx ry : Reg3) (i : BitVec 5) : Halfword :=
  ⟨op, rx, ry.extractLsb' 2 1, ry.extractLsb' 1 1, ry.extractLsb' 0 1, i.extractLsb' 4 1, i.extractLsb' 3 1,
    i.extractLsb' 2 1, i.extractLsb' 0 2⟩

/-- A halfword with `op`, `rx`, `ry` and `imm4`, its bit 4 zero (spec 45 R470). -/
def Halfword.ofImm4 (op : BitVec 5) (rx ry : Reg3) (i : BitVec 4) : Halfword :=
  ⟨op, rx, ry.extractLsb' 2 1, ry.extractLsb' 1 1, ry.extractLsb' 0 1, 0, i.extractLsb' 3 1,
    i.extractLsb' 2 1, i.extractLsb' 0 2⟩

/-- A halfword with `op`, `rx`, `ry`, `rz` (or `sa3`) and `f`. -/
def Halfword.ofRz (op : BitVec 5) (rx ry rz : Reg3) (f : BitVec 2) : Halfword :=
  ⟨op, rx, ry.extractLsb' 2 1, ry.extractLsb' 1 1, ry.extractLsb' 0 1, rz.extractLsb' 2 1, rz.extractLsb' 1 1,
    rz.extractLsb' 0 1, f⟩

/-- A halfword with `op` and `imm11`. -/
def Halfword.ofImm11 (op : BitVec 5) (i : BitVec 11) : Halfword :=
  ⟨op, i.extractLsb' 8 3, i.extractLsb' 7 1, i.extractLsb' 6 1, i.extractLsb' 5 1, i.extractLsb' 4 1,
    i.extractLsb' 3 1, i.extractLsb' 2 1, i.extractLsb' 0 2⟩

/-- SAVE or RESTORE (spec 45 R478, R479). -/
def Halfword.ofFrame (save ra s0 s1 : Bool) (frame : BitVec 4) : Halfword :=
  ⟨12, 4, BitVec.ofBool save, BitVec.ofBool ra, BitVec.ofBool s0, BitVec.ofBool s1, frame.extractLsb' 3 1,
    frame.extractLsb' 2 1, frame.extractLsb' 0 2⟩

/-- MOVE r32, rz (spec 45 R480). -/
def Halfword.ofMov32r (r32 : Reg) (z : Reg3) : Halfword :=
  ⟨12, 5, r32.extractLsb' 2 1, r32.extractLsb' 1 1, r32.extractLsb' 0 1, r32.extractLsb' 4 1,
    r32.extractLsb' 3 1, z.extractLsb' 2 1, z.extractLsb' 0 2⟩

/-- SDBBP or BREAK of MIPS16e (spec 45 R503, R507). -/
def Halfword.ofCode6 (c : BitVec 6) (fn : BitVec 5) : Halfword :=
  Halfword.ofImm5 0x1D (c.extractLsb' 3 3) (c.extractLsb' 0 3) fn

/-! ## Encoding -/

/-- An encoded instruction: one MIPS32 word, or one or two MIPS16e halfwords. -/
inductive Encoded where
  | word (f : Fields)
  | half (h : Halfword)
  | pair (first second : Halfword)
  deriving DecidableEq, Repr

/-- JAL (bit 0) or JALX (bit 1) of MIPS16e: index bits 20:16 in bits 9:5 and 25:21 in bits 4:0 of the first halfword (spec 45 R463, R464). -/
def Encoded.ofJump (x : BitVec 1) (i : BitVec 26) : Encoded :=
  .pair (Halfword.ofImm11 3 (x ++ i.extractLsb' 16 5 ++ i.extractLsb' 21 5))
    (Halfword.ofImm11 (i.extractLsb' 11 5) (i.extractLsb' 0 11))

/-- The prefix of a 16-bit immediate: `E[4:0]` holds bits 15:11 and `E[10:5]` bits 10:5 (spec 45 R448). -/
def Halfword.prefixOf16 (i : BitVec 16) : Halfword :=
  Halfword.ofImm11 0x1E (i.extractLsb' 5 6 ++ i.extractLsb' 11 5)

/-- An extended instruction with a register in `rx` (or a function there), zero in bits 7:5 and a 16-bit immediate (spec 45 R448). -/
def Encoded.extI (op : BitVec 5) (rx : Reg3) (i : BitVec 16) : Encoded :=
  .pair (Halfword.prefixOf16 i) (Halfword.ofImm5 op rx 0 (i.extractLsb' 0 5))

/-- An extended instruction with registers in `rx` and `ry` and a 16-bit immediate (spec 45 R448). -/
def Encoded.extRri (op : BitVec 5) (rx ry : Reg3) (i : BitVec 16) : Encoded :=
  .pair (Halfword.prefixOf16 i) (Halfword.ofImm5 op rx ry (i.extractLsb' 0 5))

/-- An extended shift: the amount in `E[10:6]` (spec 45 R448). -/
def Encoded.extShift (rx ry : Reg3) (sa : BitVec 5) (f : BitVec 2) : Encoded :=
  .pair (Halfword.ofImm11 0x1E (sa ++ 0#6)) (Halfword.ofRz 6 rx ry 0 f)

/-- An extended SAVE or RESTORE (spec 45 R478). -/
def Encoded.extFrame (save : Bool) (xsregs : BitVec 3) (aregs : BitVec 4) (frame : BitVec 8) (ra s0 s1 : Bool) :
    Encoded :=
  .pair (Halfword.ofImm11 0x1E (xsregs ++ frame.extractLsb' 4 4 ++ aregs))
    (Halfword.ofFrame save ra s0 s1 (frame.extractLsb' 0 4))

/-- The two halfwords of an extended instruction (spec 45 R448). -/
def ExtOp.encode : ExtOp → Encoded
  | .addiusp x imm => Encoded.extI 0 x imm
  | .addiupc x imm => Encoded.extI 1 x imm
  | .b offset => Encoded.extI 2 0 offset
  | .beqz x offset => Encoded.extI 4 x offset
  | .bnez x offset => Encoded.extI 5 x offset
  | .sll x y sa => Encoded.extShift x y sa 0
  | .srl x y sa => Encoded.extShift x y sa 2
  | .sra x y sa => Encoded.extShift x y sa 3
  | .addiu y x imm => .pair (Halfword.ofImm11 0x1E (imm.extractLsb' 4 7 ++ imm.extractLsb' 11 4))
      (Halfword.ofImm4 8 x y (imm.extractLsb' 0 4))
  | .addiu8 x imm => Encoded.extI 9 x imm
  | .slti x imm => Encoded.extI 10 x imm
  | .sltiu x imm => Encoded.extI 11 x imm
  | .bteqz offset => Encoded.extI 12 0 offset
  | .btnez offset => Encoded.extI 12 1 offset
  | .swrasp imm => Encoded.extI 12 2 imm
  | .adjsp imm => Encoded.extI 12 3 imm
  | .save xsregs aregs frame ra s0 s1 => Encoded.extFrame true xsregs aregs frame ra s0 s1
  | .restore xsregs aregs frame ra s0 s1 => Encoded.extFrame false xsregs aregs frame ra s0 s1
  | .li x imm => Encoded.extI 13 x imm
  | .cmpi x imm => Encoded.extI 14 x imm
  | .lb y x imm => Encoded.extRri 16 x y imm
  | .lh y x imm => Encoded.extRri 17 x y imm
  | .lwsp x imm => Encoded.extI 18 x imm
  | .lw y x imm => Encoded.extRri 19 x y imm
  | .lbu y x imm => Encoded.extRri 20 x y imm
  | .lhu y x imm => Encoded.extRri 21 x y imm
  | .lwpc x imm => Encoded.extI 22 x imm
  | .sb y x imm => Encoded.extRri 24 x y imm
  | .sh y x imm => Encoded.extRri 25 x y imm
  | .swsp x imm => Encoded.extI 26 x imm
  | .sw y x imm => Encoded.extRri 27 x y imm

/-- The encoding of an instruction, from the encoding rules of spec 30, 40 to 45. -/
def encode : Instr → Encoded
  | .nop => .word ⟨0, 0, 0, 0, 0, 0⟩
  | .ssnop => .word ⟨0, 0, 0, 0, 1, 0⟩
  | .ehb => .word ⟨0, 0, 0, 0, 3, 0⟩
  | .lb rt base offset => .word (Fields.ofImm 0x20 base rt offset)
  | .lbu rt base offset => .word (Fields.ofImm 0x24 base rt offset)
  | .lh rt base offset => .word (Fields.ofImm 0x21 base rt offset)
  | .lhu rt base offset => .word (Fields.ofImm 0x25 base rt offset)
  | .lw rt base offset => .word (Fields.ofImm 0x23 base rt offset)
  | .lwl rt base offset => .word (Fields.ofImm 0x22 base rt offset)
  | .lwr rt base offset => .word (Fields.ofImm 0x26 base rt offset)
  | .sb rt base offset => .word (Fields.ofImm 0x28 base rt offset)
  | .sh rt base offset => .word (Fields.ofImm 0x29 base rt offset)
  | .sw rt base offset => .word (Fields.ofImm 0x2b base rt offset)
  | .swl rt base offset => .word (Fields.ofImm 0x2a base rt offset)
  | .swr rt base offset => .word (Fields.ofImm 0x2e base rt offset)
  | .ll rt base offset => .word (Fields.ofImm 0x30 base rt offset)
  | .sc rt base offset => .word (Fields.ofImm 0x38 base rt offset)
  | .pref hint base offset => .word (Fields.ofImm 0x33 base hint offset)
  | .cache op base offset => .word (Fields.ofImm 0x2F base op offset)
  | .lwc1 rt base offset => .word (Fields.ofImm 0x31 base rt offset)
  | .lwc2 rt base offset => .word (Fields.ofImm 0x32 base rt offset)
  | .ldc1 rt base offset => .word (Fields.ofImm 0x35 base rt offset)
  | .ldc2 rt base offset => .word (Fields.ofImm 0x36 base rt offset)
  | .swc1 rt base offset => .word (Fields.ofImm 0x39 base rt offset)
  | .swc2 rt base offset => .word (Fields.ofImm 0x3a base rt offset)
  | .sdc1 rt base offset => .word (Fields.ofImm 0x3d base rt offset)
  | .sdc2 rt base offset => .word (Fields.ofImm 0x3e base rt offset)
  | .add rd rs rt => .word ⟨0, rs, rt, rd, 0, 0x20⟩
  | .addu rd rs rt => .word ⟨0, rs, rt, rd, 0, 0x21⟩
  | .sub rd rs rt => .word ⟨0, rs, rt, rd, 0, 0x22⟩
  | .subu rd rs rt => .word ⟨0, rs, rt, rd, 0, 0x23⟩
  | .slt rd rs rt => .word ⟨0, rs, rt, rd, 0, 0x2a⟩
  | .sltu rd rs rt => .word ⟨0, rs, rt, rd, 0, 0x2b⟩
  | .and rd rs rt => .word ⟨0, rs, rt, rd, 0, 0x24⟩
  | .or rd rs rt => .word ⟨0, rs, rt, rd, 0, 0x25⟩
  | .xor rd rs rt => .word ⟨0, rs, rt, rd, 0, 0x26⟩
  | .nor rd rs rt => .word ⟨0, rs, rt, rd, 0, 0x27⟩
  | .addi rt rs imm => .word (Fields.ofImm 8 rs rt imm)
  | .addiu rt rs imm => .word (Fields.ofImm 9 rs rt imm)
  | .slti rt rs imm => .word (Fields.ofImm 10 rs rt imm)
  | .sltiu rt rs imm => .word (Fields.ofImm 11 rs rt imm)
  | .andi rt rs imm => .word (Fields.ofImm 12 rs rt imm)
  | .ori rt rs imm => .word (Fields.ofImm 13 rs rt imm)
  | .xori rt rs imm => .word (Fields.ofImm 14 rs rt imm)
  | .lui rt imm => .word (Fields.ofImm 15 0 rt imm)
  | .sll rd rt sa => .word ⟨0, 0, rt, rd, sa, 0⟩
  | .srl rd rt sa => .word ⟨0, 0, rt, rd, sa, 2⟩
  | .sra rd rt sa => .word ⟨0, 0, rt, rd, sa, 3⟩
  | .rotr rd rt sa => .word ⟨0, 1, rt, rd, sa, 2⟩
  | .sllv rd rt rs => .word ⟨0, rs, rt, rd, 0, 4⟩
  | .srlv rd rt rs => .word ⟨0, rs, rt, rd, 0, 6⟩
  | .srav rd rt rs => .word ⟨0, rs, rt, rd, 0, 7⟩
  | .rotrv rd rt rs => .word ⟨0, rs, rt, rd, 1, 6⟩
  | .mult rs rt => .word ⟨0x0, rs, rt, 0, 0, 0x18⟩
  | .multu rs rt => .word ⟨0x0, rs, rt, 0, 0, 0x19⟩
  | .div rs rt => .word ⟨0x0, rs, rt, 0, 0, 0x1a⟩
  | .divu rs rt => .word ⟨0x0, rs, rt, 0, 0, 0x1b⟩
  | .madd rs rt => .word ⟨0x1c, rs, rt, 0, 0, 0x0⟩
  | .maddu rs rt => .word ⟨0x1c, rs, rt, 0, 0, 0x1⟩
  | .msub rs rt => .word ⟨0x1c, rs, rt, 0, 0, 0x4⟩
  | .msubu rs rt => .word ⟨0x1c, rs, rt, 0, 0, 0x5⟩
  | .mul rd rs rt => .word ⟨0x1C, rs, rt, rd, 0, 2⟩
  | .mfhi rd => .word ⟨0, 0, 0, rd, 0, 0x10⟩
  | .mflo rd => .word ⟨0, 0, 0, rd, 0, 0x12⟩
  | .mthi rs => .word ⟨0, rs, 0, 0, 0, 0x11⟩
  | .mtlo rs => .word ⟨0, rs, 0, 0, 0, 0x13⟩
  | .clz rd rs rt => .word ⟨0x1C, rs, rt, rd, 0, 0x20⟩
  | .clo rd rs rt => .word ⟨0x1C, rs, rt, rd, 0, 0x21⟩
  | .ext rt rs msbd lsb => .word ⟨0x1F, rs, rt, msbd, lsb, 0⟩
  | .ins rt rs msb lsb => .word ⟨0x1F, rs, rt, msb, lsb, 4⟩
  | .seb rd rt => .word ⟨0x1F, 0, rt, rd, 0x10, 0x20⟩
  | .seh rd rt => .word ⟨0x1F, 0, rt, rd, 0x18, 0x20⟩
  | .wsbh rd rt => .word ⟨0x1F, 0, rt, rd, 0x2, 0x20⟩
  | .j index => .word (Fields.ofIndex 0x2 index)
  | .jal index => .word (Fields.ofIndex 0x3 index)
  | .jalx index => .word (Fields.ofIndex 0x1d index)
  | .jr rs hint => .word ⟨0, rs, 0, 0, (0#1 ++ hint), 8⟩
  | .jrHb rs hint => .word ⟨0, rs, 0, 0, (1#1 ++ hint), 8⟩
  | .jalr rd rs hint => .word ⟨0, rs, 0, rd, (0#1 ++ hint), 9⟩
  | .jalrHb rd rs hint => .word ⟨0, rs, 0, rd, (1#1 ++ hint), 9⟩
  | .beq rs rt offset => .word (Fields.ofImm 0x4 rs rt offset)
  | .bne rs rt offset => .word (Fields.ofImm 0x5 rs rt offset)
  | .beql rs rt offset => .word (Fields.ofImm 0x14 rs rt offset)
  | .bnel rs rt offset => .word (Fields.ofImm 0x15 rs rt offset)
  | .blez rs offset => .word (Fields.ofImm 0x6 rs 0 offset)
  | .bgtz rs offset => .word (Fields.ofImm 0x7 rs 0 offset)
  | .blezl rs offset => .word (Fields.ofImm 0x16 rs 0 offset)
  | .bgtzl rs offset => .word (Fields.ofImm 0x17 rs 0 offset)
  | .bltz rs offset => .word (Fields.ofImm 1 rs 0x0 offset)
  | .bgez rs offset => .word (Fields.ofImm 1 rs 0x1 offset)
  | .bltzl rs offset => .word (Fields.ofImm 1 rs 0x2 offset)
  | .bgezl rs offset => .word (Fields.ofImm 1 rs 0x3 offset)
  | .bltzal rs offset => .word (Fields.ofImm 1 rs 0x10 offset)
  | .bgezal rs offset => .word (Fields.ofImm 1 rs 0x11 offset)
  | .bltzall rs offset => .word (Fields.ofImm 1 rs 0x12 offset)
  | .bgezall rs offset => .word (Fields.ofImm 1 rs 0x13 offset)
  | .sync stype => .word ⟨0, 0, 0, 0, stype, 0xF⟩
  | .synci base offset => .word (Fields.ofImm 1 base 0x1F offset)
  | .syscall code => .word (Fields.ofCode20 0x0 code 0xc)
  | .break_ code => .word (Fields.ofCode20 0x0 code 0xd)
  | .sdbbp code => .word (Fields.ofCode20 0x1c code 0x3f)
  | .tge rs rt code => .word (Fields.ofCode10 rs rt code 0x30)
  | .tgeu rs rt code => .word (Fields.ofCode10 rs rt code 0x31)
  | .tlt rs rt code => .word (Fields.ofCode10 rs rt code 0x32)
  | .tltu rs rt code => .word (Fields.ofCode10 rs rt code 0x33)
  | .teq rs rt code => .word (Fields.ofCode10 rs rt code 0x34)
  | .tne rs rt code => .word (Fields.ofCode10 rs rt code 0x36)
  | .tgei rs imm => .word (Fields.ofImm 1 rs 0x8 imm)
  | .tgeiu rs imm => .word (Fields.ofImm 1 rs 0x9 imm)
  | .tlti rs imm => .word (Fields.ofImm 1 rs 0xa imm)
  | .tltiu rs imm => .word (Fields.ofImm 1 rs 0xb imm)
  | .teqi rs imm => .word (Fields.ofImm 1 rs 0xc imm)
  | .tnei rs imm => .word (Fields.ofImm 1 rs 0xe imm)
  | .movz rd rs rt => .word ⟨0, rs, rt, rd, 0, 0xA⟩
  | .movn rd rs rt => .word ⟨0, rs, rt, rd, 0, 0xB⟩
  | .rdhwr rt rd => .word ⟨0x1F, 0, rt, rd, 0, 0x3B⟩
  | .wait code => .word (Fields.ofCode19 code 0x20)
  | .mfc0 rt rd sel => .word ⟨0x10, 0, rt, rd, 0, (0#3 ++ sel)⟩
  | .mtc0 rt rd sel => .word ⟨0x10, 4, rt, rd, 0, (0#3 ++ sel)⟩
  | .rdpgpr rd rt => .word ⟨0x10, 0xA, rt, rd, 0, 0⟩
  | .wrpgpr rd rt => .word ⟨0x10, 0xE, rt, rd, 0, 0⟩
  | .di rt => .word ⟨0x10, 0xB, rt, 12, 0, 0⟩
  | .ei rt => .word ⟨0x10, 0xB, rt, 12, 0, 0x20⟩
  | .eret => .word ⟨0x10, 0x10, 0, 0, 0, 0x18⟩
  | .deret => .word ⟨0x10, 0x10, 0, 0, 0, 0x1f⟩
  | .tlbr => .word ⟨0x10, 0x10, 0, 0, 0, 0x1⟩
  | .tlbwi => .word ⟨0x10, 0x10, 0, 0, 0, 0x2⟩
  | .tlbwr => .word ⟨0x10, 0x10, 0, 0, 0, 0x6⟩
  | .tlbp => .word ⟨0x10, 0x10, 0, 0, 0, 0x8⟩
  | .cop1 cofun => .word (Fields.ofIndex 0x11 cofun)
  | .cop2 cofun => .word (Fields.ofIndex 0x12 cofun)
  | .cop1x cofun => .word (Fields.ofIndex 0x13 cofun)
  | .movci operands => .word (Fields.ofCode20 0 operands 1)
  | .m16Extend op => op.encode
  | .m16Addiusp x imm => .half (Halfword.ofImm8 0 x imm)
  | .m16Addiupc x imm => .half (Halfword.ofImm8 1 x imm)
  | .m16B offset => .half (Halfword.ofImm11 2 offset)
  | .m16Jal index => Encoded.ofJump 0 index
  | .m16Jalx index => Encoded.ofJump 1 index
  | .m16Beqz x offset => .half (Halfword.ofImm8 4 x offset)
  | .m16Bnez x offset => .half (Halfword.ofImm8 5 x offset)
  | .m16Sll x y sa => .half (Halfword.ofRz 6 x y sa 0)
  | .m16Srl x y sa => .half (Halfword.ofRz 6 x y sa 2)
  | .m16Sra x y sa => .half (Halfword.ofRz 6 x y sa 3)
  | .m16Addiu y x imm => .half (Halfword.ofImm4 8 x y imm)
  | .m16Addiu8 x imm => .half (Halfword.ofImm8 9 x imm)
  | .m16Slti x imm => .half (Halfword.ofImm8 10 x imm)
  | .m16Sltiu x imm => .half (Halfword.ofImm8 11 x imm)
  | .m16Bteqz offset => .half (Halfword.ofImm8 12 0 offset)
  | .m16Btnez offset => .half (Halfword.ofImm8 12 1 offset)
  | .m16Swrasp imm => .half (Halfword.ofImm8 12 2 imm)
  | .m16Adjsp imm => .half (Halfword.ofImm8 12 3 imm)
  | .m16Save ra s0 s1 frame => .half (Halfword.ofFrame true ra s0 s1 frame)
  | .m16Restore ra s0 s1 frame => .half (Halfword.ofFrame false ra s0 s1 frame)
  | .m16Mov32r r32 z => .half (Halfword.ofMov32r r32 z)
  | .m16Movr32 y r32 => .half (Halfword.ofImm5 12 7 y r32)
  | .m16Li x imm => .half (Halfword.ofImm8 13 x imm)
  | .m16Cmpi x imm => .half (Halfword.ofImm8 14 x imm)
  | .m16Lb y x imm => .half (Halfword.ofImm5 16 x y imm)
  | .m16Lh y x imm => .half (Halfword.ofImm5 17 x y imm)
  | .m16Lwsp x imm => .half (Halfword.ofImm8 18 x imm)
  | .m16Lw y x imm => .half (Halfword.ofImm5 19 x y imm)
  | .m16Lbu y x imm => .half (Halfword.ofImm5 20 x y imm)
  | .m16Lhu y x imm => .half (Halfword.ofImm5 21 x y imm)
  | .m16Lwpc x imm => .half (Halfword.ofImm8 22 x imm)
  | .m16Sb y x imm => .half (Halfword.ofImm5 24 x y imm)
  | .m16Sh y x imm => .half (Halfword.ofImm5 25 x y imm)
  | .m16Swsp x imm => .half (Halfword.ofImm8 26 x imm)
  | .m16Sw y x imm => .half (Halfword.ofImm5 27 x y imm)
  | .m16Addu z x y => .half (Halfword.ofRz 28 x y z 1)
  | .m16Subu z x y => .half (Halfword.ofRz 28 x y z 3)
  | .m16Jr x => .half (Halfword.ofImm5 0x1D x 0 0)
  | .m16Jalr x => .half (Halfword.ofImm5 0x1D x 2 0)
  | .m16Jrc x => .half (Halfword.ofImm5 0x1D x 4 0)
  | .m16Jalrc x => .half (Halfword.ofImm5 0x1D x 6 0)
  | .m16JrRa => .half (Halfword.ofImm5 0x1D 0 1 0)
  | .m16JrcRa => .half (Halfword.ofImm5 0x1D 0 5 0)
  | .m16Sdbbp code => .half (Halfword.ofCode6 code 1)
  | .m16Break code => .half (Halfword.ofCode6 code 5)
  | .m16Slt x y => .half (Halfword.ofImm5 0x1D x y 2)
  | .m16Sltu x y => .half (Halfword.ofImm5 0x1D x y 3)
  | .m16Cmp x y => .half (Halfword.ofImm5 0x1D x y 10)
  | .m16Neg x y => .half (Halfword.ofImm5 0x1D x y 11)
  | .m16And x y => .half (Halfword.ofImm5 0x1D x y 12)
  | .m16Or x y => .half (Halfword.ofImm5 0x1D x y 13)
  | .m16Xor x y => .half (Halfword.ofImm5 0x1D x y 14)
  | .m16Not x y => .half (Halfword.ofImm5 0x1D x y 15)
  | .m16Mult x y => .half (Halfword.ofImm5 0x1D x y 24)
  | .m16Multu x y => .half (Halfword.ofImm5 0x1D x y 25)
  | .m16Div x y => .half (Halfword.ofImm5 0x1D x y 26)
  | .m16Divu x y => .half (Halfword.ofImm5 0x1D x y 27)
  | .m16Sllv y x => .half (Halfword.ofImm5 0x1D x y 4)
  | .m16Srlv y x => .half (Halfword.ofImm5 0x1D x y 6)
  | .m16Srav y x => .half (Halfword.ofImm5 0x1D x y 7)
  | .m16Mfhi x => .half (Halfword.ofImm5 0x1D x 0 16)
  | .m16Mflo x => .half (Halfword.ofImm5 0x1D x 0 18)
  | .m16Zeb x => .half (Halfword.ofImm5 0x1D x 0 17)
  | .m16Zeh x => .half (Halfword.ofImm5 0x1D x 1 17)
  | .m16Seb x => .half (Halfword.ofImm5 0x1D x 4 17)
  | .m16Seh x => .half (Halfword.ofImm5 0x1D x 5 17)
  | .m16Nop => .half (Halfword.ofMov32r 0 0)

/-- The little-endian bytes of a halfword (spec 20 R109). -/
def Half.bytes (h : Half) : List Byte := [h.extractLsb' 0 8, h.extractLsb' 8 8]

/-- The little-endian bytes of a word (spec 20 R109). -/
def Word.bytes (w : Word) : List Byte :=
  [w.extractLsb' 0 8, w.extractLsb' 8 8, w.extractLsb' 16 8, w.extractLsb' 24 8]

/-- The bytes of an encoded instruction, lowest address first. -/
def Encoded.bytes : Encoded → List Byte
  | .word f => f.toWord.bytes
  | .half h => h.toHalf.bytes
  | .pair p h => p.toHalf.bytes ++ h.toHalf.bytes

/-- The instruction set an encoded instruction belongs to. -/
def Encoded.isa : Encoded → Isa
  | .word _ => .mips32
  | .half _ | .pair _ _ => .mips16

/-! ## Decoding -/

/-- What a word, a halfword or a pair of halfwords is. -/
inductive Decoded where
  /-- An instruction of the opcode table. -/
  | instr (i : Instr)
  /-- A reserved encoding: Reserved Instruction (spec 30 R166, 45 R527). -/
  | reserved
  /-- A reserved COP0 encoding: Coprocessor Unusable if coprocessor 0 is not usable, else Reserved Instruction (spec 44 R417). -/
  | reservedCop0
  /-- A row would match but for a nonzero field that must be zero (spec 30 R167, 93 U21). -/
  | nonzeroField
  /-- EXTEND before a halfword that cannot be extended, or before JAL, JALX or EXTEND (spec 45 R448, 93 U34). -/
  | notExtensible
  /-- Fewer bytes than the instruction has. -/
  | truncated
  deriving DecidableEq, Repr

/-- `i` if the fields that must be zero are zero (spec 30 R167). -/
def Decoded.ofZero (zero : Bool) (i : Instr) : Decoded := if zero then .instr i else .nonzeroField

/-- SPECIAL function 0x00 (spec 30 R164, 41 R261). -/
def decodeSll (f : Fields) : Decoded :=
  if f.rs = 0 then
    if f.rd = 0 ∧ f.rt = 0 then
      match f.sa.toNat with
      | 0 => .instr .nop
      | 1 => .instr .ssnop
      | 3 => .instr .ehb
      | _ => .instr (.sll f.rd f.rt f.sa)
    else .instr (.sll f.rd f.rt f.sa)
  else .nonzeroField

/-- The SPECIAL opcode (spec 30 R158). -/
def decodeSpecial (f : Fields) : Decoded :=
  match f.fn.toNat with
  | 0x00 => decodeSll f
  | 0x01 => .instr (.movci f.code20)
  | 0x02 =>
    if f.rs = 0 then .instr (.srl f.rd f.rt f.sa)
    else if f.rs = 1 then .instr (.rotr f.rd f.rt f.sa) else .nonzeroField
  | 0x03 => .ofZero (f.rs = 0) (.sra f.rd f.rt f.sa)
  | 0x04 => .ofZero (f.sa = 0) (.sllv f.rd f.rt f.rs)
  | 0x06 =>
    if f.sa = 0 then .instr (.srlv f.rd f.rt f.rs)
    else if f.sa = 1 then .instr (.rotrv f.rd f.rt f.rs) else .nonzeroField
  | 0x07 => .ofZero (f.sa = 0) (.srav f.rd f.rt f.rs)
  | 0x08 =>
    if f.rt = 0 ∧ f.rd = 0 then
      if f.sa.extractLsb' 4 1 = 1 then .instr (.jrHb f.rs (f.sa.extractLsb' 0 4))
      else .instr (.jr f.rs (f.sa.extractLsb' 0 4))
    else .nonzeroField
  | 0x09 =>
    if f.rt = 0 then
      if f.sa.extractLsb' 4 1 = 1 then .instr (.jalrHb f.rd f.rs (f.sa.extractLsb' 0 4))
      else .instr (.jalr f.rd f.rs (f.sa.extractLsb' 0 4))
    else .nonzeroField
  | 0x0A => .ofZero (f.sa = 0) (.movz f.rd f.rs f.rt)
  | 0x0B => .ofZero (f.sa = 0) (.movn f.rd f.rs f.rt)
  | 0x0C => .instr (.syscall f.code20)
  | 0x0D => .instr (.break_ f.code20)
  | 0x0F => .ofZero (f.rs = 0 ∧ f.rt = 0 ∧ f.rd = 0) (.sync f.sa)
  | 0x10 => .ofZero (f.rs = 0 ∧ f.rt = 0 ∧ f.sa = 0) (.mfhi f.rd)
  | 0x11 => .ofZero (f.rt = 0 ∧ f.rd = 0 ∧ f.sa = 0) (.mthi f.rs)
  | 0x12 => .ofZero (f.rs = 0 ∧ f.rt = 0 ∧ f.sa = 0) (.mflo f.rd)
  | 0x13 => .ofZero (f.rt = 0 ∧ f.rd = 0 ∧ f.sa = 0) (.mtlo f.rs)
  | 0x18 => .ofZero (f.rd = 0 ∧ f.sa = 0) (.mult f.rs f.rt)
  | 0x19 => .ofZero (f.rd = 0 ∧ f.sa = 0) (.multu f.rs f.rt)
  | 0x1A => .ofZero (f.rd = 0 ∧ f.sa = 0) (.div f.rs f.rt)
  | 0x1B => .ofZero (f.rd = 0 ∧ f.sa = 0) (.divu f.rs f.rt)
  | 0x20 => .ofZero (f.sa = 0) (.add f.rd f.rs f.rt)
  | 0x21 => .ofZero (f.sa = 0) (.addu f.rd f.rs f.rt)
  | 0x22 => .ofZero (f.sa = 0) (.sub f.rd f.rs f.rt)
  | 0x23 => .ofZero (f.sa = 0) (.subu f.rd f.rs f.rt)
  | 0x24 => .ofZero (f.sa = 0) (.and f.rd f.rs f.rt)
  | 0x25 => .ofZero (f.sa = 0) (.or f.rd f.rs f.rt)
  | 0x26 => .ofZero (f.sa = 0) (.xor f.rd f.rs f.rt)
  | 0x27 => .ofZero (f.sa = 0) (.nor f.rd f.rs f.rt)
  | 0x2A => .ofZero (f.sa = 0) (.slt f.rd f.rs f.rt)
  | 0x2B => .ofZero (f.sa = 0) (.sltu f.rd f.rs f.rt)
  | 0x30 => .instr (.tge f.rs f.rt f.code10)
  | 0x31 => .instr (.tgeu f.rs f.rt f.code10)
  | 0x32 => .instr (.tlt f.rs f.rt f.code10)
  | 0x33 => .instr (.tltu f.rs f.rt f.code10)
  | 0x34 => .instr (.teq f.rs f.rt f.code10)
  | 0x36 => .instr (.tne f.rs f.rt f.code10)
  | _ => .reserved

/-- The REGIMM opcode (spec 30 R159). -/
def decodeRegimm (f : Fields) : Decoded :=
  match f.rt.toNat with
  | 0x00 => .instr (.bltz f.rs f.imm)
  | 0x01 => .instr (.bgez f.rs f.imm)
  | 0x02 => .instr (.bltzl f.rs f.imm)
  | 0x03 => .instr (.bgezl f.rs f.imm)
  | 0x08 => .instr (.tgei f.rs f.imm)
  | 0x09 => .instr (.tgeiu f.rs f.imm)
  | 0x0A => .instr (.tlti f.rs f.imm)
  | 0x0B => .instr (.tltiu f.rs f.imm)
  | 0x0C => .instr (.teqi f.rs f.imm)
  | 0x0E => .instr (.tnei f.rs f.imm)
  | 0x10 => .instr (.bltzal f.rs f.imm)
  | 0x11 => .instr (.bgezal f.rs f.imm)
  | 0x12 => .instr (.bltzall f.rs f.imm)
  | 0x13 => .instr (.bgezall f.rs f.imm)
  | 0x1F => .instr (.synci f.rs f.imm)
  | _ => .reserved

/-- The SPECIAL2 opcode (spec 30 R160). -/
def decodeSpecial2 (f : Fields) : Decoded :=
  match f.fn.toNat with
  | 0x00 => .ofZero (f.rd = 0 ∧ f.sa = 0) (.madd f.rs f.rt)
  | 0x01 => .ofZero (f.rd = 0 ∧ f.sa = 0) (.maddu f.rs f.rt)
  | 0x02 => .ofZero (f.sa = 0) (.mul f.rd f.rs f.rt)
  | 0x04 => .ofZero (f.rd = 0 ∧ f.sa = 0) (.msub f.rs f.rt)
  | 0x05 => .ofZero (f.rd = 0 ∧ f.sa = 0) (.msubu f.rs f.rt)
  | 0x20 => .ofZero (f.sa = 0) (.clz f.rd f.rs f.rt)
  | 0x21 => .ofZero (f.sa = 0) (.clo f.rd f.rs f.rt)
  | 0x3F => .instr (.sdbbp f.code20)
  | _ => .reserved

/-- The SPECIAL3 opcode (spec 30 R161). -/
def decodeSpecial3 (f : Fields) : Decoded :=
  match f.fn.toNat with
  | 0x00 => .instr (.ext f.rt f.rs f.rd f.sa)
  | 0x04 => .instr (.ins f.rt f.rs f.rd f.sa)
  | 0x20 =>
    match f.sa.toNat with
    | 0x02 => .ofZero (f.rs = 0) (.wsbh f.rd f.rt)
    | 0x10 => .ofZero (f.rs = 0) (.seb f.rd f.rt)
    | 0x18 => .ofZero (f.rs = 0) (.seh f.rd f.rt)
    | _ => .reserved
  | 0x3B => .ofZero (f.rs = 0 ∧ f.sa = 0) (.rdhwr f.rt f.rd)
  | _ => .reserved

/-- COP0 with bit 25 set: an operation selected by the function (spec 30 R162). -/
def decodeCop0Op (f : Fields) : Decoded :=
  let zero : Bool := f.rs = 0x10 ∧ f.rt = 0 ∧ f.rd = 0 ∧ f.sa = 0
  match f.fn.toNat with
  | 0x01 => .ofZero zero .tlbr
  | 0x02 => .ofZero zero .tlbwi
  | 0x06 => .ofZero zero .tlbwr
  | 0x08 => .ofZero zero .tlbp
  | 0x18 => .ofZero zero .eret
  | 0x1F => .ofZero zero .deret
  | 0x20 => .instr (.wait f.code19)
  | _ => .reservedCop0

/-- The COP0 opcode; a word of MFMC0 with `rd` other than 12 fails on no zero field and is reserved (spec 30 R162, R164; log 20). -/
def decodeCop0 (f : Fields) : Decoded :=
  if f.rs.extractLsb' 4 1 = 1 then decodeCop0Op f
  else
    match f.rs.toNat with
    | 0x00 => .ofZero (f.sa = 0 ∧ f.fn.extractLsb' 3 3 = 0) (.mfc0 f.rt f.rd (f.fn.extractLsb' 0 3))
    | 0x04 => .ofZero (f.sa = 0 ∧ f.fn.extractLsb' 3 3 = 0) (.mtc0 f.rt f.rd (f.fn.extractLsb' 0 3))
    | 0x0A => .ofZero (f.sa = 0 ∧ f.fn = 0) (.rdpgpr f.rd f.rt)
    | 0x0B =>
      if f.rd ≠ 12 then .reservedCop0
      else if f.sa = 0 ∧ f.fn = 0 then .instr (.di f.rt)
      else if f.sa = 0 ∧ f.fn = 0x20 then .instr (.ei f.rt) else .nonzeroField
    | 0x0E => .ofZero (f.sa = 0 ∧ f.fn = 0) (.wrpgpr f.rd f.rt)
    | _ => .reservedCop0

/-- The instruction of the fields of a MIPS32 word, by primary opcode (spec 30 R157, R164). -/
def decodeFields (f : Fields) : Decoded :=
  match f.op.toNat with
  | 0x00 => decodeSpecial f
  | 0x01 => decodeRegimm f
  | 0x02 => .instr (.j f.index)
  | 0x03 => .instr (.jal f.index)
  | 0x04 => .instr (.beq f.rs f.rt f.imm)
  | 0x05 => .instr (.bne f.rs f.rt f.imm)
  | 0x06 => .ofZero (f.rt = 0) (.blez f.rs f.imm)
  | 0x07 => .ofZero (f.rt = 0) (.bgtz f.rs f.imm)
  | 0x08 => .instr (.addi f.rt f.rs f.imm)
  | 0x09 => .instr (.addiu f.rt f.rs f.imm)
  | 0x0A => .instr (.slti f.rt f.rs f.imm)
  | 0x0B => .instr (.sltiu f.rt f.rs f.imm)
  | 0x0C => .instr (.andi f.rt f.rs f.imm)
  | 0x0D => .instr (.ori f.rt f.rs f.imm)
  | 0x0E => .instr (.xori f.rt f.rs f.imm)
  | 0x0F => .ofZero (f.rs = 0) (.lui f.rt f.imm)
  | 0x10 => decodeCop0 f
  | 0x11 => .instr (.cop1 f.index)
  | 0x12 => .instr (.cop2 f.index)
  | 0x13 => .instr (.cop1x f.index)
  | 0x14 => .instr (.beql f.rs f.rt f.imm)
  | 0x15 => .instr (.bnel f.rs f.rt f.imm)
  | 0x16 => .ofZero (f.rt = 0) (.blezl f.rs f.imm)
  | 0x17 => .ofZero (f.rt = 0) (.bgtzl f.rs f.imm)
  | 0x1C => decodeSpecial2 f
  | 0x1D => .instr (.jalx f.index)
  | 0x1F => decodeSpecial3 f
  | 0x20 => .instr (.lb f.rt f.rs f.imm)
  | 0x21 => .instr (.lh f.rt f.rs f.imm)
  | 0x22 => .instr (.lwl f.rt f.rs f.imm)
  | 0x23 => .instr (.lw f.rt f.rs f.imm)
  | 0x24 => .instr (.lbu f.rt f.rs f.imm)
  | 0x25 => .instr (.lhu f.rt f.rs f.imm)
  | 0x26 => .instr (.lwr f.rt f.rs f.imm)
  | 0x28 => .instr (.sb f.rt f.rs f.imm)
  | 0x29 => .instr (.sh f.rt f.rs f.imm)
  | 0x2A => .instr (.swl f.rt f.rs f.imm)
  | 0x2B => .instr (.sw f.rt f.rs f.imm)
  | 0x2E => .instr (.swr f.rt f.rs f.imm)
  | 0x2F => .instr (.cache f.rt f.rs f.imm)
  | 0x30 => .instr (.ll f.rt f.rs f.imm)
  | 0x31 => .instr (.lwc1 f.rt f.rs f.imm)
  | 0x32 => .instr (.lwc2 f.rt f.rs f.imm)
  | 0x33 => .instr (.pref f.rt f.rs f.imm)
  | 0x35 => .instr (.ldc1 f.rt f.rs f.imm)
  | 0x36 => .instr (.ldc2 f.rt f.rs f.imm)
  | 0x38 => .instr (.sc f.rt f.rs f.imm)
  | 0x39 => .instr (.swc1 f.rt f.rs f.imm)
  | 0x3A => .instr (.swc2 f.rt f.rs f.imm)
  | 0x3D => .instr (.sdc1 f.rt f.rs f.imm)
  | 0x3E => .instr (.sdc2 f.rt f.rs f.imm)
  | _ => .reserved

/-- The instruction of a MIPS32 word (spec 30 R164). -/
def decodeWord (w : Word) : Decoded := decodeFields (Fields.ofWord w)

/-- The I8 functions of MIPS16e (spec 45 R450). -/
def decodeI8 (h : Halfword) : Decoded :=
  match h.rx.toNat with
  | 0 => .instr (.m16Bteqz h.imm8)
  | 1 => .instr (.m16Btnez h.imm8)
  | 2 => .instr (.m16Swrasp h.imm8)
  | 3 => .instr (.m16Adjsp h.imm8)
  | 4 =>
    if h.y2 = 1 then .instr (.m16Save (h.y1 == 1) (h.y0 == 1) (h.z2 == 1) h.imm4)
    else .instr (.m16Restore (h.y1 == 1) (h.y0 == 1) (h.z2 == 1) h.imm4)
  | 5 => if h.r32 = 0 ∧ h.movz = 0 then .instr .m16Nop else .instr (.m16Mov32r h.r32 h.movz)
  | 7 => .instr (.m16Movr32 h.ry h.imm5)
  | _ => .reserved

/-- The register jumps of MIPS16e, selected by `ry` (spec 45 R497 to R502, R527). -/
def decodeJumpRegister (h : Halfword) : Decoded :=
  match h.ry.toNat with
  | 0 => .instr (.m16Jr h.rx)
  | 1 => .ofZero (h.rx = 0) .m16JrRa
  | 2 => .instr (.m16Jalr h.rx)
  | 4 => .instr (.m16Jrc h.rx)
  | 5 => .ofZero (h.rx = 0) .m16JrcRa
  | 6 => .instr (.m16Jalrc h.rx)
  | _ => .reserved

/-- The conversions of MIPS16e, selected by `ry` (spec 45 R522 to R525, R527). -/
def decodeConvert (h : Halfword) : Decoded :=
  match h.ry.toNat with
  | 0 => .instr (.m16Zeb h.rx)
  | 1 => .instr (.m16Zeh h.rx)
  | 4 => .instr (.m16Seb h.rx)
  | 5 => .instr (.m16Seh h.rx)
  | _ => .reserved

/-- The RR functions of MIPS16e (spec 45 R450). -/
def decodeRr (h : Halfword) : Decoded :=
  match h.imm5.toNat with
  | 0x00 => decodeJumpRegister h
  | 0x01 => .instr (.m16Sdbbp h.code6)
  | 0x02 => .instr (.m16Slt h.rx h.ry)
  | 0x03 => .instr (.m16Sltu h.rx h.ry)
  | 0x04 => .instr (.m16Sllv h.ry h.rx)
  | 0x05 => .instr (.m16Break h.code6)
  | 0x06 => .instr (.m16Srlv h.ry h.rx)
  | 0x07 => .instr (.m16Srav h.ry h.rx)
  | 0x0A => .instr (.m16Cmp h.rx h.ry)
  | 0x0B => .instr (.m16Neg h.rx h.ry)
  | 0x0C => .instr (.m16And h.rx h.ry)
  | 0x0D => .instr (.m16Or h.rx h.ry)
  | 0x0E => .instr (.m16Xor h.rx h.ry)
  | 0x0F => .instr (.m16Not h.rx h.ry)
  | 0x10 => .ofZero (h.ry = 0) (.m16Mfhi h.rx)
  | 0x11 => decodeConvert h
  | 0x12 => .ofZero (h.ry = 0) (.m16Mflo h.rx)
  | 0x18 => .instr (.m16Mult h.rx h.ry)
  | 0x19 => .instr (.m16Multu h.rx h.ry)
  | 0x1A => .instr (.m16Div h.rx h.ry)
  | 0x1B => .instr (.m16Divu h.rx h.ry)
  | _ => .reserved

/-- The instruction of one MIPS16e halfword, by major opcode (spec 45 R449). -/
def decodeHalfword (h : Halfword) : Decoded :=
  match h.op.toNat with
  | 0x00 => .instr (.m16Addiusp h.rx h.imm8)
  | 0x01 => .instr (.m16Addiupc h.rx h.imm8)
  | 0x02 => .instr (.m16B h.imm11)
  | 0x03 => .truncated
  | 0x04 => .instr (.m16Beqz h.rx h.imm8)
  | 0x05 => .instr (.m16Bnez h.rx h.imm8)
  | 0x06 =>
    match h.f.toNat with
    | 0 => .instr (.m16Sll h.rx h.ry h.rz)
    | 2 => .instr (.m16Srl h.rx h.ry h.rz)
    | 3 => .instr (.m16Sra h.rx h.ry h.rz)
    | _ => .reserved
  | 0x08 => .ofZero (h.z2 = 0) (.m16Addiu h.ry h.rx h.imm4)
  | 0x09 => .instr (.m16Addiu8 h.rx h.imm8)
  | 0x0A => .instr (.m16Slti h.rx h.imm8)
  | 0x0B => .instr (.m16Sltiu h.rx h.imm8)
  | 0x0C => decodeI8 h
  | 0x0D => .instr (.m16Li h.rx h.imm8)
  | 0x0E => .instr (.m16Cmpi h.rx h.imm8)
  | 0x10 => .instr (.m16Lb h.ry h.rx h.imm5)
  | 0x11 => .instr (.m16Lh h.ry h.rx h.imm5)
  | 0x12 => .instr (.m16Lwsp h.rx h.imm8)
  | 0x13 => .instr (.m16Lw h.ry h.rx h.imm5)
  | 0x14 => .instr (.m16Lbu h.ry h.rx h.imm5)
  | 0x15 => .instr (.m16Lhu h.ry h.rx h.imm5)
  | 0x16 => .instr (.m16Lwpc h.rx h.imm8)
  | 0x18 => .instr (.m16Sb h.ry h.rx h.imm5)
  | 0x19 => .instr (.m16Sh h.ry h.rx h.imm5)
  | 0x1A => .instr (.m16Swsp h.rx h.imm8)
  | 0x1B => .instr (.m16Sw h.ry h.rx h.imm5)
  | 0x1C =>
    match h.f.toNat with
    | 1 => .instr (.m16Addu h.rz h.rx h.ry)
    | 3 => .instr (.m16Subu h.rz h.rx h.ry)
    | _ => .reserved
  | 0x1D => decodeRr h
  | 0x1E => .truncated
  | _ => .reserved

/-- The instruction of one MIPS16e halfword (spec 45 R449). -/
def decodeHalf (h : Half) : Decoded := decodeHalfword (Halfword.ofHalf h)

/-- The 16-bit immediate of an extended instruction, `E[4:0] || E[10:5] || h[4:0]` (spec 45 R448). -/
def extImm16 (p h : Halfword) : BitVec 16 :=
  p.imm11.extractLsb' 0 5 ++ p.imm11.extractLsb' 5 6 ++ h.imm5

/-- The 15-bit immediate of an extended RRI-A, `E[3:0] || E[10:4] || h[3:0]` (spec 45 R448). -/
def extImm15 (p h : Halfword) : BitVec 15 :=
  p.imm11.extractLsb' 0 4 ++ p.imm11.extractLsb' 4 7 ++ h.imm4

/-- An extended shift (spec 45 R448). -/
def decodeExtShift (p h : Halfword) : Decoded :=
  let sa := p.imm11.extractLsb' 6 5
  let zero : Bool := p.imm11.extractLsb' 0 6 = 0 ∧ h.rz = 0
  match h.f.toNat with
  | 0 => .ofZero zero (.m16Extend (.sll h.rx h.ry sa))
  | 2 => .ofZero zero (.m16Extend (.srl h.rx h.ry sa))
  | 3 => .ofZero zero (.m16Extend (.sra h.rx h.ry sa))
  | _ => .reserved

/-- An extended SAVE or RESTORE (spec 45 R478). -/
def decodeExtFrame (p h : Halfword) : Decoded :=
  let xsregs := p.imm11.extractLsb' 8 3
  let aregs := p.imm11.extractLsb' 0 4
  let frame := p.imm11.extractLsb' 4 4 ++ h.imm4
  if h.y2 = 1 then .instr (.m16Extend (.save xsregs aregs frame (h.y1 == 1) (h.y0 == 1) (h.z2 == 1)))
  else .instr (.m16Extend (.restore xsregs aregs frame (h.y1 == 1) (h.y0 == 1) (h.z2 == 1)))

/-- An extended I8 instruction (spec 45 R448, R450). -/
def decodeExtI8 (p h : Halfword) : Decoded :=
  match h.rx.toNat with
  | 0 => .ofZero (h.ry = 0) (.m16Extend (.bteqz (extImm16 p h)))
  | 1 => .ofZero (h.ry = 0) (.m16Extend (.btnez (extImm16 p h)))
  | 2 => .ofZero (h.ry = 0) (.m16Extend (.swrasp (extImm16 p h)))
  | 3 => .ofZero (h.ry = 0) (.m16Extend (.adjsp (extImm16 p h)))
  | 4 => decodeExtFrame p h
  | 5 | 7 => .notExtensible
  | _ => .reserved

/-- EXTEND before a halfword `h` of an operation that has no extended form: reserved if `h` is reserved, else not extensible (spec 45 R448, R527, 93 U34; log 20). -/
def decodeUnextended (h : Halfword) : Decoded :=
  match decodeHalfword h with
  | .reserved => .reserved
  | _ => .notExtensible

/-- The instruction of a prefix `p` and the halfword `h` it extends; of B only h[7:5] must be 0 (spec 45 R448, R527; log 20). -/
def decodeExtended (p h : Halfword) : Decoded :=
  match h.op.toNat with
  | 0x00 => .ofZero (h.ry = 0) (.m16Extend (.addiusp h.rx (extImm16 p h)))
  | 0x01 => .ofZero (h.ry = 0) (.m16Extend (.addiupc h.rx (extImm16 p h)))
  | 0x02 => .ofZero (h.ry = 0) (.m16Extend (.b (extImm16 p h)))
  | 0x04 => .ofZero (h.ry = 0) (.m16Extend (.beqz h.rx (extImm16 p h)))
  | 0x05 => .ofZero (h.ry = 0) (.m16Extend (.bnez h.rx (extImm16 p h)))
  | 0x06 => decodeExtShift p h
  | 0x08 => .ofZero (h.z2 = 0) (.m16Extend (.addiu h.ry h.rx (extImm15 p h)))
  | 0x09 => .ofZero (h.ry = 0) (.m16Extend (.addiu8 h.rx (extImm16 p h)))
  | 0x0A => .ofZero (h.ry = 0) (.m16Extend (.slti h.rx (extImm16 p h)))
  | 0x0B => .ofZero (h.ry = 0) (.m16Extend (.sltiu h.rx (extImm16 p h)))
  | 0x0C => decodeExtI8 p h
  | 0x0D => .ofZero (h.ry = 0) (.m16Extend (.li h.rx (extImm16 p h)))
  | 0x0E => .ofZero (h.ry = 0) (.m16Extend (.cmpi h.rx (extImm16 p h)))
  | 0x10 => .instr (.m16Extend (.lb h.ry h.rx (extImm16 p h)))
  | 0x11 => .instr (.m16Extend (.lh h.ry h.rx (extImm16 p h)))
  | 0x12 => .ofZero (h.ry = 0) (.m16Extend (.lwsp h.rx (extImm16 p h)))
  | 0x13 => .instr (.m16Extend (.lw h.ry h.rx (extImm16 p h)))
  | 0x14 => .instr (.m16Extend (.lbu h.ry h.rx (extImm16 p h)))
  | 0x15 => .instr (.m16Extend (.lhu h.ry h.rx (extImm16 p h)))
  | 0x16 => .ofZero (h.ry = 0) (.m16Extend (.lwpc h.rx (extImm16 p h)))
  | 0x18 => .instr (.m16Extend (.sb h.ry h.rx (extImm16 p h)))
  | 0x19 => .instr (.m16Extend (.sh h.ry h.rx (extImm16 p h)))
  | 0x1A => .ofZero (h.ry = 0) (.m16Extend (.swsp h.rx (extImm16 p h)))
  | 0x1B => .instr (.m16Extend (.sw h.ry h.rx (extImm16 p h)))
  | 0x03 | 0x1C | 0x1D | 0x1E => decodeUnextended h
  | _ => .reserved

/-- The 26-bit index of JAL and JALX: `first[4:0] || first[9:5] || second` (spec 45 R463). -/
def jumpIndex (p h : Halfword) : BitVec 26 :=
  p.imm11.extractLsb' 0 5 ++ p.imm11.extractLsb' 5 5 ++ h.op ++ h.imm11

/-- The instruction of two halfwords whose first is JAL, JALX or the EXTEND prefix (spec 45 R445). -/
def decodePairFields (p h : Halfword) : Decoded :=
  if p.op = 0x1E then decodeExtended p h
  else if p.imm11.extractLsb' 10 1 = 1 then .instr (.m16Jalx (jumpIndex p h))
  else .instr (.m16Jal (jumpIndex p h))

/-- The instruction of a two-halfword MIPS16e instruction (spec 45 R445). -/
def decodePair (first second : Half) : Decoded :=
  decodePairFields (Halfword.ofHalf first) (Halfword.ofHalf second)

/-- The first halfword says that the instruction has a second one: JAL, JALX, EXTEND (spec 45 R445). -/
def hasSecondHalf (h : Half) : Bool := h.extractLsb' 11 5 = 3 ∨ h.extractLsb' 11 5 = 0x1E

/-- Decode what `encode` gives. -/
def Encoded.decode : Encoded → Decoded
  | .word f => decodeWord f.toWord
  | .half h => if hasSecondHalf h.toHalf then .truncated else decodeHalf h.toHalf
  | .pair p h => if hasSecondHalf p.toHalf then decodePair p.toHalf h.toHalf else .truncated

/-- A little-endian halfword (spec 20 R110). -/
def Half.ofBytes (b0 b1 : Byte) : Half := b1 ++ b0

/-- A little-endian word (spec 20 R110). -/
def Word.ofBytes (b0 b1 b2 b3 : Byte) : Word := b3 ++ b2 ++ b1 ++ b0

/-- The instruction at the front of a list of bytes, in an instruction set (spec 30 R150, 45 R445). -/
def decodeBytes : Isa → List Byte → Decoded
  | .mips32, b0 :: b1 :: b2 :: b3 :: _ => decodeWord (Word.ofBytes b0 b1 b2 b3)
  | .mips16, b0 :: b1 :: rest =>
    let first := Half.ofBytes b0 b1
    if hasSecondHalf first then
      match rest with
      | b2 :: b3 :: _ => decodePair first (Half.ofBytes b2 b3)
      | _ => .truncated
    else decodeHalf first
  | _, _ => .truncated

/-- The bytes in memory of a table word, and the instruction set it is read in: 16 bits are a MIPS16e halfword (a zero halfword follows); 32 bits are a MIPS32 word, or, where no MIPS32 instruction reads so, the two halfwords of a MIPS16e JAL or JALX, the first in bits 31:16 (log 23). -/
def tableBytes (nbits w : Nat) : Isa × List Byte :=
  if nbits ≤ 16 then (.mips16, Half.bytes (BitVec.ofNat 16 w) ++ [0, 0])
  else
    let word : Word := BitVec.ofNat 32 w
    match decodeWord word with
    | .nonzeroField =>
      if word.extractLsb' 27 5 = 3 then
        (.mips16, Half.bytes (word.extractLsb' 16 16) ++ Half.bytes (word.extractLsb' 0 16))
      else (.mips32, word.bytes)
    | _ => (.mips32, word.bytes)

/-- The instruction the decoder reads from an instruction whose bits are `w`, numbered as spec/opcode_table.json numbers them. -/
def decodeTableWord (nbits w : Nat) : Option Instr :=
  match decodeBytes (tableBytes nbits w).1 (tableBytes nbits w).2 with
  | .instr i => some i
  | _ => none

end Sys2Proof
end

