-- ==== Sys2Proof/Config.lean ====
section
/-! DEFINITION. What an implementation fixes, and the free values: constants without a body, of which nothing can be proved. -/

namespace Sys2Proof

/-- Highest shadow set number, `SRSCtl.HSS` (spec 10 R57, 92 D2; log 5). -/
abbrev Config.hss : Nat := 1

/-- The number of a shadow register set that exists, 0 to HSS (spec 10 R24, R57). -/
abbrev ShadowSet := Fin (Config.hss + 1)

/-- `PRId.REVISION`, the parameter `PridRevision` (spec 10 R66, 92 D3; log 15). -/
opaque Config.pridRevision : BitVec 8

/-- The parameter `TlbOpBehaviour`: true is no-operation, false is Reserved Instruction (spec 44 R414, 92 D28; log 14). -/
opaque Config.tlbOpIsNop : Bool

/-- Who reads the coprocessor 0 registers, as far as the spacings of table 2-1 tell consumers apart (spec 70 R720). -/
inductive Consumer where
  /-- The interrupt check before an instruction, and the entry that follows it. -/
  | interrupt
  /-- ERET and DERET. -/
  | eret
  /-- RDPGPR and WRPGPR. -/
  | previousSet
  /-- The check that coprocessor 0 is usable, of every instruction that needs it but ERET and DERET. -/
  | coprocessor
  /-- Every other instruction, and every other effect of those above. -/
  | other
  deriving DecidableEq, Repr

/-- The hazard state that one write to coprocessor 0 makes, by the rows of table 2-1 (spec 70 R720; log 8). -/
inductive HazardPart where
  /-- STATUS.CU0 for an instruction that needs coprocessor 0. -/
  | cu
  /-- STATUS.IE for the interrupt check. -/
  | ie
  /-- CAUSE.IP for the interrupt check. -/
  | ip
  /-- The timer request that a write of COMPARE clears. -/
  | ti
  /-- SRSCtl.PSS for RDPGPR and WRPGPR. -/
  | pss
  /-- EPC, DEPC and ErrorEPC for ERET and DERET, and every other register. -/
  | main
  deriving DecidableEq, Repr

/-- What a free value stands for; the second argument of `Config.freeWord` and `Config.freeBit` (log 6). -/
inductive Draw where
  /-- HI after MUL or MTLO, or after a division without a stated result (spec 41 R277, R288, R289). -/
  | hi
  /-- LO after MUL or MTHI, or after a division without a stated result (spec 41 R277, R288, R289). -/
  | lo
  /-- `CAUSE.CE` after an exception other than Coprocessor Unusable (spec 60 R635). -/
  | ce
  /-- EPC after a data bus error (spec 20 R124). -/
  | epc
  /-- `CAUSE.BD` after a data bus error (spec 20 R124). -/
  | bd
  /-- General register `r` loaded by an access that ended in a data bus error (spec 20 R124). -/
  | loadDestination (r : Nat)
  /-- A reserved coprocessor 0 register, read (spec 10 R41). -/
  | reservedCp0
  /-- A field of DEBUG read outside Debug mode (spec 10 R73). -/
  | debugRead
  /-- `DEBUG.HALT` at an entry to the debug vector (spec 60 R661, 10 R74). -/
  | halt
  /-- `DEBUG.DOZE` at an entry to the debug vector from Debug mode (spec 10 R74, 93 U10). -/
  | doze
  /-- `DEBUG.DEXCCODE` after a debug exception (spec 10 R74). -/
  | dexcCode
  /-- A byte read from a device or from a SET, CLR or INV address (spec 20 R115, R119). -/
  | busByte (address : Nat)
  /-- General register `r` of set `set` after a reset (spec 70 R706). -/
  | resetGpr (set r : Nat)
  /-- Field `k` of the state that a reset leaves unknown (spec 70 R706). -/
  | resetField (k : Nat)
  /-- Whether the interrupt check, or else the instruction, sees the state before the write of hazard `k` (spec 70 R720). -/
  | seesOld (interrupt : Bool) (k : Nat) (part : HazardPart)
  /-- Whether the fetch at a virtual address is made under the STATUS before the write of instruction hazard `k` (spec 70 R721). -/
  | fetchOldStatus (address k : Nat)
  /-- Whether the fetch at a physical address sees memory before the store of stale entry `k` (spec 20 R141). -/
  | fetchOldStore (address k : Nat)
  /-- Which of the two exceptions an absent floating-point encoding raises (spec 44 R412, R413). -/
  | absentCoprocessor
  /-- LLbit after an SC whose bus error is held pending (spec 40 R212, 10 R36). -/
  | llbit
  /-- Whether the single-step exception comes before this instruction (spec 60 R621). -/
  | singleStep
  deriving DecidableEq, Repr

/-- A free 32-bit value; the first argument is the counter `State.draws` (log 6). -/
opaque Config.freeWord : Nat → Draw → Word

/-- A free bit; the first argument is the counter `State.draws` (log 6). -/
opaque Config.freeBit : Nat → Draw → Bool

/-- The bytes of memory that a reset may leave changed: addresses and values (spec 70 R702, R704; log 25). -/
opaque Config.freeCells : Nat → List (Word × Byte)

/-- What answers at the physical addresses of a region (spec 92 D1). -/
inductive RegionKind where
  /-- Data RAM. -/
  | ram
  /-- Flash: a store does not change it (log 37). -/
  | rom
  /-- Peripheral registers in blocks of four words, each at a multiple of 16: word 0 the register, the words named here its CLR, SET and INV addresses (spec 20 R119; log 37). -/
  | registers (clr set inv : BitVec 2)
  /-- A device whose behaviour the spec does not give (spec 20 R115; log 37). -/
  | device
  deriving DecidableEq, Repr

/-- One region of the parameter `PhysMap`: where it lies, what it is, and which accesses it answers; an access it does not answer is a bus error (spec 00 R8, 92 D1; log 3). -/
structure Region where
  base   : Nat
  size   : Nat
  kind   : RegionKind
  fetch  : Bool
  load   : Bool
  store  : Bool
  user   : Bool
  deriving DecidableEq, Repr

end Sys2Proof
end

