-- ==== Sys2Proof/Machine/State.lean ====
section
/-! DEFINITION. The state of the machine as plain data, its reset value, and the reasons a step can stop. -/

namespace Sys2Proof.Machine

/-! ## Coprocessor 0 -/

/-- The stored fields of STATUS (spec 10 R46 to R51). -/
structure Status where
  cu0 : Bool
  rp  : Bool
  fr  : Bool
  re  : Bool
  bev : Bool
  sr  : Bool
  nmi : Bool
  ipl : BitVec 6
  r98 : BitVec 2
  um  : Bool
  erl : Bool
  exl : Bool
  ie  : Bool
  deriving DecidableEq, Repr

/-- The stored fields of SRSCtl; each names a set that exists (spec 10 R56 to R61). -/
structure SrsCtl where
  eicss : ShadowSet
  ess   : ShadowSet
  pss   : ShadowSet
  css   : ShadowSet
  deriving DecidableEq, Repr

/-- The stored fields of CAUSE (spec 10 R63, R64). -/
structure Cause where
  bd      : Bool
  ti      : Bool
  ce      : BitVec 2
  dc      : Bool
  iv      : Bool
  ripl    : BitVec 6
  ip      : BitVec 2
  excCode : BitVec 5
  deriving DecidableEq, Repr

/-- The stored fields of CONFIG (spec 10 R68). -/
structure Config0 where
  k23 : BitVec 3
  ku  : BitVec 3
  k0  : BitVec 3
  deriving DecidableEq, Repr

/-- The stored fields of DEBUG (spec 10 R73 to R75). -/
structure Debug where
  dbd      : Bool
  dm       : Bool
  lsnm     : Bool
  doze     : Bool
  halt     : Bool
  countDm  : Bool
  ibusep   : Bool
  dbusep   : Bool
  iexi     : Bool
  dexcCode : BitVec 5
  sst      : Bool
  dint     : Bool
  dib      : Bool
  ddbs     : Bool
  ddbl     : Bool
  dbp      : Bool
  dss      : Bool
  deriving DecidableEq, Repr

/-- The coprocessor 0 registers (spec 10 R40). -/
structure Cp0 where
  /-- HWREna.MASK (spec 10 R42). -/
  hwrena   : BitVec 4
  badVAddr : Word
  count    : Word
  compare  : Word
  status   : Status
  /-- IntCtl.VS (spec 10 R54). -/
  intCtlVs : BitVec 5
  srsCtl   : SrsCtl
  srsMap   : Word
  cause    : Cause
  /-- The value a read returns: bit 0 is the ISA mode to return to (spec 10 R65). -/
  epc      : Word
  /-- EBase bits 29:12 (spec 10 R67). -/
  ebase    : BitVec 18
  config   : Config0
  debugReg    : Debug
  depc     : Word
  errorEpc : Word
  deSave   : Word
  deriving DecidableEq, Repr

/-! ## Delay slot, hazards, memory, inputs -/

/-- A transfer that is due after the instruction in the delay slot (spec 10 R33, 42 R320). -/
structure Delay where
  /-- The address of the branch. -/
  branch  : Word
  /-- Where execution goes after the slot. -/
  target  : Word
  /-- The ISA mode there. -/
  mode    : Isa
  /-- The transfer is JR.HB or JALR.HB, which clears hazards at the target (spec 70 R722). -/
  barrier : Bool
  deriving DecidableEq, Repr

/-- A coprocessor 0 register as the producer of a hazard (spec 70 R720). -/
inductive HazardReg where
  | hwrena | count | compare | status | intCtl | srsCtl | srsMap | cause | epc | ebase | config | debugReg | depc
  | errorEpc | deSave
  /-- STATUS.IE written by EI or DI. -/
  | interruptEnable
  deriving DecidableEq, Repr

/-- A coprocessor 0 write that a near consumer may not see yet: the registers before it, and how many instructions later the current one is (spec 10 R37, 70 R720). -/
structure Hazard where
  reg      : HazardReg
  old      : Cp0
  distance : Nat
  deriving DecidableEq, Repr

/-- How far the sequence for new code has come for a stored byte: SYNCI, then SYNC (spec 20 R141). -/
inductive StaleStage where
  | stored | synced | ordered
  deriving DecidableEq, Repr

/-- A store that a fetch may not see yet: the bytes it changed in one aligned word, as they were before it (spec 20 R141). -/
structure StaleStore where
  cells : List Host.Cell
  stage : StaleStage
  deriving DecidableEq, Repr

/-- Physical memory: the bytes that differ from zero, by address, addresses rising (spec 20 R100, R106; log 2). -/
structure Memory where
  cells : List Host.Cell
  deriving DecidableEq, Repr

/-- What the interrupt controller presents (spec 60 R622). -/
structure EicRequest where
  ripl   : BitVec 6
  vector : BitVec 6
  eicss  : ShadowSet
  deriving DecidableEq, Repr

/-- A write of another bus master: bytes of the aligned word that holds a physical address, by their place in it (spec 00 R13, 20 R114, R116). -/
structure BusWrite where
  address : Word
  bytes   : List (BitVec 2 × Byte)
  deriving DecidableEq, Repr

/-- What the outside does before one step, and between the accesses of its instruction (spec 00 R13, 92 D4, D5, D7). -/
structure StepInput where
  /-- A new request of the interrupt controller; none keeps the one it presents. -/
  eic            : Option EicRequest
  /-- Ticks of the core timer since the last step. -/
  ticks          : Nat
  reset          : Bool
  softReset      : Bool
  debugInterrupt : Bool
  nmi            : Bool
  /-- The writes of other bus masters before the step. -/
  writes         : List BusWrite
  /-- The writes of other bus masters after the first, the second, … data access of a SAVE or RESTORE in this step. -/
  between        : List (List BusWrite)
  /-- If the processor idles after WAIT, it goes on idling. -/
  stayIdle       : Bool
  deriving DecidableEq, Repr

/-- An outside that does nothing (log 4). -/
def StepInput.quiet : StepInput :=
  { eic := none, ticks := 0, reset := false, softReset := false, debugInterrupt := false, nmi := false,
    writes := [], between := [], stayIdle := false }

/-! ## The machine -/

/-- The state of the machine: every piece of state the spec names, and the model's own `physMap`, `inputs`, `between` and `draws`. -/
structure State where
  /-- The general registers of every shadow set (spec 10 R20, R24). -/
  gpr : Vector (Vector Word 32) (Config.hss + 1)
  hi : Word
  lo : Word
  /-- HI and LO hold an arithmetic result of which neither half has been read (spec 41 R289). -/
  hiLoUnread : Bool
  pc : Word
  isaMode : Isa
  delay : Option Delay
  /-- LLbit (spec 10 R34). -/
  llbit : Bool
  /-- The processor may idle after WAIT (spec 43 R381). -/
  waiting : Bool
  cp0 : Cp0
  /-- The vector number the interrupt controller presents (spec 60 R622). -/
  eicVector : BitVec 6
  /-- Execution hazards, newest first (spec 70 R720). -/
  hazards : List Hazard
  /-- STATUS values that a fetch may still use, newest first (spec 70 R721). -/
  fetchHazards : List Status
  mem : Memory
  /-- Stores that a fetch may not see yet, newest first (spec 20 R141). -/
  stale : List StaleStore
  /-- The parameter `PhysMap` (spec 00 R8; log 3). -/
  physMap : List Region
  /-- The inputs of the coming steps; an empty list is a quiet outside (log 4). -/
  inputs : List StepInput
  /-- The writes of other bus masters after the coming data accesses of this step (spec 00 R13; log 35). -/
  between : List (List BusWrite)
  /-- The argument of the free values, one higher at each step (log 6). -/
  draws : Nat
  deriving DecidableEq, Repr

/-- Where the source says that the operation of the processor is UNDEFINED. Each is safe: the model stops where the hardware goes on. -/
inductive Fault where
  /-- MTC0 writes a set number above HSS to SRSCtl.ESS, SRSCtl.PSS or a field of SRSMap (spec 10 R57, 93 U1). Safe. -/
  | shadowSetTooLarge
  /-- MTC0 writes a reserved value to IntCtl.VS (spec 10 R55, 93 U2). Safe. -/
  | reservedVectorSpacing
  /-- MTC0 changes the exception base while STATUS.BEV is 0 (spec 10 R67, 93 U4). Safe. -/
  | ebaseWithoutBev
  /-- MTC0 sets STATUS.ERL while executing from kuseg (spec 10 R51, 93 U5). Safe. -/
  | errorLevelInKuseg
  /-- MTC0 writes 1 to CAUSE bit 22 (spec 10 R64, 93 U12). Safe. -/
  | watchPendingWritten
  /-- MTC0 writes DEBUG outside Debug mode (spec 10 R73, 93 U14). Safe. -/
  | debugWrittenOutsideDebug
  /-- A branch, a jump, ERET, DERET or WAIT stands in a delay slot (spec 42 R322, 93 U27). Safe. -/
  | branchInDelaySlot
  deriving DecidableEq, Repr

/-- Where the spec refuses a word, a form or a mode. Each is safe: nothing is claimed of what follows. -/
inductive Refusal where
  /-- No meaning yet for the instruction of this mnemonic. Raised by an arm of `exec`. Safe. -/
  | notModelled (mnemonic : String)
  /-- Operands the architecture calls UNPREDICTABLE (spec 93 U25, U26, U28). Raised by the meaning. Safe. -/
  | unpredictableForm
  /-- A word with a nonzero field that must be zero (spec 30 R167, 93 U21). Raised by the step. Safe. -/
  | nonzeroField
  /-- EXTEND before an instruction that cannot be extended (spec 45 R448, 93 U34; log 20). Raised by the step. Safe. -/
  | notExtensible
  /-- An extended instruction in a delay slot (spec 45 R448, 93 U34). Raised by the meaning of EXTEND. Safe. -/
  | extendInDelaySlot
  /-- An extended SAVE or RESTORE with statics or arguments, whose table the spec does not give (spec 45 R478). Raised by the meaning of EXTEND. Safe. -/
  | saveRestoreStatics
  /-- A step in Debug mode, and SDBBP in Debug mode (spec 60 R662, 93 U35). Raised by the step and by SDBBP. Safe. -/
  | debugMode
  /-- A data access to dseg in Debug mode (spec 20 R104; log 42). Raised by loads and stores. Safe. -/
  | dsegAccess
  deriving DecidableEq, Repr

/-- The outcome of a step or of an instruction. -/
abbrev Result := Host.Outcome State Fault Refusal

/-- The exceptions of table 2-11 (spec 60 R610). -/
inductive Exc where
  | int
  | adEL (va : Word)
  | adES (va : Word)
  | ibe
  | dbe
  | sys
  | bp
  | ri
  | cpu (n : BitVec 2)
  | ov
  | tr
  deriving DecidableEq, Repr

/-- The debug exceptions (spec 60 R621). -/
inductive DebugExc where
  | dss | dint | dib | ddbs | ddbl | dbp
  deriving DecidableEq, Repr

/-- Access widths (spec 20 R113). -/
inductive Width where
  | byte | half | word
  deriving DecidableEq, Repr

/-- What an access to memory answers (spec 20 R120 to R122). -/
inductive MemResult (α : Type) where
  | ok (a : α)
  /-- Address error, at this virtual address. -/
  | addressError (va : Word)
  | busError
  /-- The access goes to dseg in Debug mode (spec 20 R104). -/
  | dseg
  deriving DecidableEq, Repr

/-- STATUS after reset; the fields the spec leaves unknown are zero (spec 10 R80; log 1). -/
def Status.reset : Status :=
  { cu0 := false, rp := false, fr := false, re := false, bev := true, sr := false, nmi := false, ipl := 0, r98 := 0,
    um := false, erl := true, exl := false, ie := false }

/-- SRSCtl after reset (spec 10 R80; log 1 for EICSS). -/
def SrsCtl.reset : SrsCtl := { eicss := 0, ess := 0, pss := 0, css := 0 }

/-- CAUSE after reset (spec 10 R80; log 1 for all fields but DC). -/
def Cause.reset : Cause :=
  { bd := false, ti := false, ce := 0, dc := false, iv := false, ripl := 0, ip := 0, excCode := 0 }

/-- CONFIG after reset (spec 70 R701). -/
def Config0.reset : Config0 := { k23 := 2, ku := 2, k0 := 2 }

/-- DEBUG after reset (spec 10 R80; log 1 for the fields it leaves unknown). -/
def Debug.reset : Debug :=
  { dbd := false, dm := false, lsnm := false, doze := false, halt := false, countDm := true, ibusep := false,
    dbusep := false, iexi := false, dexcCode := 0, sst := false, dint := false, dib := false, ddbs := false,
    ddbl := false, dbp := false, dss := false }

/-- Coprocessor 0 after reset (spec 10 R80; log 1 for what it leaves unknown). -/
def Cp0.reset : Cp0 :=
  { hwrena := 0, badVAddr := 0, count := 0, compare := 0, status := Status.reset, intCtlVs := 0,
    srsCtl := SrsCtl.reset, srsMap := 0, cause := Cause.reset, epc := 0, ebase := 0, config := Config0.reset,
    debugReg := Debug.reset, depc := 0, errorEpc := 0, deSave := 0 }

/-- The machine right after reset (spec 10 R80, 70 R706; log 1 to log 4 for what they leave unknown). -/
def State.reset : State :=
  { gpr := Vector.replicate _ (Vector.replicate 32 0), hi := 0, lo := 0, hiLoUnread := false, pc := 0xBFC00000,
    isaMode := .mips32, delay := none, llbit := false, waiting := false, cp0 := Cp0.reset, eicVector := 0,
    hazards := [], fetchHazards := [], mem := { cells := [] }, stale := [], physMap := [], inputs := [], between := [],
    draws := 0 }

end Sys2Proof.Machine
end

