-- ==== Sys2Proof/Machine/Registers.lean ====
section
/-! DEFINITION. The layouts of the coprocessor 0 registers: the word a read gives, and what a write of a word changes. -/

namespace Sys2Proof.Machine

/-! ## Reading -/

/-- One bit of a register word. -/
abbrev bit (b : Bool) : BitVec 1 := BitVec.ofBool b

/-- An ISA mode as bit 0 of an exception program counter (spec 10 R29). -/
def isaBit : Isa → BitVec 1
  | .mips32 => 0
  | .mips16 => 1

/-- The ISA mode that a bit stands for (spec 10 R29). -/
def isaOfBit (b : Bool) : Isa := if b then .mips16 else .mips32

/-- `address[31:1] || ISAMode` (spec 10 R65). -/
def withIsaBit (address : Word) (m : Isa) : Word := address.extractLsb' 1 31 ++ isaBit m

/-- An address with bit 0 cleared (spec 42 R333). -/
def clearIsaBit (address : Word) : Word := address.extractLsb' 1 31 ++ 0#1

/-- A shadow set number as a 4-bit field (spec 10 R56). -/
def setField (s : ShadowSet) : BitVec 4 := BitVec.ofNat 4 s.val

/-- The set of a 4-bit field, if it is at most HSS (spec 10 R57). -/
def setOfField (n : BitVec 4) : Option ShadowSet :=
  if h : n.toNat < Config.hss + 1 then some ⟨n.toNat, h⟩ else none

/-- STATUS as a word (spec 10 R46). -/
def Status.toWord (s : Status) : Word :=
  0#3 ++ bit s.cu0 ++ bit s.rp ++ bit s.fr ++ bit s.re ++ 0#2 ++ bit s.bev ++ 0#1 ++ bit s.sr ++ bit s.nmi ++ 0#3 ++
    s.ipl ++ s.r98 ++ 0#3 ++ bit s.um ++ 0#1 ++ bit s.erl ++ bit s.exl ++ bit s.ie

/-- IntCtl as a word (spec 10 R54). -/
def intCtlWord (vs : BitVec 5) : Word := 0#22 ++ vs ++ 0#5

/-- SRSCtl as a word (spec 10 R56). -/
def SrsCtl.toWord (s : SrsCtl) : Word :=
  0#2 ++ BitVec.ofNat 4 Config.hss ++ 0#4 ++ setField s.eicss ++ 0#2 ++ setField s.ess ++ 0#2 ++ setField s.pss ++
    0#2 ++ setField s.css

/-- CAUSE as a word (spec 10 R63). -/
def Cause.toWord (c : Cause) : Word :=
  bit c.bd ++ bit c.ti ++ c.ce ++ bit c.dc ++ 0#3 ++ bit c.iv ++ 0#7 ++ c.ripl ++ c.ip ++ 0#1 ++ c.excCode ++ 0#2

/-- PRId: company 1, processor 0x87, and the revision (spec 10 R66). -/
def prIdWord : Word := 0x000187#24 ++ Config.pridRevision

/-- EBase as a word; CPUNum is 0 (spec 10 R67). -/
def ebaseWord (base : BitVec 18) : Word := 0b10#2 ++ base ++ 0#12

/-- CONFIG as a word (spec 10 R68). -/
def Config0.toWord (c : Config0) : Word :=
  1#1 ++ c.k23 ++ c.ku ++ 0#8 ++ 1#1 ++ 0#1 ++ 0#2 ++ 1#3 ++ 3#3 ++ 0#4 ++ c.k0

/-- CONFIG1 (spec 10 R70). -/
def config1Word : Word := 0x80000006

/-- CONFIG2 (spec 10 R71). -/
def config2Word : Word := 0x80000000

/-- CONFIG3 (spec 10 R72). -/
def config3Word : Word := 0x00000060

/-- DEBUG as a word in Debug mode (spec 10 R73). -/
def Debug.toWord (d : Debug) : Word :=
  bit d.dbd ++ bit d.dm ++ 0#1 ++ bit d.lsnm ++ bit d.doze ++ bit d.halt ++ bit d.countDm ++ bit d.ibusep ++ 0#2 ++
    bit d.dbusep ++ bit d.iexi ++ 0#2 ++ 2#3 ++ d.dexcCode ++ 0#1 ++ bit d.sst ++ 0#2 ++ bit d.dint ++ bit d.dib ++
    bit d.ddbs ++ bit d.ddbl ++ bit d.dbp ++ bit d.dss

/-- DEBUG read outside Debug mode: only DM and VER are valid, every other bit is `free` (spec 10 R73; log 40). -/
def Debug.toWordOutside (d : Debug) (free : Word) : Word :=
  free.extractLsb' 31 1 ++ bit d.dm ++ free.extractLsb' 18 12 ++ 2#3 ++ free.extractLsb' 0 15

/-- The value MFC0 reads; `free` stands for what the spec leaves open (spec 10 R40, R41, 44 R403). -/
def Cp0.read (c : Cp0) (free : Draw → Word) (rd : Reg) (sel : BitVec 3) : Word :=
  match rd.toNat, sel.toNat with
  | 7, 0 => c.hwrena.setWidth 32
  | 8, 0 => c.badVAddr
  | 9, 0 => c.count
  | 11, 0 => c.compare
  | 12, 0 => c.status.toWord
  | 12, 1 => intCtlWord c.intCtlVs
  | 12, 2 => c.srsCtl.toWord
  | 12, 3 => c.srsMap
  | 13, 0 => c.cause.toWord
  | 14, 0 => c.epc
  | 15, 0 => prIdWord
  | 15, 1 => ebaseWord c.ebase
  | 16, 0 => c.config.toWord
  | 16, 1 => config1Word
  | 16, 2 => config2Word
  | 16, 3 => config3Word
  | 23, 0 => if c.debugReg.dm then c.debugReg.toWord else c.debugReg.toWordOutside (free .debugRead)
  | 24, 0 => c.depc
  | 30, 0 => c.errorEpc
  | 31, 0 => c.deSave
  | _, _ => free .reservedCp0

/-! ## Writing -/

/-- STATUS after an MTC0 write of `v`: SR and NMI can only be cleared (spec 10 R52). -/
def Status.write (s : Status) (v : Word) : Status :=
  { s with
    cu0 := v.getLsbD 28, rp := v.getLsbD 27, re := v.getLsbD 25, bev := v.getLsbD 22, sr := s.sr && v.getLsbD 20,
    nmi := s.nmi && v.getLsbD 19, ipl := v.extractLsb' 10 6, r98 := v.extractLsb' 8 2, um := v.getLsbD 4,
    erl := v.getLsbD 2, exl := v.getLsbD 1, ie := v.getLsbD 0 }

/-- CAUSE after an MTC0 write of `v` (spec 10 R64). -/
def Cause.write (c : Cause) (v : Word) : Cause :=
  { c with dc := v.getLsbD 27, iv := v.getLsbD 23, ip := v.extractLsb' 8 2 }

/-- CONFIG after an MTC0 write of `v` (spec 10 R68, 90 C7). -/
def Config0.write (v : Word) : Config0 :=
  { k23 := v.extractLsb' 28 3, ku := v.extractLsb' 25 3, k0 := v.extractLsb' 0 3 }

/-- DEBUG after an MTC0 write of `v` in Debug mode; IBUSEP and DBUSEP are set by writing 1 (spec 10 R73, R75; log 27). -/
def Debug.write (d : Debug) (v : Word) : Debug :=
  { d with
    lsnm := v.getLsbD 28, countDm := v.getLsbD 25, ibusep := d.ibusep || v.getLsbD 24,
    dbusep := d.dbusep || v.getLsbD 21, iexi := v.getLsbD 20, sst := v.getLsbD 8 }

/-- The legal encodings of IntCtl.VS (spec 10 R55). -/
def legalSpacing (vs : BitVec 5) : Bool := vs = 0 ∨ vs = 1 ∨ vs = 2 ∨ vs = 4 ∨ vs = 8 ∨ vs = 16

/-- Every field of an SRSMap word is at most HSS (spec 10 R62). -/
def legalSrsMap (v : Word) : Bool :=
  (List.range 8).all fun k => (v.extractLsb' (4 * k) 4).toNat ≤ Config.hss

/-- SRSCtl after an MTC0 write of `v`, if ESS and PSS name sets that exist (spec 10 R56, R57). -/
def SrsCtl.write (s : SrsCtl) (v : Word) : Except Fault SrsCtl :=
  match setOfField (v.extractLsb' 12 4), setOfField (v.extractLsb' 6 4) with
  | some ess, some pss => .ok { s with ess := ess, pss := pss }
  | _, _ => .error .shadowSetTooLarge

/-- The registers after MTC0 of `v` to register `rd`, select `sel`, by the instruction at `pc`; `seen` is what the instruction sees of the registers (spec 44 R408, 10 R41 to R79). -/
def Cp0.write (c seen : Cp0) (pc : Word) (rd : Reg) (sel : BitVec 3) (v : Word) : Except Fault Cp0 :=
  match rd.toNat, sel.toNat with
  | 7, 0 => .ok { c with hwrena := v.extractLsb' 0 4 }
  | 9, 0 => .ok { c with count := v }
  | 11, 0 => .ok { c with compare := v, cause := { c.cause with ti := false } }
  | 12, 0 =>
    if v.getLsbD 2 && !c.status.erl && !pc.getLsbD 31 then .error .errorLevelInKuseg
    else .ok { c with status := c.status.write v }
  | 12, 1 =>
    if legalSpacing (v.extractLsb' 5 5) then .ok { c with intCtlVs := v.extractLsb' 5 5 }
    else .error .reservedVectorSpacing
  | 12, 2 =>
    match c.srsCtl.write v with
    | .ok s => .ok { c with srsCtl := s }
    | .error e => .error e
  | 12, 3 => if legalSrsMap v then .ok { c with srsMap := v } else .error .shadowSetTooLarge
  | 13, 0 => if v.getLsbD 22 then .error .watchPendingWritten else .ok { c with cause := c.cause.write v }
  | 14, 0 => .ok { c with epc := v }
  | 15, 1 =>
    if v.extractLsb' 12 18 ≠ c.ebase && !seen.status.bev then .error .ebaseWithoutBev
    else .ok { c with ebase := v.extractLsb' 12 18 }
  | 16, 0 => .ok { c with config := Config0.write v }
  | 23, 0 => if c.debugReg.dm then .ok { c with debugReg := c.debugReg.write v } else .error .debugWrittenOutsideDebug
  | 24, 0 => .ok { c with depc := v }
  | 30, 0 => .ok { c with errorEpc := v }
  | 31, 0 => .ok { c with deSave := v }
  | _, _ => .ok c

/-- The register that MTC0 writes, as the producer of a hazard; none for a read-only or reserved one. -/
def hazardReg (rd : Reg) (sel : BitVec 3) : Option HazardReg :=
  match rd.toNat, sel.toNat with
  | 7, 0 => some .hwrena
  | 9, 0 => some .count
  | 11, 0 => some .compare
  | 12, 0 => some .status
  | 12, 1 => some .intCtl
  | 12, 2 => some .srsCtl
  | 12, 3 => some .srsMap
  | 13, 0 => some .cause
  | 14, 0 => some .epc
  | 15, 1 => some .ebase
  | 16, 0 => some .config
  | 23, 0 => some .debugReg
  | 24, 0 => some .depc
  | 30, 0 => some .errorEpc
  | 31, 0 => some .deSave
  | _, _ => none

/-! ## Modes -/

/-- Debug mode (spec 00 R12, 60 R603). -/
def Cp0.debugMode (c : Cp0) : Bool := c.debugReg.dm

/-- Kernel mode (spec 00 R12, 60 R601). -/
def Cp0.kernelMode (c : Cp0) : Bool := !c.debugReg.dm && (!c.status.um || c.status.exl || c.status.erl)

/-- User mode (spec 00 R12, 60 R602). -/
def Cp0.userMode (c : Cp0) : Bool := !c.debugReg.dm && c.status.um && !c.status.exl && !c.status.erl

/-- Coprocessor 0 is usable (spec 00 R12, 44 R402). -/
def Cp0.cop0Usable (c : Cp0) : Bool := c.kernelMode || c.debugMode || c.status.cu0

/-- Interrupts are enabled (spec 10 R53). -/
def Cp0.interruptsEnabled (c : Cp0) : Bool := c.status.ie && !c.status.exl && !c.status.erl && !c.debugReg.dm

/-- An interrupt is to be taken (spec 60 R623). -/
def Cp0.interruptPending (c : Cp0) : Bool := c.interruptsEnabled && c.status.ipl.ult c.cause.ripl

end Sys2Proof.Machine
end

