-- ==== Sys2Proof/Machine/Operands.lean ====
section
/-! DEFINITION. Operand forms: immediates, addresses, branch targets, the MIPS16e register map, and the bit functions of the computational instructions. -/

namespace Sys2Proof.Machine

/-- `sext_32` of an immediate (spec 30 R154). -/
def sext {n : Nat} (i : BitVec n) : Word := i.signExtend 32

/-- `zext_32` of an immediate (spec 30 R154). -/
def zext {n : Nat} (i : BitVec n) : Word := i.setWidth 32

/-- `zext(i) << k`: a short immediate scaled by the access size (spec 45 R447). -/
def scaled {n : Nat} (i : BitVec n) (k : Nat) : Word := zext i <<< k

/-- The target of a conditional branch at `pc` (spec 30 R154, 42 R325). -/
def branchTarget (pc : Word) (offset : BitVec 16) : Word := (pc + 4) + (sext offset <<< 2)

/-- The target of a region jump at `pc` (spec 30 R155, 42 R325). -/
def jumpTarget (pc : Word) (index : BitVec 26) : Word := (pc + 4).extractLsb' 28 4 ++ index ++ 0#2

/-- The target of a MIPS16e branch: halfwords from the instruction after it, which is at `next` (spec 45 R451). -/
def halfwordTarget {n : Nat} (next : Word) (offset : BitVec n) : Word := next + (sext offset <<< 1)

/-- An address rounded down to a word (spec 40 R207). -/
def wordAddress (va : Word) : Word := va &&& 0xFFFFFFFC

/-- The general register that a MIPS16e register field names (spec 45 R442). -/
def mapReg (n : Reg3) : Reg := if n = 0 then 16 else if n = 1 then 17 else n.setWidth 5

/-- The condition code register of MIPS16e (spec 45 R442). -/
abbrev regT8 : Reg := 24

/-- The stack pointer of MIPS16e (spec 45 R442). -/
abbrev regSp : Reg := 29

/-- The link register (spec 10 R22). -/
abbrev regRa : Reg := 31

/-- The amount of a MIPS16e shift: 0 means 8 (spec 45 R467). -/
def shiftAmount3 (sa : BitVec 3) : Nat := if sa = 0 then 8 else sa.toNat

/-- The frame size in bytes of SAVE and RESTORE: 0 means 128 (spec 45 R478, R479). -/
def frameBytes (frame : BitVec 4) : Word := if frame = 0 then 128 else zext frame * 8

/-- The frame size in bytes of the extended SAVE and RESTORE: 0 means 0 (spec 45 R478). -/
def extFrameBytes (frame : BitVec 8) : Word := zext frame * 8

/-- Leading zeros, bits `n-1` down to 0 of `x` (spec 41 R282). -/
def leadingZeros (x : Word) : Nat → Nat
  | 0 => 0
  | n + 1 => if x.getLsbD n then 0 else leadingZeros x n + 1

/-- The result of CLZ (spec 41 R282). -/
def countZeros (x : Word) : Word := BitVec.ofNat 32 (leadingZeros x 32)

/-- The result of CLO (spec 41 R283). -/
def countOnes (x : Word) : Word := BitVec.ofNat 32 (leadingZeros (~~~x) 32)

/-- A word whose low `n` bits are ones. -/
def lowOnes (n : Nat) : Word := (1#32 <<< n) - 1

/-- `zext_32(x[lsb+msbd : lsb])`, the result of EXT (spec 41 R284). -/
def extractField (x : Word) (msbd lsb : Reg) : Word := (x >>> lsb.toNat) &&& lowOnes (msbd.toNat + 1)

/-- `old` with its bits msb..lsb replaced by the low bits of `x`, the result of INS (spec 41 R285). -/
def insertField (old x : Word) (msb lsb : Reg) : Word :=
  let mask := lowOnes (msb.toNat - lsb.toNat + 1) <<< lsb.toNat
  (old &&& ~~~mask) ||| ((x <<< lsb.toNat) &&& mask)

/-- The result of WSBH (spec 41 R291). -/
def swapBytes (x : Word) : Word :=
  x.extractLsb' 16 8 ++ x.extractLsb' 24 8 ++ x.extractLsb' 0 8 ++ x.extractLsb' 8 8

/-- Sign extension of the low byte (spec 41 R286). -/
def signByte (x : Word) : Word := sext (x.extractLsb' 0 8)

/-- Sign extension of the low halfword (spec 41 R287). -/
def signHalf (x : Word) : Word := sext (x.extractLsb' 0 16)

/-- Zero extension of the low byte (spec 45 R522). -/
def zeroByte (x : Word) : Word := zext (x.extractLsb' 0 8)

/-- Zero extension of the low halfword (spec 45 R523). -/
def zeroHalf (x : Word) : Word := zext (x.extractLsb' 0 16)

/-- Arithmetic shift right (spec 41 R263). -/
def shiftRightArith (x : Word) (n : Nat) : Word := x.sshiftRight n

/-- Rotate right (spec 41 R267). -/
def rotateRight (x : Word) (n : Nat) : Word := x.rotateRight n

/-- The register after LWL: bytes `A..va` of the word `w` above the low bytes of `old`; `b` is the byte of the address in its word (spec 40 R207). -/
def mergeLeft (old w : Word) (b : Nat) : Word :=
  let s := 8 * (3 - b)
  (w <<< s) ||| (old &&& lowOnes s)

/-- The register after LWR: bytes `va..A+3` of the word `w` below the top bytes of `old` (spec 40 R208). -/
def mergeRight (old w : Word) (b : Nat) : Word :=
  let s := 8 * b
  (w >>> s) ||| (old &&& ~~~(0xFFFFFFFF#32 >>> s))

/-- Byte `k` of a word, byte 0 the least significant (spec 20 R110). -/
def byteOf (v : Word) (k : Nat) : Byte := v.extractLsb' (8 * k) 8

/-- The bytes of a value stored with a width, lowest address first (spec 20 R110). -/
def storedBytes (w : Width) (v : Word) : List Byte :=
  match w with
  | .byte => [byteOf v 0]
  | .half => [byteOf v 0, byteOf v 1]
  | .word => [byteOf v 0, byteOf v 1, byteOf v 2, byteOf v 3]

/-- The bytes SWL stores from `A` on: the top `b + 1` bytes of the register (spec 40 R209). -/
def leftBytes (v : Word) (b : Nat) : List Byte := (storedBytes .word v).drop (3 - b)

/-- The bytes SWR stores from `va` on: the low `4 - b` bytes of the register (spec 40 R210). -/
def rightBytes (v : Word) (b : Nat) : List Byte := (storedBytes .word v).take (4 - b)

/-- HI and LO as one 64-bit value (spec 41 R240). -/
def hiLo (hi lo : Word) : BitVec 64 := hi ++ lo

/-- The signed 64-bit product (spec 41 R269). -/
def productSigned (a b : Word) : BitVec 64 := a.signExtend 64 * b.signExtend 64

/-- The unsigned 64-bit product (spec 41 R270). -/
def productUnsigned (a b : Word) : BitVec 64 := a.setWidth 64 * b.setWidth 64

/-- The signed quotient, rounded toward zero (spec 41 R271). -/
def quotientSigned (a b : Word) : Word := BitVec.ofInt 32 (a.toInt.tdiv b.toInt)

/-- The remainder of the signed division (spec 41 R271). -/
def remainderSigned (a b : Word) : Word := BitVec.ofInt 32 (a.toInt - a.toInt.tdiv b.toInt * b.toInt)

/-- The signed division has a stated result (spec 41 R271, R288). -/
def divisionStated (a b : Word) : Bool := !(b = 0) && !(a = 0x80000000 && b = 0xFFFFFFFF)

end Sys2Proof.Machine
end

