-- ==== Sys2Proof/Machine/Flags.lean ====
section
/-! DEFINITION. Conditions. The hardware has no condition flags (spec 10 R31): a comparison writes a register, decides a branch or decides a trap, and signed overflow raises an exception. -/

namespace Sys2Proof.Machine

/-- An exact integer lies outside the signed 32-bit range (spec 41 R243). -/
def outOfRange (t : Int) : Bool := t < -2147483648 || t ≥ 2147483648

/-- The signed addition overflows (spec 41 R243). -/
def addOverflows (a b : Word) : Bool := outOfRange (a.toInt + b.toInt)

/-- The signed subtraction overflows (spec 41 R245). -/
def subOverflows (a b : Word) : Bool := outOfRange (a.toInt - b.toInt)

/-- Signed less than (spec 41 R249). -/
def ltSigned (a b : Word) : Bool := a.toInt < b.toInt

/-- Unsigned less than (spec 41 R250). -/
def ltUnsigned (a b : Word) : Bool := a.toNat < b.toNat

/-- The word that stands for a condition: 1 or 0 (spec 41 R241). -/
def flagWord (c : Bool) : Word := if c then 1 else 0

/-- Less than or equal to zero (spec 42 R339). -/
def leZero (a : Word) : Bool := a.toInt ≤ 0

/-- Greater than zero (spec 42 R340). -/
def gtZero (a : Word) : Bool := 0 < a.toInt

/-- Less than zero: bit 31 (spec 42 R341). -/
def ltZero (a : Word) : Bool := a.getLsbD 31

/-- Greater than or equal to zero: not bit 31 (spec 42 R342). -/
def geZero (a : Word) : Bool := !a.getLsbD 31

end Sys2Proof.Machine
end

