-- ==== Sys2Proof/Machine/Memory.lean ====
section
/-! DEFINITION. Physical memory, address translation, what the bus answers, and the three accesses: fetch, load, store. -/

namespace Sys2Proof.Machine

/-! ## The list of cells -/

/-- What an unlisted address reads as (log 2). -/
def unlistedByte : Byte := 0

/-- The byte at an address. -/
def lookupCell : List Host.Cell → Nat → Byte
  | [], _ => unlistedByte
  | c :: cs, a => if a = c.1 then c.2 else lookupCell cs a

/-- The cells with one byte changed, in the canonical form. -/
def insertCell : List Host.Cell → Nat → Byte → List Host.Cell
  | [], a, v => if v = unlistedByte then [] else [(a, v)]
  | c :: cs, a, v =>
    if a < c.1 then (if v = unlistedByte then c :: cs else (a, v) :: c :: cs)
    else if a = c.1 then (if v = unlistedByte then cs else (a, v) :: cs)
    else c :: insertCell cs a v

/-- The byte at a physical address. -/
def Memory.read (m : Memory) (a : Nat) : Byte := lookupCell m.cells a

/-- The memory with one byte written. -/
def Memory.write (m : Memory) (a : Nat) (v : Byte) : Memory := ⟨insertCell m.cells a v⟩

/-- The canonical form: addresses strictly rising and inside the 32-bit physical space, no entry equal to what an unlisted address reads as. -/
abbrev Memory.wf (m : Memory) : Prop :=
  m.cells.Pairwise (fun c d => c.1 < d.1) ∧ ∀ c ∈ m.cells, c.2 ≠ unlistedByte ∧ c.1 < 4294967296

/-! ## What the processor sees of the registers -/

/-- A free value of this step (log 6). -/
def State.free (s : State) (d : Draw) : Word := Config.freeWord s.draws d

/-- A free bit of this step (log 6). -/
def State.freeBit (s : State) (d : Draw) : Bool := Config.freeBit s.draws d

/-- `dst` with the fields that a write of the register changes taken from `src` (spec 44 R408). -/
def HazardReg.put (r : HazardReg) (dst src : Cp0) : Cp0 :=
  match r with
  | .hwrena => { dst with hwrena := src.hwrena }
  | .count => { dst with count := src.count }
  | .compare => { dst with compare := src.compare, cause := { dst.cause with ti := src.cause.ti } }
  | .status => { dst with status := src.status }
  | .interruptEnable => { dst with status := { dst.status with ie := src.status.ie } }
  | .intCtl => { dst with intCtlVs := src.intCtlVs }
  | .srsCtl => { dst with srsCtl := { dst.srsCtl with ess := src.srsCtl.ess, pss := src.srsCtl.pss } }
  | .srsMap => { dst with srsMap := src.srsMap }
  | .cause =>
    { dst with cause := { dst.cause with dc := src.cause.dc, iv := src.cause.iv, ip := src.cause.ip } }
  | .epc => { dst with epc := src.epc }
  | .ebase => { dst with ebase := src.ebase }
  | .config => { dst with config := src.config }
  | .debugReg =>
    { dst with
      debugReg := { dst.debugReg with
        lsnm := src.debugReg.lsnm, countDm := src.debugReg.countDm, ibusep := src.debugReg.ibusep,
        dbusep := src.debugReg.dbusep, iexi := src.debugReg.iexi, sst := src.debugReg.sst } }
  | .depc => { dst with depc := src.depc }
  | .errorEpc => { dst with errorEpc := src.errorEpc }
  | .deSave => { dst with deSave := src.deSave }

/-- `dst` with the field that has a row of its own in table 2-1 taken from `src` (spec 70 R720). -/
def putPart (p : HazardPart) (dst src : Cp0) : Cp0 :=
  match p with
  | .cu => { dst with status := { dst.status with cu0 := src.status.cu0 } }
  | .ie => { dst with status := { dst.status with ie := src.status.ie } }
  | .ip => { dst with cause := { dst.cause with ip := src.cause.ip } }
  | .ti => { dst with cause := { dst.cause with ti := src.cause.ti } }
  | .pss => { dst with srsCtl := { dst.srsCtl with pss := src.srsCtl.pss } }
  | .main => dst

/-- Table 2-1: the instructions that must stand between a write of the register and the consumer; EI and DI have a row for the interrupt check only (spec 70 R720; log 8). -/
def HazardReg.spacing (r : HazardReg) (use : Consumer) : Nat :=
  match r, use with
  | .status, .eret | .interruptEnable, _ => 0
  | .epc, .eret | .depc, .eret | .errorEpc, .eret => 1
  | _, _ => 2

/-- Table 2-1: the field of the register that has a row of its own for the consumer, with its spacing (spec 70 R720; log 8). -/
def HazardReg.part (r : HazardReg) (use : Consumer) : Option (HazardPart × Nat) :=
  match r, use with
  | .status, .coprocessor => some (.cu, 1)
  | .status, .interrupt | .interruptEnable, .interrupt => some (.ie, 1)
  | .cause, .interrupt => some (.ip, 3)
  | .srsCtl, .previousSet => some (.pss, 1)
  | .compare, _ => some (.ti, 4)
  | _, _ => none

/-- What a consumer sees after the write of hazard `h`: `older` is what it would see without the write, `now` the registers after it; a field closer than its spacing is seen old where `old` says so (spec 10 R37, 70 R720). -/
def Hazard.apply (h : Hazard) (use : Consumer) (old : HazardPart → Bool) (older now : Cp0) : Cp0 :=
  let whole := if h.distance ≤ h.reg.spacing use && old .main then older else h.reg.put older now
  match h.reg.part use with
  | none => whole
  | some (p, n) => putPart p whole (if h.distance ≤ n && old p then older else now)

/-- The registers as a consumer sees them: for each hazard, newest first, and each state it names, the old or the new value, a free choice (spec 10 R37, 70 R720, 92 D11; log 8). -/
def viewFrom (draws : Nat) (use : Consumer) : List Hazard → Nat → Cp0 → Cp0
  | [], _, now => now
  | h :: hs, k, now =>
    h.apply use (fun p => Config.freeBit draws (.seesOld (use = .interrupt) k p))
      (viewFrom draws use hs (k + 1) (h.reg.put now h.old)) now

/-- The registers as a consumer sees them in this step. -/
def State.view (s : State) (use : Consumer) : Cp0 := viewFrom s.draws use s.hazards 0 s.cp0

/-- The registers as an ordinary instruction sees them in this step. -/
def State.seen (s : State) : Cp0 := s.view .other

/-- The STATUS a fetch is made under: the current one or one that an MTC0 since the last barrier replaced (spec 70 R721, 92 D11; log 9). -/
def fetchStatusFrom (draws fetch : Nat) : List Status → Nat → Status → Status
  | [], _, now => now
  | old :: rest, k, now =>
    fetchStatusFrom draws fetch rest (k + 1) (if Config.freeBit draws (.fetchOldStatus fetch k) then old else now)

/-- The registers as the fetch at `va` sees them in this step; each of the two fetches of a MIPS16e pair has its own choice (spec 20 R122, 70 R721). -/
def State.fetchView (s : State) (va : Word) : Cp0 :=
  { s.cp0 with status := fetchStatusFrom s.draws va.toNat s.fetchHazards 0 s.cp0.status }

/-! ## Translation, permission and alignment -/

/-- The virtual address may be used in the mode (spec 20 R102). -/
def allowed (c : Cp0) (va : Word) : Bool := !c.userMode || !va.getLsbD 31

/-- The fixed mapping (spec 20 R105). -/
def translate (c : Cp0) (va : Word) : Word :=
  if va.toNat < 0x20000000 then (if c.status.erl then va else va + 0x40000000)
  else if va.toNat < 0x80000000 then va + 0x40000000
  else if va.toNat < 0xA0000000 then va - 0x80000000
  else if va.toNat < 0xC0000000 then va - 0xA0000000
  else va

/-- The address is not a multiple of the width (spec 20 R112). -/
def misaligned (w : Width) (va : Word) : Bool :=
  match w with
  | .byte => false
  | .half => va.getLsbD 0
  | .word => va.getLsbD 0 || va.getLsbD 1

/-- Data accesses use the reversed byte order (spec 20 R111; log 17). -/
def reversed (c : Cp0) : Bool := c.userMode && c.status.re

/-- What a data address is exclusive-ored with for the reversed byte order (spec 20 R111). -/
def laneMask (c : Cp0) (w : Width) : Word :=
  if reversed c then (match w with | .byte => 3 | .half => 2 | .word => 0) else 0

/-- The data address lies in dseg, and dseg answers it (spec 20 R104). -/
def inDseg (c : Cp0) (va : Word) : Bool :=
  c.debugReg.dm && !c.debugReg.lsnm && 0xFF200000 ≤ va.toNat && va.toNat < 0xFF400000

/-! ## The bus -/

/-- The region of an address, none for plain memory; an aligned word lies in one region (log 3). -/
def State.region (s : State) (pa : Word) : Option Region :=
  let a := (wordAddress pa).toNat
  s.physMap.find? fun r => r.base ≤ a && a < r.base + r.size

/-- The kinds of access the bus distinguishes (spec 20 R117, R118). -/
inductive Access where
  | fetch | load | store
  deriving DecidableEq, Repr

/-- The bus answers the access, no bus error (spec 20 R117, R118). -/
def State.answers (s : State) (k : Access) (user : Bool) (pa : Word) : Bool :=
  match s.region pa with
  | none => true
  | some r => (match k with | .fetch => r.fetch | .load => r.load | .store => r.store) && (!user || r.user)

/-- The byte a fetch or a load finds at a physical address (spec 20 R110, R115, R119). -/
def State.busByte (s : State) (pa : Word) : Byte :=
  match (s.region pa).map Region.kind with
  | none | some .ram | some .rom => s.mem.read pa.toNat
  | some (.registers _ _ _) =>
    if pa.extractLsb' 2 2 = 0 then s.mem.read pa.toNat else (s.free (.busByte pa.toNat)).extractLsb' 0 8
  | some .device => (s.free (.busByte pa.toNat)).extractLsb' 0 8

/-- Bytes of memory changed by one transaction; a fetch may still see what they were (spec 20 R114, R141; log 10). -/
def State.writeCells (s : State) (cs : List Host.Cell) : State :=
  { s with
    mem := cs.foldl (fun m c => m.write c.1 c.2) s.mem
    stale := if cs = [] then s.stale else ⟨cs.map fun c => (c.1, s.mem.read c.1), .stored⟩ :: s.stale }

/-- What a byte stored at a physical address changes: memory, a register, or the register of a CLR, SET or INV address; a register is at a multiple of 16, its other addresses in the three words after it (spec 20 R115, R119; log 37). -/
def State.storedCell (s : State) (pa : Word) (v : Byte) : List Host.Cell :=
  match (s.region pa).map Region.kind with
  | none | some .ram => [(pa.toNat, v)]
  | some .rom | some .device => []
  | some (.registers clr set inv) =>
    let target := (pa &&& ~~~12#32).toNat
    let slot := pa.extractLsb' 2 2
    if slot = 0 then [(target, v)]
    else if slot = set then [(target, s.mem.read target ||| v)]
    else if slot = clr then [(target, s.mem.read target &&& ~~~v)]
    else if slot = inv then [(target, s.mem.read target ^^^ v)]
    else []

/-- What bytes stored from a physical address on change. -/
def State.storedCells (s : State) (pa : Word) : List Byte → List Host.Cell
  | [] => []
  | v :: vs => s.storedCell pa v ++ s.storedCells (pa + 1) vs

/-- Bytes stored from a physical address on, in one transaction (spec 20 R114). -/
def State.storeBytes (s : State) (pa : Word) (vs : List Byte) : State := s.writeCells (s.storedCells pa vs)

/-- The bytes that another bus master writes. -/
def BusWrite.cells (w : BusWrite) : List Host.Cell :=
  w.bytes.map fun b => ((wordAddress w.address + zext b.1).toNat, b.2)

/-- Writes of other bus masters, one transaction after the other (spec 20 R116). -/
def State.busWrites (s : State) (ws : List BusWrite) : State := ws.foldl (fun t w => t.writeCells w.cells) s

/-- What other bus masters write after a data access, before the next one of the instruction (spec 00 R13; log 35). -/
def State.othersWrite (s : State) : State :=
  { s.busWrites (s.between.headD []) with between := s.between.tail }

/-! ## Data accesses -/

/-- The physical address of a data access (spec 20 R105, R111). -/
def dataAddress (c : Cp0) (w : Width) (va : Word) : Word := translate c va ^^^ laneMask c w

/-- The value at a physical address, little-endian (spec 20 R110). -/
def State.busValue (s : State) (w : Width) (pa : Word) : Word :=
  match w with
  | .byte => zext (s.busByte pa)
  | .half => zext (s.busByte (pa + 1) ++ s.busByte pa)
  | .word => s.busByte (pa + 3) ++ s.busByte (pa + 2) ++ s.busByte (pa + 1) ++ s.busByte pa

/-- `MemRead(va, n)` (spec 20 R120). -/
def State.memRead (s : State) (w : Width) (va : Word) : MemResult Word :=
  let c := s.seen
  if misaligned w va || !allowed c va then .addressError va
  else if inDseg c va then .dseg
  else if s.answers .load c.userMode (dataAddress c w va) then .ok (s.busValue w (dataAddress c w va))
  else .busError

/-- `MemWrite(va, n, v)` (spec 20 R121). -/
def State.memWrite (s : State) (w : Width) (va v : Word) : MemResult State :=
  let c := s.seen
  if misaligned w va || !allowed c va then .addressError va
  else if inDseg c va then .dseg
  else if s.answers .store c.userMode (dataAddress c w va) then
    .ok (s.storeBytes (dataAddress c w va) (storedBytes w v))
  else .busError

/-- The byte of an address in its word that LWL, LWR, SWL and SWR go by (spec 40 R207, 20 R111). -/
def partialByte (c : Cp0) (va : Word) : Nat := (va.extractLsb' 0 2 ^^^ (if reversed c then 3 else 0)).toNat

/-- The aligned word that LWL and LWR read (spec 40 R207, R208, 20 R120). -/
def State.memReadPartial (s : State) (va : Word) : MemResult Word :=
  let c := s.seen
  if !allowed c va then .addressError va
  else if inDseg c va then .dseg
  else if s.answers .load c.userMode (translate c (wordAddress va)) then
    .ok (s.busValue .word (translate c (wordAddress va)))
  else .busError

/-- The store of SWL (`left`) or SWR of the register value `v` (spec 40 R209, R210). -/
def State.memWritePartial (s : State) (left : Bool) (va v : Word) : MemResult State :=
  let c := s.seen
  let b := partialByte c va
  let pa := translate c (wordAddress va)
  if !allowed c va then .addressError va
  else if inDseg c va then .dseg
  else if s.answers .store c.userMode pa then
    .ok (if left then s.storeBytes pa (leftBytes v b) else s.storeBytes (pa + BitVec.ofNat 32 b) (rightBytes v b))
  else .busError

/-! ## Fetching -/

/-- The byte at an address before a store, given the byte after it. -/
def StaleStore.undo (e : StaleStore) (a : Nat) (now : Byte) : Byte :=
  match e.cells.find? (fun c => c.1 = a) with
  | some c => c.2
  | none => now

/-- The byte that the fetch at the physical address `fetch` sees at `a`: memory is seen as it is, or as it was before one of the stores; `undone` is the byte before the stores passed so far, newest first, `seen` the choice so far (spec 20 R141, 92 D17; log 10). -/
def fetchByteFrom (draws fetch a : Nat) : List StaleStore → Nat → Byte → Byte → Byte
  | [], _, _, seen => seen
  | e :: es, k, undone, seen =>
    let u := e.undo a undone
    fetchByteFrom draws fetch a es (k + 1) u (if Config.freeBit draws (.fetchOldStore fetch k) then u else seen)

/-- The byte that the fetch at the physical address `fetch` sees at `pa`. -/
def State.fetchByte (s : State) (fetch pa : Word) : Byte :=
  fetchByteFrom s.draws fetch.toNat pa.toNat s.stale 0 (s.busByte pa) (s.busByte pa)

/-- The fetch of the 32-bit word at `va` (spec 20 R122). -/
def State.fetchWord (s : State) (va : Word) : MemResult Word :=
  let c := s.fetchView va
  if misaligned .word va || !allowed c va then .addressError va
  else
    let pa := translate c va
    if s.answers .fetch c.userMode pa then
      .ok (s.fetchByte pa (pa + 3) ++ s.fetchByte pa (pa + 2) ++ s.fetchByte pa (pa + 1) ++ s.fetchByte pa pa)
    else .busError

/-- The fetch of the 16-bit halfword at `va` (spec 20 R122, 45 R446). -/
def State.fetchHalf (s : State) (va : Word) : MemResult Half :=
  let c := s.fetchView va
  if misaligned .half va || !allowed c va then .addressError va
  else
    let pa := translate c va
    if s.answers .fetch c.userMode pa then .ok (s.fetchByte pa (pa + 1) ++ s.fetchByte pa pa) else .busError

/-! ## The sequence for new code -/

/-- The store changed a byte of the aligned word at `a`. -/
def StaleStore.touches (e : StaleStore) (a : Nat) : Bool := e.cells.any fun c => a ≤ c.1 && c.1 < a + 4

/-- SYNCI on an address: the stores into its aligned word are synchronised (spec 20 R141, 43 R361; log 10, log 18). -/
def State.syncAddress (s : State) (va : Word) : State :=
  let c := s.seen
  if allowed c va then
    let a := (wordAddress (translate c va)).toNat
    { s with
      stale := s.stale.map fun e =>
        if e.touches a && e.stage = .stored then { e with stage := .synced } else e }
  else s

/-- SYNC: synchronised stores are ordered (spec 20 R141, 43 R360). -/
def State.orderStores (s : State) : State :=
  { s with stale := s.stale.map fun e => if e.stage = .synced then { e with stage := .ordered } else e }

/-- JR.HB, JALR.HB and ERET end the sequence: fetches see the ordered stores (spec 20 R141; a SYNC in the slot of the jump, log 45). -/
def State.endNewCode (s : State) : State := { s with stale := s.stale.filter fun e => e.stage ≠ .ordered }

/-- The bytes of an instruction placed where the next fetch reads, for `withFetchWord`: seen by the fetch at once. -/
def State.placeBytes (s : State) (pa : Word) : List Byte → State
  | [] => s
  | v :: vs =>
    let t : State := { s with
      mem := s.mem.write pa.toNat v
      stale := s.stale.map fun e => { e with cells := e.cells.filter fun c => c.1 ≠ pa.toNat } }
    t.placeBytes (pa + 1) vs

end Sys2Proof.Machine
end

