-- ==== Sys2Proof/Machine/Ops.lean ====
section
/-! DEFINITION. The named operations over registers, the program counter and the exception registers, and the shapes the meanings share. -/

namespace Sys2Proof.Machine

/-! ## General registers -/

/-- The value of register `r` of set `k`; register 0 of every set is 0 (spec 10 R21, R24). -/
def State.regOf (s : State) (k : ShadowSet) (r : Reg) : Word :=
  if r = 0 then 0 else (s.gpr[k.val]'k.isLt)[r.toNat]'r.isLt

/-- The state with register `r` of set `k` written; a write of register 0 changes nothing (spec 10 R21, R24). -/
def State.writeSet (s : State) (k : ShadowSet) (r : Reg) (v : Word) : State :=
  if r = 0 then s
  else { s with gpr := s.gpr.set k.val ((s.gpr[k.val]'k.isLt).set r.toNat v r.isLt) k.isLt }

/-- `x[r]`: the register of the current set (spec 10 R24, 00 R11). -/
def State.reg (s : State) (r : Reg) : Word := s.regOf s.cp0.srsCtl.css r

/-- `x[r] <- v`: the register of the current set (spec 10 R24, 00 R11). -/
def State.write (s : State) (r : Reg) (v : Word) : State := s.writeSet s.cp0.srsCtl.css r v

/-- `xr[n]`: the register that a MIPS16e field names (spec 45 R442). -/
def State.xr (s : State) (n : Reg3) : Word := s.reg (mapReg n)

/-- HI and LO written with an arithmetic result (spec 41 R289). -/
def State.writeHiLo (s : State) (p : BitVec 64) : State :=
  { s with hi := p.extractLsb' 32 32, lo := p.extractLsb' 0 32, hiLoUnread := true }

/-- HI and LO unknown (spec 41 R277, R288; log 7). -/
def State.freeHiLo (s : State) : State := { s with hi := s.free .hi, lo := s.free .lo, hiLoUnread := true }

/-! ## Advance of the program counter -/

/-- Every CP0 hazard is cleared (spec 70 R722). -/
def State.clearHazards (s : State) : State := { s with hazards := [], fetchHazards := [] }

/-- What a jump with hazard barrier does at its target (spec 70 R722, 20 R141; what its own slot did, log 45). -/
def State.barrier (s : State) : State := s.clearHazards.endNewCode

/-- The pending transfer takes place (spec 42 R320). A barrier acts here, at the target (70 R722), so after the instruction in its delay slot.
That it then also clears the hazards of a CP0 write made in that slot (42 R334: 'earlier CP0 writes'), and ends the sequence for new code whose SYNC stands in that slot (20 R141), is a DESIGN CHOICE (log 45). -/
def State.land (s : State) (d : Delay) : State :=
  let t : State := { s with pc := d.target, isaMode := d.mode, delay := none }
  if d.barrier then t.barrier else t

/-- The end of an instruction of `len` bytes that transfers no control: the pending transfer, or the next address (spec 42 R320, 45 R445). -/
def State.advance (s : State) (len : Word) : State :=
  match s.delay with
  | some d => s.land d
  | none => { s with pc := s.pc + len }

/-- A jump, or a branch that is taken or not: the next instruction is in its delay slot (spec 42 R320). -/
def State.delayed (s : State) (len target : Word) (mode : Isa) (barrier : Bool) : State :=
  { s with pc := s.pc + len, delay := some { branch := s.pc, target := target, mode := mode, barrier := barrier } }

/-- A transfer without delay slot (spec 45 R451, 44 R404). -/
def State.jumpTo (s : State) (target : Word) (mode : Isa) : State := { s with pc := target, isaMode := mode }

/-- An instruction that must not stand in a delay slot (spec 42 R322, 93 U27). -/
def State.outsideSlot (s : State) (k : Result) : Result :=
  if s.delay.isSome then .fault .branchInDelaySlot else k

/-! ## Exceptions -/

/-- The exception code (spec 60 R610). -/
def Exc.code : Exc → BitVec 5
  | .int => 0
  | .adEL _ => 4
  | .adES _ => 5
  | .ibe => 6
  | .dbe => 7
  | .sys => 8
  | .bp => 9
  | .ri => 10
  | .cpu _ => 11
  | .ov => 12
  | .tr => 13

/-- The vector base while STATUS.BEV is 1 (spec 60 R634). -/
def bootVectorBase : Word := 0xBFC00200

/-- Where execution starts after reset, soft reset and NMI (spec 70 R703, 60 R645). -/
def resetVector : Word := 0xBFC00000

/-- Where execution goes on a debug exception, the probe not enabled (spec 60 R660, 92 D8; log 16). -/
def debugVector : Word := 0xBFC00480

/-- The restart address with the ISA mode: the branch if the instruction is in a delay slot (spec 60 R632). -/
def State.restartPc (s : State) : Word :=
  match s.delay with
  | some d => withIsaBit d.branch s.isaMode
  | none => withIsaBit s.pc s.isaMode

/-- The vector base (spec 60 R634). -/
def vectorBase (c : Cp0) : Word := if c.status.bev then bootVectorBase else ebaseWord c.ebase

/-- The vector base plus an offset, without carry into bits 31:30 (spec 60 R634; log 44). -/
def vectorAddress (base offset : Word) : Word := base.extractLsb' 30 2 ++ (base + offset).extractLsb' 0 30

/-- The offset from the vector base; `c` is what entry sees of the registers (spec 60 R627, R633, R639). -/
def vectorOffset (c : Cp0) (vector : BitVec 6) (e : Exc) : Word :=
  if e = .int && c.cause.iv && !c.status.exl then
    0x200 + (if c.status.bev then (0 : Word) else zext vector * (zext c.intCtlVs <<< 5))
  else 0x180

/-- SRSCtl after entry (spec 60 R636, R639; log 41). -/
def entrySrsCtl (c : Cp0) (now : SrsCtl) (e : Exc) : SrsCtl :=
  if !c.status.exl && !c.status.erl && !c.status.bev then
    { now with
      pss := now.css
      css := if e = .int && c.cause.iv then now.eicss else c.srsCtl.ess }
  else now

/-- EPC after entry; unknown after a data bus error (spec 60 R632, 20 R124). -/
def State.entryEpc (s : State) (exl : Bool) (e : Exc) : Word :=
  if exl then s.cp0.epc else if e = .dbe then s.free .epc else s.restartPc

/-- CAUSE.BD after entry; unknown after a data bus error (spec 60 R632, 20 R124). -/
def State.entryBd (s : State) (exl : Bool) (e : Exc) : Bool :=
  if exl then s.cp0.cause.bd else if e = .dbe then s.freeBit .bd else s.delay.isSome

/-- CAUSE.CE after entry; unknown unless the exception is Coprocessor Unusable (spec 60 R635). -/
def State.entryCe (s : State) (e : Exc) : BitVec 2 :=
  match e with
  | .cpu n => n
  | _ => (s.free .ce).extractLsb' 0 2

/-- BadVAddr after entry (spec 60 R637). -/
def entryBadVAddr (old : Word) (e : Exc) : Word :=
  match e with
  | .adEL va | .adES va => va
  | _ => old

/-- The registers as the entry of exception `e` sees them: an interrupt is entered with what its check saw, any other with what the instruction sees (spec 60 R623, R627, 70 R720; log 8). -/
def State.entryView (s : State) (e : Exc) : Cp0 := if e = .int then s.view .interrupt else s.seen

/-- Taking an exception outside Debug mode (spec 60 R639); entry clears all hazards (spec 70 R722). -/
def State.takeException (s : State) (e : Exc) : State :=
  let c := s.entryView e
  let now := s.cp0
  let t : State := { s with
    pc := vectorAddress (vectorBase c) (vectorOffset c s.eicVector e)
    isaMode := .mips32
    delay := none
    waiting := false
    cp0 := { now with
      epc := s.entryEpc c.status.exl e
      badVAddr := entryBadVAddr now.badVAddr e
      srsCtl := entrySrsCtl c now.srsCtl e
      status := { now.status with exl := true }
      cause := { now.cause with
        bd := s.entryBd c.status.exl e
        ce := s.entryCe e
        excCode := e.code } } }
  t.clearHazards

/-- An exception in Debug mode: entry to the debug vector again, with its code (spec 10 R74, R75, R76; log 28). -/
def State.takeInDebug (s : State) (e : Exc) : State :=
  let t : State := { s with
    pc := debugVector
    isaMode := .mips32
    delay := none
    waiting := false
    cp0 := { s.cp0 with
      depc := s.restartPc
      badVAddr := entryBadVAddr s.cp0.badVAddr e
      debugReg := { s.cp0.debugReg with
        dbd := s.delay.isSome, dexcCode := e.code, iexi := true, halt := s.freeBit .halt, doze := s.freeBit .doze,
        dint := false, dib := false, ddbs := false, ddbl := false, dbp := false, dss := false } } }
  t.clearHazards

/-- An instruction raises an exception (spec 60 R639; in Debug mode 10 R74). -/
def State.raise (s : State) (e : Exc) : State := if s.cp0.debugReg.dm then s.takeInDebug e else s.takeException e

/-- Debug exception entry; DOZE says whether the processor idled after WAIT, HALT is a free bit (spec 60 R661, R672, 10 R75; log 43). -/
def State.takeDebug (s : State) (k : DebugExc) : State :=
  let t : State := { s with
    pc := debugVector
    isaMode := .mips32
    delay := none
    waiting := false
    cp0 := { s.cp0 with
      depc := s.restartPc
      debugReg := { s.cp0.debugReg with
        dbd := s.delay.isSome
        dss := decide (k = .dss), dbp := decide (k = .dbp), ddbl := decide (k = .ddbl), ddbs := decide (k = .ddbs)
        dib := decide (k = .dib), dint := decide (k = .dint)
        halt := s.freeBit .halt, doze := s.waiting
        dexcCode := (s.free .dexcCode).extractLsb' 0 5
        dm := true, iexi := true } } }
  t.clearHazards

/-- NMI entry (spec 60 R645). -/
def State.takeNmi (s : State) : State :=
  let t : State := { s with
    pc := resetVector
    isaMode := .mips32
    delay := none
    waiting := false
    cp0 := { s.cp0 with
      errorEpc := s.restartPc
      status := { s.cp0.status with erl := true, nmi := true, sr := false, bev := true } } }
  t.clearHazards

/-- The memory after a reset: any bytes outside flash may have changed (spec 70 R702, R704; log 25). -/
def State.resetMemory (s : State) : Memory :=
  (Config.freeCells s.draws).foldl
    (fun m c => if (s.region c.1).map Region.kind = some .rom then m else m.write c.1.toNat c.2) s.mem

/-- Coprocessor 0 after a reset event; what the spec leaves unknown is free (spec 70 R701, R702, R706). -/
def State.resetCp0 (s : State) (soft : Bool) : Cp0 :=
  let b := fun k => s.freeBit (.resetField k)
  let w := fun k => s.free (.resetField k)
  { hwrena := 0, badVAddr := w 0, count := w 1, compare := w 2
    status := { cu0 := b 3, rp := false, fr := b 4, re := b 5, bev := true, sr := soft, nmi := false,
                ipl := (w 6).extractLsb' 0 6, r98 := (w 7).extractLsb' 0 2, um := b 8, erl := true, exl := b 9,
                ie := b 10 }
    intCtlVs := 0
    srsCtl := { eicss := s.cp0.srsCtl.eicss, ess := 0, pss := 0, css := 0 }
    srsMap := 0
    cause := { bd := b 11, ti := b 12, ce := (w 13).extractLsb' 0 2, dc := false, iv := b 14,
               ripl := s.cp0.cause.ripl, ip := (w 15).extractLsb' 0 2, excCode := (w 16).extractLsb' 0 5 }
    epc := w 17
    ebase := 0
    config := Config0.reset
    debugReg := { dbd := b 18, dm := false, lsnm := false, doze := b 19, halt := b 20, countDm := true,
                  ibusep := false, dbusep := false, iexi := false, dexcCode := (w 21).extractLsb' 0 5, sst := false,
                  dint := b 22, dib := b 23, ddbs := b 24, ddbl := b 25, dbp := b 26, dss := b 27 }
    depc := w 28
    errorEpc := if soft then s.restartPc else w 29
    deSave := w 30 }

/-- A reset or a soft reset (spec 70 R706; log 25). The window in which a fetch may not see a store goes on (spec 20 R141, 70 R704; log 10). -/
def State.takeReset (s : State) (soft : Bool) : State :=
  { s with
    gpr := Vector.ofFn fun k => Vector.ofFn fun r => s.free (.resetGpr k.val r.val)
    hi := s.free .hi, lo := s.free .lo, hiLoUnread := s.freeBit (.resetField 31)
    pc := resetVector, isaMode := .mips32, delay := none, llbit := s.freeBit (.resetField 32), waiting := false
    cp0 := s.resetCp0 soft
    hazards := [], fetchHazards := [], mem := s.resetMemory }

/-- ERET: the return from an exception; `c` is what it sees of the registers (spec 44 R404). -/
def State.returnFromException (s : State) : State :=
  let c := s.view .eret
  let now := s.cp0
  let t : State :=
    if now.status.erl then
      { s with
        pc := clearIsaBit c.errorEpc, isaMode := isaOfBit (c.errorEpc.getLsbD 0), llbit := false
        cp0 := { now with status := { now.status with erl := false } } }
    else
      { s with
        pc := clearIsaBit c.epc, isaMode := isaOfBit (c.epc.getLsbD 0), llbit := false
        cp0 := { now with
          status := { now.status with exl := false }
          srsCtl := if c.status.bev then now.srsCtl else { now.srsCtl with css := c.srsCtl.pss } } }
  t.barrier

/-- DERET in Debug mode (spec 44 R405). -/
def State.returnFromDebug (s : State) : State :=
  let c := s.view .eret
  let t : State := { s with
    pc := clearIsaBit c.depc, isaMode := isaOfBit (c.depc.getLsbD 0)
    cp0 := { s.cp0 with debugReg := { s.cp0.debugReg with dm := false, iexi := false } } }
  t.barrier

/-! ## Shapes of meanings -/

/-- A register result: `x[r] <- v`, then the next instruction. -/
def State.result (s : State) (len : Word) (r : Reg) (v : Word) : Result := .next ((s.write r v).advance len)

/-- A register result, or integer overflow with no register written (spec 41 R241). -/
def State.resultOrOverflow (s : State) (r : Reg) (overflow : Bool) (v : Word) : Result :=
  if overflow then .next (s.raise .ov) else s.result 4 r v

/-- A trap (spec 43 R362): the exception if the condition holds. -/
def State.trap (s : State) (c : Bool) : Result := .next (if c then s.raise .tr else s.advance 4)

/-- Coprocessor 0 must be usable, as the consumer `use` sees it (spec 44 R402, 70 R720). -/
def State.needCop0 (s : State) (use : Consumer) (k : Result) : Result :=
  if (s.view use).cop0Usable then k else .next (s.raise (.cpu 0))

/-- A data bus error is held pending (spec 10 R36, R75). -/
def State.holdBusError (s : State) : State :=
  { s with cp0 := { s.cp0 with debugReg := { s.cp0.debugReg with dbusep := true } } }

/-- A data bus error: while DEBUG.IEXI is 1 it is held pending and the instruction goes on from `s` as `k` says, else the exception is taken in `s` (spec 20 R124, 10 R75; log 13, log 27). -/
def State.dataBusError (s : State) (k : State → Result) : Result :=
  if s.cp0.debugReg.iexi then k s.holdBusError else .next (s.raise .dbe)

/-- Register `r`, loaded by an access that ended in a bus error, is unknown (spec 20 R124). -/
def State.freeLoaded (s : State) (r : Reg) : State := s.write r (s.free (.loadDestination r.toNat))

/-- A load into `r`: `k` goes on after it, `held` after a bus error that is held pending; the register is unknown after a bus error (spec 20 R120, R124, 40 R226). -/
def State.loadWith (s : State) (r : Reg) (m : MemResult Word) (f : Word → Word) (k held : State → Result) : Result :=
  match m with
  | .ok v => k (s.write r (f v))
  | .addressError va => .next (s.raise (.adEL va))
  | .busError => (s.freeLoaded r).dataBusError held
  | .dseg => .refused .dsegAccess

/-- The end of an instruction of `len` bytes that transfers no control. -/
def State.done (s : State) (len : Word) : Result := .next (s.advance len)

/-- A load that ends the instruction: `r` receives the value read, changed by `f` (spec 20 R120, 40 R226). -/
def State.loadTo (s : State) (len : Word) (r : Reg) (m : MemResult Word) (f : Word → Word) : Result :=
  s.loadWith r m f (·.done len) (·.done len)

/-- A store: `k` goes on after it, `held` after a bus error that is held pending (spec 20 R121, 40 R226). -/
def State.storeWith (s : State) (m : MemResult State) (k held : State → Result) : Result :=
  match m with
  | .ok t => k t
  | .addressError va => .next (s.raise (.adES va))
  | .busError => s.dataBusError held
  | .dseg => .refused .dsegAccess

/-- A store that ends the instruction (spec 20 R121, 40 R226). -/
def State.storeTo (s : State) (len : Word) (m : MemResult State) : Result :=
  s.storeWith m (·.done len) (·.done len)

/-- A conditional branch of MIPS32 mode; not taken, it falls through after its slot (spec 42 R320). -/
def State.branch (s : State) (c : Bool) (offset : BitVec 16) : Result :=
  s.outsideSlot (.next (s.delayed 4 (if c then branchTarget s.pc offset else s.pc + 8) s.isaMode false))

/-- A branch-likely: not taken, it nullifies its slot (spec 42 R320, R324). -/
def State.branchLikely (s : State) (c : Bool) (offset : BitVec 16) : Result :=
  s.outsideSlot (.next
    (if c then s.delayed 4 (branchTarget s.pc offset) s.isaMode false else { s with pc := s.pc + 8 }))

/-- The link value of MIPS32 mode (spec 42 R326). -/
def State.linkValue (s : State) : Word := s.pc + 8

/-- The base of a PC-relative operand of MIPS16e (spec 45 R451). -/
def State.basePc (s : State) : Word :=
  wordAddress (match s.delay with | some d => d.branch | none => s.pc)

/-- A MIPS16e branch, without delay slot (spec 45 R451). -/
def State.branch16 (s : State) (len : Word) (c : Bool) {n : Nat} (offset : BitVec n) : Result :=
  s.outsideSlot (.next { s with pc := if c then halfwordTarget (s.pc + len) offset else s.pc + len })

/-- A jump through a register, with a delay slot; bit 0 of `t` selects the ISA mode (spec 42 R333, 45 R497). -/
def State.jumpRegister (s : State) (len t : Word) (barrier : Bool) : State :=
  s.delayed len (clearIsaBit t) (isaOfBit (t.getLsbD 0)) barrier

/-- A compact jump through a register, without delay slot (spec 45 R500). -/
def State.jumpCompact (s : State) (t : Word) : State := s.jumpTo (clearIsaBit t) (isaOfBit (t.getLsbD 0))

/-- The stores of SAVE, one word below the other from `t` down, then `f`; after each the other bus masters may write, and a bus error that is held pending does not end them (spec 45 R478, 00 R13; log 21, log 27, log 35). -/
def State.pushWords (s : State) (len t : Word) (f : State → State) : List Word → Result
  | [] => (f s).done len
  | v :: vs =>
    let next := fun u : State => u.othersWrite.pushWords len (t - 4) f vs
    s.storeWith (s.memWrite .word (t - 4) v) next next

/-- The loads of RESTORE, one word below the other from `t` down, then `f`; after each the other bus masters may write, and a bus error that is held pending does not end them (spec 45 R479, 00 R13; log 21, log 27, log 35). -/
def State.popWords (s : State) (len t : Word) (f : State → State) : List Reg → Result
  | [] => (f s).done len
  | r :: rs =>
    let next := fun u : State => u.othersWrite.popWords len (t - 4) f rs
    s.loadWith r (s.memRead .word (t - 4)) id next next

/-- The registers SAVE and RESTORE move, highest address first (spec 45 R478, R479). -/
def frameRegs (ra s0 s1 : Bool) : List Reg :=
  (if ra then [regRa] else []) ++ (if s1 then [17] else []) ++ (if s0 then [16] else [])

/-- SAVE with a frame of `size` bytes (spec 45 R478). -/
def State.saveFrame (s : State) (len size : Word) (ra s0 s1 : Bool) : Result :=
  s.pushWords len (s.reg regSp) (fun t => t.write regSp (s.reg regSp - size)) ((frameRegs ra s0 s1).map s.reg)

/-- RESTORE with a frame of `size` bytes (spec 45 R479). -/
def State.restoreFrame (s : State) (len size : Word) (ra s0 s1 : Bool) : Result :=
  s.popWords len (s.reg regSp + size) (fun t => t.write regSp (s.reg regSp + size)) (frameRegs ra s0 s1)

/-- A debug breakpoint (spec 43 R365, 60 R661); in Debug mode the spec gives SDBBP no effect. -/
def State.debugBreakpoint (s : State) : Result :=
  if s.cp0.debugReg.dm then .refused .debugMode else .next (s.takeDebug .dbp)

/-- A Coprocessor Unusable exception for an absent coprocessor (spec 44 R410, R411). -/
def State.unusable (s : State) (n : BitVec 2) : Result := .next (s.raise (.cpu n))

/-- A floating-point encoding of which the spec does not say which exception it raises (spec 44 R412, R413; log 14). -/
def State.absentFloat (s : State) : Result :=
  .next (s.raise (if s.freeBit .absentCoprocessor then .ri else .cpu 1))

/-- A TLB instruction (spec 44 R414; log 14). -/
def State.tlbOp (s : State) : Result :=
  s.needCop0 .coprocessor (.next (if Config.tlbOpIsNop then s.advance 4 else s.raise .ri))

/-- A division: quotient and remainder, or unknown values where no result is stated (spec 41 R271, R272, R288; log 7). -/
def State.divide (s : State) (stated : Bool) (q r : Word) : State :=
  if stated then { s with hi := r, lo := q, hiLoUnread := true } else s.freeHiLo

/-- A write of a register by MTC0, EI or DI, with the hazard it creates (spec 70 R720). -/
def State.noteWrite (s : State) (reg : HazardReg) (c : Cp0) : State :=
  { s with cp0 := c, hazards := ⟨reg, s.cp0, 0⟩ :: s.hazards }

/-- The instruction hazards after an MTC0 to STATUS: fetches may still use the old mode or mapping (spec 70 R721). -/
def State.noteStatus (s : State) (old : Status) : State :=
  if s.cp0.status.um = old.um ∧ s.cp0.status.exl = old.exl ∧ s.cp0.status.erl = old.erl then s
  else { s with fetchHazards := old :: s.fetchHazards }

/-- STATUS.IE written by EI or DI (spec 44 R409, R415). -/
def State.setInterruptEnable (s : State) (b : Bool) : State :=
  s.noteWrite .interruptEnable { s.cp0 with status := { s.cp0.status with ie := b } }

/-- The registers written by MTC0 to `(rd, sel)`, with the hazards it creates (spec 44 R408, 70 R720, R721). -/
def State.writeCp0 (s : State) (rd : Reg) (sel : BitVec 3) (c : Cp0) : State :=
  match hazardReg rd sel with
  | none => s
  | some .status => (s.noteWrite .status c).noteStatus s.cp0.status
  | some k => s.noteWrite k c

end Sys2Proof.Machine
end

