-- ==== Sys2Proof/Machine/Boundary.lean ====
section
/-! DEFINITION. What happens between two instructions: the inputs of a step, the timer, the events that come before an instruction, and the fetch. -/

namespace Sys2Proof.Machine

/-- One tick of the core timer (spec 60 R650). -/
def Cp0.tick (c : Cp0) : Cp0 :=
  if c.cause.dc || (c.debugReg.dm && !c.debugReg.countDm) then c
  else
    { c with
      count := c.count + 1
      cause := { c.cause with ti := c.cause.ti || c.count + 1 == c.compare } }

/-- `n` ticks (spec 60 R650, 92 D5). -/
def Cp0.ticks (c : Cp0) : Nat → Cp0
  | 0 => c
  | n + 1 => c.tick.ticks n

/-- The request of the interrupt controller taken over (spec 60 R622). -/
def State.present (s : State) (q : EicRequest) : State :=
  { s with
    eicVector := q.vector
    cp0 := { s.cp0 with
      cause := { s.cp0.cause with ripl := q.ripl }
      srsCtl := { s.cp0.srsCtl with eicss := q.eicss } } }

/-- The input of this step: the oldest one, or a quiet outside (log 4). -/
def State.input (s : State) : StepInput := s.inputs.headD StepInput.quiet

/-- The state when the input of this step has arrived (spec 00 R13, 60 R622, R650, 20 R116). -/
def State.absorb (s : State) : State :=
  let inp := s.input
  let t : State := { s with inputs := s.inputs.tail, draws := s.draws + 1 }
  let t := match inp.eic with
    | some q => t.present q
    | none => t
  let t := t.busWrites inp.writes
  { t with
    between := inp.between
    cp0 := t.cp0.ticks inp.ticks
    hazards := t.hazards.map fun h => { h with old := h.old.ticks inp.ticks } }

/-- The hazards one instruction later; a write that every consumer sees is dropped (spec 70 R720). -/
def State.age (s : State) : State :=
  { s with hazards := (s.hazards.map fun h => { h with distance := h.distance + 1 }).filter fun h => h.distance ≤ 4 }

/-- The state in which this step runs its instruction, if no event comes first. -/
def State.ready (s : State) : State := { s.absorb.age with waiting := false }

/-- The event that comes before the instruction, in the order of precedence; none if the instruction runs (spec 60 R621, R625, R626; log 12, log 26). -/
def State.event (s : State) : Option Result :=
  let inp := s.input
  let t := s.absorb
  let a := t.age
  if inp.reset then some (.next (t.takeReset false))
  else if inp.softReset then some (.next (t.takeReset true))
  else if t.cp0.debugReg.dm then some (.refused .debugMode)
  else if t.cp0.debugReg.sst && t.freeBit .singleStep then some (.next (t.takeDebug .dss))
  else if inp.debugInterrupt then some (.next (t.takeDebug .dint))
  else if inp.nmi then some (.next t.takeNmi)
  else if (a.view .interrupt).interruptPending then some (.next (a.takeException .int))
  else if t.cp0.debugReg.ibusep && !t.cp0.debugReg.iexi then
    some (.next ({ a with cp0 := { a.cp0 with debugReg := { a.cp0.debugReg with ibusep := false } } }.takeException .ibe))
  else if t.cp0.debugReg.dbusep && !t.cp0.debugReg.iexi then
    some (.next ({ a with cp0 := { a.cp0 with debugReg := { a.cp0.debugReg with dbusep := false } } }.takeException .dbe))
  else if t.waiting && inp.stayIdle then some (.next t)
  else none

/-- What the fetch gives: an instruction to run, or the outcome of the step. -/
inductive Fetched where
  | run (i : Instr)
  | stop (r : Result)

/-- A fetch bus error: the exception, or pending while DEBUG.IEXI is 1 (spec 60 R614, 10 R75; log 27). -/
def State.fetchBusError (s : State) : Result :=
  if s.cp0.debugReg.iexi then .next { s with cp0 := { s.cp0 with debugReg := { s.cp0.debugReg with ibusep := true } } }
  else .next (s.raise .ibe)

/-- What a decoded word does: run, raise an exception, or stop (spec 30 R166, R167, 44 R417, 45 R448, R527). -/
def State.ofDecoded (s : State) : Decoded → Fetched
  | .instr i => .run i
  | .reserved => .stop (.next (s.raise .ri))
  | .reservedCop0 => .stop (s.needCop0 .coprocessor (.next (s.raise .ri)))
  | .nonzeroField => .stop (.refused .nonzeroField)
  | .notExtensible | .truncated => .stop (.refused .notExtensible)

/-- A fetch that failed (spec 20 R122): the exception is raised at the instruction, so EPC is its first address, or the branch's (60 R632, R639).
That this is so too where the second halfword of JAL or JALX fails, whose fetch is at pc + 2 (60 R612), is a DESIGN CHOICE (log 46); for EXTEND 45 R448 says it. -/
def State.fetchFailed {α : Type} (s : State) (m : MemResult α) : Result :=
  match m with
  | .addressError va => .next (s.raise (.adEL va))
  | _ => s.fetchBusError

/-- Fetch and decode at the program counter (spec 20 R122, 30 R150, R170, 45 R445). -/
def State.fetchDecode (s : State) : Fetched :=
  match s.isaMode with
  | .mips32 =>
    match s.fetchWord s.pc with
    | .ok w => s.ofDecoded (decodeWord w)
    | m => .stop (s.fetchFailed m)
  | .mips16 =>
    match s.fetchHalf s.pc with
    | .ok h =>
      if hasSecondHalf h then
        match s.fetchHalf (s.pc + 2) with
        | .ok h2 => s.ofDecoded (decodePair h h2)
        | m => .stop (s.fetchFailed m)
      else s.ofDecoded (decodeHalf h)
    | m => .stop (s.fetchFailed m)

/-- An instruction of the opcode table placed where the next fetch reads, with the ISA mode it is read in (log 23, log 24). -/
def State.placeInstruction (s : State) (nbits w : Nat) : State :=
  let p := tableBytes nbits w
  { s with isaMode := p.1, waiting := false }.placeBytes (translate s.cp0 s.pc) p.2

end Sys2Proof.Machine
end

