-- ==== Sys2Proof/Machine/Arith.lean ====
section
/-! DEFINITION. Addition, comparison, logic, shifts, bit fields and conditional moves (spec 41, 43). -/

namespace Sys2Proof.Machine

/-- ADD (spec 41 R243). -/
def execAdd (rd rs rt : Reg) (s : State) : Result :=
  s.resultOrOverflow rd (addOverflows (s.reg rs) (s.reg rt)) (s.reg rs + s.reg rt)

/-- SUB (spec 41 R245). -/
def execSub (rd rs rt : Reg) (s : State) : Result :=
  s.resultOrOverflow rd (subOverflows (s.reg rs) (s.reg rt)) (s.reg rs - s.reg rt)

/-- ADDI (spec 41 R247). -/
def execAddi (rt rs : Reg) (imm : BitVec 16) (s : State) : Result :=
  s.resultOrOverflow rt (addOverflows (s.reg rs) (sext imm)) (s.reg rs + sext imm)

/-- ADDU (spec 41 R244). -/
def execAddu (rd rs rt : Reg) (s : State) : Result :=
  s.result 4 rd (s.reg rs + s.reg rt)

/-- SUBU (spec 41 R246). -/
def execSubu (rd rs rt : Reg) (s : State) : Result :=
  s.result 4 rd (s.reg rs - s.reg rt)

/-- SLT (spec 41 R249). -/
def execSlt (rd rs rt : Reg) (s : State) : Result :=
  s.result 4 rd (flagWord (ltSigned (s.reg rs) (s.reg rt)))

/-- SLTU (spec 41 R250). -/
def execSltu (rd rs rt : Reg) (s : State) : Result :=
  s.result 4 rd (flagWord (ltUnsigned (s.reg rs) (s.reg rt)))

/-- AND (spec 41 R253). -/
def execAnd (rd rs rt : Reg) (s : State) : Result :=
  s.result 4 rd (s.reg rs &&& s.reg rt)

/-- OR (spec 41 R254). -/
def execOr (rd rs rt : Reg) (s : State) : Result :=
  s.result 4 rd (s.reg rs ||| s.reg rt)

/-- XOR (spec 41 R255). -/
def execXor (rd rs rt : Reg) (s : State) : Result :=
  s.result 4 rd (s.reg rs ^^^ s.reg rt)

/-- NOR (spec 41 R256). -/
def execNor (rd rs rt : Reg) (s : State) : Result :=
  s.result 4 rd (~~~(s.reg rs ||| s.reg rt))

/-- ADDIU (spec 41 R248). -/
def execAddiu (rt rs : Reg) (imm : BitVec 16) (s : State) : Result :=
  s.result 4 rt (s.reg rs + sext imm)

/-- SLTI (spec 41 R251). -/
def execSlti (rt rs : Reg) (imm : BitVec 16) (s : State) : Result :=
  s.result 4 rt (flagWord (ltSigned (s.reg rs) (sext imm)))

/-- SLTIU (spec 41 R252). -/
def execSltiu (rt rs : Reg) (imm : BitVec 16) (s : State) : Result :=
  s.result 4 rt (flagWord (ltUnsigned (s.reg rs) (sext imm)))

/-- ANDI (spec 41 R257). -/
def execAndi (rt rs : Reg) (imm : BitVec 16) (s : State) : Result :=
  s.result 4 rt (s.reg rs &&& zext imm)

/-- ORI (spec 41 R258). -/
def execOri (rt rs : Reg) (imm : BitVec 16) (s : State) : Result :=
  s.result 4 rt (s.reg rs ||| zext imm)

/-- XORI (spec 41 R259). -/
def execXori (rt rs : Reg) (imm : BitVec 16) (s : State) : Result :=
  s.result 4 rt (s.reg rs ^^^ zext imm)

/-- LUI (spec 41 R260). -/
def execLui (rt : Reg) (imm : BitVec 16) (s : State) : Result :=
  s.result 4 rt (imm ++ 0#16)

/-- SLL (spec 41 R261). -/
def execSll (rd rt sa : Reg) (s : State) : Result :=
  s.result 4 rd (s.reg rt <<< sa.toNat)

/-- SRL (spec 41 R262). -/
def execSrl (rd rt sa : Reg) (s : State) : Result :=
  s.result 4 rd (s.reg rt >>> sa.toNat)

/-- SRA (spec 41 R263). -/
def execSra (rd rt sa : Reg) (s : State) : Result :=
  s.result 4 rd (shiftRightArith (s.reg rt) sa.toNat)

/-- ROTR (spec 41 R267). -/
def execRotr (rd rt sa : Reg) (s : State) : Result :=
  s.result 4 rd (rotateRight (s.reg rt) sa.toNat)

/-- SLLV (spec 41 R264). -/
def execSllv (rd rt rs : Reg) (s : State) : Result :=
  s.result 4 rd (s.reg rt <<< ((s.reg rs).extractLsb' 0 5).toNat)

/-- SRLV (spec 41 R265). -/
def execSrlv (rd rt rs : Reg) (s : State) : Result :=
  s.result 4 rd (s.reg rt >>> ((s.reg rs).extractLsb' 0 5).toNat)

/-- SRAV (spec 41 R266). -/
def execSrav (rd rt rs : Reg) (s : State) : Result :=
  s.result 4 rd (shiftRightArith (s.reg rt) ((s.reg rs).extractLsb' 0 5).toNat)

/-- ROTRV (spec 41 R268). -/
def execRotrv (rd rt rs : Reg) (s : State) : Result :=
  s.result 4 rd (rotateRight (s.reg rt) ((s.reg rs).extractLsb' 0 5).toNat)

/-- CLZ (spec 41 R282). -/
def execClz (rd rs rt : Reg) (s : State) : Result :=
  if rt = rd then s.result 4 rd (countZeros (s.reg rs)) else .refused .unpredictableForm

/-- CLO (spec 41 R283). -/
def execClo (rd rs rt : Reg) (s : State) : Result :=
  if rt = rd then s.result 4 rd (countOnes (s.reg rs)) else .refused .unpredictableForm

/-- EXT (spec 41 R284). -/
def execExt (rt rs msbd lsb : Reg) (s : State) : Result :=
  if lsb.toNat + msbd.toNat ≤ 31 then s.result 4 rt (extractField (s.reg rs) msbd lsb)
  else .refused .unpredictableForm

/-- INS (spec 41 R285). -/
def execIns (rt rs msb lsb : Reg) (s : State) : Result :=
  if lsb.toNat ≤ msb.toNat then s.result 4 rt (insertField (s.reg rt) (s.reg rs) msb lsb)
  else .refused .unpredictableForm

/-- SEB (spec 41 R286). -/
def execSeb (rd rt : Reg) (s : State) : Result :=
  s.result 4 rd (signByte (s.reg rt))

/-- SEH (spec 41 R287). -/
def execSeh (rd rt : Reg) (s : State) : Result :=
  s.result 4 rd (signHalf (s.reg rt))

/-- WSBH (spec 41 R291). -/
def execWsbh (rd rt : Reg) (s : State) : Result :=
  s.result 4 rd (swapBytes (s.reg rt))

/-- MOVZ (spec 43 R378). -/
def execMovz (rd rs rt : Reg) (s : State) : Result :=
  if s.reg rt = 0 then s.result 4 rd (s.reg rs) else .next (s.advance 4)

/-- MOVN (spec 43 R379). -/
def execMovn (rd rs rt : Reg) (s : State) : Result :=
  if s.reg rt = 0 then .next (s.advance 4) else s.result 4 rd (s.reg rs)

end Sys2Proof.Machine
end

