-- ==== Sys2Proof/Machine/Branch.lean ====
section
/-! DEFINITION. Jumps and branches of MIPS32 mode (spec 42). -/

namespace Sys2Proof.Machine

/-- J (spec 42 R330). -/
def execJ (index : BitVec 26) (s : State) : Result :=
  s.outsideSlot (.next (s.delayed 4 (jumpTarget s.pc index) s.isaMode false))

/-- JAL (spec 42 R331). -/
def execJal (index : BitVec 26) (s : State) : Result :=
  s.outsideSlot (.next ((s.write regRa s.linkValue).delayed 4 (jumpTarget s.pc index) s.isaMode false))

/-- JALX (spec 42 R332). -/
def execJalx (index : BitVec 26) (s : State) : Result :=
  s.outsideSlot (.next ((s.write regRa s.linkValue).delayed 4 (jumpTarget s.pc index) .mips16 false))

/-- JR (spec 42 R333, 30 R168). -/
def execJr (rs : Reg) (_hint : BitVec 4) (s : State) : Result :=
  s.outsideSlot (.next (s.jumpRegister 4 (s.reg rs) false))

/-- JR.HB (spec 42 R334, 30 R168). -/
def execJrHb (rs : Reg) (_hint : BitVec 4) (s : State) : Result :=
  s.outsideSlot (.next (s.jumpRegister 4 (s.reg rs) true))

/-- JALR (spec 42 R335, 30 R168). -/
def execJalr (rd rs : Reg) (_hint : BitVec 4) (s : State) : Result :=
  s.outsideSlot
    (if rd = rs then .refused .unpredictableForm
     else .next ((s.write rd s.linkValue).jumpRegister 4 (s.reg rs) false))

/-- JALR.HB (spec 42 R336, 30 R168). -/
def execJalrHb (rd rs : Reg) (_hint : BitVec 4) (s : State) : Result :=
  s.outsideSlot
    (if rd = rs then .refused .unpredictableForm
     else .next ((s.write rd s.linkValue).jumpRegister 4 (s.reg rs) true))

/-- BEQ (spec 42 R337). -/
def execBeq (rs rt : Reg) (offset : BitVec 16) (s : State) : Result :=
  s.branch (s.reg rs == s.reg rt) offset

/-- BEQL (spec 42 R345). -/
def execBeql (rs rt : Reg) (offset : BitVec 16) (s : State) : Result :=
  s.branchLikely (s.reg rs == s.reg rt) offset

/-- BNE (spec 42 R338). -/
def execBne (rs rt : Reg) (offset : BitVec 16) (s : State) : Result :=
  s.branch (s.reg rs != s.reg rt) offset

/-- BNEL (spec 42 R346). -/
def execBnel (rs rt : Reg) (offset : BitVec 16) (s : State) : Result :=
  s.branchLikely (s.reg rs != s.reg rt) offset

/-- BLEZ (spec 42 R339). -/
def execBlez (rs : Reg) (offset : BitVec 16) (s : State) : Result :=
  s.branch (leZero (s.reg rs)) offset

/-- BLEZL (spec 42 R347). -/
def execBlezl (rs : Reg) (offset : BitVec 16) (s : State) : Result :=
  s.branchLikely (leZero (s.reg rs)) offset

/-- BGTZ (spec 42 R340). -/
def execBgtz (rs : Reg) (offset : BitVec 16) (s : State) : Result :=
  s.branch (gtZero (s.reg rs)) offset

/-- BGTZL (spec 42 R348). -/
def execBgtzl (rs : Reg) (offset : BitVec 16) (s : State) : Result :=
  s.branchLikely (gtZero (s.reg rs)) offset

/-- BLTZ (spec 42 R341). -/
def execBltz (rs : Reg) (offset : BitVec 16) (s : State) : Result :=
  s.branch (ltZero (s.reg rs)) offset

/-- BLTZL (spec 42 R349). -/
def execBltzl (rs : Reg) (offset : BitVec 16) (s : State) : Result :=
  s.branchLikely (ltZero (s.reg rs)) offset

/-- BGEZ (spec 42 R342). -/
def execBgez (rs : Reg) (offset : BitVec 16) (s : State) : Result :=
  s.branch (geZero (s.reg rs)) offset

/-- BGEZL (spec 42 R350). -/
def execBgezl (rs : Reg) (offset : BitVec 16) (s : State) : Result :=
  s.branchLikely (geZero (s.reg rs)) offset

/-- BLTZAL (spec 42 R343). -/
def execBltzal (rs : Reg) (offset : BitVec 16) (s : State) : Result :=
  s.outsideSlot
    (if rs = 31 then .refused .unpredictableForm
     else (s.write regRa s.linkValue).branch (ltZero (s.reg rs)) offset)

/-- BLTZALL (spec 42 R351). -/
def execBltzall (rs : Reg) (offset : BitVec 16) (s : State) : Result :=
  s.outsideSlot
    (if rs = 31 then .refused .unpredictableForm
     else (s.write regRa s.linkValue).branchLikely (ltZero (s.reg rs)) offset)

/-- BGEZAL (spec 42 R344). -/
def execBgezal (rs : Reg) (offset : BitVec 16) (s : State) : Result :=
  s.outsideSlot
    (if rs = 31 then .refused .unpredictableForm
     else (s.write regRa s.linkValue).branch (geZero (s.reg rs)) offset)

/-- BGEZALL (spec 42 R352). -/
def execBgezall (rs : Reg) (offset : BitVec 16) (s : State) : Result :=
  s.outsideSlot
    (if rs = 31 then .refused .unpredictableForm
     else (s.write regRa s.linkValue).branchLikely (geZero (s.reg rs)) offset)

end Sys2Proof.Machine
end

