-- ==== Sys2Proof/Machine/Cop0.lean ====
section
/-! DEFINITION. Coprocessor 0 moves, returns, and the absent coprocessors (spec 44). -/

namespace Sys2Proof.Machine

/-- MFC0 (spec 44 R403). -/
def execMfc0 (rt rd : Reg) (sel : Reg3) (s : State) : Result :=
  s.needCop0 .coprocessor (s.result 4 rt (s.seen.read s.free rd sel))

/-- MTC0 (spec 44 R408). -/
def execMtc0 (rt rd : Reg) (sel : Reg3) (s : State) : Result :=
  s.needCop0 .coprocessor
    (match s.cp0.write s.seen s.pc rd sel (s.reg rt) with
     | .ok c => .next ((s.writeCp0 rd sel c).advance 4)
     | .error f => .fault f)

/-- RDPGPR (spec 44 R406). -/
def execRdpgpr (rd rt : Reg) (s : State) : Result :=
  s.needCop0 .coprocessor (s.result 4 rd (s.regOf (s.view .previousSet).srsCtl.pss rt))

/-- WRPGPR (spec 44 R407). -/
def execWrpgpr (rd rt : Reg) (s : State) : Result :=
  s.needCop0 .coprocessor (.next ((s.writeSet (s.view .previousSet).srsCtl.pss rd (s.reg rt)).advance 4))

/-- DI (spec 44 R409). -/
def execDi (rt : Reg) (s : State) : Result :=
  s.needCop0 .coprocessor ((s.setInterruptEnable false).result 4 rt s.seen.status.toWord)

/-- EI (spec 44 R415). -/
def execEi (rt : Reg) (s : State) : Result :=
  s.needCop0 .coprocessor ((s.setInterruptEnable true).result 4 rt s.seen.status.toWord)

/-- ERET (spec 44 R404). -/
def execEret (s : State) : Result :=
  s.outsideSlot (s.needCop0 .eret (.next s.returnFromException))

/-- DERET (spec 44 R405). -/
def execDeret (s : State) : Result :=
  s.outsideSlot (s.needCop0 .eret (.next (if s.cp0.debugReg.dm then s.returnFromDebug else s.raise .ri)))

/-- TLBR (spec 44 R414). -/
def execTlbr (s : State) : Result :=
  s.tlbOp

/-- TLBWI (spec 44 R414). -/
def execTlbwi (s : State) : Result :=
  s.tlbOp

/-- TLBWR (spec 44 R414). -/
def execTlbwr (s : State) : Result :=
  s.tlbOp

/-- TLBP (spec 44 R414). -/
def execTlbp (s : State) : Result :=
  s.tlbOp

/-- COP1 (spec 44 R410). -/
def execCop1 (_cofun : BitVec 26) (s : State) : Result :=
  s.unusable 1

/-- COP2 (spec 44 R411). -/
def execCop2 (_cofun : BitVec 26) (s : State) : Result :=
  s.unusable 2

/-- COP1X (spec 44 R412). -/
def execCop1x (_cofun : BitVec 26) (s : State) : Result :=
  s.absentFloat

/-- MOVCI (spec 44 R413). -/
def execMovci (_operands : BitVec 20) (s : State) : Result :=
  s.absentFloat

end Sys2Proof.Machine
end

