-- ==== Sys2Proof/Machine/LoadStore.lean ====
section
/-! DEFINITION. Loads and stores (spec 40). -/

namespace Sys2Proof.Machine

/-- LB (spec 40 R201). -/
def execLb (rt base : Reg) (offset : BitVec 16) (s : State) : Result :=
  s.loadTo 4 rt (s.memRead .byte (s.reg base + sext offset)) signByte

/-- LBU (spec 40 R202). -/
def execLbu (rt base : Reg) (offset : BitVec 16) (s : State) : Result :=
  s.loadTo 4 rt (s.memRead .byte (s.reg base + sext offset)) id

/-- LH (spec 40 R203). -/
def execLh (rt base : Reg) (offset : BitVec 16) (s : State) : Result :=
  s.loadTo 4 rt (s.memRead .half (s.reg base + sext offset)) signHalf

/-- LHU (spec 40 R204). -/
def execLhu (rt base : Reg) (offset : BitVec 16) (s : State) : Result :=
  s.loadTo 4 rt (s.memRead .half (s.reg base + sext offset)) id

/-- LW (spec 40 R205). -/
def execLw (rt base : Reg) (offset : BitVec 16) (s : State) : Result :=
  s.loadTo 4 rt (s.memRead .word (s.reg base + sext offset)) id

/-- LWL (spec 40 R207). -/
def execLwl (rt base : Reg) (offset : BitVec 16) (s : State) : Result :=
  let va := s.reg base + sext offset
  s.loadTo 4 rt (s.memReadPartial va) fun w => mergeLeft (s.reg rt) w (partialByte s.seen va)

/-- LWR (spec 40 R208). -/
def execLwr (rt base : Reg) (offset : BitVec 16) (s : State) : Result :=
  let va := s.reg base + sext offset
  s.loadTo 4 rt (s.memReadPartial va) fun w => mergeRight (s.reg rt) w (partialByte s.seen va)

/-- SB (spec 40 R206). -/
def execSb (rt base : Reg) (offset : BitVec 16) (s : State) : Result :=
  s.storeTo 4 (s.memWrite .byte (s.reg base + sext offset) (s.reg rt))

/-- SH (spec 40 R213). -/
def execSh (rt base : Reg) (offset : BitVec 16) (s : State) : Result :=
  s.storeTo 4 (s.memWrite .half (s.reg base + sext offset) (s.reg rt))

/-- SW (spec 40 R214). -/
def execSw (rt base : Reg) (offset : BitVec 16) (s : State) : Result :=
  s.storeTo 4 (s.memWrite .word (s.reg base + sext offset) (s.reg rt))

/-- SWL (spec 40 R209). -/
def execSwl (rt base : Reg) (offset : BitVec 16) (s : State) : Result :=
  s.storeTo 4 (s.memWritePartial true (s.reg base + sext offset) (s.reg rt))

/-- SWR (spec 40 R210). -/
def execSwr (rt base : Reg) (offset : BitVec 16) (s : State) : Result :=
  s.storeTo 4 (s.memWritePartial false (s.reg base + sext offset) (s.reg rt))

/-- LL; LLbit is a free bit after a bus error that is held pending (spec 40 R211; log 27). -/
def execLl (rt base : Reg) (offset : BitVec 16) (s : State) : Result :=
  s.loadWith rt (s.memRead .word (s.reg base + sext offset)) id (fun t => { t with llbit := true }.done 4)
    fun t => { t with llbit := t.freeBit .llbit }.done 4

/-- SC; `rt` and LLbit are free after a bus error that is held pending (spec 40 R212; log 27). -/
def execSc (rt base : Reg) (offset : BitVec 16) (s : State) : Result :=
  let va := s.reg base + sext offset
  if misaligned .word va || !allowed s.seen va then .next (s.raise (.adES va))
  else if s.llbit then
    s.storeWith (s.memWrite .word va (s.reg rt)) (fun t => ({ t with llbit := false }.write rt 1).done 4)
      fun t => ({ t with llbit := t.freeBit .llbit }.freeLoaded rt).done 4
  else { s with llbit := false }.result 4 rt 0

/-- PREF (spec 40 R215). -/
def execPref (_hint _base : Reg) (_offset : BitVec 16) (s : State) : Result :=
  .next (s.advance 4)

/-- CACHE (spec 40 R216). -/
def execCache (_op _base : Reg) (_offset : BitVec 16) (s : State) : Result :=
  s.needCop0 .coprocessor (.next (s.advance 4))

/-- LWC1 (spec 40 R217). -/
def execLwc1 (_rt _base : Reg) (_offset : BitVec 16) (s : State) : Result :=
  s.unusable 1

/-- LDC1 (spec 40 R219). -/
def execLdc1 (_rt _base : Reg) (_offset : BitVec 16) (s : State) : Result :=
  s.unusable 1

/-- SWC1 (spec 40 R221). -/
def execSwc1 (_rt _base : Reg) (_offset : BitVec 16) (s : State) : Result :=
  s.unusable 1

/-- SDC1 (spec 40 R223). -/
def execSdc1 (_rt _base : Reg) (_offset : BitVec 16) (s : State) : Result :=
  s.unusable 1

/-- LWC2 (spec 40 R218). -/
def execLwc2 (_rt _base : Reg) (_offset : BitVec 16) (s : State) : Result :=
  s.unusable 2

/-- LDC2 (spec 40 R220). -/
def execLdc2 (_rt _base : Reg) (_offset : BitVec 16) (s : State) : Result :=
  s.unusable 2

/-- SWC2 (spec 40 R222). -/
def execSwc2 (_rt _base : Reg) (_offset : BitVec 16) (s : State) : Result :=
  s.unusable 2

/-- SDC2 (spec 40 R224). -/
def execSdc2 (_rt _base : Reg) (_offset : BitVec 16) (s : State) : Result :=
  s.unusable 2

end Sys2Proof.Machine
end

