-- ==== Sys2Proof/Machine/Mips16.lean ====
section
/-! DEFINITION. MIPS16e instructions (spec 45). -/

namespace Sys2Proof.Machine

/-- MIPS16e.ADDIUSP (spec 45 R460). -/
def execM16Addiusp (x : Reg3) (imm : BitVec 8) (s : State) : Result :=
  s.result 2 (mapReg x) (s.reg regSp + scaled imm 2)

/-- MIPS16e.ADDIUPC (spec 45 R461). -/
def execM16Addiupc (x : Reg3) (imm : BitVec 8) (s : State) : Result :=
  s.result 2 (mapReg x) (s.basePc + scaled imm 2)

/-- MIPS16e.B (spec 45 R462). -/
def execM16B (offset : BitVec 11) (s : State) : Result :=
  s.branch16 2 true offset

/-- MIPS16e.BEQZ (spec 45 R465). -/
def execM16Beqz (x : Reg3) (offset : BitVec 8) (s : State) : Result :=
  s.branch16 2 (s.xr x == 0) offset

/-- MIPS16e.BNEZ (spec 45 R466). -/
def execM16Bnez (x : Reg3) (offset : BitVec 8) (s : State) : Result :=
  s.branch16 2 (s.xr x != 0) offset

/-- MIPS16e.SLL (spec 45 R467). -/
def execM16Sll (x y sa : Reg3) (s : State) : Result :=
  s.result 2 (mapReg x) (s.xr y <<< shiftAmount3 sa)

/-- MIPS16e.SRL (spec 45 R468). -/
def execM16Srl (x y sa : Reg3) (s : State) : Result :=
  s.result 2 (mapReg x) (s.xr y >>> shiftAmount3 sa)

/-- MIPS16e.SRA (spec 45 R469). -/
def execM16Sra (x y sa : Reg3) (s : State) : Result :=
  s.result 2 (mapReg x) (shiftRightArith (s.xr y) (shiftAmount3 sa))

/-- MIPS16e.ADDIU (spec 45 R470). -/
def execM16Addiu (y x : Reg3) (imm : BitVec 4) (s : State) : Result :=
  s.result 2 (mapReg y) (s.xr x + sext imm)

/-- MIPS16e.ADDIU8 (spec 45 R471). -/
def execM16Addiu8 (x : Reg3) (imm : BitVec 8) (s : State) : Result :=
  s.result 2 (mapReg x) (s.xr x + sext imm)

/-- MIPS16e.SLTI (spec 45 R472). -/
def execM16Slti (x : Reg3) (imm : BitVec 8) (s : State) : Result :=
  s.result 2 regT8 (flagWord (ltSigned (s.xr x) (zext imm)))

/-- MIPS16e.SLTIU (spec 45 R473). -/
def execM16Sltiu (x : Reg3) (imm : BitVec 8) (s : State) : Result :=
  s.result 2 regT8 (flagWord (ltUnsigned (s.xr x) (zext imm)))

/-- MIPS16e.BTEQZ (spec 45 R474). -/
def execM16Bteqz (offset : BitVec 8) (s : State) : Result :=
  s.branch16 2 (s.reg regT8 == 0) offset

/-- MIPS16e.BTNEZ (spec 45 R475). -/
def execM16Btnez (offset : BitVec 8) (s : State) : Result :=
  s.branch16 2 (s.reg regT8 != 0) offset

/-- MIPS16e.SWRASP (spec 45 R476). -/
def execM16Swrasp (imm : BitVec 8) (s : State) : Result :=
  s.storeTo 2 (s.memWrite .word (s.reg regSp + scaled imm 2) (s.reg regRa))

/-- MIPS16e.ADJSP (spec 45 R477). -/
def execM16Adjsp (imm : BitVec 8) (s : State) : Result :=
  s.result 2 regSp (s.reg regSp + (sext imm <<< 3))

/-- MIPS16e.LI (spec 45 R482). -/
def execM16Li (x : Reg3) (imm : BitVec 8) (s : State) : Result :=
  s.result 2 (mapReg x) (zext imm)

/-- MIPS16e.CMPI (spec 45 R483). -/
def execM16Cmpi (x : Reg3) (imm : BitVec 8) (s : State) : Result :=
  s.result 2 regT8 (s.xr x ^^^ zext imm)

/-- MIPS16e.LB (spec 45 R484). -/
def execM16Lb (y x : Reg3) (imm : Reg) (s : State) : Result :=
  s.loadTo 2 (mapReg y) (s.memRead .byte (s.xr x + zext imm)) signByte

/-- MIPS16e.LH (spec 45 R485). -/
def execM16Lh (y x : Reg3) (imm : Reg) (s : State) : Result :=
  s.loadTo 2 (mapReg y) (s.memRead .half (s.xr x + scaled imm 1)) signHalf

/-- MIPS16e.LWSP (spec 45 R486). -/
def execM16Lwsp (x : Reg3) (imm : BitVec 8) (s : State) : Result :=
  s.loadTo 2 (mapReg x) (s.memRead .word (s.reg regSp + scaled imm 2)) id

/-- MIPS16e.LW (spec 45 R487). -/
def execM16Lw (y x : Reg3) (imm : Reg) (s : State) : Result :=
  s.loadTo 2 (mapReg y) (s.memRead .word (s.xr x + scaled imm 2)) id

/-- MIPS16e.LBU (spec 45 R488). -/
def execM16Lbu (y x : Reg3) (imm : Reg) (s : State) : Result :=
  s.loadTo 2 (mapReg y) (s.memRead .byte (s.xr x + zext imm)) id

/-- MIPS16e.LHU (spec 45 R489). -/
def execM16Lhu (y x : Reg3) (imm : Reg) (s : State) : Result :=
  s.loadTo 2 (mapReg y) (s.memRead .half (s.xr x + scaled imm 1)) id

/-- MIPS16e.LWPC (spec 45 R490). -/
def execM16Lwpc (x : Reg3) (imm : BitVec 8) (s : State) : Result :=
  s.loadTo 2 (mapReg x) (s.memRead .word (s.basePc + scaled imm 2)) id

/-- MIPS16e.SB (spec 45 R491). -/
def execM16Sb (y x : Reg3) (imm : Reg) (s : State) : Result :=
  s.storeTo 2 (s.memWrite .byte (s.xr x + zext imm) (s.xr y))

/-- MIPS16e.SH (spec 45 R492). -/
def execM16Sh (y x : Reg3) (imm : Reg) (s : State) : Result :=
  s.storeTo 2 (s.memWrite .half (s.xr x + scaled imm 1) (s.xr y))

/-- MIPS16e.SWSP (spec 45 R493). -/
def execM16Swsp (x : Reg3) (imm : BitVec 8) (s : State) : Result :=
  s.storeTo 2 (s.memWrite .word (s.reg regSp + scaled imm 2) (s.xr x))

/-- MIPS16e.SW (spec 45 R494). -/
def execM16Sw (y x : Reg3) (imm : Reg) (s : State) : Result :=
  s.storeTo 2 (s.memWrite .word (s.xr x + scaled imm 2) (s.xr y))

/-- MIPS16e.SAVE (spec 45 R478). -/
def execM16Save (ra s0 s1 : Bool) (frame : BitVec 4) (s : State) : Result :=
  s.saveFrame 2 (frameBytes frame) ra s0 s1

/-- MIPS16e.RESTORE (spec 45 R479). -/
def execM16Restore (ra s0 s1 : Bool) (frame : BitVec 4) (s : State) : Result :=
  s.restoreFrame 2 (frameBytes frame) ra s0 s1

/-- MIPS16e.JAL (spec 45 R463). -/
def execM16Jal (index : BitVec 26) (s : State) : Result :=
  s.outsideSlot (.next ((s.write regRa ((s.pc + 6) ||| 1)).delayed 4 (jumpTarget s.pc index) .mips16 false))

/-- MIPS16e.JALX (spec 45 R464). -/
def execM16Jalx (index : BitVec 26) (s : State) : Result :=
  s.outsideSlot (.next ((s.write regRa ((s.pc + 6) ||| 1)).delayed 4 (jumpTarget s.pc index) .mips32 false))

/-- MIPS16e.MOV32R (spec 45 R480). -/
def execM16Mov32r (r32 : Reg) (z : Reg3) (s : State) : Result :=
  s.result 2 r32 (s.xr z)

/-- MIPS16e.MOVR32 (spec 45 R481). -/
def execM16Movr32 (y : Reg3) (r32 : Reg) (s : State) : Result :=
  s.result 2 (mapReg y) (s.reg r32)

/-- MIPS16e.ADDU (spec 45 R495). -/
def execM16Addu (z x y : Reg3) (s : State) : Result :=
  s.result 2 (mapReg z) (s.xr x + s.xr y)

/-- MIPS16e.SUBU (spec 45 R496). -/
def execM16Subu (z x y : Reg3) (s : State) : Result :=
  s.result 2 (mapReg z) (s.xr x - s.xr y)

/-- MIPS16e.JR (spec 45 R497). -/
def execM16Jr (x : Reg3) (s : State) : Result :=
  s.outsideSlot (.next (s.jumpRegister 2 (s.xr x) false))

/-- MIPS16e.JR.ra (spec 45 R498). -/
def execM16JrRa (s : State) : Result :=
  s.outsideSlot (.next (s.jumpRegister 2 (s.reg regRa) false))

/-- MIPS16e.JALR (spec 45 R499). -/
def execM16Jalr (x : Reg3) (s : State) : Result :=
  s.outsideSlot (.next ((s.write regRa ((s.pc + 4) ||| 1)).jumpRegister 2 (s.xr x) false))

/-- MIPS16e.JRC (spec 45 R500). -/
def execM16Jrc (x : Reg3) (s : State) : Result :=
  s.outsideSlot (.next (s.jumpCompact (s.xr x)))

/-- MIPS16e.JRC.ra (spec 45 R501). -/
def execM16JrcRa (s : State) : Result :=
  s.outsideSlot (.next (s.jumpCompact (s.reg regRa)))

/-- MIPS16e.JALRC (spec 45 R502). -/
def execM16Jalrc (x : Reg3) (s : State) : Result :=
  s.outsideSlot (.next ((s.write regRa ((s.pc + 2) ||| 1)).jumpCompact (s.xr x)))

/-- MIPS16e.SDBBP (spec 45 R503). -/
def execM16Sdbbp (_code : BitVec 6) (s : State) : Result :=
  s.debugBreakpoint

/-- MIPS16e.BREAK (spec 45 R507). -/
def execM16Break (_code : BitVec 6) (s : State) : Result :=
  .next (s.raise .bp)

/-- MIPS16e.SLT (spec 45 R504). -/
def execM16Slt (x y : Reg3) (s : State) : Result :=
  s.result 2 regT8 (flagWord (ltSigned (s.xr x) (s.xr y)))

/-- MIPS16e.SLTU (spec 45 R505). -/
def execM16Sltu (x y : Reg3) (s : State) : Result :=
  s.result 2 regT8 (flagWord (ltUnsigned (s.xr x) (s.xr y)))

/-- MIPS16e.SLLV (spec 45 R506). -/
def execM16Sllv (y x : Reg3) (s : State) : Result :=
  s.result 2 (mapReg y) (s.xr y <<< ((s.xr x).extractLsb' 0 5).toNat)

/-- MIPS16e.SRLV (spec 45 R508). -/
def execM16Srlv (y x : Reg3) (s : State) : Result :=
  s.result 2 (mapReg y) (s.xr y >>> ((s.xr x).extractLsb' 0 5).toNat)

/-- MIPS16e.SRAV (spec 45 R509). -/
def execM16Srav (y x : Reg3) (s : State) : Result :=
  s.result 2 (mapReg y) (shiftRightArith (s.xr y) ((s.xr x).extractLsb' 0 5).toNat)

/-- MIPS16e.CMP (spec 45 R510). -/
def execM16Cmp (x y : Reg3) (s : State) : Result :=
  s.result 2 regT8 (s.xr x ^^^ s.xr y)

/-- MIPS16e.NEG (spec 45 R511). -/
def execM16Neg (x y : Reg3) (s : State) : Result :=
  s.result 2 (mapReg x) (0 - s.xr y)

/-- MIPS16e.AND (spec 45 R512). -/
def execM16And (x y : Reg3) (s : State) : Result :=
  s.result 2 (mapReg x) (s.xr x &&& s.xr y)

/-- MIPS16e.OR (spec 45 R513). -/
def execM16Or (x y : Reg3) (s : State) : Result :=
  s.result 2 (mapReg x) (s.xr x ||| s.xr y)

/-- MIPS16e.XOR (spec 45 R514). -/
def execM16Xor (x y : Reg3) (s : State) : Result :=
  s.result 2 (mapReg x) (s.xr x ^^^ s.xr y)

/-- MIPS16e.NOT (spec 45 R515). -/
def execM16Not (x y : Reg3) (s : State) : Result :=
  s.result 2 (mapReg x) (~~~(s.xr y))

/-- MIPS16e.MFHI (spec 45 R516). -/
def execM16Mfhi (x : Reg3) (s : State) : Result :=
  { s with hiLoUnread := false }.result 2 (mapReg x) s.hi

/-- MIPS16e.MFLO (spec 45 R517). -/
def execM16Mflo (x : Reg3) (s : State) : Result :=
  { s with hiLoUnread := false }.result 2 (mapReg x) s.lo

/-- MIPS16e.MULT (spec 45 R518). -/
def execM16Mult (x y : Reg3) (s : State) : Result :=
  .next ((s.writeHiLo (productSigned (s.xr x) (s.xr y))).advance 2)

/-- MIPS16e.MULTU (spec 45 R519). -/
def execM16Multu (x y : Reg3) (s : State) : Result :=
  .next ((s.writeHiLo (productUnsigned (s.xr x) (s.xr y))).advance 2)

/-- MIPS16e.DIV (spec 45 R520). -/
def execM16Div (x y : Reg3) (s : State) : Result :=
  .next ((s.divide (divisionStated (s.xr x) (s.xr y)) (quotientSigned (s.xr x) (s.xr y))
    (remainderSigned (s.xr x) (s.xr y))).advance 2)

/-- MIPS16e.DIVU (spec 45 R521). -/
def execM16Divu (x y : Reg3) (s : State) : Result :=
  .next ((s.divide (!(s.xr y = 0)) (s.xr x / s.xr y) (s.xr x % s.xr y)).advance 2)

/-- MIPS16e.ZEB (spec 45 R522). -/
def execM16Zeb (x : Reg3) (s : State) : Result :=
  s.result 2 (mapReg x) (zeroByte (s.xr x))

/-- MIPS16e.ZEH (spec 45 R523). -/
def execM16Zeh (x : Reg3) (s : State) : Result :=
  s.result 2 (mapReg x) (zeroHalf (s.xr x))

/-- MIPS16e.SEB (spec 45 R524). -/
def execM16Seb (x : Reg3) (s : State) : Result :=
  s.result 2 (mapReg x) (signByte (s.xr x))

/-- MIPS16e.SEH (spec 45 R525). -/
def execM16Seh (x : Reg3) (s : State) : Result :=
  s.result 2 (mapReg x) (signHalf (s.xr x))

/-- MIPS16e.NOP (spec 45 R526). -/
def execM16Nop (s : State) : Result :=
  .next (s.advance 2)

/-- An instruction widened by EXTEND, outside a delay slot (spec 45 R448, and the rule of the instruction it extends). -/
def execExtended (op : ExtOp) (s : State) : Result :=
  match op with
  | .addiusp x imm => s.result 4 (mapReg x) (s.reg regSp + sext imm)
  | .addiupc x imm => s.result 4 (mapReg x) (s.basePc + sext imm)
  | .b offset => s.branch16 4 true offset
  | .beqz x offset => s.branch16 4 (s.xr x == 0) offset
  | .bnez x offset => s.branch16 4 (s.xr x != 0) offset
  | .sll x y sa => s.result 4 (mapReg x) (s.xr y <<< sa.toNat)
  | .srl x y sa => s.result 4 (mapReg x) (s.xr y >>> sa.toNat)
  | .sra x y sa => s.result 4 (mapReg x) (shiftRightArith (s.xr y) sa.toNat)
  | .addiu y x imm => s.result 4 (mapReg y) (s.xr x + sext imm)
  | .addiu8 x imm => s.result 4 (mapReg x) (s.xr x + sext imm)
  | .slti x imm => s.result 4 regT8 (flagWord (ltSigned (s.xr x) (sext imm)))
  | .sltiu x imm => s.result 4 regT8 (flagWord (ltUnsigned (s.xr x) (sext imm)))
  | .bteqz offset => s.branch16 4 (s.reg regT8 == 0) offset
  | .btnez offset => s.branch16 4 (s.reg regT8 != 0) offset
  | .swrasp imm => s.storeTo 4 (s.memWrite .word (s.reg regSp + sext imm) (s.reg regRa))
  | .adjsp imm => s.result 4 regSp (s.reg regSp + sext imm)
  | .li x imm => s.result 4 (mapReg x) (zext imm)
  | .cmpi x imm => s.result 4 regT8 (s.xr x ^^^ zext imm)
  | .lb y x imm => s.loadTo 4 (mapReg y) (s.memRead .byte (s.xr x + sext imm)) signByte
  | .lh y x imm => s.loadTo 4 (mapReg y) (s.memRead .half (s.xr x + sext imm)) signHalf
  | .lwsp x imm => s.loadTo 4 (mapReg x) (s.memRead .word (s.reg regSp + sext imm)) id
  | .lw y x imm => s.loadTo 4 (mapReg y) (s.memRead .word (s.xr x + sext imm)) id
  | .lbu y x imm => s.loadTo 4 (mapReg y) (s.memRead .byte (s.xr x + sext imm)) id
  | .lhu y x imm => s.loadTo 4 (mapReg y) (s.memRead .half (s.xr x + sext imm)) id
  | .lwpc x imm => s.loadTo 4 (mapReg x) (s.memRead .word (s.basePc + sext imm)) id
  | .sb y x imm => s.storeTo 4 (s.memWrite .byte (s.xr x + sext imm) (s.xr y))
  | .sh y x imm => s.storeTo 4 (s.memWrite .half (s.xr x + sext imm) (s.xr y))
  | .swsp x imm => s.storeTo 4 (s.memWrite .word (s.reg regSp + sext imm) (s.xr x))
  | .sw y x imm => s.storeTo 4 (s.memWrite .word (s.xr x + sext imm) (s.xr y))
  | .save xsregs aregs frame ra s0 s1 =>
    if xsregs = 0 ∧ aregs = 0 then s.saveFrame 4 (extFrameBytes frame) ra s0 s1 else .refused .saveRestoreStatics
  | .restore xsregs aregs frame ra s0 s1 =>
    if xsregs = 0 ∧ aregs = 0 then s.restoreFrame 4 (extFrameBytes frame) ra s0 s1 else .refused .saveRestoreStatics

/-- MIPS16e.EXTEND (spec 45 R448: the prefix with the instruction it extends). -/
def execM16Extend (op : ExtOp) (s : State) : Result :=
  if s.delay.isSome then .refused .extendInDelaySlot else execExtended op s

end Sys2Proof.Machine
end

