-- ==== Sys2Proof/Machine/Misc.lean ====
section
/-! DEFINITION. Serialisation, exceptions, no-operations, RDHWR and WAIT (spec 43). -/

namespace Sys2Proof.Machine

/-- NOP (spec 30 R168, 43 R375). -/
def execNop (s : State) : Result :=
  .next (s.advance 4)

/-- SSNOP (spec 30 R168, 43 R376). -/
def execSsnop (s : State) : Result :=
  .next (s.advance 4)

/-- EHB (spec 43 R377). -/
def execEhb (s : State) : Result :=
  .next ({ s with hazards := [] }.advance 4)

/-- SYNC (spec 43 R360). -/
def execSync (_stype : Reg) (s : State) : Result :=
  .next (s.orderStores.advance 4)

/-- SYNCI (spec 43 R361). -/
def execSynci (base : Reg) (offset : BitVec 16) (s : State) : Result :=
  .next ((s.syncAddress (s.reg base + sext offset)).advance 4)

/-- SYSCALL (spec 43 R363). -/
def execSyscall (_code : BitVec 20) (s : State) : Result :=
  .next (s.raise .sys)

/-- BREAK (spec 43 R364). -/
def execBreak (_code : BitVec 20) (s : State) : Result :=
  .next (s.raise .bp)

/-- SDBBP (spec 43 R365). -/
def execSdbbp (_code : BitVec 20) (s : State) : Result :=
  s.debugBreakpoint

/-- TGE (spec 43 R366). -/
def execTge (rs rt : Reg) (_code : BitVec 10) (s : State) : Result :=
  s.trap (!ltSigned (s.reg rs) (s.reg rt))

/-- TGEU (spec 43 R367). -/
def execTgeu (rs rt : Reg) (_code : BitVec 10) (s : State) : Result :=
  s.trap (!ltUnsigned (s.reg rs) (s.reg rt))

/-- TLT (spec 43 R368). -/
def execTlt (rs rt : Reg) (_code : BitVec 10) (s : State) : Result :=
  s.trap (ltSigned (s.reg rs) (s.reg rt))

/-- TLTU (spec 43 R369). -/
def execTltu (rs rt : Reg) (_code : BitVec 10) (s : State) : Result :=
  s.trap (ltUnsigned (s.reg rs) (s.reg rt))

/-- TEQ (spec 43 R370). -/
def execTeq (rs rt : Reg) (_code : BitVec 10) (s : State) : Result :=
  s.trap ((s.reg rs) == (s.reg rt))

/-- TNE (spec 43 R371). -/
def execTne (rs rt : Reg) (_code : BitVec 10) (s : State) : Result :=
  s.trap ((s.reg rs) != (s.reg rt))

/-- TGEI (spec 43 R372). -/
def execTgei (rs : Reg) (imm : BitVec 16) (s : State) : Result :=
  s.trap (!ltSigned (s.reg rs) (sext imm))

/-- TGEIU (spec 43 R373). -/
def execTgeiu (rs : Reg) (imm : BitVec 16) (s : State) : Result :=
  s.trap (!ltUnsigned (s.reg rs) (sext imm))

/-- TLTI (spec 43 R374). -/
def execTlti (rs : Reg) (imm : BitVec 16) (s : State) : Result :=
  s.trap (ltSigned (s.reg rs) (sext imm))

/-- TLTIU (spec 43 R382). -/
def execTltiu (rs : Reg) (imm : BitVec 16) (s : State) : Result :=
  s.trap (ltUnsigned (s.reg rs) (sext imm))

/-- TEQI (spec 43 R383). -/
def execTeqi (rs : Reg) (imm : BitVec 16) (s : State) : Result :=
  s.trap ((s.reg rs) == (sext imm))

/-- TNEI (spec 43 R384). -/
def execTnei (rs : Reg) (imm : BitVec 16) (s : State) : Result :=
  s.trap ((s.reg rs) != (sext imm))

/-- RDHWR (spec 43 R380). -/
def execRdhwr (rt rd : Reg) (s : State) : Result :=
  if 3 < rd.toNat then .next (s.raise .ri)
  else if !(s.seen.cop0Usable || s.seen.hwrena.getLsbD rd.toNat) then .next (s.raise .ri)
  else
    s.result 4 rt
      (match rd.toNat with
       | 2 => s.seen.count
       | 3 => 2
       | _ => 0)

/-- WAIT (spec 43 R381). -/
def execWait (_code : BitVec 19) (s : State) : Result :=
  s.outsideSlot (s.needCop0 .coprocessor (.next { s.advance 4 with waiting := true }))

end Sys2Proof.Machine
end

