-- ==== Sys2Proof/Machine/MulDiv.lean ====
section
/-! DEFINITION. Multiplication, division and the accumulator HI, LO (spec 41). -/

namespace Sys2Proof.Machine

/-- MULT (spec 41 R269). -/
def execMult (rs rt : Reg) (s : State) : Result :=
  .next ((s.writeHiLo (productSigned (s.reg rs) (s.reg rt))).advance 4)

/-- MULTU (spec 41 R270). -/
def execMultu (rs rt : Reg) (s : State) : Result :=
  .next ((s.writeHiLo (productUnsigned (s.reg rs) (s.reg rt))).advance 4)

/-- MADD (spec 41 R273). -/
def execMadd (rs rt : Reg) (s : State) : Result :=
  .next ((s.writeHiLo (hiLo s.hi s.lo + productSigned (s.reg rs) (s.reg rt))).advance 4)

/-- MADDU (spec 41 R274). -/
def execMaddu (rs rt : Reg) (s : State) : Result :=
  .next ((s.writeHiLo (hiLo s.hi s.lo + productUnsigned (s.reg rs) (s.reg rt))).advance 4)

/-- MSUB (spec 41 R275). -/
def execMsub (rs rt : Reg) (s : State) : Result :=
  .next ((s.writeHiLo (hiLo s.hi s.lo - productSigned (s.reg rs) (s.reg rt))).advance 4)

/-- MSUBU (spec 41 R276). -/
def execMsubu (rs rt : Reg) (s : State) : Result :=
  .next ((s.writeHiLo (hiLo s.hi s.lo - productUnsigned (s.reg rs) (s.reg rt))).advance 4)

/-- DIV (spec 41 R271). -/
def execDiv (rs rt : Reg) (s : State) : Result :=
  .next ((s.divide (divisionStated (s.reg rs) (s.reg rt)) (quotientSigned (s.reg rs) (s.reg rt))
    (remainderSigned (s.reg rs) (s.reg rt))).advance 4)

/-- DIVU (spec 41 R272). -/
def execDivu (rs rt : Reg) (s : State) : Result :=
  .next ((s.divide (!(s.reg rt = 0)) (s.reg rs / s.reg rt) (s.reg rs % s.reg rt)).advance 4)

/-- MUL (spec 41 R277). -/
def execMul (rd rs rt : Reg) (s : State) : Result :=
  let p := s.reg rs * s.reg rt
  { s with hi := s.free .hi, lo := s.free .lo }.result 4 rd p

/-- MFHI (spec 41 R278). -/
def execMfhi (rd : Reg) (s : State) : Result :=
  { s with hiLoUnread := false }.result 4 rd s.hi

/-- MFLO (spec 41 R279). -/
def execMflo (rd : Reg) (s : State) : Result :=
  { s with hiLoUnread := false }.result 4 rd s.lo

/-- MTHI (spec 41 R280). -/
def execMthi (rs : Reg) (s : State) : Result :=
  let lo := if s.hiLoUnread then s.free .lo else s.lo
  .next ({ s with hi := s.reg rs, lo := lo, hiLoUnread := false }.advance 4)

/-- MTLO (spec 41 R281). -/
def execMtlo (rs : Reg) (s : State) : Result :=
  let hi := if s.hiLoUnread then s.free .hi else s.hi
  .next ({ s with hi := hi, lo := s.reg rs, hiLoUnread := false }.advance 4)

end Sys2Proof.Machine
end

