-- ==== Sys2Proof/Machine/Dispatch.lean ====
section
/-! DEFINITION. The meaning of each instruction, by name. -/

namespace Sys2Proof.Machine

/-- The meaning of an instruction: its whole effect on the state, the program counter included. -/
def exec (i : Instr) (s : State) : Host.Outcome State Fault Refusal :=
  match i with
  | .nop => Sys2Proof.Machine.execNop s
  | .ssnop => Sys2Proof.Machine.execSsnop s
  | .ehb => Sys2Proof.Machine.execEhb s
  | .lb rt base offset => Sys2Proof.Machine.execLb rt base offset s
  | .lbu rt base offset => Sys2Proof.Machine.execLbu rt base offset s
  | .lh rt base offset => Sys2Proof.Machine.execLh rt base offset s
  | .lhu rt base offset => Sys2Proof.Machine.execLhu rt base offset s
  | .lw rt base offset => Sys2Proof.Machine.execLw rt base offset s
  | .lwl rt base offset => Sys2Proof.Machine.execLwl rt base offset s
  | .lwr rt base offset => Sys2Proof.Machine.execLwr rt base offset s
  | .sb rt base offset => Sys2Proof.Machine.execSb rt base offset s
  | .sh rt base offset => Sys2Proof.Machine.execSh rt base offset s
  | .sw rt base offset => Sys2Proof.Machine.execSw rt base offset s
  | .swl rt base offset => Sys2Proof.Machine.execSwl rt base offset s
  | .swr rt base offset => Sys2Proof.Machine.execSwr rt base offset s
  | .ll rt base offset => Sys2Proof.Machine.execLl rt base offset s
  | .sc rt base offset => Sys2Proof.Machine.execSc rt base offset s
  | .pref hint base offset => Sys2Proof.Machine.execPref hint base offset s
  | .cache op base offset => Sys2Proof.Machine.execCache op base offset s
  | .lwc1 rt base offset => Sys2Proof.Machine.execLwc1 rt base offset s
  | .lwc2 rt base offset => Sys2Proof.Machine.execLwc2 rt base offset s
  | .ldc1 rt base offset => Sys2Proof.Machine.execLdc1 rt base offset s
  | .ldc2 rt base offset => Sys2Proof.Machine.execLdc2 rt base offset s
  | .swc1 rt base offset => Sys2Proof.Machine.execSwc1 rt base offset s
  | .swc2 rt base offset => Sys2Proof.Machine.execSwc2 rt base offset s
  | .sdc1 rt base offset => Sys2Proof.Machine.execSdc1 rt base offset s
  | .sdc2 rt base offset => Sys2Proof.Machine.execSdc2 rt base offset s
  | .add rd rs rt => Sys2Proof.Machine.execAdd rd rs rt s
  | .addu rd rs rt => Sys2Proof.Machine.execAddu rd rs rt s
  | .sub rd rs rt => Sys2Proof.Machine.execSub rd rs rt s
  | .subu rd rs rt => Sys2Proof.Machine.execSubu rd rs rt s
  | .slt rd rs rt => Sys2Proof.Machine.execSlt rd rs rt s
  | .sltu rd rs rt => Sys2Proof.Machine.execSltu rd rs rt s
  | .and rd rs rt => Sys2Proof.Machine.execAnd rd rs rt s
  | .or rd rs rt => Sys2Proof.Machine.execOr rd rs rt s
  | .xor rd rs rt => Sys2Proof.Machine.execXor rd rs rt s
  | .nor rd rs rt => Sys2Proof.Machine.execNor rd rs rt s
  | .addi rt rs imm => Sys2Proof.Machine.execAddi rt rs imm s
  | .addiu rt rs imm => Sys2Proof.Machine.execAddiu rt rs imm s
  | .slti rt rs imm => Sys2Proof.Machine.execSlti rt rs imm s
  | .sltiu rt rs imm => Sys2Proof.Machine.execSltiu rt rs imm s
  | .andi rt rs imm => Sys2Proof.Machine.execAndi rt rs imm s
  | .ori rt rs imm => Sys2Proof.Machine.execOri rt rs imm s
  | .xori rt rs imm => Sys2Proof.Machine.execXori rt rs imm s
  | .lui rt imm => Sys2Proof.Machine.execLui rt imm s
  | .sll rd rt sa => Sys2Proof.Machine.execSll rd rt sa s
  | .srl rd rt sa => Sys2Proof.Machine.execSrl rd rt sa s
  | .sra rd rt sa => Sys2Proof.Machine.execSra rd rt sa s
  | .rotr rd rt sa => Sys2Proof.Machine.execRotr rd rt sa s
  | .sllv rd rt rs => Sys2Proof.Machine.execSllv rd rt rs s
  | .srlv rd rt rs => Sys2Proof.Machine.execSrlv rd rt rs s
  | .srav rd rt rs => Sys2Proof.Machine.execSrav rd rt rs s
  | .rotrv rd rt rs => Sys2Proof.Machine.execRotrv rd rt rs s
  | .mult rs rt => Sys2Proof.Machine.execMult rs rt s
  | .multu rs rt => Sys2Proof.Machine.execMultu rs rt s
  | .div rs rt => Sys2Proof.Machine.execDiv rs rt s
  | .divu rs rt => Sys2Proof.Machine.execDivu rs rt s
  | .madd rs rt => Sys2Proof.Machine.execMadd rs rt s
  | .maddu rs rt => Sys2Proof.Machine.execMaddu rs rt s
  | .msub rs rt => Sys2Proof.Machine.execMsub rs rt s
  | .msubu rs rt => Sys2Proof.Machine.execMsubu rs rt s
  | .mul rd rs rt => Sys2Proof.Machine.execMul rd rs rt s
  | .mfhi rd => Sys2Proof.Machine.execMfhi rd s
  | .mflo rd => Sys2Proof.Machine.execMflo rd s
  | .mthi rs => Sys2Proof.Machine.execMthi rs s
  | .mtlo rs => Sys2Proof.Machine.execMtlo rs s
  | .clz rd rs rt => Sys2Proof.Machine.execClz rd rs rt s
  | .clo rd rs rt => Sys2Proof.Machine.execClo rd rs rt s
  | .ext rt rs msbd lsb => Sys2Proof.Machine.execExt rt rs msbd lsb s
  | .ins rt rs msb lsb => Sys2Proof.Machine.execIns rt rs msb lsb s
  | .seb rd rt => Sys2Proof.Machine.execSeb rd rt s
  | .seh rd rt => Sys2Proof.Machine.execSeh rd rt s
  | .wsbh rd rt => Sys2Proof.Machine.execWsbh rd rt s
  | .j index => Sys2Proof.Machine.execJ index s
  | .jal index => Sys2Proof.Machine.execJal index s
  | .jalx index => Sys2Proof.Machine.execJalx index s
  | .jr rs hint => Sys2Proof.Machine.execJr rs hint s
  | .jrHb rs hint => Sys2Proof.Machine.execJrHb rs hint s
  | .jalr rd rs hint => Sys2Proof.Machine.execJalr rd rs hint s
  | .jalrHb rd rs hint => Sys2Proof.Machine.execJalrHb rd rs hint s
  | .beq rs rt offset => Sys2Proof.Machine.execBeq rs rt offset s
  | .bne rs rt offset => Sys2Proof.Machine.execBne rs rt offset s
  | .beql rs rt offset => Sys2Proof.Machine.execBeql rs rt offset s
  | .bnel rs rt offset => Sys2Proof.Machine.execBnel rs rt offset s
  | .blez rs offset => Sys2Proof.Machine.execBlez rs offset s
  | .bgtz rs offset => Sys2Proof.Machine.execBgtz rs offset s
  | .blezl rs offset => Sys2Proof.Machine.execBlezl rs offset s
  | .bgtzl rs offset => Sys2Proof.Machine.execBgtzl rs offset s
  | .bltz rs offset => Sys2Proof.Machine.execBltz rs offset s
  | .bgez rs offset => Sys2Proof.Machine.execBgez rs offset s
  | .bltzl rs offset => Sys2Proof.Machine.execBltzl rs offset s
  | .bgezl rs offset => Sys2Proof.Machine.execBgezl rs offset s
  | .bltzal rs offset => Sys2Proof.Machine.execBltzal rs offset s
  | .bgezal rs offset => Sys2Proof.Machine.execBgezal rs offset s
  | .bltzall rs offset => Sys2Proof.Machine.execBltzall rs offset s
  | .bgezall rs offset => Sys2Proof.Machine.execBgezall rs offset s
  | .sync stype => Sys2Proof.Machine.execSync stype s
  | .synci base offset => Sys2Proof.Machine.execSynci base offset s
  | .syscall code => Sys2Proof.Machine.execSyscall code s
  | .break_ code => Sys2Proof.Machine.execBreak code s
  | .sdbbp code => Sys2Proof.Machine.execSdbbp code s
  | .tge rs rt code => Sys2Proof.Machine.execTge rs rt code s
  | .tgeu rs rt code => Sys2Proof.Machine.execTgeu rs rt code s
  | .tlt rs rt code => Sys2Proof.Machine.execTlt rs rt code s
  | .tltu rs rt code => Sys2Proof.Machine.execTltu rs rt code s
  | .teq rs rt code => Sys2Proof.Machine.execTeq rs rt code s
  | .tne rs rt code => Sys2Proof.Machine.execTne rs rt code s
  | .tgei rs imm => Sys2Proof.Machine.execTgei rs imm s
  | .tgeiu rs imm => Sys2Proof.Machine.execTgeiu rs imm s
  | .tlti rs imm => Sys2Proof.Machine.execTlti rs imm s
  | .tltiu rs imm => Sys2Proof.Machine.execTltiu rs imm s
  | .teqi rs imm => Sys2Proof.Machine.execTeqi rs imm s
  | .tnei rs imm => Sys2Proof.Machine.execTnei rs imm s
  | .movz rd rs rt => Sys2Proof.Machine.execMovz rd rs rt s
  | .movn rd rs rt => Sys2Proof.Machine.execMovn rd rs rt s
  | .rdhwr rt rd => Sys2Proof.Machine.execRdhwr rt rd s
  | .wait code => Sys2Proof.Machine.execWait code s
  | .mfc0 rt rd sel => Sys2Proof.Machine.execMfc0 rt rd sel s
  | .mtc0 rt rd sel => Sys2Proof.Machine.execMtc0 rt rd sel s
  | .rdpgpr rd rt => Sys2Proof.Machine.execRdpgpr rd rt s
  | .wrpgpr rd rt => Sys2Proof.Machine.execWrpgpr rd rt s
  | .di rt => Sys2Proof.Machine.execDi rt s
  | .ei rt => Sys2Proof.Machine.execEi rt s
  | .eret => Sys2Proof.Machine.execEret s
  | .deret => Sys2Proof.Machine.execDeret s
  | .tlbr => Sys2Proof.Machine.execTlbr s
  | .tlbwi => Sys2Proof.Machine.execTlbwi s
  | .tlbwr => Sys2Proof.Machine.execTlbwr s
  | .tlbp => Sys2Proof.Machine.execTlbp s
  | .cop1 cofun => Sys2Proof.Machine.execCop1 cofun s
  | .cop2 cofun => Sys2Proof.Machine.execCop2 cofun s
  | .cop1x cofun => Sys2Proof.Machine.execCop1x cofun s
  | .movci operands => Sys2Proof.Machine.execMovci operands s
  | .m16Extend op => Sys2Proof.Machine.execM16Extend op s
  | .m16Addiusp x imm => Sys2Proof.Machine.execM16Addiusp x imm s
  | .m16Addiupc x imm => Sys2Proof.Machine.execM16Addiupc x imm s
  | .m16B offset => Sys2Proof.Machine.execM16B offset s
  | .m16Jal index => Sys2Proof.Machine.execM16Jal index s
  | .m16Jalx index => Sys2Proof.Machine.execM16Jalx index s
  | .m16Beqz x offset => Sys2Proof.Machine.execM16Beqz x offset s
  | .m16Bnez x offset => Sys2Proof.Machine.execM16Bnez x offset s
  | .m16Sll x y sa => Sys2Proof.Machine.execM16Sll x y sa s
  | .m16Srl x y sa => Sys2Proof.Machine.execM16Srl x y sa s
  | .m16Sra x y sa => Sys2Proof.Machine.execM16Sra x y sa s
  | .m16Addiu y x imm => Sys2Proof.Machine.execM16Addiu y x imm s
  | .m16Addiu8 x imm => Sys2Proof.Machine.execM16Addiu8 x imm s
  | .m16Slti x imm => Sys2Proof.Machine.execM16Slti x imm s
  | .m16Sltiu x imm => Sys2Proof.Machine.execM16Sltiu x imm s
  | .m16Bteqz offset => Sys2Proof.Machine.execM16Bteqz offset s
  | .m16Btnez offset => Sys2Proof.Machine.execM16Btnez offset s
  | .m16Swrasp imm => Sys2Proof.Machine.execM16Swrasp imm s
  | .m16Adjsp imm => Sys2Proof.Machine.execM16Adjsp imm s
  | .m16Save ra s0 s1 frame => Sys2Proof.Machine.execM16Save ra s0 s1 frame s
  | .m16Restore ra s0 s1 frame => Sys2Proof.Machine.execM16Restore ra s0 s1 frame s
  | .m16Mov32r r32 z => Sys2Proof.Machine.execM16Mov32r r32 z s
  | .m16Movr32 y r32 => Sys2Proof.Machine.execM16Movr32 y r32 s
  | .m16Li x imm => Sys2Proof.Machine.execM16Li x imm s
  | .m16Cmpi x imm => Sys2Proof.Machine.execM16Cmpi x imm s
  | .m16Lb y x imm => Sys2Proof.Machine.execM16Lb y x imm s
  | .m16Lh y x imm => Sys2Proof.Machine.execM16Lh y x imm s
  | .m16Lwsp x imm => Sys2Proof.Machine.execM16Lwsp x imm s
  | .m16Lw y x imm => Sys2Proof.Machine.execM16Lw y x imm s
  | .m16Lbu y x imm => Sys2Proof.Machine.execM16Lbu y x imm s
  | .m16Lhu y x imm => Sys2Proof.Machine.execM16Lhu y x imm s
  | .m16Lwpc x imm => Sys2Proof.Machine.execM16Lwpc x imm s
  | .m16Sb y x imm => Sys2Proof.Machine.execM16Sb y x imm s
  | .m16Sh y x imm => Sys2Proof.Machine.execM16Sh y x imm s
  | .m16Swsp x imm => Sys2Proof.Machine.execM16Swsp x imm s
  | .m16Sw y x imm => Sys2Proof.Machine.execM16Sw y x imm s
  | .m16Addu z x y => Sys2Proof.Machine.execM16Addu z x y s
  | .m16Subu z x y => Sys2Proof.Machine.execM16Subu z x y s
  | .m16Jr x => Sys2Proof.Machine.execM16Jr x s
  | .m16Jalr x => Sys2Proof.Machine.execM16Jalr x s
  | .m16Jrc x => Sys2Proof.Machine.execM16Jrc x s
  | .m16Jalrc x => Sys2Proof.Machine.execM16Jalrc x s
  | .m16JrRa => Sys2Proof.Machine.execM16JrRa s
  | .m16JrcRa => Sys2Proof.Machine.execM16JrcRa s
  | .m16Sdbbp code => Sys2Proof.Machine.execM16Sdbbp code s
  | .m16Break code => Sys2Proof.Machine.execM16Break code s
  | .m16Slt x y => Sys2Proof.Machine.execM16Slt x y s
  | .m16Sltu x y => Sys2Proof.Machine.execM16Sltu x y s
  | .m16Cmp x y => Sys2Proof.Machine.execM16Cmp x y s
  | .m16Neg x y => Sys2Proof.Machine.execM16Neg x y s
  | .m16And x y => Sys2Proof.Machine.execM16And x y s
  | .m16Or x y => Sys2Proof.Machine.execM16Or x y s
  | .m16Xor x y => Sys2Proof.Machine.execM16Xor x y s
  | .m16Not x y => Sys2Proof.Machine.execM16Not x y s
  | .m16Mult x y => Sys2Proof.Machine.execM16Mult x y s
  | .m16Multu x y => Sys2Proof.Machine.execM16Multu x y s
  | .m16Div x y => Sys2Proof.Machine.execM16Div x y s
  | .m16Divu x y => Sys2Proof.Machine.execM16Divu x y s
  | .m16Sllv y x => Sys2Proof.Machine.execM16Sllv y x s
  | .m16Srlv y x => Sys2Proof.Machine.execM16Srlv y x s
  | .m16Srav y x => Sys2Proof.Machine.execM16Srav y x s
  | .m16Mfhi x => Sys2Proof.Machine.execM16Mfhi x s
  | .m16Mflo x => Sys2Proof.Machine.execM16Mflo x s
  | .m16Zeb x => Sys2Proof.Machine.execM16Zeb x s
  | .m16Zeh x => Sys2Proof.Machine.execM16Zeh x s
  | .m16Seb x => Sys2Proof.Machine.execM16Seb x s
  | .m16Seh x => Sys2Proof.Machine.execM16Seh x s
  | .m16Nop => Sys2Proof.Machine.execM16Nop s

end Sys2Proof.Machine
end

