-- ==== Sys2Proof/Machine/Step.lean ====
section
/-! DEFINITION. One step of the machine. -/

namespace Sys2Proof.Machine

/-- One step of the processor: an event, or the fetch, decoding and execution of one instruction (spec 60 R625). -/
def step (s : State) : Host.Outcome State Fault Refusal :=
  match s.event with
  | some r => r
  | none =>
    match s.ready.fetchDecode with
    | .run i => exec i s.ready
    | .stop r => r

/-- `s` with an instruction of the opcode table stored where `step` fetches next (log 24). -/
def State.withFetchWord (s : State) (nbits w : Nat) : State := s.placeInstruction nbits w

end Sys2Proof.Machine
end

