-- ==== Sys2Proof/Safety.lean ====
section
/-! DEFINITION. What the statements speak of: how a word is laid out, what an instruction leaves unchanged, where it completes, what taking an exception does, the invariant of the machine, and safe runs. -/

namespace Sys2Proof.Machine

/-! ## Words written from the encodings of the spec -/

/-- A word of the formats R: the `match` value of its row and its fields (spec 30 R152). -/
def rWord (m : Word) (rs rt rd sa : Reg) : Word :=
  m ||| rs.setWidth 32 <<< 21 ||| rt.setWidth 32 <<< 16 ||| rd.setWidth 32 <<< 11 ||| sa.setWidth 32 <<< 6

/-- A word of format I (spec 30 R152). -/
def iWord (m : Word) (rs rt : Reg) (imm : BitVec 16) : Word :=
  m ||| rs.setWidth 32 <<< 21 ||| rt.setWidth 32 <<< 16 ||| imm.setWidth 32

/-- A word of format J, or of a coprocessor with all its low bits free (spec 30 R152). -/
def jWord (m : Word) (index : BitVec 26) : Word := m ||| index.setWidth 32

/-- A word with a code from bit 6 on (spec 30 R153). -/
def codeWord {n : Nat} (m : Word) (code : BitVec n) : Word := m ||| code.setWidth 32 <<< 6

/-- A word with `rs`, `rt` and a code from bit 6 on (spec 30 R153). -/
def trapWord (m : Word) (rs rt : Reg) (code : BitVec 10) : Word :=
  m ||| rs.setWidth 32 <<< 21 ||| rt.setWidth 32 <<< 16 ||| code.setWidth 32 <<< 6

/-- A halfword with registers at bits 10:8, 7:5 and 4:2 (spec 45 R447). -/
def xyzHalf (m : Half) (x y z : Reg3) : Half :=
  m ||| x.setWidth 16 <<< 8 ||| y.setWidth 16 <<< 5 ||| z.setWidth 16 <<< 2

/-- A halfword with registers at bits 10:8 and 7:5 and an immediate from bit 0 on (spec 45 R447). -/
def xyHalf {n : Nat} (m : Half) (x y : Reg3) (imm : BitVec n) : Half :=
  m ||| x.setWidth 16 <<< 8 ||| y.setWidth 16 <<< 5 ||| imm.setWidth 16

/-- A halfword with a register at bits 10:8 and an immediate from bit 0 on (spec 45 R447). -/
def xHalf {n : Nat} (m : Half) (x : Reg3) (imm : BitVec n) : Half :=
  m ||| x.setWidth 16 <<< 8 ||| imm.setWidth 16

/-- The decoder reads the word as the instruction. -/
def Reads (w : Word) (i : Instr) : Prop := decodeWord w = .instr i

/-- The decoder reads the halfword as the instruction. -/
def Reads16 (h : Half) (i : Instr) : Prop := hasSecondHalf h = false ∧ decodeHalf h = .instr i

/-- The decoder reads the two halfwords as the instruction. -/
def ReadsPair (first second : Half) (i : Instr) : Prop :=
  hasSecondHalf first = true ∧ decodePair first second = .instr i

/-- The decoder reads EXTEND with the halfword `h` and a 16-bit immediate, `E[4:0] || E[10:5] || h[4:0]`, as the extended instruction (spec 45 R448). -/
def ReadsExtended (h : Half) (imm : BitVec 16) (op : ExtOp) : Prop :=
  ReadsPair (0xF000 ||| (imm.extractLsb' 5 6).setWidth 16 <<< 5 ||| (imm.extractLsb' 11 5).setWidth 16)
    (h ||| (imm.extractLsb' 0 5).setWidth 16) (.m16Extend op)

/-- The decoder reads EXTEND with the halfword `h` and a 15-bit immediate, `E[3:0] || E[10:4] || h[3:0]`, as the extended instruction (spec 45 R448). -/
def ReadsExtendedA (h : Half) (imm : BitVec 15) (op : ExtOp) : Prop :=
  ReadsPair (0xF000 ||| (imm.extractLsb' 4 7).setWidth 16 <<< 4 ||| (imm.extractLsb' 11 4).setWidth 16)
    (h ||| (imm.extractLsb' 0 4).setWidth 16) (.m16Extend op)

/-- The decoder reads EXTEND with the halfword `h` and a 5-bit amount, `E[10:6]`, as the extended shift (spec 45 R448). -/
def ReadsExtendedShift (h : Half) (sa : BitVec 5) (op : ExtOp) : Prop :=
  ReadsPair (0xF000 ||| sa.setWidth 16 <<< 6) h (.m16Extend op)

/-! ## Frames -/

/-- Every general register of every set is kept, but for the registers `regs` of the current set. -/
def KeepsRegs (s t : State) (regs : List Reg) : Prop :=
  ∀ (k : ShadowSet) (r : Reg), (k = s.cp0.srsCtl.css → r ∉ regs) → t.regOf k r = s.regOf k r

/-- HI and LO are kept, and whether they hold an unread result (spec 41 R289). -/
def KeepsHiLo (s t : State) : Prop := t.hi = s.hi ∧ t.lo = s.lo ∧ t.hiLoUnread = s.hiLoUnread

/-- Every byte of memory is kept, but for the physical addresses `stored`. -/
def KeepsMemory (s t : State) (stored : List Nat) : Prop :=
  ∀ a : Nat, a ∉ stored → t.mem.read a = s.mem.read a

/-- No hazard barrier ends with this instruction: it is not in the slot of JR.HB or JALR.HB (spec 70 R722). -/
def NoBarrier (s : State) : Prop := ∀ d, s.delay = some d → d.barrier = false

/-- The pending hazards of coprocessor 0 are kept (spec 70 R720, R721). -/
def KeepsHazards (s t : State) : Prop := NoBarrier s → t.hazards = s.hazards ∧ t.fetchHazards = s.fetchHazards

/-- The idle state, the interrupt controller's vector and the model's own fields are kept. -/
def KeepsOutside (s t : State) : Prop :=
  t.waiting = s.waiting ∧ t.eicVector = s.eicVector ∧ t.physMap = s.physMap ∧ t.inputs = s.inputs ∧
    t.between = s.between ∧ t.draws = s.draws

/-- Every coprocessor 0 register, LLbit and the outside are kept. -/
def KeepsSystem (s t : State) : Prop :=
  t.cp0 = s.cp0 ∧ t.llbit = s.llbit ∧ KeepsOutside s t ∧ KeepsHazards s t

/-- Everything is kept but the registers `regs` and what the advance of the program counter changes. -/
def KeepsAllBut (s t : State) (regs : List Reg) : Prop :=
  KeepsRegs s t regs ∧ KeepsHiLo s t ∧ KeepsMemory s t [] ∧ KeepsSystem s t ∧ (NoBarrier s → t.stale = s.stale)

/-- Control goes on: to the target of the pending transfer, or to the next address (spec 42 R320, 45 R445). -/
def GoesOn (s t : State) (len : Word) : Prop :=
  t.delay = none ∧
    match s.delay with
    | some d => t.pc = d.target ∧ t.isaMode = d.mode
    | none => t.pc = s.pc + len ∧ t.isaMode = s.isaMode

/-- Control goes to `target` in mode `mode` after the instruction at `s.pc + len`, the delay slot (spec 42 R320). -/
def GoesAfterSlot (s t : State) (len target : Word) (mode : Isa) (barrier : Bool) : Prop :=
  t.pc = s.pc + len ∧ t.isaMode = s.isaMode ∧
    t.delay = some { branch := s.pc, target := target, mode := mode, barrier := barrier }

/-! ## Completion -/

/-- `i`, of `len` bytes, completes: it writes `v` to register `rd` (register 0 stays 0), changes nothing else, and control goes on. -/
def Writes (i : Instr) (s : State) (len : Word) (rd : Reg) (v : Word) : Prop :=
  ∃ t, exec i s = .next t ∧ t.reg rd = (if rd = 0 then 0 else v) ∧ KeepsAllBut s t [rd] ∧ GoesOn s t len

/-- `i`, of `len` bytes, completes, changes nothing, and control goes on. -/
def DoesNothing (i : Instr) (s : State) (len : Word) : Prop :=
  ∃ t, exec i s = .next t ∧ KeepsAllBut s t [] ∧ GoesOn s t len

/-- `i`, of `len` bytes, completes with an arithmetic result in HI and LO, changes nothing else, and control goes on. -/
def WritesHiLo (i : Instr) (s : State) (len : Word) (hi lo : Word) : Prop :=
  ∃ t, exec i s = .next t ∧ t.hi = hi ∧ t.lo = lo ∧ t.hiLoUnread = true ∧ KeepsRegs s t [] ∧ KeepsMemory s t [] ∧
    KeepsSystem s t ∧ GoesOn s t len

/-- `i`, of `len` bytes, completes; HI and LO hold no stated value, nothing else changes, and control goes on. -/
def LosesHiLo (i : Instr) (s : State) (len : Word) : Prop :=
  ∃ t, exec i s = .next t ∧ KeepsRegs s t [] ∧ KeepsMemory s t [] ∧ KeepsSystem s t ∧ GoesOn s t len

/-- `i`, of `len` bytes, completes as a jump or branch to `target` after its delay slot, writing the link value `link.2` to register `link.1`, and changes nothing else. -/
def Jumps (i : Instr) (s : State) (len target : Word) (mode : Isa) (barrier : Bool) (link : Option (Reg × Word)) :
    Prop :=
  ∃ t, exec i s = .next t ∧ GoesAfterSlot s t len target mode barrier ∧
    KeepsAllBut s t (link.elim [] fun l => [l.1]) ∧ ∀ l, link = some l → t.reg l.1 = (if l.1 = 0 then 0 else l.2)

/-- `i` completes as a transfer without delay slot to `target`, writing the link value, and changes nothing else. -/
def Transfers (i : Instr) (s : State) (target : Word) (mode : Isa) (link : Option (Reg × Word)) : Prop :=
  ∃ t, exec i s = .next t ∧ t.pc = target ∧ t.isaMode = mode ∧ t.delay = none ∧
    KeepsAllBut s t (link.elim [] fun l => [l.1]) ∧ ∀ l, link = some l → t.reg l.1 = (if l.1 = 0 then 0 else l.2)

/-! ## Exceptions -/

/-- An address with the ISA mode in bit 0, as an exception saves it (spec 60 R632). -/
def savedPc (a : Word) (m : Isa) : Word := (a &&& 0xFFFFFFFE) ||| (if m = .mips16 then 1 else 0)

/-- The address an exception restarts at: the branch, if the instruction is in its delay slot (spec 60 R632). -/
def restartAddress (s : State) : Word := match s.delay with | some d => d.branch | none => s.pc

/-- A vector base, which has bits 31:30 = 0b10, plus an offset: the sum does not carry into bits 31:30 (spec 60 R634; log 44). -/
def vectorGoal (base offset : Word) : Word := 0x80000000 ||| ((base + offset) &&& 0x3FFFFFFF)

/-- `t` is `s` after taking exception `e` outside Debug mode, line by line as the spec's `TakeException` (spec 60 R639); `c` is STATUS and the others as this instruction, or the interrupt check, sees them. After a data bus error EPC and BD hold no stated value (spec 20 R124; log 13). A vectored interrupt takes its shadow set from EICSS (spec 60 R636; log 41). -/
def Entered (s t : State) (e : Exc) : Prop :=
  let c := s.view (if e = .int then .interrupt else .other)
  let vectored := c.status.exl = false ∧ e = .int ∧ c.cause.iv = true
  (c.status.exl = false → e ≠ .dbe →
    t.cp0.epc = savedPc (restartAddress s) s.isaMode ∧ t.cp0.cause.bd = s.delay.isSome) ∧
  (c.status.exl = true → t.cp0.epc = s.cp0.epc ∧ t.cp0.cause.bd = s.cp0.cause.bd) ∧
  (c.status.exl = false → c.status.erl = false → c.status.bev = false →
    t.cp0.srsCtl = { s.cp0.srsCtl with pss := s.cp0.srsCtl.css, css := t.cp0.srsCtl.css } ∧
    (¬ (e = .int ∧ c.cause.iv = true) → t.cp0.srsCtl.css = c.srsCtl.ess) ∧
    (e = .int → c.cause.iv = true → t.cp0.srsCtl.css = s.cp0.srsCtl.eicss)) ∧
  (c.status.exl = true ∨ c.status.erl = true ∨ c.status.bev = true → t.cp0.srsCtl = s.cp0.srsCtl) ∧
  t.cp0.cause.excCode = e.code ∧
  (∀ n, e = .cpu n → t.cp0.cause.ce = n) ∧
  t.cp0.badVAddr = (match e with | .adEL va => va | .adES va => va | _ => s.cp0.badVAddr) ∧
  t.cp0.status = { s.cp0.status with exl := true } ∧
  t.pc = vectorGoal (if c.status.bev = true then (0xBFC00200 : Word) else 0x80000000 ||| c.ebase.setWidth 32 <<< 12)
    (if vectored then
      (0x200 : Word) + (if c.status.bev = true then (0 : Word) else s.eicVector.setWidth 32 * (c.intCtlVs.setWidth 32 <<< 5))
     else 0x180) ∧
  t.isaMode = .mips32 ∧ t.delay = none ∧
  t.cp0.cause = { s.cp0.cause with bd := t.cp0.cause.bd, ce := t.cp0.cause.ce, excCode := t.cp0.cause.excCode } ∧
  t.cp0 = { s.cp0 with
    epc := t.cp0.epc, cause := t.cp0.cause, srsCtl := t.cp0.srsCtl, badVAddr := t.cp0.badVAddr
    status := t.cp0.status } ∧
  t.hazards = [] ∧ t.fetchHazards = [] ∧ t.llbit = s.llbit ∧ t.waiting = false ∧ t.eicVector = s.eicVector ∧
  t.physMap = s.physMap ∧ t.inputs = s.inputs ∧ t.between = s.between ∧ t.draws = s.draws ∧ t.stale = s.stale

/-- `i` takes exception `e`, and no general register, HI, LO or byte of memory changes (spec 60 R630). -/
def Raises (i : Instr) (s : State) (e : Exc) : Prop :=
  ∃ t, exec i s = .next t ∧ Entered s t e ∧ KeepsRegs s t [] ∧ KeepsHiLo s t ∧ KeepsMemory s t []

/-- `i` ends in a data bus error: the exception is taken, and of the general registers only `regs` may change (spec 20 R124). -/
def RaisesBusError (i : Instr) (s : State) (regs : List Reg) : Prop :=
  ∃ t, exec i s = .next t ∧ Entered s t .dbe ∧ KeepsRegs s t regs ∧ KeepsHiLo s t ∧ KeepsMemory s t []

/-! ## Data accesses -/

/-- The bytes of an access (spec 20 R113). -/
def Width.bytes : Width → Nat
  | .byte => 1
  | .half => 2
  | .word => 4

/-- The address is misaligned for the access, or a kernel address in User mode (spec 20 R102, R112). -/
def AddressError (s : State) (w : Width) (va : Word) : Prop :=
  va.toNat % w.bytes ≠ 0 ∨ s.seen.userMode = true ∧ 0x80000000 ≤ va.toNat

/-- The access passes the address check, does not go to dseg, and the bus answers it (spec 20 R120, R121). -/
def Accessible (s : State) (k : Access) (w : Width) (va : Word) : Prop :=
  ¬ AddressError s w va ∧ inDseg s.seen va = false ∧ s.answers k s.seen.userMode (dataAddress s.seen w va) = true

/-- The access passes the address check and ends in a bus error (spec 20 R118). -/
def BusError (s : State) (k : Access) (w : Width) (va : Word) : Prop :=
  ¬ AddressError s w va ∧ inDseg s.seen va = false ∧ s.answers k s.seen.userMode (dataAddress s.seen w va) = false

/-- The address passes the check and lies in dseg in Debug mode, whose contents the spec does not give (spec 20 R104). -/
def GoesToDseg (s : State) (w : Width) (va : Word) : Prop := ¬ AddressError s w va ∧ inDseg s.seen va = true

/-- `i`, of `len` bytes, ends in a data bus error that DEBUG.IEXI holds pending: DBUSEP is set and control goes on; of the general registers only `regs` may change, no byte of memory does (spec 10 R36, R75; log 27). -/
def HoldsBusError (i : Instr) (s : State) (len : Word) (regs : List Reg) : Prop :=
  ∃ t, exec i s = .next t ∧ t.cp0 = { s.cp0 with debugReg := { s.cp0.debugReg with dbusep := true } } ∧
    KeepsRegs s t regs ∧ KeepsHiLo s t ∧ KeepsMemory s t [] ∧ KeepsOutside s t ∧ KeepsHazards s t ∧ GoesOn s t len

/-- Outside Debug mode, with bus errors not held back by DEBUG.IEXI (spec 10 R75). -/
def TakesExceptions (s : State) : Prop := s.cp0.debugReg.dm = false ∧ s.cp0.debugReg.iexi = false

/-- What is read at a physical address is a byte of memory: plain memory, RAM, flash, or the base address of a peripheral register (spec 20 R110, R119). -/
def ReadsMemory (s : State) (pa : Word) : Prop :=
  ∀ r, s.region pa = some r → r.kind ≠ .device ∧ ∀ c t v, r.kind = .registers c t v → pa.extractLsb' 2 2 = 0

/-- What is stored at a physical address goes to memory as it is: plain memory or RAM. -/
def StoresMemory (s : State) (pa : Word) : Prop := ∀ r, s.region pa = some r → r.kind = .ram

/-- The `n` bytes of memory from a physical address on, as a number, lowest address least significant (spec 20 R109, R110). -/
def State.valueAt (s : State) (pa : Word) : Nat → Nat
  | 0 => 0
  | n + 1 => s.valueAt pa n + 256 ^ n * (s.mem.read (pa + BitVec.ofNat 32 n).toNat).toNat

/-- A number of `n` bytes read as a two's-complement number and extended to a word. -/
def signedValue (v n : Nat) : Word := BitVec.ofInt 32 (Int.bmod v (256 ^ n))

/-- `t` has the `n` bytes `b` from physical address `pa` on, and every other byte of memory as in `s`. -/
def StoredBytes (s t : State) (pa : Word) (n : Nat) (b : Nat → Byte) : Prop :=
  (∀ k : Nat, k < n → t.mem.read (pa + BitVec.ofNat 32 k).toNat = b k) ∧
    KeepsMemory s t ((List.range n).map fun k => (pa + BitVec.ofNat 32 k).toNat)

/-- Byte `k` of a number, the least significant first. -/
def numberByte (v k : Nat) : Byte := BitVec.ofNat 8 (v / 256 ^ k)

/-- `t` has the low `n` bytes of `v` from physical address `pa` on, lowest address least significant, and every other byte of memory as in `s` (spec 20 R110). -/
def Stored (s t : State) (pa : Word) (n v : Nat) : Prop := StoredBytes s t pa n (numberByte v)

/-- What a store of the low `n` bytes of `v` from physical address `pa` on changes: in plain memory and RAM exactly those bytes; in flash and in a device without a stated behaviour nothing; in a block of peripheral registers the bytes of the register, written at its base address, and set, cleared or inverted where the store has ones at its SET, CLR and INV addresses (spec 20 R110, R115, R119; log 37). -/
def StoredAt (s t : State) (pa : Word) (n v : Nat) : Prop :=
  match (s.region pa).map Region.kind with
  | none | some .ram => Stored s t pa n v
  | some .rom | some .device => KeepsMemory s t []
  | some (.registers clr set inv) =>
    let reg := pa &&& 0xFFFFFFF3
    let slot := pa.extractLsb' 2 2
    let old := fun k => s.mem.read (reg + BitVec.ofNat 32 k).toNat
    if slot = 0 then Stored s t reg n v
    else if slot = set then StoredBytes s t reg n fun k => old k ||| numberByte v k
    else if slot = clr then StoredBytes s t reg n fun k => old k &&& ~~~numberByte v k
    else if slot = inv then StoredBytes s t reg n fun k => old k ^^^ numberByte v k
    else KeepsMemory s t []

/-- `t` has the memory of `s` after word stores of these values at these physical addresses, one after the other (spec 45 R478). -/
def StoredInTurn (s t : State) : List (Word × Word) → Prop
  | [] => KeepsMemory s t []
  | w :: ws => ∃ u : State, u.physMap = s.physMap ∧ StoredAt s u w.1 4 w.2.toNat ∧ StoredInTurn u t ws

/-- `i`, of `len` bytes, is a load of width `w` at `va` into `rd`: where the access succeeds it completes, with `v` if memory is read; else it takes the exception of the failed check, and a bus error under DEBUG.IEXI is held pending (spec 20 R120, 40 R226). -/
def Loads (i : Instr) (s : State) (len : Word) (rd : Reg) (w : Width) (va v : Word) : Prop :=
  (Accessible s .load w va → ∃ x, Writes i s len rd x ∧ (ReadsMemory s (dataAddress s.seen w va) → x = v)) ∧
  (AddressError s w va → s.cp0.debugReg.dm = false → Raises i s (.adEL va)) ∧
  (BusError s .load w va → TakesExceptions s → RaisesBusError i s [rd]) ∧
  (BusError s .load w va → s.cp0.debugReg.iexi = true → HoldsBusError i s len [rd]) ∧
  (GoesToDseg s w va → exec i s = .refused .dsegAccess)

/-- `i`, of `len` bytes, is a store of the low bytes of `v`, width `w`, at `va`: where the access succeeds it completes, and exactly its bytes change, as the region says; else it takes the exception of the failed check, and a bus error under DEBUG.IEXI is held pending (spec 20 R121, 40 R226). -/
def Stores (i : Instr) (s : State) (len : Word) (w : Width) (va v : Word) : Prop :=
  (Accessible s .store w va → s.mem.wf →
    ∃ t, exec i s = .next t ∧ KeepsRegs s t [] ∧ KeepsHiLo s t ∧ KeepsSystem s t ∧ GoesOn s t len ∧
      StoredAt s t (dataAddress s.seen w va) w.bytes v.toNat) ∧
  (AddressError s w va → s.cp0.debugReg.dm = false → Raises i s (.adES va)) ∧
  (BusError s .store w va → TakesExceptions s → RaisesBusError i s []) ∧
  (BusError s .store w va → s.cp0.debugReg.iexi = true → HoldsBusError i s len []) ∧
  (GoesToDseg s w va → exec i s = .refused .dsegAccess)

/-- The place of an address in its word, which LWL, LWR, SWL and SWR go by; counted from the other end in the reversed byte order (spec 40 R207, 20 R111; log 17). -/
def byteIndex (s : State) (va : Word) : Nat :=
  if s.seen.userMode = true ∧ s.seen.status.re = true then 3 - va.toNat % 4 else va.toNat % 4

/-- The physical address of the word that holds `va` (spec 40 R207). -/
def wordAt (s : State) (va : Word) : Word := translate s.seen (wordAddress va)

/-- `i` is LWL or LWR at `va` into `rd`; `v` is the register after it if memory is read (spec 40 R207, R208). -/
def PartialLoads (i : Instr) (s : State) (rd : Reg) (va v : Word) : Prop :=
  (¬ AddressError s .byte va → inDseg s.seen va = false → s.answers .load s.seen.userMode (wordAt s va) = true →
    ∃ x, Writes i s 4 rd x ∧ (ReadsMemory s (wordAt s va) → x = v)) ∧
  (AddressError s .byte va → s.cp0.debugReg.dm = false → Raises i s (.adEL va)) ∧
  (¬ AddressError s .byte va → inDseg s.seen va = false → s.answers .load s.seen.userMode (wordAt s va) = false →
    (TakesExceptions s → RaisesBusError i s [rd]) ∧ (s.cp0.debugReg.iexi = true → HoldsBusError i s 4 [rd])) ∧
  (GoesToDseg s .byte va → exec i s = .refused .dsegAccess)

/-- `i` is SWL or SWR at `va`; it stores the low `n` bytes of `v` from physical address `pa` on (spec 40 R209, R210). -/
def PartialStores (i : Instr) (s : State) (va pa : Word) (n v : Nat) : Prop :=
  (¬ AddressError s .byte va → inDseg s.seen va = false → s.answers .store s.seen.userMode (wordAt s va) = true →
    s.mem.wf →
    ∃ t, exec i s = .next t ∧ KeepsRegs s t [] ∧ KeepsHiLo s t ∧ KeepsSystem s t ∧ GoesOn s t 4 ∧
      StoredAt s t pa n v) ∧
  (AddressError s .byte va → s.cp0.debugReg.dm = false → Raises i s (.adES va)) ∧
  (¬ AddressError s .byte va → inDseg s.seen va = false → s.answers .store s.seen.userMode (wordAt s va) = false →
    (TakesExceptions s → RaisesBusError i s []) ∧ (s.cp0.debugReg.iexi = true → HoldsBusError i s 4 [])) ∧
  (GoesToDseg s .byte va → exec i s = .refused .dsegAccess)

/-- The word that STATUS reads as: its fields at their places, the other bits zero (spec 10 R46). -/
def StatusWord (v : Word) (st : Status) : Prop :=
  v.getLsbD 28 = st.cu0 ∧ v.getLsbD 27 = st.rp ∧ v.getLsbD 26 = st.fr ∧ v.getLsbD 25 = st.re ∧
  v.getLsbD 22 = st.bev ∧ v.getLsbD 20 = st.sr ∧ v.getLsbD 19 = st.nmi ∧ v.extractLsb' 10 6 = st.ipl ∧
  v.extractLsb' 8 2 = st.r98 ∧ v.getLsbD 4 = st.um ∧ v.getLsbD 2 = st.erl ∧ v.getLsbD 1 = st.exl ∧
  v.getLsbD 0 = st.ie ∧ v &&& 0xE1A700E8 = 0

/-! ## Conditions -/

/-- `i` writes the exact result `x` to `rd` where it fits in 32 bits, else takes the overflow exception, `rd` unchanged (spec 41 R241). -/
def WritesOrOverflows (i : Instr) (s : State) (rd : Reg) (x : Int) : Prop :=
  (-2147483648 ≤ x ∧ x < 2147483648 → Writes i s 4 rd (BitVec.ofInt 32 x)) ∧
    (x < -2147483648 ∨ 2147483648 ≤ x → s.cp0.debugReg.dm = false → Raises i s .ov)

/-- `i` takes the trap exception where `c` holds, else does nothing (spec 43 R362). -/
def TrapsIf (i : Instr) (s : State) (c : Prop) : Prop :=
  (c → s.cp0.debugReg.dm = false → Raises i s .tr) ∧ (¬ c → DoesNothing i s 4)

/-- `i` needs coprocessor 0: where it is not usable, as the consumer `use` sees it, `i` takes Coprocessor Unusable with CE = 0 (spec 44 R402, 70 R720). -/
def NeedsCop0 (i : Instr) (s : State) (use : Consumer) : Prop :=
  (s.view use).cop0Usable = false → s.cp0.debugReg.dm = false → Raises i s (.cpu 0)

/-- `i` is a branch that goes to `target` after its slot where `c` holds and falls through after its slot where not (spec 42 R320). -/
def BranchesIf (i : Instr) (s : State) (c : Prop) (target : Word) (link : Option (Reg × Word)) : Prop :=
  (c → Jumps i s 4 target s.isaMode false link) ∧ (¬ c → Jumps i s 4 (s.pc + 8) s.isaMode false link)

/-- `i` is a branch-likely: where `c` does not hold, its slot is nullified (spec 42 R324). -/
def BranchesLikely (i : Instr) (s : State) (c : Prop) (target : Word) (link : Option (Reg × Word)) : Prop :=
  (c → Jumps i s 4 target s.isaMode false link) ∧ (¬ c → Transfers i s (s.pc + 8) s.isaMode link)

/-- The target of a conditional branch: the 16-bit displacement in words from the delay slot (spec 42 R325). -/
def branchGoal (s : State) (offset : BitVec 16) : Word := BitVec.ofInt 32 (s.pc.toNat + 4 + 4 * offset.toInt)

/-- The target of a region jump: the 256 MB region of the delay slot (spec 42 R325). -/
def regionGoal (s : State) (index : BitVec 26) : Word :=
  BitVec.ofNat 32 ((s.pc + 4).toNat / 268435456 * 268435456 + 4 * index.toNat)

/-- The ISA mode a register jump selects (spec 42 R333). -/
def modeOf (t : Word) : Isa := if t.toNat % 2 = 1 then .mips16 else .mips32

/-- The address a register jump goes to (spec 42 R333). -/
def goalOf (t : Word) : Word := t &&& 0xFFFFFFFE

/-- `t` is `s` after entry to Debug mode by kind `k`, the program counter at the debug vector (spec 60 R661; log 16). HALT and DEXCCODE hold no stated value; DOZE says whether the processor idles after WAIT (spec 10 R75, 60 R672; log 43). -/
def DebugEntered (s t : State) (k : DebugExc) : Prop :=
  t.cp0.depc = savedPc (restartAddress s) s.isaMode ∧ t.pc = 0xBFC00480 ∧ t.isaMode = .mips32 ∧ t.delay = none ∧
  t.cp0.debugReg = { s.cp0.debugReg with
    dbd := s.delay.isSome, dm := true, iexi := true
    dss := decide (k = .dss), dbp := decide (k = .dbp), ddbl := decide (k = .ddbl), ddbs := decide (k = .ddbs)
    dib := decide (k = .dib), dint := decide (k = .dint)
    halt := t.cp0.debugReg.halt, doze := s.waiting, dexcCode := t.cp0.debugReg.dexcCode } ∧
  t.cp0 = { s.cp0 with depc := t.cp0.depc, debugReg := t.cp0.debugReg } ∧ t.llbit = s.llbit ∧ KeepsRegs s t [] ∧
  KeepsHiLo s t ∧ KeepsMemory s t []

/-! ## The invariant -/

/-- What every step keeps: the memory is in its canonical form; the program counter and the pending transfer have bit 0 clear (bit 0 is the ISA mode); IntCtl.VS and SRSMap hold values the spec allows (spec 10 R55, R62; 20 R122; 42 R333; log 2). -/
def State.Inv (s : State) : Prop :=
  s.mem.wf ∧ s.pc.getLsbD 0 = false ∧
    (∀ d, s.delay = some d → d.target.getLsbD 0 = false ∧ d.branch.getLsbD 0 = false) ∧
    legalSpacing s.cp0.intCtlVs = true ∧ legalSrsMap s.cp0.srsMap = true

/-- The step from `s` neither stops with a fault nor is refused. -/
def SafeStep (s : State) : Prop := ∃ t, step s = .next t

end Sys2Proof.Machine
end

