-- ==== Sys2Proof/Certificates/Slice0/Obligations.lean ====
section
/-! DEFINITION. The statements for the provers. -/

open Sys2Proof Sys2Proof.Machine

/-! ## Computation (spec 41, 43) -/

/-- ADDU, SUBU and ADDIU: the words, and the sum or difference modulo 2^32, with nothing else changed (spec 41 R244, R246, R248). -/
def Obligations.AddSubtractWrap : Prop := ∀ (s : State) (rd rs rt : Reg) (imm : BitVec 16),
  Reads (rWord 0x00000021 rs rt rd 0) (.addu rd rs rt) ∧
  Writes (.addu rd rs rt) s 4 rd (BitVec.ofNat 32 ((s.reg rs).toNat + (s.reg rt).toNat)) ∧
  Reads (rWord 0x00000023 rs rt rd 0) (.subu rd rs rt) ∧
  Writes (.subu rd rs rt) s 4 rd (BitVec.ofInt 32 ((s.reg rs).toNat - (s.reg rt).toNat)) ∧
  Reads (iWord 0x24000000 rs rt imm) (.addiu rt rs imm) ∧
  Writes (.addiu rt rs imm) s 4 rt (BitVec.ofInt 32 ((s.reg rs).toNat + imm.toInt))

/-- ADD, SUB and ADDI: the words, the exact result where it fits in 32 bits, and integer overflow with the register unchanged where not (spec 41 R243, R245, R247). -/
def Obligations.AddSubtractTrap : Prop := ∀ (s : State) (rd rs rt : Reg) (imm : BitVec 16),
  Reads (rWord 0x00000020 rs rt rd 0) (.add rd rs rt) ∧
  WritesOrOverflows (.add rd rs rt) s rd ((s.reg rs).toInt + (s.reg rt).toInt) ∧
  Reads (rWord 0x00000022 rs rt rd 0) (.sub rd rs rt) ∧
  WritesOrOverflows (.sub rd rs rt) s rd ((s.reg rs).toInt - (s.reg rt).toInt) ∧
  Reads (iWord 0x20000000 rs rt imm) (.addi rt rs imm) ∧
  WritesOrOverflows (.addi rt rs imm) s rt ((s.reg rs).toInt + imm.toInt)

/-- SLT, SLTU, SLTI and SLTIU: the words, and 1 or 0 in the register (spec 41 R249 to R252). -/
def Obligations.SetOnLessThan : Prop := ∀ (s : State) (rd rs rt : Reg) (imm : BitVec 16),
  Reads (rWord 0x0000002A rs rt rd 0) (.slt rd rs rt) ∧
  Writes (.slt rd rs rt) s 4 rd (if (s.reg rs).toInt < (s.reg rt).toInt then 1 else 0) ∧
  Reads (rWord 0x0000002B rs rt rd 0) (.sltu rd rs rt) ∧
  Writes (.sltu rd rs rt) s 4 rd (if (s.reg rs).toNat < (s.reg rt).toNat then 1 else 0) ∧
  Reads (iWord 0x28000000 rs rt imm) (.slti rt rs imm) ∧
  Writes (.slti rt rs imm) s 4 rt (if (s.reg rs).toInt < imm.toInt then 1 else 0) ∧
  Reads (iWord 0x2C000000 rs rt imm) (.sltiu rt rs imm) ∧
  Writes (.sltiu rt rs imm) s 4 rt (if (s.reg rs).toNat < (imm.signExtend 32).toNat then 1 else 0)

/-- The logical instructions, LUI and the conditional moves: the words and the results (spec 41 R253 to R260, 43 R378, R379). -/
def Obligations.LogicAndConditionalMove : Prop := ∀ (s : State) (rd rs rt : Reg) (imm : BitVec 16),
  Reads (rWord 0x00000024 rs rt rd 0) (.and rd rs rt) ∧ Writes (.and rd rs rt) s 4 rd (s.reg rs &&& s.reg rt) ∧
  Reads (rWord 0x00000025 rs rt rd 0) (.or rd rs rt) ∧ Writes (.or rd rs rt) s 4 rd (s.reg rs ||| s.reg rt) ∧
  Reads (rWord 0x00000026 rs rt rd 0) (.xor rd rs rt) ∧ Writes (.xor rd rs rt) s 4 rd (s.reg rs ^^^ s.reg rt) ∧
  Reads (rWord 0x00000027 rs rt rd 0) (.nor rd rs rt) ∧ Writes (.nor rd rs rt) s 4 rd (~~~(s.reg rs ||| s.reg rt)) ∧
  Reads (iWord 0x30000000 rs rt imm) (.andi rt rs imm) ∧
  Writes (.andi rt rs imm) s 4 rt (s.reg rs &&& BitVec.ofNat 32 imm.toNat) ∧
  Reads (iWord 0x34000000 rs rt imm) (.ori rt rs imm) ∧
  Writes (.ori rt rs imm) s 4 rt (s.reg rs ||| BitVec.ofNat 32 imm.toNat) ∧
  Reads (iWord 0x38000000 rs rt imm) (.xori rt rs imm) ∧
  Writes (.xori rt rs imm) s 4 rt (s.reg rs ^^^ BitVec.ofNat 32 imm.toNat) ∧
  Reads (iWord 0x3C000000 0 rt imm) (.lui rt imm) ∧ Writes (.lui rt imm) s 4 rt (BitVec.ofNat 32 (65536 * imm.toNat)) ∧
  Reads (rWord 0x0000000A rs rt rd 0) (.movz rd rs rt) ∧
  (s.reg rt = 0 → Writes (.movz rd rs rt) s 4 rd (s.reg rs)) ∧ (s.reg rt ≠ 0 → DoesNothing (.movz rd rs rt) s 4) ∧
  Reads (rWord 0x0000000B rs rt rd 0) (.movn rd rs rt) ∧
  (s.reg rt ≠ 0 → Writes (.movn rd rs rt) s 4 rd (s.reg rs)) ∧ (s.reg rt = 0 → DoesNothing (.movn rd rs rt) s 4)

/-- The shifts and rotates, by a constant or by the low five bits of a register: the words and the results (spec 41 R261 to R268). -/
def Obligations.ShiftsAndRotates : Prop := ∀ (s : State) (rd rs rt sa : Reg),
  let x := s.reg rt
  let n := sa.toNat
  let m := (s.reg rs).toNat % 32
  (¬ (rd = 0 ∧ rt = 0 ∧ (sa = 0 ∨ sa = 1 ∨ sa = 3)) → Reads (rWord 0x00000000 0 rt rd sa) (.sll rd rt sa)) ∧
  Writes (.sll rd rt sa) s 4 rd (BitVec.ofNat 32 (x.toNat * 2 ^ n)) ∧
  Reads (rWord 0x00000002 0 rt rd sa) (.srl rd rt sa) ∧
  Writes (.srl rd rt sa) s 4 rd (BitVec.ofNat 32 (x.toNat / 2 ^ n)) ∧
  Reads (rWord 0x00000003 0 rt rd sa) (.sra rd rt sa) ∧
  Writes (.sra rd rt sa) s 4 rd (BitVec.ofInt 32 (x.toInt / 2 ^ n)) ∧
  Reads (rWord 0x00000004 rs rt rd 0) (.sllv rd rt rs) ∧
  Writes (.sllv rd rt rs) s 4 rd (BitVec.ofNat 32 (x.toNat * 2 ^ m)) ∧
  Reads (rWord 0x00000006 rs rt rd 0) (.srlv rd rt rs) ∧
  Writes (.srlv rd rt rs) s 4 rd (BitVec.ofNat 32 (x.toNat / 2 ^ m)) ∧
  Reads (rWord 0x00000007 rs rt rd 0) (.srav rd rt rs) ∧
  Writes (.srav rd rt rs) s 4 rd (BitVec.ofInt 32 (x.toInt / 2 ^ m)) ∧
  Reads (rWord 0x00200002 0 rt rd sa) (.rotr rd rt sa) ∧
  Writes (.rotr rd rt sa) s 4 rd (BitVec.ofNat 32 (x.toNat / 2 ^ n + x.toNat % 2 ^ n * 2 ^ (32 - n))) ∧
  Reads (rWord 0x00000046 rs rt rd 0) (.rotrv rd rt rs) ∧
  Writes (.rotrv rd rt rs) s 4 rd (BitVec.ofNat 32 (x.toNat / 2 ^ m + x.toNat % 2 ^ m * 2 ^ (32 - m)))

/-- EXT and INS: the words, the field extracted or inserted, and the refusal of the operands the architecture calls UNPREDICTABLE (spec 41 R284, R285). -/
def Obligations.BitFields : Prop := ∀ (s : State) (rt rs top lsb : Reg),
  Reads (rWord 0x7C000000 rs rt top lsb) (.ext rt rs top lsb) ∧
  (lsb.toNat + top.toNat ≤ 31 →
    Writes (.ext rt rs top lsb) s 4 rt (BitVec.ofNat 32 ((s.reg rs).toNat / 2 ^ lsb.toNat % 2 ^ (top.toNat + 1)))) ∧
  (31 < lsb.toNat + top.toNat → exec (.ext rt rs top lsb) s = .refused .unpredictableForm) ∧
  Reads (rWord 0x7C000004 rs rt top lsb) (.ins rt rs top lsb) ∧
  (lsb.toNat ≤ top.toNat →
    Writes (.ins rt rs top lsb) s 4 rt
      (BitVec.ofNat 32 ((s.reg rt).toNat / 2 ^ (top.toNat + 1) * 2 ^ (top.toNat + 1) +
        (s.reg rs).toNat % 2 ^ (top.toNat - lsb.toNat + 1) * 2 ^ lsb.toNat + (s.reg rt).toNat % 2 ^ lsb.toNat))) ∧
  (top.toNat < lsb.toNat → exec (.ins rt rs top lsb) s = .refused .unpredictableForm)

/-- SEB, SEH, WSBH, CLZ and CLO: the words and the results, and the refusal of CLZ and CLO with an rt field other than rd (spec 41 R282, R283, R286, R287, R291). -/
def Obligations.ExtendSwapCount : Prop := ∀ (s : State) (rd rs rt : Reg),
  let x := (s.reg rt).toNat
  let y := (s.reg rs).toNat
  Reads (rWord 0x7C000420 0 rt rd 0) (.seb rd rt) ∧ Writes (.seb rd rt) s 4 rd (signedValue (x % 256) 1) ∧
  Reads (rWord 0x7C000620 0 rt rd 0) (.seh rd rt) ∧ Writes (.seh rd rt) s 4 rd (signedValue (x % 65536) 2) ∧
  Reads (rWord 0x7C0000A0 0 rt rd 0) (.wsbh rd rt) ∧
  Writes (.wsbh rd rt) s 4 rd
    (BitVec.ofNat 32 (x / 65536 % 256 * 16777216 + x / 16777216 * 65536 + x % 256 * 256 + x / 256 % 256)) ∧
  Reads (rWord 0x70000020 rs rd rd 0) (.clz rd rs rd) ∧
  Writes (.clz rd rs rd) s 4 rd (BitVec.ofNat 32 (if y = 0 then 32 else 31 - y.log2)) ∧
  Reads (rWord 0x70000021 rs rd rd 0) (.clo rd rs rd) ∧
  Writes (.clo rd rs rd) s 4 rd (BitVec.ofNat 32 (if y = 4294967295 then 32 else 31 - (4294967295 - y).log2)) ∧
  (rt ≠ rd → exec (.clz rd rs rt) s = .refused .unpredictableForm ∧
    exec (.clo rd rs rt) s = .refused .unpredictableForm)

/-- The multiplies: the words, the 64-bit result in HI and LO, and MUL, which leaves HI and LO without a stated value (spec 41 R269, R270, R273 to R277). -/
def Obligations.Multiplies : Prop := ∀ (s : State) (rd rs rt : Reg),
  let p : Int := (s.reg rs).toInt * (s.reg rt).toInt
  let u : Int := (s.reg rs).toNat * (s.reg rt).toNat
  let acc : Int := s.hi.toNat * 4294967296 + s.lo.toNat
  let high := fun x : Int => BitVec.ofInt 32 (x / 4294967296)
  let low := fun x : Int => BitVec.ofInt 32 x
  Reads (rWord 0x00000018 rs rt 0 0) (.mult rs rt) ∧ WritesHiLo (.mult rs rt) s 4 (high p) (low p) ∧
  Reads (rWord 0x00000019 rs rt 0 0) (.multu rs rt) ∧ WritesHiLo (.multu rs rt) s 4 (high u) (low u) ∧
  Reads (rWord 0x70000000 rs rt 0 0) (.madd rs rt) ∧ WritesHiLo (.madd rs rt) s 4 (high (acc + p)) (low (acc + p)) ∧
  Reads (rWord 0x70000001 rs rt 0 0) (.maddu rs rt) ∧ WritesHiLo (.maddu rs rt) s 4 (high (acc + u)) (low (acc + u)) ∧
  Reads (rWord 0x70000004 rs rt 0 0) (.msub rs rt) ∧ WritesHiLo (.msub rs rt) s 4 (high (acc - p)) (low (acc - p)) ∧
  Reads (rWord 0x70000005 rs rt 0 0) (.msubu rs rt) ∧ WritesHiLo (.msubu rs rt) s 4 (high (acc - u)) (low (acc - u)) ∧
  Reads (rWord 0x70000002 rs rt rd 0) (.mul rd rs rt) ∧
  ∃ t, exec (.mul rd rs rt) s = .next t ∧ t.reg rd = (if rd = 0 then 0 else low p) ∧ KeepsRegs s t [rd] ∧
    KeepsMemory s t [] ∧ KeepsSystem s t ∧ GoesOn s t 4

/-- DIV and DIVU: the words, quotient and remainder, and, where no result is stated, completion with nothing but HI and LO changed (spec 41 R271, R272, R288; log 7). -/
def Obligations.Divides : Prop := ∀ (s : State) (rs rt : Reg),
  let a := s.reg rs
  let b := s.reg rt
  let stated := b ≠ 0 ∧ ¬ (a = 0x80000000 ∧ b = 0xFFFFFFFF)
  Reads (rWord 0x0000001A rs rt 0 0) (.div rs rt) ∧
  (stated →
    WritesHiLo (.div rs rt) s 4 (BitVec.ofInt 32 (a.toInt.tmod b.toInt)) (BitVec.ofInt 32 (a.toInt.tdiv b.toInt))) ∧
  (¬ stated → LosesHiLo (.div rs rt) s 4) ∧
  Reads (rWord 0x0000001B rs rt 0 0) (.divu rs rt) ∧
  (b ≠ 0 → WritesHiLo (.divu rs rt) s 4 (BitVec.ofNat 32 (a.toNat % b.toNat)) (BitVec.ofNat 32 (a.toNat / b.toNat))) ∧
  (b = 0 → LosesHiLo (.divu rs rt) s 4)

/-- MFHI, MFLO, MTHI and MTLO: the words and the results; the other half is kept unless HI and LO hold an arithmetic result of which neither half has been read (spec 41 R278 to R281, R289). -/
def Obligations.HiLoMoves : Prop := ∀ (s : State) (rd rs : Reg),
  let reads := fun (i : Instr) (v : Word) =>
    ∃ t, exec i s = .next t ∧ t.reg rd = (if rd = 0 then 0 else v) ∧ KeepsRegs s t [rd] ∧ t.hi = s.hi ∧ t.lo = s.lo ∧
      t.hiLoUnread = false ∧ KeepsMemory s t [] ∧ KeepsSystem s t ∧ GoesOn s t 4
  Reads (rWord 0x00000010 0 0 rd 0) (.mfhi rd) ∧ reads (.mfhi rd) s.hi ∧
  Reads (rWord 0x00000012 0 0 rd 0) (.mflo rd) ∧ reads (.mflo rd) s.lo ∧
  Reads (rWord 0x00000011 rs 0 0 0) (.mthi rs) ∧
  (∃ t, exec (.mthi rs) s = .next t ∧ t.hi = s.reg rs ∧ (s.hiLoUnread = false → t.lo = s.lo) ∧
    t.hiLoUnread = false ∧ KeepsRegs s t [] ∧ KeepsMemory s t [] ∧ KeepsSystem s t ∧ GoesOn s t 4) ∧
  Reads (rWord 0x00000013 rs 0 0 0) (.mtlo rs) ∧
  (∃ t, exec (.mtlo rs) s = .next t ∧ t.lo = s.reg rs ∧ (s.hiLoUnread = false → t.hi = s.hi) ∧
    t.hiLoUnread = false ∧ KeepsRegs s t [] ∧ KeepsMemory s t [] ∧ KeepsSystem s t ∧ GoesOn s t 4)

/-! ## Loads and stores (spec 40, 20) -/

/-- LB, LBU, LH, LHU and LW: the words, the value loaded, and each exception (spec 40 R201 to R205; model's choices: byte and halfword addresses in the reversed order, log 17 from 20 R111; where a data bus error is reported, log 13 from 20 R124; a bus error held pending, log 27; the refusal of dseg, log 42 from 20 R104). -/
def Obligations.AlignedLoads : Prop := ∀ (s : State) (rt base : Reg) (offset : BitVec 16),
  let va := BitVec.ofInt 32 ((s.reg base).toNat + offset.toInt)
  let value := fun w => s.valueAt (dataAddress s.seen w va) w.bytes
  Reads (iWord 0x80000000 base rt offset) (.lb rt base offset) ∧
  Loads (.lb rt base offset) s 4 rt .byte va (signedValue (value .byte) 1) ∧
  Reads (iWord 0x90000000 base rt offset) (.lbu rt base offset) ∧
  Loads (.lbu rt base offset) s 4 rt .byte va (BitVec.ofNat 32 (value .byte)) ∧
  Reads (iWord 0x84000000 base rt offset) (.lh rt base offset) ∧
  Loads (.lh rt base offset) s 4 rt .half va (signedValue (value .half) 2) ∧
  Reads (iWord 0x94000000 base rt offset) (.lhu rt base offset) ∧
  Loads (.lhu rt base offset) s 4 rt .half va (BitVec.ofNat 32 (value .half)) ∧
  Reads (iWord 0x8C000000 base rt offset) (.lw rt base offset) ∧
  Loads (.lw rt base offset) s 4 rt .word va (BitVec.ofNat 32 (value .word))

/-- LWL and LWR: the words, the bytes merged into the register, and each exception (spec 40 R207, R208; model's choices: the byte order reversed in User mode, log 17 from 20 R111; where a data bus error is reported, log 13 from 20 R124; a bus error held pending, log 27; the refusal of dseg, log 42 from 20 R104). -/
def Obligations.UnalignedLoads : Prop := ∀ (s : State) (rt base : Reg) (offset : BitVec 16),
  let va := BitVec.ofInt 32 ((s.reg base).toNat + offset.toInt)
  let w := s.valueAt (wordAt s va) 4
  let b := byteIndex s va
  let old := (s.reg rt).toNat
  Reads (iWord 0x88000000 base rt offset) (.lwl rt base offset) ∧
  PartialLoads (.lwl rt base offset) s rt va
    (BitVec.ofNat 32 (w % 256 ^ (b + 1) * 256 ^ (3 - b) + old % 256 ^ (3 - b))) ∧
  Reads (iWord 0x98000000 base rt offset) (.lwr rt base offset) ∧
  PartialLoads (.lwr rt base offset) s rt va
    (BitVec.ofNat 32 (w / 256 ^ b + old / 256 ^ (4 - b) * 256 ^ (4 - b)))

/-- SB, SH and SW: the words, the bytes stored in memory, flash, devices and peripheral registers, no other byte changed, and each exception (spec 40 R206, R213, R214, 20 R115, R119; model's choices: byte and halfword lanes in the reversed order, log 17 from 20 R111; where a data bus error is reported, log 13 from 20 R124; a bus error held pending, log 27; flash and devices, log 37; the refusal of dseg, log 42 from 20 R104). -/
def Obligations.AlignedStores : Prop := ∀ (s : State) (rt base : Reg) (offset : BitVec 16),
  let va := BitVec.ofInt 32 ((s.reg base).toNat + offset.toInt)
  Reads (iWord 0xA0000000 base rt offset) (.sb rt base offset) ∧
  Stores (.sb rt base offset) s 4 .byte va (s.reg rt) ∧
  Reads (iWord 0xA4000000 base rt offset) (.sh rt base offset) ∧
  Stores (.sh rt base offset) s 4 .half va (s.reg rt) ∧
  Reads (iWord 0xAC000000 base rt offset) (.sw rt base offset) ∧
  Stores (.sw rt base offset) s 4 .word va (s.reg rt)

/-- SWL and SWR: the words, the bytes stored in memory, flash, devices and peripheral registers, no other byte changed, and each exception (spec 40 R209, R210, 20 R115, R119; model's choices: the byte order reversed in User mode, log 17 from 20 R111; where a data bus error is reported, log 13 from 20 R124; a bus error held pending, log 27; flash and devices, log 37; the refusal of dseg, log 42 from 20 R104). -/
def Obligations.UnalignedStores : Prop := ∀ (s : State) (rt base : Reg) (offset : BitVec 16),
  let va := BitVec.ofInt 32 ((s.reg base).toNat + offset.toInt)
  let b := byteIndex s va
  Reads (iWord 0xA8000000 base rt offset) (.swl rt base offset) ∧
  PartialStores (.swl rt base offset) s va (wordAt s va) (b + 1) ((s.reg rt).toNat / 256 ^ (3 - b)) ∧
  Reads (iWord 0xB8000000 base rt offset) (.swr rt base offset) ∧
  PartialStores (.swr rt base offset) s va (wordAt s va + BitVec.ofNat 32 b) (4 - b) (s.reg rt).toNat

/-- A word store to a peripheral register: at the base address it writes, at the SET, CLR and INV addresses it sets, clears and inverts the bits stored as 1, at any other word of the block, in flash and in a device without a stated behaviour it changes no memory (spec 20 R115, R119; log 37). -/
def Obligations.PeripheralStores : Prop :=
  ∀ (s : State) (rt base : Reg) (offset : BitVec 16) (r : Region) (clr set inv : BitVec 2),
    let va := BitVec.ofInt 32 ((s.reg base).toNat + offset.toInt)
    let pa := dataAddress s.seen .word va
    let reg := pa &&& 0xFFFFFFF3
    let old := BitVec.ofNat 32 (s.valueAt reg 4)
    let v := s.reg rt
    let slot := pa.extractLsb' 2 2
    Accessible s .store .word va → s.mem.wf → s.region pa = some r →
    ∃ t, exec (.sw rt base offset) s = .next t ∧ KeepsRegs s t [] ∧ KeepsHiLo s t ∧ KeepsSystem s t ∧ GoesOn s t 4 ∧
      (r.kind = .registers clr set inv →
        (slot = 0 → Stored s t reg 4 v.toNat) ∧
        (slot ≠ 0 → slot = set → Stored s t reg 4 (old ||| v).toNat) ∧
        (slot ≠ 0 → slot ≠ set → slot = clr → Stored s t reg 4 (old &&& ~~~v).toNat) ∧
        (slot ≠ 0 → slot ≠ set → slot ≠ clr → slot = inv → Stored s t reg 4 (old ^^^ v).toNat) ∧
        (slot ≠ 0 → slot ≠ set → slot ≠ clr → slot ≠ inv → KeepsMemory s t [])) ∧
      (r.kind = .rom ∨ r.kind = .device → KeepsMemory s t [])

/-- LL and SC: the words, LLbit, the value loaded, the conditional store, region by region, with its success in the register, and each exception (spec 40 R211, R212; model's choices: where a data bus error is reported, log 13 from 20 R124; a bus error held pending, after which rt and LLbit are free, log 27; flash and devices, log 37; the refusal of dseg, log 42 from 20 R104). -/
def Obligations.LinkedLoadStore : Prop := ∀ (s : State) (rt base : Reg) (offset : BitVec 16),
  let va := BitVec.ofInt 32 ((s.reg base).toNat + offset.toInt)
  let pa := dataAddress s.seen .word va
  let ll : Instr := .ll rt base offset
  let sc : Instr := .sc rt base offset
  let ends := fun (i : Instr) (t : State) (v : Word) (bit : Bool) =>
    exec i s = .next t ∧ t.reg rt = (if rt = 0 then 0 else v) ∧ KeepsRegs s t [rt] ∧ KeepsHiLo s t ∧ t.llbit = bit ∧
      t.cp0 = s.cp0 ∧ KeepsOutside s t ∧ KeepsHazards s t ∧ GoesOn s t 4
  let held := s.cp0.debugReg.iexi = true
  Reads (iWord 0xC0000000 base rt offset) ll ∧
  (Accessible s .load .word va →
    ∃ t x, ends ll t x true ∧ KeepsMemory s t [] ∧ (ReadsMemory s pa → x = BitVec.ofNat 32 (s.valueAt pa 4))) ∧
  (AddressError s .word va → s.cp0.debugReg.dm = false → Raises ll s (.adEL va)) ∧
  (BusError s .load .word va → TakesExceptions s → RaisesBusError ll s [rt]) ∧
  (BusError s .load .word va → held → HoldsBusError ll s 4 [rt]) ∧
  (GoesToDseg s .word va → exec ll s = .refused .dsegAccess) ∧
  Reads (iWord 0xE0000000 base rt offset) sc ∧
  (Accessible s .store .word va → s.llbit = true → s.mem.wf →
    ∃ t, ends sc t 1 false ∧ StoredAt s t pa 4 (s.reg rt).toNat) ∧
  (¬ AddressError s .word va → s.llbit = false → ∃ t, ends sc t 0 false ∧ KeepsMemory s t []) ∧
  (AddressError s .word va → s.cp0.debugReg.dm = false → Raises sc s (.adES va)) ∧
  (BusError s .store .word va → s.llbit = true → TakesExceptions s → RaisesBusError sc s []) ∧
  (BusError s .store .word va → s.llbit = true → held → HoldsBusError sc s 4 [rt]) ∧
  (GoesToDseg s .word va → s.llbit = true → exec sc s = .refused .dsegAccess)

/-- PREF and CACHE: the words; neither has an effect, and CACHE needs coprocessor 0 (spec 40 R215, R216). -/
def Obligations.PrefetchAndCache : Prop := ∀ (s : State) (hint base : Reg) (offset : BitVec 16),
  Reads (iWord 0xCC000000 base hint offset) (.pref hint base offset) ∧
  DoesNothing (.pref hint base offset) s 4 ∧
  Reads (iWord 0xBC000000 base hint offset) (.cache hint base offset) ∧
  ((s.view .coprocessor).cop0Usable = true → DoesNothing (.cache hint base offset) s 4) ∧
  NeedsCop0 (.cache hint base offset) s .coprocessor

/-- Loads, stores and operations of the coprocessors this chip does not have: the words, and the exception each takes; COP1X and MOVCI take one of two (spec 40 R217 to R224, 44 R410 to R413). -/
def Obligations.AbsentCoprocessors : Prop :=
  ∀ (s : State) (rt base : Reg) (offset : BitVec 16) (f : BitVec 26) (operands : BitVec 20),
    Reads (iWord 0xC4000000 base rt offset) (.lwc1 rt base offset) ∧
    Reads (iWord 0xC8000000 base rt offset) (.lwc2 rt base offset) ∧
    Reads (iWord 0xD4000000 base rt offset) (.ldc1 rt base offset) ∧
    Reads (iWord 0xD8000000 base rt offset) (.ldc2 rt base offset) ∧
    Reads (iWord 0xE4000000 base rt offset) (.swc1 rt base offset) ∧
    Reads (iWord 0xE8000000 base rt offset) (.swc2 rt base offset) ∧
    Reads (iWord 0xF4000000 base rt offset) (.sdc1 rt base offset) ∧
    Reads (iWord 0xF8000000 base rt offset) (.sdc2 rt base offset) ∧
    Reads (jWord 0x44000000 f) (.cop1 f) ∧ Reads (jWord 0x48000000 f) (.cop2 f) ∧
    Reads (jWord 0x4C000000 f) (.cop1x f) ∧ Reads (codeWord 0x00000001 operands) (.movci operands) ∧
    (s.cp0.debugReg.dm = false →
      (∀ i ∈ [Instr.lwc1 rt base offset, .ldc1 rt base offset, .swc1 rt base offset, .sdc1 rt base offset, .cop1 f],
        Raises i s (.cpu 1)) ∧
      (∀ i ∈ [Instr.lwc2 rt base offset, .ldc2 rt base offset, .swc2 rt base offset, .sdc2 rt base offset, .cop2 f],
        Raises i s (.cpu 2)) ∧
      ∀ i ∈ [Instr.cop1x f, .movci operands], Raises i s .ri ∨ Raises i s (.cpu 1))

/-! ## Jumps and branches (spec 42) -/

/-- J, JAL and JALX: the words, the target, the ISA mode and the link (spec 42 R330 to R332). -/
def Obligations.RegionJumps : Prop := ∀ (s : State) (index : BitVec 26),
  Reads (jWord 0x08000000 index) (.j index) ∧ Reads (jWord 0x0C000000 index) (.jal index) ∧
  Reads (jWord 0x74000000 index) (.jalx index) ∧
  (s.delay = none →
    Jumps (.j index) s 4 (regionGoal s index) s.isaMode false none ∧
    Jumps (.jal index) s 4 (regionGoal s index) s.isaMode false (some (31, s.pc + 8)) ∧
    Jumps (.jalx index) s 4 (regionGoal s index) .mips16 false (some (31, s.pc + 8)))

/-- JR, JALR and their forms with hazard barrier: the words, the target with the ISA mode of bit 0, the link, and the refusal of JALR with rd = rs (spec 42 R333 to R336; that every hint value reads and acts alike is the model's choice, log 19, from 30 R168 against the masks of R333 to R336). -/
def Obligations.RegisterJumps : Prop := ∀ (s : State) (rd rs : Reg),
  let t := s.reg rs
  (∀ hint : BitVec 4,
    Reads (rWord 0x00000008 rs 0 0 (hint.setWidth 5)) (.jr rs hint) ∧
    Reads (rWord 0x00000408 rs 0 0 (hint.setWidth 5)) (.jrHb rs hint) ∧
    Reads (rWord 0x00000009 rs 0 rd (hint.setWidth 5)) (.jalr rd rs hint) ∧
    Reads (rWord 0x00000409 rs 0 rd (hint.setWidth 5)) (.jalrHb rd rs hint)) ∧
  (s.delay = none → ∀ hint : BitVec 4,
    Jumps (.jr rs hint) s 4 (goalOf t) (modeOf t) false none ∧
    Jumps (.jrHb rs hint) s 4 (goalOf t) (modeOf t) true none ∧
    (rd ≠ rs →
      Jumps (.jalr rd rs hint) s 4 (goalOf t) (modeOf t) false (some (rd, s.pc + 8)) ∧
      Jumps (.jalrHb rd rs hint) s 4 (goalOf t) (modeOf t) true (some (rd, s.pc + 8))) ∧
    (rd = rs →
      exec (.jalr rd rs hint) s = .refused .unpredictableForm ∧
      exec (.jalrHb rd rs hint) s = .refused .unpredictableForm))

/-- The conditional branches: the words, the condition, the target, the link, and the refusal of the linking forms with rs = 31 (spec 42 R337 to R344). -/
def Obligations.Branches : Prop := ∀ (s : State) (rs rt : Reg) (offset : BitVec 16),
  let x := (s.reg rs).toInt
  let goal := branchGoal s offset
  Reads (iWord 0x10000000 rs rt offset) (.beq rs rt offset) ∧
  Reads (iWord 0x14000000 rs rt offset) (.bne rs rt offset) ∧
  Reads (iWord 0x18000000 rs 0 offset) (.blez rs offset) ∧ Reads (iWord 0x1C000000 rs 0 offset) (.bgtz rs offset) ∧
  Reads (iWord 0x04000000 rs 0 offset) (.bltz rs offset) ∧ Reads (iWord 0x04010000 rs 0 offset) (.bgez rs offset) ∧
  Reads (iWord 0x04100000 rs 0 offset) (.bltzal rs offset) ∧
  Reads (iWord 0x04110000 rs 0 offset) (.bgezal rs offset) ∧
  (s.delay = none →
    BranchesIf (.beq rs rt offset) s (s.reg rs = s.reg rt) goal none ∧
    BranchesIf (.bne rs rt offset) s (s.reg rs ≠ s.reg rt) goal none ∧
    BranchesIf (.blez rs offset) s (x ≤ 0) goal none ∧
    BranchesIf (.bgtz rs offset) s (0 < x) goal none ∧
    BranchesIf (.bltz rs offset) s (x < 0) goal none ∧
    BranchesIf (.bgez rs offset) s (0 ≤ x) goal none ∧
    (rs ≠ 31 →
      BranchesIf (.bltzal rs offset) s (x < 0) goal (some (31, s.pc + 8)) ∧
      BranchesIf (.bgezal rs offset) s (0 ≤ x) goal (some (31, s.pc + 8))) ∧
    (rs = 31 →
      exec (.bltzal rs offset) s = .refused .unpredictableForm ∧
      exec (.bgezal rs offset) s = .refused .unpredictableForm))

/-- The branch-likely instructions: as the branches, but not taken they nullify their slot (spec 42 R345 to R352). -/
def Obligations.LikelyBranches : Prop := ∀ (s : State) (rs rt : Reg) (offset : BitVec 16),
  let x := (s.reg rs).toInt
  let goal := branchGoal s offset
  Reads (iWord 0x50000000 rs rt offset) (.beql rs rt offset) ∧
  Reads (iWord 0x54000000 rs rt offset) (.bnel rs rt offset) ∧
  Reads (iWord 0x58000000 rs 0 offset) (.blezl rs offset) ∧ Reads (iWord 0x5C000000 rs 0 offset) (.bgtzl rs offset) ∧
  Reads (iWord 0x04020000 rs 0 offset) (.bltzl rs offset) ∧ Reads (iWord 0x04030000 rs 0 offset) (.bgezl rs offset) ∧
  Reads (iWord 0x04120000 rs 0 offset) (.bltzall rs offset) ∧
  Reads (iWord 0x04130000 rs 0 offset) (.bgezall rs offset) ∧
  (s.delay = none →
    BranchesLikely (.beql rs rt offset) s (s.reg rs = s.reg rt) goal none ∧
    BranchesLikely (.bnel rs rt offset) s (s.reg rs ≠ s.reg rt) goal none ∧
    BranchesLikely (.blezl rs offset) s (x ≤ 0) goal none ∧
    BranchesLikely (.bgtzl rs offset) s (0 < x) goal none ∧
    BranchesLikely (.bltzl rs offset) s (x < 0) goal none ∧
    BranchesLikely (.bgezl rs offset) s (0 ≤ x) goal none ∧
    (rs ≠ 31 →
      BranchesLikely (.bltzall rs offset) s (x < 0) goal (some (31, s.pc + 8)) ∧
      BranchesLikely (.bgezall rs offset) s (0 ≤ x) goal (some (31, s.pc + 8))) ∧
    (rs = 31 →
      exec (.bltzall rs offset) s = .refused .unpredictableForm ∧
      exec (.bgezall rs offset) s = .refused .unpredictableForm))

/-- In a delay slot every transfer of control, ERET, DERET and WAIT stop with the fault that says so, and an extended instruction is refused (spec 42 R322, 45 R448, R451; that the stop is a fault where 93 U27 and 92 D24 say 'refuse' is the model's choice, log 11). -/
def Obligations.TransferInDelaySlot : Prop :=
  ∀ (s : State) (rd rs rt : Reg) (x : Reg3) (offset : BitVec 16) (off8 : BitVec 8) (off11 : BitVec 11)
    (index : BitVec 26) (hint : BitVec 4) (code : BitVec 19) (op : ExtOp), s.delay.isSome = true →
    (∀ i ∈ [Instr.j index, .jal index, .jalx index, .jr rs hint, .jrHb rs hint, .jalr rd rs hint, .jalrHb rd rs hint,
        .beq rs rt offset, .bne rs rt offset, .blez rs offset, .bgtz rs offset, .bltz rs offset, .bgez rs offset,
        .bltzal rs offset, .bgezal rs offset, .beql rs rt offset, .bnel rs rt offset, .blezl rs offset,
        .bgtzl rs offset, .bltzl rs offset, .bgezl rs offset, .bltzall rs offset, .bgezall rs offset,
        .m16Jal index, .m16Jalx index, .m16Jr x, .m16JrRa, .m16Jalr x, .m16Jrc x, .m16JrcRa, .m16Jalrc x,
        .m16B off11, .m16Beqz x off8, .m16Bnez x off8, .m16Bteqz off8, .m16Btnez off8, .eret, .deret, .wait code],
      exec i s = .fault .branchInDelaySlot) ∧
    exec (.m16Extend op) s = .refused .extendInDelaySlot

/-! ## Serialisation, exceptions, RDHWR, WAIT (spec 43) -/

/-- NOP and SSNOP do nothing; EHB clears the execution hazards; the barrier of JR.HB and JALR.HB clears all hazards when the instruction in the slot ends, whichever it is; SYNC and SYNCI change no register and no memory, and together with a jump with barrier and any instruction that ends in its slot, a store elsewhere among them, or with ERET, they make the stored bytes of an address visible to fetches (spec 43 R360, R361, R375 to R377, 70 R722, 20 R141; that the barrier clears the hazards made in its own slot too is the model's choice, log 45; SYNCI raises no address error and marks the aligned word, log 18, log 10). -/
def Obligations.NoOperationsAndBarriers : Prop :=
  ∀ (s : State) (stype base : Reg) (offset : BitVec 16) (rd rs : Reg) (hint : BitVec 4),
    Reads 0x00000000 .nop ∧ DoesNothing .nop s 4 ∧ Reads 0x00000040 .ssnop ∧ DoesNothing .ssnop s 4 ∧
    Reads 0x000000C0 .ehb ∧
    (∃ t, exec .ehb s = .next t ∧ t.hazards = [] ∧ (NoBarrier s → t.fetchHazards = s.fetchHazards) ∧
      t.seen = s.cp0 ∧ KeepsRegs s t [] ∧ KeepsHiLo s t ∧ KeepsMemory s t [] ∧ t.cp0 = s.cp0 ∧ t.llbit = s.llbit ∧
      KeepsOutside s t ∧ GoesOn s t 4) ∧
    (∀ d, s.delay = some d → d.barrier = true →
      (∃ t, exec .nop s = .next t ∧ t.hazards = [] ∧ t.fetchHazards = [] ∧ t.pc = d.target ∧ t.isaMode = d.mode) ∧
      ∀ (i : Instr) (t : State), exec i s = .next t → t.hazards = [] ∧ t.fetchHazards = []) ∧
    Reads (rWord 0x0000000F 0 0 0 stype) (.sync stype) ∧
    (∃ t, exec (.sync stype) s = .next t ∧ KeepsRegs s t [] ∧ KeepsHiLo s t ∧ KeepsMemory s t [] ∧ KeepsSystem s t ∧
      GoesOn s t 4) ∧
    Reads (iWord 0x041F0000 base 0 offset) (.synci base offset) ∧
    (∃ t, exec (.synci base offset) s = .next t ∧ KeepsRegs s t [] ∧ KeepsHiLo s t ∧ KeepsMemory s t [] ∧
      KeepsSystem s t ∧ GoesOn s t 4) ∧
    (∀ t u : State, let va := BitVec.ofInt 32 ((s.reg base).toNat + offset.toInt)
      let visible := fun v : State => ∀ f pa : Word, wordAddress pa = wordAt s va → v.fetchByte f pa = v.busByte pa
      s.delay = none → exec (.synci base offset) s = .next t → exec (.sync stype) t = .next u →
      ¬ AddressError s .byte va →
      (∀ (j i : Instr) (w x : State) (len : Word), j = .jrHb rs hint ∨ j = .jalrHb rd rs hint → exec j u = .next w →
        exec i w = .next (x.advance len) → x.delay = w.delay →
        (∃ new, x.stale = new ++ w.stale ∧ ∀ e ∈ new, ∀ c ∈ e.cells, c.1 / 4 ≠ (wordAt s va).toNat / 4) →
        visible (x.advance len)) ∧
      ((u.view .eret).cop0Usable = true → ∀ v, exec .eret u = .next v → visible v))

/-- SYSCALL and the two BREAK instructions: the words, and the exception, whatever the code (spec 43 R363, R364, 45 R507). -/
def Obligations.SystemCallAndBreak : Prop := ∀ (s : State) (code : BitVec 20) (code6 : BitVec 6),
  Reads (codeWord 0x0000000C code) (.syscall code) ∧ Reads (codeWord 0x0000000D code) (.break_ code) ∧
  Reads16 (0xE805 ||| code6.setWidth 16 <<< 5) (.m16Break code6) ∧
  (s.cp0.debugReg.dm = false →
    Raises (.syscall code) s .sys ∧ Raises (.break_ code) s .bp ∧ Raises (.m16Break code6) s .bp)

/-- The traps: the words, the condition, the exception where it holds and no effect where not (spec 43 R366 to R374, R382 to R384). -/
def Obligations.Traps : Prop := ∀ (s : State) (rs rt : Reg) (code : BitVec 10) (imm : BitVec 16),
  let a := s.reg rs
  let b := s.reg rt
  let i := imm.signExtend 32
  Reads (trapWord 0x00000030 rs rt code) (.tge rs rt code) ∧ TrapsIf (.tge rs rt code) s (b.toInt ≤ a.toInt) ∧
  Reads (trapWord 0x00000031 rs rt code) (.tgeu rs rt code) ∧ TrapsIf (.tgeu rs rt code) s (b.toNat ≤ a.toNat) ∧
  Reads (trapWord 0x00000032 rs rt code) (.tlt rs rt code) ∧ TrapsIf (.tlt rs rt code) s (a.toInt < b.toInt) ∧
  Reads (trapWord 0x00000033 rs rt code) (.tltu rs rt code) ∧ TrapsIf (.tltu rs rt code) s (a.toNat < b.toNat) ∧
  Reads (trapWord 0x00000034 rs rt code) (.teq rs rt code) ∧ TrapsIf (.teq rs rt code) s (a = b) ∧
  Reads (trapWord 0x00000036 rs rt code) (.tne rs rt code) ∧ TrapsIf (.tne rs rt code) s (a ≠ b) ∧
  Reads (iWord 0x04080000 rs 0 imm) (.tgei rs imm) ∧ TrapsIf (.tgei rs imm) s (imm.toInt ≤ a.toInt) ∧
  Reads (iWord 0x04090000 rs 0 imm) (.tgeiu rs imm) ∧ TrapsIf (.tgeiu rs imm) s (i.toNat ≤ a.toNat) ∧
  Reads (iWord 0x040A0000 rs 0 imm) (.tlti rs imm) ∧ TrapsIf (.tlti rs imm) s (a.toInt < imm.toInt) ∧
  Reads (iWord 0x040B0000 rs 0 imm) (.tltiu rs imm) ∧ TrapsIf (.tltiu rs imm) s (a.toNat < i.toNat) ∧
  Reads (iWord 0x040C0000 rs 0 imm) (.teqi rs imm) ∧ TrapsIf (.teqi rs imm) s (a.toInt = imm.toInt) ∧
  Reads (iWord 0x040E0000 rs 0 imm) (.tnei rs imm) ∧ TrapsIf (.tnei rs imm) s (a.toInt ≠ imm.toInt)

/-- The two SDBBP instructions: the words, and entry to Debug mode; in Debug mode they are refused (spec 43 R365, 45 R503, 60 R661, R662; the vector without probe, log 16; the refusal, log 12; DOZE, log 43). -/
def Obligations.DebugBreakpoints : Prop := ∀ (s : State) (code : BitVec 20) (code6 : BitVec 6),
  Reads (codeWord 0x7000003F code) (.sdbbp code) ∧ Reads16 (0xE801 ||| code6.setWidth 16 <<< 5) (.m16Sdbbp code6) ∧
  ∀ i ∈ [Instr.sdbbp code, .m16Sdbbp code6],
    (s.cp0.debugReg.dm = false → ∃ t, exec i s = .next t ∧ DebugEntered s t .dbp) ∧
    (s.cp0.debugReg.dm = true → exec i s = .refused .debugMode)

/-- RDHWR: the word, the four hardware registers, and Reserved Instruction for a register that does not exist or is not enabled (spec 43 R380). -/
def Obligations.ReadHardwareRegister : Prop := ∀ (s : State) (rt rd : Reg),
  let enabled := s.seen.cop0Usable = true ∨ s.seen.hwrena.getLsbD rd.toNat = true
  Reads (rWord 0x7C00003B 0 rt rd 0) (.rdhwr rt rd) ∧
  (enabled →
    (rd = 0 → Writes (.rdhwr rt rd) s 4 rt 0) ∧ (rd = 1 → Writes (.rdhwr rt rd) s 4 rt 0) ∧
    (rd = 2 → Writes (.rdhwr rt rd) s 4 rt s.seen.count) ∧ (rd = 3 → Writes (.rdhwr rt rd) s 4 rt 2)) ∧
  (3 < rd.toNat ∨ ¬ enabled → s.cp0.debugReg.dm = false → Raises (.rdhwr rt rd) s .ri)

/-- WAIT: the word, the next address, and the idle state it may leave the processor in; a step that idles runs no instruction (spec 43 R381). -/
def Obligations.WaitMayIdle : Prop := ∀ (s : State) (code : BitVec 19),
  Reads (codeWord 0x42000020 code) (.wait code) ∧
  (s.delay = none → (s.view .coprocessor).cop0Usable = true →
    ∃ t, exec (.wait code) s = .next t ∧ t.waiting = true ∧ KeepsAllBut { s with waiting := true } t [] ∧
      GoesOn s t 4) ∧
  (s.delay = none → NeedsCop0 (.wait code) s .coprocessor) ∧
  (s.waiting = true → s.inputs = [{ StepInput.quiet with stayIdle := true }] → s.hazards = [] →
    s.cp0.debugReg.dm = false → s.cp0.debugReg.sst = false → s.cp0.debugReg.ibusep = false → s.cp0.debugReg.dbusep = false →
    s.cp0.interruptPending = false →
    step s = .next { s with inputs := [], between := [], draws := s.draws + 1 })

/-! ## Coprocessor 0 (spec 44, 10) -/

/-- MFC0: the word, and the value of each register, its reserved bits zero; a reserved register reads some value (spec 44 R403, 10 R40 to R79). -/
def Obligations.MoveFromCoprocessor0 : Prop := ∀ (s : State) (rt rd : Reg) (sel : Reg3),
  let c := s.seen
  let reads := fun (n k : Nat) (p : Word → Prop) =>
    rd.toNat = n → sel.toNat = k → ∃ v, Writes (.mfc0 rt rd sel) s 4 rt v ∧ p v
  Reads (rWord 0x40000000 0 rt rd 0 ||| sel.setWidth 32) (.mfc0 rt rd sel) ∧
  NeedsCop0 (.mfc0 rt rd sel) s .coprocessor ∧
  ((s.view .coprocessor).cop0Usable = true →
    (∃ v, Writes (.mfc0 rt rd sel) s 4 rt v) ∧
    reads 7 0 (fun v => v = c.hwrena.setWidth 32) ∧
    reads 8 0 (fun v => v = c.badVAddr) ∧ reads 9 0 (fun v => v = c.count) ∧ reads 11 0 (fun v => v = c.compare) ∧
    reads 12 0 (fun v => StatusWord v c.status) ∧
    reads 12 1 (fun v => v = c.intCtlVs.setWidth 32 <<< 5) ∧
    reads 12 2 (fun v => v.extractLsb' 26 4 = BitVec.ofNat 4 Config.hss ∧
      (v.extractLsb' 18 4).toNat = c.srsCtl.eicss.val ∧ (v.extractLsb' 12 4).toNat = c.srsCtl.ess.val ∧
      (v.extractLsb' 6 4).toNat = c.srsCtl.pss.val ∧ (v.extractLsb' 0 4).toNat = c.srsCtl.css.val ∧
      v &&& 0xC3C30C30 = 0) ∧
    reads 12 3 (fun v => v = c.srsMap) ∧
    reads 13 0 (fun v => v.getLsbD 31 = c.cause.bd ∧ v.getLsbD 30 = c.cause.ti ∧ v.extractLsb' 28 2 = c.cause.ce ∧
      v.getLsbD 27 = c.cause.dc ∧ v.getLsbD 23 = c.cause.iv ∧ v.extractLsb' 10 6 = c.cause.ripl ∧
      v.extractLsb' 8 2 = c.cause.ip ∧ v.extractLsb' 2 5 = c.cause.excCode ∧ v &&& 0x077F0083 = 0) ∧
    reads 14 0 (fun v => v = c.epc) ∧
    reads 15 0 (fun v => v = 0x00018700 + Config.pridRevision.setWidth 32) ∧
    reads 15 1 (fun v => v = 0x80000000 + c.ebase.setWidth 32 <<< 12) ∧
    reads 16 0 (fun v => v.extractLsb' 28 3 = c.config.k23 ∧ v.extractLsb' 25 3 = c.config.ku ∧
      v.extractLsb' 0 3 = c.config.k0 ∧ v &&& 0x81FFFFF8 = 0x80010580) ∧
    reads 16 1 (fun v => v = 0x80000006) ∧ reads 16 2 (fun v => v = 0x80000000) ∧
    reads 16 3 (fun v => v = 0x00000060) ∧
    reads 23 0 (fun v => v.getLsbD 30 = c.debugReg.dm ∧ v.extractLsb' 15 3 = 2 ∧
      (c.debugReg.dm = true → v.getLsbD 31 = c.debugReg.dbd ∧ v.getLsbD 28 = c.debugReg.lsnm ∧ v.getLsbD 27 = c.debugReg.doze ∧
        v.getLsbD 26 = c.debugReg.halt ∧ v.getLsbD 25 = c.debugReg.countDm ∧ v.getLsbD 24 = c.debugReg.ibusep ∧
        v.getLsbD 21 = c.debugReg.dbusep ∧ v.getLsbD 20 = c.debugReg.iexi ∧ v.extractLsb' 10 5 = c.debugReg.dexcCode ∧
        v.getLsbD 8 = c.debugReg.sst ∧ v.getLsbD 5 = c.debugReg.dint ∧ v.getLsbD 4 = c.debugReg.dib ∧
        v.getLsbD 3 = c.debugReg.ddbs ∧ v.getLsbD 2 = c.debugReg.ddbl ∧ v.getLsbD 1 = c.debugReg.dbp ∧
        v.getLsbD 0 = c.debugReg.dss ∧ v &&& 0x20CC02C0 = 0)) ∧
    reads 24 0 (fun v => v = c.depc) ∧ reads 30 0 (fun v => v = c.errorEpc) ∧ reads 31 0 (fun v => v = c.deSave))

/-- MTC0 to the registers other than STATUS: the word, what each write changes, and the writes that stop: a set above HSS, a reserved IntCtl.VS, another exception base while BEV is 0 and DEBUG outside Debug mode, which the source calls UNDEFINED, and CAUSE bit 22, which the spec refuses (93 U12) and the model ends in a fault by choice (log 11); read-only and reserved registers keep their values (spec 44 R408, 10 R41 to R79, 93 U1, U2, U4, U12, U14). -/
def Obligations.MoveToCoprocessor0 : Prop := ∀ (s : State) (rt rd : Reg) (sel : Reg3),
  let c := s.cp0
  let v := s.reg rt
  let i : Instr := .mtc0 rt rd sel
  let gives := fun (c' : Cp0) => ∃ t, exec i s = .next t ∧ t.cp0 = c' ∧ KeepsRegs s t [] ∧ KeepsHiLo s t ∧
    KeepsMemory s t [] ∧ t.llbit = s.llbit ∧ KeepsOutside s t ∧ GoesOn s t 4
  let writes := fun (n k : Nat) (p : Prop) => rd.toNat = n → sel.toNat = k → p
  let set := fun (b : BitVec 4) (h : b.toNat < Config.hss + 1) => (⟨b.toNat, h⟩ : ShadowSet)
  Reads (rWord 0x40800000 0 rt rd 0 ||| sel.setWidth 32) i ∧ NeedsCop0 i s .coprocessor ∧
  ((s.view .coprocessor).cop0Usable = true →
    writes 7 0 (gives { c with hwrena := v.extractLsb' 0 4 }) ∧
    writes 9 0 (gives { c with count := v }) ∧
    writes 11 0 (gives { c with compare := v, cause := { c.cause with ti := false } }) ∧
    writes 12 1 (v.extractLsb' 5 5 ∈ [0, 1, 2, 4, 8, 16] → gives { c with intCtlVs := v.extractLsb' 5 5 }) ∧
    writes 12 1 (v.extractLsb' 5 5 ∉ [0, 1, 2, 4, 8, 16] → exec i s = .fault .reservedVectorSpacing) ∧
    writes 12 2 (∀ h h', gives { c with srsCtl :=
      { c.srsCtl with ess := set (v.extractLsb' 12 4) h, pss := set (v.extractLsb' 6 4) h' } }) ∧
    writes 12 2 (Config.hss < (v.extractLsb' 12 4).toNat ∨ Config.hss < (v.extractLsb' 6 4).toNat →
      exec i s = .fault .shadowSetTooLarge) ∧
    writes 12 3 ((∀ k < 8, (v.extractLsb' (4 * k) 4).toNat ≤ Config.hss) → gives { c with srsMap := v }) ∧
    writes 12 3 ((∃ k < 8, Config.hss < (v.extractLsb' (4 * k) 4).toNat) → exec i s = .fault .shadowSetTooLarge) ∧
    writes 13 0 (v.getLsbD 22 = false → gives { c with
      cause := { c.cause with dc := v.getLsbD 27, iv := v.getLsbD 23, ip := v.extractLsb' 8 2 } }) ∧
    writes 13 0 (v.getLsbD 22 = true → exec i s = .fault .watchPendingWritten) ∧
    writes 14 0 (gives { c with epc := v }) ∧
    writes 15 1 (s.seen.status.bev = true ∨ v.extractLsb' 12 18 = c.ebase →
      gives { c with ebase := v.extractLsb' 12 18 }) ∧
    writes 15 1 (s.seen.status.bev = false → v.extractLsb' 12 18 ≠ c.ebase → exec i s = .fault .ebaseWithoutBev) ∧
    writes 16 0 (gives { c with
      config := { k23 := v.extractLsb' 28 3, ku := v.extractLsb' 25 3, k0 := v.extractLsb' 0 3 } }) ∧
    writes 23 0 (c.debugReg.dm = false → exec i s = .fault .debugWrittenOutsideDebug) ∧
    writes 23 0 (c.debugReg.dm = true → gives { c with debugReg := { c.debugReg with
      lsnm := v.getLsbD 28, countDm := v.getLsbD 25, ibusep := c.debugReg.ibusep || v.getLsbD 24
      dbusep := c.debugReg.dbusep || v.getLsbD 21, iexi := v.getLsbD 20, sst := v.getLsbD 8 } }) ∧
    writes 24 0 (gives { c with depc := v }) ∧ writes 30 0 (gives { c with errorEpc := v }) ∧
    writes 31 0 (gives { c with deSave := v }) ∧
    ((rd.toNat, sel.toNat) ∉ [(7, 0), (9, 0), (11, 0), (12, 0), (12, 1), (12, 2), (12, 3), (13, 0), (14, 0), (15, 1),
      (16, 0), (23, 0), (24, 0), (30, 0), (31, 0)] → gives c))

/-- MTC0 to STATUS: each writable field takes its bit, SR and NMI can only be cleared, FR is kept, and setting ERL from kuseg stops as UNDEFINED (spec 10 R46 to R52, 44 R408, 93 U5; that only a change of ERL from 0 to 1 stops is the model's reading, log 31). -/
def Obligations.MoveToStatus : Prop := ∀ (s : State) (rt : Reg),
  let old := s.cp0.status
  let v := s.reg rt
  (s.view .coprocessor).cop0Usable = true →
  (v.getLsbD 2 = false ∨ old.erl = true ∨ s.pc.getLsbD 31 = true →
    ∃ t, exec (.mtc0 rt 12 0) s = .next t ∧
      t.cp0 = { s.cp0 with status :=
        { cu0 := v.getLsbD 28, rp := v.getLsbD 27, fr := old.fr, re := v.getLsbD 25, bev := v.getLsbD 22
          sr := old.sr && v.getLsbD 20, nmi := old.nmi && v.getLsbD 19, ipl := v.extractLsb' 10 6
          r98 := v.extractLsb' 8 2, um := v.getLsbD 4, erl := v.getLsbD 2, exl := v.getLsbD 1
          ie := v.getLsbD 0 } } ∧
      KeepsRegs s t [] ∧ KeepsHiLo s t ∧ KeepsMemory s t [] ∧ t.llbit = s.llbit ∧ KeepsOutside s t ∧ GoesOn s t 4) ∧
  (v.getLsbD 2 = true → old.erl = false → s.pc.getLsbD 31 = false →
    exec (.mtc0 rt 12 0) s = .fault .errorLevelInKuseg)

/-- DI and EI: the words, the old STATUS in the register, and IE cleared or set (spec 44 R409, R415). -/
def Obligations.InterruptEnable : Prop := ∀ (s : State) (rt : Reg),
  let gives := fun (i : Instr) (b : Bool) =>
    ∃ t v, exec i s = .next t ∧ StatusWord v s.seen.status ∧ t.reg rt = (if rt = 0 then 0 else v) ∧
      t.cp0 = { s.cp0 with status := { s.cp0.status with ie := b } } ∧
      KeepsRegs s t [rt] ∧ KeepsHiLo s t ∧ KeepsMemory s t [] ∧ t.llbit = s.llbit ∧ KeepsOutside s t ∧ GoesOn s t 4
  Reads (rWord 0x41606000 0 rt 0 0) (.di rt) ∧ NeedsCop0 (.di rt) s .coprocessor ∧
  Reads (rWord 0x41606020 0 rt 0 0) (.ei rt) ∧ NeedsCop0 (.ei rt) s .coprocessor ∧
  ((s.view .coprocessor).cop0Usable = true → gives (.di rt) false ∧ gives (.ei rt) true)

/-- RDPGPR and WRPGPR: the words, and the move from or to the previous shadow set (spec 44 R406, R407). -/
def Obligations.ShadowSetMoves : Prop := ∀ (s : State) (rd rt : Reg),
  let k := (s.view .previousSet).srsCtl.pss
  Reads (rWord 0x41400000 0 rt rd 0) (.rdpgpr rd rt) ∧ NeedsCop0 (.rdpgpr rd rt) s .coprocessor ∧
  Reads (rWord 0x41C00000 0 rt rd 0) (.wrpgpr rd rt) ∧ NeedsCop0 (.wrpgpr rd rt) s .coprocessor ∧
  ((s.view .coprocessor).cop0Usable = true →
    Writes (.rdpgpr rd rt) s 4 rd (s.regOf k rt) ∧
    ∃ t, exec (.wrpgpr rd rt) s = .next t ∧ t.regOf k rd = (if rd = 0 then 0 else s.reg rt) ∧
      (∀ j r, ¬ (j = k ∧ r = rd) → t.regOf j r = s.regOf j r) ∧ KeepsHiLo s t ∧ KeepsMemory s t [] ∧
      KeepsSystem s t ∧ GoesOn s t 4)

/-- ERET and DERET: the words, where each goes, what it clears and restores, and that it clears all hazards; DERET outside Debug mode is a reserved instruction (spec 44 R404, R405; the order of the checks of DERET, log 30; that DERET sees the registers as ERET does, log 8). -/
def Obligations.Returns : Prop := ∀ s : State,
  let c := s.view .eret
  let arrives := fun (t : State) (a : Word) =>
    t.pc = goalOf a ∧ t.isaMode = modeOf a ∧ t.delay = none ∧ t.hazards = [] ∧ t.fetchHazards = [] ∧
      KeepsRegs s t [] ∧ KeepsHiLo s t ∧ KeepsMemory s t [] ∧ KeepsOutside s t
  Reads 0x42000018 .eret ∧ Reads 0x4200001F .deret ∧
  (s.delay = none →
    NeedsCop0 .eret s .eret ∧
    (c.cop0Usable = true →
      (s.cp0.status.erl = true →
        ∃ t, exec .eret s = .next t ∧ arrives t c.errorEpc ∧ t.llbit = false ∧
          t.cp0 = { s.cp0 with status := { s.cp0.status with erl := false } }) ∧
      (s.cp0.status.erl = false →
        ∃ t, exec .eret s = .next t ∧ arrives t c.epc ∧ t.llbit = false ∧
          t.cp0 = { s.cp0 with
            status := { s.cp0.status with exl := false }
            srsCtl := { s.cp0.srsCtl with
              css := if c.status.bev = false then c.srsCtl.pss else s.cp0.srsCtl.css } })) ∧
    (s.cp0.debugReg.dm = true →
      ∃ t, exec .deret s = .next t ∧ arrives t c.depc ∧ t.llbit = s.llbit ∧
        t.cp0 = { s.cp0 with debugReg := { s.cp0.debugReg with dm := false, iexi := false } }) ∧
    (s.cp0.debugReg.dm = false → c.cop0Usable = true → Raises .deret s .ri) ∧
    NeedsCop0 .deret s .eret)

/-- The TLB instructions: the words; they need coprocessor 0, and are a reserved instruction or no operation, as the parameter says (spec 44 R414; log 14). -/
def Obligations.TlbInstructions : Prop := ∀ s : State,
  Reads 0x42000001 .tlbr ∧ Reads 0x42000002 .tlbwi ∧ Reads 0x42000006 .tlbwr ∧ Reads 0x42000008 .tlbp ∧
  ∀ i ∈ [Instr.tlbr, .tlbwi, .tlbwr, .tlbp],
    NeedsCop0 i s .coprocessor ∧
    ((s.view .coprocessor).cop0Usable = true → s.cp0.debugReg.dm = false →
      (Config.tlbOpIsNop = true ∧ DoesNothing i s 4) ∨ (Config.tlbOpIsNop = false ∧ Raises i s .ri))

/-- In User mode with STATUS.CU0 = 0 every instruction of coprocessor 0, WAIT and CACHE takes Coprocessor Unusable with CE = 0, and no other state changes (spec 44 R402, R418). -/
def Obligations.UserModeLacksCoprocessor0 : Prop :=
  ∀ (s : State) (rd rt : Reg) (sel : Reg3) (offset : BitVec 16) (code : BitVec 19),
    let lacks := fun u : Consumer => (s.view u).userMode = true ∧ (s.view u).status.cu0 = false
    s.delay = none → s.cp0.debugReg.dm = false →
    (lacks .coprocessor →
      ∀ i ∈ [Instr.mfc0 rt rd sel, .mtc0 rt rd sel, .rdpgpr rd rt, .wrpgpr rd rt, .di rt, .ei rt,
          .tlbr, .tlbwi, .tlbwr, .tlbp, .wait code, .cache rd rt offset],
        Raises i s (.cpu 0)) ∧
    (lacks .eret → ∀ i ∈ [Instr.eret, .deret], Raises i s (.cpu 0))

/-! ## MIPS16e (spec 45) -/

/-- The additions and moves of MIPS16e, short and extended: the halfwords, the register map and the results (spec 45 R442, R448, R460, R461, R470, R471, R477, R480 to R482, R495, R496, R511, R526). -/
def Obligations.Mips16AddAndMove : Prop :=
  ∀ (s : State) (x y z : Reg3) (r : Reg) (i4 : BitVec 4) (i8 : BitVec 8) (i15 : BitVec 15) (i16 : BitVec 16),
    let sp := (s.reg 29).toNat
    let a := (s.xr x).toNat
    let b := (s.xr y).toNat
    (mapReg x).toNat = (if x.toNat < 2 then 16 + x.toNat else x.toNat) ∧
    Reads16 (xHalf 0x0000 x i8) (.m16Addiusp x i8) ∧
    Writes (.m16Addiusp x i8) s 2 (mapReg x) (BitVec.ofNat 32 (sp + 4 * i8.toNat)) ∧
    Reads16 (xHalf 0x0800 x i8) (.m16Addiupc x i8) ∧
    Writes (.m16Addiupc x i8) s 2 (mapReg x) (((restartAddress s) &&& 0xFFFFFFFC) + BitVec.ofNat 32 (4 * i8.toNat)) ∧
    Reads16 (xyHalf 0x4000 x y i4) (.m16Addiu y x i4) ∧
    Writes (.m16Addiu y x i4) s 2 (mapReg y) (BitVec.ofInt 32 (a + i4.toInt)) ∧
    Reads16 (xHalf 0x4800 x i8) (.m16Addiu8 x i8) ∧
    Writes (.m16Addiu8 x i8) s 2 (mapReg x) (BitVec.ofInt 32 (a + i8.toInt)) ∧
    Reads16 (xHalf 0x6300 0 i8) (.m16Adjsp i8) ∧
    Writes (.m16Adjsp i8) s 2 29 (BitVec.ofInt 32 (sp + 8 * i8.toInt)) ∧
    (r ≠ 0 ∨ z ≠ 0 →
      Reads16 (xyHalf 0x6500 0 (r.extractLsb' 0 3) (r.extractLsb' 3 2 ++ z)) (.m16Mov32r r z)) ∧
    Writes (.m16Mov32r r z) s 2 r (s.xr z) ∧
    Reads16 (xyHalf 0x6700 0 y r) (.m16Movr32 y r) ∧ Writes (.m16Movr32 y r) s 2 (mapReg y) (s.reg r) ∧
    Reads16 (xHalf 0x6800 x i8) (.m16Li x i8) ∧ Writes (.m16Li x i8) s 2 (mapReg x) (BitVec.ofNat 32 i8.toNat) ∧
    Reads16 (xyzHalf 0xE001 x y z) (.m16Addu z x y) ∧
    Writes (.m16Addu z x y) s 2 (mapReg z) (BitVec.ofNat 32 (a + b)) ∧
    Reads16 (xyzHalf 0xE003 x y z) (.m16Subu z x y) ∧
    Writes (.m16Subu z x y) s 2 (mapReg z) (BitVec.ofInt 32 (a - b)) ∧
    Reads16 (xyHalf 0xE80B x y 0#5) (.m16Neg x y) ∧ Writes (.m16Neg x y) s 2 (mapReg x) (BitVec.ofInt 32 (-b)) ∧
    Reads16 0x6500 .m16Nop ∧ DoesNothing .m16Nop s 2 ∧
    ReadsExtended (xHalf 0x0000 x 0#8) i16 (.addiusp x i16) ∧ ReadsExtended (xHalf 0x0800 x 0#8) i16 (.addiupc x i16) ∧
    ReadsExtendedA (xyHalf 0x4000 x y 0#4) i15 (.addiu y x i15) ∧
    ReadsExtended (xHalf 0x4800 x 0#8) i16 (.addiu8 x i16) ∧ ReadsExtended 0x6300 i16 (.adjsp i16) ∧
    ReadsExtended (xHalf 0x6800 x 0#8) i16 (.li x i16) ∧
    (s.delay = none →
      Writes (.m16Extend (.addiusp x i16)) s 4 (mapReg x) (BitVec.ofInt 32 (sp + i16.toInt)) ∧
      Writes (.m16Extend (.addiupc x i16)) s 4 (mapReg x) ((s.pc &&& 0xFFFFFFFC) + BitVec.ofInt 32 i16.toInt) ∧
      Writes (.m16Extend (.addiu y x i15)) s 4 (mapReg y) (BitVec.ofInt 32 (a + i15.toInt)) ∧
      Writes (.m16Extend (.addiu8 x i16)) s 4 (mapReg x) (BitVec.ofInt 32 (a + i16.toInt)) ∧
      Writes (.m16Extend (.adjsp i16)) s 4 29 (BitVec.ofInt 32 (sp + i16.toInt)) ∧
      Writes (.m16Extend (.li x i16)) s 4 (mapReg x) (BitVec.ofNat 32 i16.toNat))

/-- The logic and comparisons of MIPS16e, short and extended: the halfwords and the results; comparisons write t8 (spec 45 R448, R472, R473, R483, R504, R505, R510, R512 to R515). -/
def Obligations.Mips16LogicAndCompare : Prop := ∀ (s : State) (x y : Reg3) (i8 : BitVec 8) (i16 : BitVec 16),
  let a := s.xr x
  let b := s.xr y
  Reads16 (xHalf 0x5000 x i8) (.m16Slti x i8) ∧
  Writes (.m16Slti x i8) s 2 24 (if a.toInt < i8.toNat then 1 else 0) ∧
  Reads16 (xHalf 0x5800 x i8) (.m16Sltiu x i8) ∧
  Writes (.m16Sltiu x i8) s 2 24 (if a.toNat < i8.toNat then 1 else 0) ∧
  Reads16 (xHalf 0x7000 x i8) (.m16Cmpi x i8) ∧ Writes (.m16Cmpi x i8) s 2 24 (a ^^^ BitVec.ofNat 32 i8.toNat) ∧
  Reads16 (xyHalf 0xE802 x y 0#5) (.m16Slt x y) ∧ Writes (.m16Slt x y) s 2 24 (if a.toInt < b.toInt then 1 else 0) ∧
  Reads16 (xyHalf 0xE803 x y 0#5) (.m16Sltu x y) ∧
  Writes (.m16Sltu x y) s 2 24 (if a.toNat < b.toNat then 1 else 0) ∧
  Reads16 (xyHalf 0xE80A x y 0#5) (.m16Cmp x y) ∧ Writes (.m16Cmp x y) s 2 24 (a ^^^ b) ∧
  Reads16 (xyHalf 0xE80C x y 0#5) (.m16And x y) ∧ Writes (.m16And x y) s 2 (mapReg x) (a &&& b) ∧
  Reads16 (xyHalf 0xE80D x y 0#5) (.m16Or x y) ∧ Writes (.m16Or x y) s 2 (mapReg x) (a ||| b) ∧
  Reads16 (xyHalf 0xE80E x y 0#5) (.m16Xor x y) ∧ Writes (.m16Xor x y) s 2 (mapReg x) (a ^^^ b) ∧
  Reads16 (xyHalf 0xE80F x y 0#5) (.m16Not x y) ∧ Writes (.m16Not x y) s 2 (mapReg x) (~~~b) ∧
  ReadsExtended (xHalf 0x5000 x 0#8) i16 (.slti x i16) ∧ ReadsExtended (xHalf 0x5800 x 0#8) i16 (.sltiu x i16) ∧
  ReadsExtended (xHalf 0x7000 x 0#8) i16 (.cmpi x i16) ∧
  (s.delay = none →
    Writes (.m16Extend (.slti x i16)) s 4 24 (if a.toInt < i16.toInt then 1 else 0) ∧
    Writes (.m16Extend (.sltiu x i16)) s 4 24 (if a.toNat < (i16.signExtend 32).toNat then 1 else 0) ∧
    Writes (.m16Extend (.cmpi x i16)) s 4 24 (a ^^^ BitVec.ofNat 32 i16.toNat))

/-- The shifts and conversions of MIPS16e, short and extended: the halfwords and the results; a short amount of 0 means 8 (spec 45 R448, R467 to R469, R506, R508, R509, R522 to R525). -/
def Obligations.Mips16ShiftAndConvert : Prop := ∀ (s : State) (x y sa : Reg3) (sa5 : BitVec 5),
  let a := s.xr x
  let b := s.xr y
  let n := if sa.toNat = 0 then 8 else sa.toNat
  let m := a.toNat % 32
  Reads16 (xyzHalf 0x3000 x y sa) (.m16Sll x y sa) ∧
  Writes (.m16Sll x y sa) s 2 (mapReg x) (BitVec.ofNat 32 (b.toNat * 2 ^ n)) ∧
  Reads16 (xyzHalf 0x3002 x y sa) (.m16Srl x y sa) ∧
  Writes (.m16Srl x y sa) s 2 (mapReg x) (BitVec.ofNat 32 (b.toNat / 2 ^ n)) ∧
  Reads16 (xyzHalf 0x3003 x y sa) (.m16Sra x y sa) ∧
  Writes (.m16Sra x y sa) s 2 (mapReg x) (BitVec.ofInt 32 (b.toInt / 2 ^ n)) ∧
  Reads16 (xyHalf 0xE804 x y 0#5) (.m16Sllv y x) ∧
  Writes (.m16Sllv y x) s 2 (mapReg y) (BitVec.ofNat 32 (b.toNat * 2 ^ m)) ∧
  Reads16 (xyHalf 0xE806 x y 0#5) (.m16Srlv y x) ∧
  Writes (.m16Srlv y x) s 2 (mapReg y) (BitVec.ofNat 32 (b.toNat / 2 ^ m)) ∧
  Reads16 (xyHalf 0xE807 x y 0#5) (.m16Srav y x) ∧
  Writes (.m16Srav y x) s 2 (mapReg y) (BitVec.ofInt 32 (b.toInt / 2 ^ m)) ∧
  Reads16 (xHalf 0xE811 x 0#5) (.m16Zeb x) ∧
  Writes (.m16Zeb x) s 2 (mapReg x) (BitVec.ofNat 32 (a.toNat % 256)) ∧
  Reads16 (xHalf 0xE831 x 0#5) (.m16Zeh x) ∧
  Writes (.m16Zeh x) s 2 (mapReg x) (BitVec.ofNat 32 (a.toNat % 65536)) ∧
  Reads16 (xHalf 0xE891 x 0#5) (.m16Seb x) ∧ Writes (.m16Seb x) s 2 (mapReg x) (signedValue (a.toNat % 256) 1) ∧
  Reads16 (xHalf 0xE8B1 x 0#5) (.m16Seh x) ∧ Writes (.m16Seh x) s 2 (mapReg x) (signedValue (a.toNat % 65536) 2) ∧
  ReadsExtendedShift (xyzHalf 0x3000 x y 0) sa5 (.sll x y sa5) ∧
  ReadsExtendedShift (xyzHalf 0x3002 x y 0) sa5 (.srl x y sa5) ∧
  ReadsExtendedShift (xyzHalf 0x3003 x y 0) sa5 (.sra x y sa5) ∧
  (s.delay = none →
    Writes (.m16Extend (.sll x y sa5)) s 4 (mapReg x) (BitVec.ofNat 32 (b.toNat * 2 ^ sa5.toNat)) ∧
    Writes (.m16Extend (.srl x y sa5)) s 4 (mapReg x) (BitVec.ofNat 32 (b.toNat / 2 ^ sa5.toNat)) ∧
    Writes (.m16Extend (.sra x y sa5)) s 4 (mapReg x) (BitVec.ofInt 32 (b.toInt / 2 ^ sa5.toNat)))

/-- The multiplies, divides and moves of HI and LO of MIPS16e: the halfwords and the results (spec 45 R516 to R521). -/
def Obligations.Mips16HiLo : Prop := ∀ (s : State) (x y : Reg3),
  let a := s.xr x
  let b := s.xr y
  let p : Int := a.toInt * b.toInt
  let u : Int := a.toNat * b.toNat
  let stated := b ≠ 0 ∧ ¬ (a = 0x80000000 ∧ b = 0xFFFFFFFF)
  let reads := fun (i : Instr) (v : Word) =>
    ∃ t, exec i s = .next t ∧ t.reg (mapReg x) = v ∧ KeepsRegs s t [mapReg x] ∧ t.hi = s.hi ∧ t.lo = s.lo ∧
      t.hiLoUnread = false ∧ KeepsMemory s t [] ∧ KeepsSystem s t ∧ GoesOn s t 2
  Reads16 (xHalf 0xE810 x 0#5) (.m16Mfhi x) ∧ reads (.m16Mfhi x) s.hi ∧
  Reads16 (xHalf 0xE812 x 0#5) (.m16Mflo x) ∧ reads (.m16Mflo x) s.lo ∧
  Reads16 (xyHalf 0xE818 x y 0#5) (.m16Mult x y) ∧
  WritesHiLo (.m16Mult x y) s 2 (BitVec.ofInt 32 (p / 4294967296)) (BitVec.ofInt 32 p) ∧
  Reads16 (xyHalf 0xE819 x y 0#5) (.m16Multu x y) ∧
  WritesHiLo (.m16Multu x y) s 2 (BitVec.ofInt 32 (u / 4294967296)) (BitVec.ofInt 32 u) ∧
  Reads16 (xyHalf 0xE81A x y 0#5) (.m16Div x y) ∧
  (stated →
    WritesHiLo (.m16Div x y) s 2 (BitVec.ofInt 32 (a.toInt.tmod b.toInt)) (BitVec.ofInt 32 (a.toInt.tdiv b.toInt))) ∧
  (¬ stated → LosesHiLo (.m16Div x y) s 2) ∧
  Reads16 (xyHalf 0xE81B x y 0#5) (.m16Divu x y) ∧
  (b ≠ 0 →
    WritesHiLo (.m16Divu x y) s 2 (BitVec.ofNat 32 (a.toNat % b.toNat)) (BitVec.ofNat 32 (a.toNat / b.toNat))) ∧
  (b = 0 → LosesHiLo (.m16Divu x y) s 2)

/-- The loads of MIPS16e, short and extended: the halfwords, the addresses, the values and each exception (spec 45 R448, R484 to R490; model's choices: byte and halfword addresses in the reversed order, log 17 from 20 R111; where a data bus error is reported, log 13 from 20 R124; a bus error held pending, log 27; the refusal of dseg, log 42 from 20 R104). -/
def Obligations.Mips16Loads : Prop :=
  ∀ (s : State) (x y : Reg3) (i5 : BitVec 5) (i8 : BitVec 8) (i16 : BitVec 16),
    let near := fun (a : Word) (n : Nat) => a + BitVec.ofNat 32 n
    let far := fun (a : Word) => BitVec.ofInt 32 (a.toNat + i16.toInt)
    let value := fun (w : Width) (va : Word) => s.valueAt (dataAddress s.seen w va) w.bytes
    let loads := fun (i : Instr) (len : Word) (r : Reg3) (w : Width) (va : Word) =>
      Loads i s len (mapReg r) w va (BitVec.ofNat 32 (value w va))
    let loadsSigned := fun (i : Instr) (len : Word) (r : Reg3) (w : Width) (va : Word) =>
      Loads i s len (mapReg r) w va (signedValue (value w va) w.bytes)
    let base := restartAddress s &&& 0xFFFFFFFC
    Reads16 (xyHalf 0x8000 x y i5) (.m16Lb y x i5) ∧ loadsSigned (.m16Lb y x i5) 2 y .byte (near (s.xr x) i5.toNat) ∧
    Reads16 (xyHalf 0x8800 x y i5) (.m16Lh y x i5) ∧
    loadsSigned (.m16Lh y x i5) 2 y .half (near (s.xr x) (2 * i5.toNat)) ∧
    Reads16 (xHalf 0x9000 x i8) (.m16Lwsp x i8) ∧ loads (.m16Lwsp x i8) 2 x .word (near (s.reg 29) (4 * i8.toNat)) ∧
    Reads16 (xyHalf 0x9800 x y i5) (.m16Lw y x i5) ∧
    loads (.m16Lw y x i5) 2 y .word (near (s.xr x) (4 * i5.toNat)) ∧
    Reads16 (xyHalf 0xA000 x y i5) (.m16Lbu y x i5) ∧ loads (.m16Lbu y x i5) 2 y .byte (near (s.xr x) i5.toNat) ∧
    Reads16 (xyHalf 0xA800 x y i5) (.m16Lhu y x i5) ∧
    loads (.m16Lhu y x i5) 2 y .half (near (s.xr x) (2 * i5.toNat)) ∧
    Reads16 (xHalf 0xB000 x i8) (.m16Lwpc x i8) ∧ loads (.m16Lwpc x i8) 2 x .word (near base (4 * i8.toNat)) ∧
    ReadsExtended (xyHalf 0x8000 x y 0#5) i16 (.lb y x i16) ∧ ReadsExtended (xyHalf 0x8800 x y 0#5) i16 (.lh y x i16) ∧
    ReadsExtended (xHalf 0x9000 x 0#8) i16 (.lwsp x i16) ∧ ReadsExtended (xyHalf 0x9800 x y 0#5) i16 (.lw y x i16) ∧
    ReadsExtended (xyHalf 0xA000 x y 0#5) i16 (.lbu y x i16) ∧ ReadsExtended (xyHalf 0xA800 x y 0#5) i16 (.lhu y x i16) ∧
    ReadsExtended (xHalf 0xB000 x 0#8) i16 (.lwpc x i16) ∧
    (s.delay = none →
      loadsSigned (.m16Extend (.lb y x i16)) 4 y .byte (far (s.xr x)) ∧
      loadsSigned (.m16Extend (.lh y x i16)) 4 y .half (far (s.xr x)) ∧
      loads (.m16Extend (.lwsp x i16)) 4 x .word (far (s.reg 29)) ∧
      loads (.m16Extend (.lw y x i16)) 4 y .word (far (s.xr x)) ∧
      loads (.m16Extend (.lbu y x i16)) 4 y .byte (far (s.xr x)) ∧
      loads (.m16Extend (.lhu y x i16)) 4 y .half (far (s.xr x)) ∧
      loads (.m16Extend (.lwpc x i16)) 4 x .word (far base))

/-- The stores of MIPS16e, short and extended: the halfwords, the addresses, the bytes stored in memory, flash, devices and peripheral registers, no other byte changed, and each exception (spec 45 R448, R476, R491 to R494, 20 R115, R119; model's choices: byte and halfword lanes in the reversed order, log 17 from 20 R111; where a data bus error is reported, log 13 from 20 R124; a bus error held pending, log 27; flash and devices, log 37; the refusal of dseg, log 42 from 20 R104). -/
def Obligations.Mips16Stores : Prop :=
  ∀ (s : State) (x y : Reg3) (i5 : BitVec 5) (i8 : BitVec 8) (i16 : BitVec 16),
    let near := fun (a : Word) (n : Nat) => a + BitVec.ofNat 32 n
    let far := fun (a : Word) => BitVec.ofInt 32 (a.toNat + i16.toInt)
    Reads16 (xyHalf 0xC000 x y i5) (.m16Sb y x i5) ∧
    Stores (.m16Sb y x i5) s 2 .byte (near (s.xr x) i5.toNat) (s.xr y) ∧
    Reads16 (xyHalf 0xC800 x y i5) (.m16Sh y x i5) ∧
    Stores (.m16Sh y x i5) s 2 .half (near (s.xr x) (2 * i5.toNat)) (s.xr y) ∧
    Reads16 (xHalf 0xD000 x i8) (.m16Swsp x i8) ∧
    Stores (.m16Swsp x i8) s 2 .word (near (s.reg 29) (4 * i8.toNat)) (s.xr x) ∧
    Reads16 (xyHalf 0xD800 x y i5) (.m16Sw y x i5) ∧
    Stores (.m16Sw y x i5) s 2 .word (near (s.xr x) (4 * i5.toNat)) (s.xr y) ∧
    Reads16 (xHalf 0x6200 0 i8) (.m16Swrasp i8) ∧
    Stores (.m16Swrasp i8) s 2 .word (near (s.reg 29) (4 * i8.toNat)) (s.reg 31) ∧
    ReadsExtended (xyHalf 0xC000 x y 0#5) i16 (.sb y x i16) ∧ ReadsExtended (xyHalf 0xC800 x y 0#5) i16 (.sh y x i16) ∧
    ReadsExtended (xHalf 0xD000 x 0#8) i16 (.swsp x i16) ∧ ReadsExtended (xyHalf 0xD800 x y 0#5) i16 (.sw y x i16) ∧
    ReadsExtended 0x6200 i16 (.swrasp i16) ∧
    (s.delay = none →
      Stores (.m16Extend (.sb y x i16)) s 4 .byte (far (s.xr x)) (s.xr y) ∧
      Stores (.m16Extend (.sh y x i16)) s 4 .half (far (s.xr x)) (s.xr y) ∧
      Stores (.m16Extend (.swsp x i16)) s 4 .word (far (s.reg 29)) (s.xr x) ∧
      Stores (.m16Extend (.sw y x i16)) s 4 .word (far (s.xr x)) (s.xr y) ∧
      Stores (.m16Extend (.swrasp i16)) s 4 .word (far (s.reg 29)) (s.reg 31))

/-- The branches of MIPS16e, short and extended: the halfwords, the condition and the target, without delay slot (spec 45 R448, R462, R465, R466, R474, R475). -/
def Obligations.Mips16Branches : Prop :=
  ∀ (s : State) (x : Reg3) (i8 : BitVec 8) (i11 : BitVec 11) (i16 : BitVec 16),
    let goal := fun (len : Nat) (off : Int) => BitVec.ofInt 32 (s.pc.toNat + len + 2 * off)
    let goes := fun (i : Instr) (len : Nat) (c : Prop) (off : Int) =>
      (c → Transfers i s (goal len off) s.isaMode none) ∧ (¬ c → Transfers i s (goal len 0) s.isaMode none)
    Reads16 (0x1000 ||| i11.setWidth 16) (.m16B i11) ∧ Reads16 (xHalf 0x2000 x i8) (.m16Beqz x i8) ∧
    Reads16 (xHalf 0x2800 x i8) (.m16Bnez x i8) ∧ Reads16 (xHalf 0x6000 0 i8) (.m16Bteqz i8) ∧
    Reads16 (xHalf 0x6100 0 i8) (.m16Btnez i8) ∧
    ReadsExtended 0x1000 i16 (.b i16) ∧ ReadsExtended (xHalf 0x2000 x 0#8) i16 (.beqz x i16) ∧
    ReadsExtended (xHalf 0x2800 x 0#8) i16 (.bnez x i16) ∧ ReadsExtended 0x6000 i16 (.bteqz i16) ∧
    ReadsExtended 0x6100 i16 (.btnez i16) ∧
    (s.delay = none →
      Transfers (.m16B i11) s (goal 2 i11.toInt) s.isaMode none ∧
      goes (.m16Beqz x i8) 2 (s.xr x = 0) i8.toInt ∧ goes (.m16Bnez x i8) 2 (s.xr x ≠ 0) i8.toInt ∧
      goes (.m16Bteqz i8) 2 (s.reg 24 = 0) i8.toInt ∧ goes (.m16Btnez i8) 2 (s.reg 24 ≠ 0) i8.toInt ∧
      Transfers (.m16Extend (.b i16)) s (goal 4 i16.toInt) s.isaMode none ∧
      goes (.m16Extend (.beqz x i16)) 4 (s.xr x = 0) i16.toInt ∧
      goes (.m16Extend (.bnez x i16)) 4 (s.xr x ≠ 0) i16.toInt ∧
      goes (.m16Extend (.bteqz i16)) 4 (s.reg 24 = 0) i16.toInt ∧
      goes (.m16Extend (.btnez i16)) 4 (s.reg 24 ≠ 0) i16.toInt)

/-- The jumps of MIPS16e: the halfwords, the target, the ISA mode and the link, with and without delay slot (spec 45 R463, R464, R497 to R502). -/
def Obligations.Mips16Jumps : Prop := ∀ (s : State) (x : Reg3) (index : BitVec 26),
  let t := s.xr x
  let ra := s.reg 31
  let first := fun (m : Half) =>
    m ||| (index.extractLsb' 16 5).setWidth 16 <<< 5 ||| (index.extractLsb' 21 5).setWidth 16
  ReadsPair (first 0x1800) (index.extractLsb' 0 16) (.m16Jal index) ∧
  ReadsPair (first 0x1C00) (index.extractLsb' 0 16) (.m16Jalx index) ∧
  Reads16 (xHalf 0xE800 x 0#5) (.m16Jr x) ∧ Reads16 0xE820 .m16JrRa ∧ Reads16 (xHalf 0xE840 x 0#5) (.m16Jalr x) ∧
  Reads16 (xHalf 0xE880 x 0#5) (.m16Jrc x) ∧ Reads16 0xE8A0 .m16JrcRa ∧ Reads16 (xHalf 0xE8C0 x 0#5) (.m16Jalrc x) ∧
  (s.delay = none →
    Jumps (.m16Jal index) s 4 (regionGoal s index) .mips16 false (some (31, (s.pc + 6) ||| 1)) ∧
    Jumps (.m16Jalx index) s 4 (regionGoal s index) .mips32 false (some (31, (s.pc + 6) ||| 1)) ∧
    Jumps (.m16Jr x) s 2 (goalOf t) (modeOf t) false none ∧
    Jumps .m16JrRa s 2 (goalOf ra) (modeOf ra) false none ∧
    Jumps (.m16Jalr x) s 2 (goalOf t) (modeOf t) false (some (31, (s.pc + 4) ||| 1)) ∧
    Transfers (.m16Jrc x) s (goalOf t) (modeOf t) none ∧
    Transfers .m16JrcRa s (goalOf ra) (modeOf ra) none ∧
    Transfers (.m16Jalrc x) s (goalOf t) (modeOf t) (some (31, (s.pc + 2) ||| 1)))

/-- SAVE and RESTORE, short and extended: the halfwords; the registers go to, or come from, the words below the top of the frame, ra first, then s1, then s0, in whatever region each word lies, and sp moves by the frame; where the access of any of them takes an exception, the earlier ones have happened and sp is unchanged; an access to dseg is refused; a bus error under DEBUG.IEXI is held pending and the remaining accesses go on; the extended forms with statics or arguments are refused (spec 45 R448, R478, R479, 20 R104, R115, R119, R124; the order of the accesses and what stays of them, log 21; bus errors, log 13, held pending, log 27; flash and devices, log 37; dseg, log 42; no other bus master writes between the accesses, log 35). -/
def Obligations.Mips16Frames : Prop :=
  ∀ (s : State) (ra s0 s1 : Bool) (f4 : BitVec 4) (f8 : BitVec 8) (xsregs : BitVec 3) (aregs : BitVec 4),
    let fields := (if ra then 0x40 else 0) ||| (if s0 then 0x20 else 0) ||| (if s1 then (0x10 : Half) else 0)
    let half := fun (m : Half) => m ||| fields ||| f4.setWidth 16
    let extended := fun (m : Half) (op : ExtOp) =>
      ReadsPair (0xF000 ||| xsregs.setWidth 16 <<< 8 ||| (f8.extractLsb' 4 4).setWidth 16 <<< 4 ||| aregs.setWidth 16)
        (m ||| fields ||| (f8.extractLsb' 0 4).setWidth 16) (.m16Extend op)
    let regs : List Reg := (if ra then [31] else []) ++ (if s1 then [17] else []) ++ (if s0 then [16] else [])
    let reg := fun k : Nat => regs.getD k 0
    let sp := s.reg 29
    let slot := fun (top : Word) (k : Nat) => top - BitVec.ofNat 32 (4 * (k + 1))
    let pa := fun (top : Word) (k : Nat) => dataAddress s.seen .word (slot top k)
    let answered := fun (a : Access) (top : Word) (k : Nat) => s.answers a s.seen.userMode (pa top k)
    let passed := fun (a : Access) (top : Word) (n : Nat) => ∀ k < n, ¬ AddressError s .word (slot top k) ∧
      inDseg s.seen (slot top k) = false ∧ (answered a top k = true ∨ s.cp0.debugReg.iexi = true)
    let reached := fun (a : Access) (top : Word) (n : Nat) (u : State) => KeepsHiLo s u ∧ u.llbit = s.llbit ∧
      KeepsOutside s u ∧ u.cp0 = { s.cp0 with debugReg := { s.cp0.debugReg with
        dbusep := s.cp0.debugReg.dbusep || (List.range n).any fun k => !answered a top k } }
    let fails := fun (i : Instr) (u : State) (e : Exc) (regs : List Reg) =>
      u.pc = s.pc ∧ u.isaMode = s.isaMode ∧ u.delay = s.delay ∧ u.hazards = s.hazards ∧ u.fetchHazards = s.fetchHazards ∧
        ∃ t, exec i s = .next t ∧ Entered u t e ∧ KeepsRegs u t regs ∧ KeepsHiLo u t ∧ KeepsMemory u t []
    let saves := fun (i : Instr) (len size : Word) =>
      let stored := fun (n : Nat) (t : State) =>
        StoredInTurn s t (((List.range n).filter (answered .store sp)).map fun k => (pa sp k, s.reg (reg k))) ∧
        ((∀ k < n, answered .store sp k = true ∧ StoresMemory s (pa sp k)) →
          (∀ k < n, BitVec.ofNat 32 (t.valueAt (pa sp k) 4) = s.reg (reg k)) ∧
          KeepsMemory s t ((List.range n).flatMap fun k => (List.range 4).map fun j => (pa sp k + BitVec.ofNat 32 j).toNat))
      s.mem.wf →
      (passed .store sp regs.length →
        ∃ t, exec i s = .next t ∧ t.reg 29 = sp - size ∧ KeepsRegs s t [29] ∧ reached .store sp regs.length t ∧
          KeepsHazards s t ∧ GoesOn s t len ∧ stored regs.length t) ∧
      ∀ j < regs.length, passed .store sp j →
        (GoesToDseg s .word (slot sp j) → exec i s = .refused .dsegAccess) ∧
        (AddressError s .word (slot sp j) → s.cp0.debugReg.dm = false →
          ∃ u, KeepsRegs s u [] ∧ reached .store sp j u ∧ stored j u ∧ fails i u (.adES (slot sp j)) []) ∧
        (BusError s .store .word (slot sp j) → TakesExceptions s →
          ∃ u, KeepsRegs s u [] ∧ reached .store sp j u ∧ stored j u ∧ fails i u .dbe [])
    let restores := fun (i : Instr) (len size : Word) =>
      let top := sp + size
      let loaded := fun (n : Nat) (t : State) => KeepsMemory s t [] ∧ ∀ k < n, answered .load top k = true →
        ReadsMemory s (pa top k) → t.reg (reg k) = BitVec.ofNat 32 (s.valueAt (pa top k) 4)
      (passed .load top regs.length →
        ∃ t, exec i s = .next t ∧ t.reg 29 = top ∧ KeepsRegs s t (29 :: regs) ∧ reached .load top regs.length t ∧
          KeepsHazards s t ∧ (NoBarrier s → t.stale = s.stale) ∧ GoesOn s t len ∧ loaded regs.length t) ∧
      ∀ j < regs.length, passed .load top j →
        (GoesToDseg s .word (slot top j) → exec i s = .refused .dsegAccess) ∧
        (AddressError s .word (slot top j) → s.cp0.debugReg.dm = false →
          ∃ u, KeepsRegs s u (regs.take j) ∧ reached .load top j u ∧ loaded j u ∧ fails i u (.adEL (slot top j)) []) ∧
        (BusError s .load .word (slot top j) → TakesExceptions s →
          ∃ u, KeepsRegs s u (regs.take j) ∧ reached .load top j u ∧ loaded j u ∧ fails i u .dbe [reg j])
    let size4 : Word := BitVec.ofNat 32 (if f4.toNat = 0 then 128 else 8 * f4.toNat)
    let size8 : Word := BitVec.ofNat 32 (8 * f8.toNat)
    Reads16 (half 0x6480) (.m16Save ra s0 s1 f4) ∧ Reads16 (half 0x6400) (.m16Restore ra s0 s1 f4) ∧
    extended 0x6480 (.save xsregs aregs f8 ra s0 s1) ∧ extended 0x6400 (.restore xsregs aregs f8 ra s0 s1) ∧
    (s.between = [] →
      saves (.m16Save ra s0 s1 f4) 2 size4 ∧ restores (.m16Restore ra s0 s1 f4) 2 size4 ∧
      (s.delay = none →
        saves (.m16Extend (.save 0 0 f8 ra s0 s1)) 4 size8 ∧
        restores (.m16Extend (.restore 0 0 f8 ra s0 s1)) 4 size8)) ∧
    (s.delay = none → xsregs ≠ 0 ∨ aregs ≠ 0 →
      exec (.m16Extend (.save xsregs aregs f8 ra s0 s1)) s = .refused .saveRestoreStatics ∧
      exec (.m16Extend (.restore xsregs aregs f8 ra s0 s1)) s = .refused .saveRestoreStatics)

/-! ## Exceptions (spec 60, 70) -/

/-- Taking an exception outside Debug mode, as the spec's procedure gives it, with the exception codes; the vector address does not carry into bits 31:30 (spec 60 R610, R634, R639; EPC and BD after a data bus error, log 13; EICSS also with IntCtl.VS = 0, log 41). -/
def Obligations.ExceptionEntry : Prop := ∀ (s : State) (e : Exc) (va : Word) (n : BitVec 2), s.cp0.debugReg.dm = false →
  Entered s (s.raise e) e ∧ KeepsRegs s (s.raise e) [] ∧ KeepsHiLo s (s.raise e) ∧ KeepsMemory s (s.raise e) [] ∧
  Exc.int.code = 0 ∧ (Exc.adEL va).code = 4 ∧ (Exc.adES va).code = 5 ∧ Exc.ibe.code = 6 ∧ Exc.dbe.code = 7 ∧
  Exc.sys.code = 8 ∧ Exc.bp.code = 9 ∧ Exc.ri.code = 10 ∧ (Exc.cpu n).code = 11 ∧ Exc.ov.code = 12 ∧ Exc.tr.code = 13

/-- The model's choice for an exception in Debug mode: the debug vector again, with DEPC, DBD and the code in DEXCCODE, STATUS and EPC unchanged (log 28, from the spec's sentences in 10 R74 to R76; the step refuses Debug mode). -/
def Obligations.ExceptionInDebugMode : Prop := ∀ (s : State) (e : Exc), s.cp0.debugReg.dm = true →
  let t := s.raise e
  t.pc = 0xBFC00480 ∧ t.isaMode = .mips32 ∧ t.delay = none ∧ t.hazards = [] ∧ t.fetchHazards = [] ∧
  t.cp0.depc = savedPc (restartAddress s) s.isaMode ∧ t.cp0.debugReg.dexcCode = e.code ∧ t.cp0.debugReg.dm = true ∧
  t.cp0.debugReg.iexi = true ∧ t.cp0.debugReg.dbd = s.delay.isSome ∧ t.cp0.status = s.cp0.status ∧ t.cp0.epc = s.cp0.epc ∧
  t.cp0.cause = s.cp0.cause ∧ t.cp0.srsCtl = s.cp0.srsCtl ∧ KeepsRegs s t [] ∧ KeepsHiLo s t ∧ KeepsMemory s t [] ∧
  exec (.syscall 0) s = .next (s.raise .sys)

/-! ## The step -/

/-- A step with a quiet outside, no pending hazard and no interrupt fetches the bytes at the program counter and is the effect of the instruction they decode to, in the state with the counter of free values advanced; and in general, where no event comes first, the step is the effect of the instruction fetched (spec 60 R625, 20 R122, 45 R445). -/
def Obligations.StepRunsInstruction : Prop :=
  (∀ (s : State) (i : Instr), s.event = none → s.ready.fetchDecode = .run i → step s = exec i s.ready) ∧
  ∀ (s : State) (i : Instr),
    let pa := translate s.cp0 s.pc
    let quiet : State := { s with draws := s.draws + 1, between := [], waiting := false }
    let half := fun n => BitVec.ofNat 16 (s.valueAt (pa + BitVec.ofNat 32 n) 2)
    s.inputs = [] → s.hazards = [] → s.fetchHazards = [] → s.stale = [] → s.physMap = [] →
    s.cp0.debugReg.dm = false → s.cp0.debugReg.sst = false → s.cp0.debugReg.ibusep = false → s.cp0.debugReg.dbusep = false →
    s.cp0.interruptPending = false → (s.cp0.userMode = true → s.pc.toNat + 2 < 0x80000000) →
    (s.isaMode = .mips32 → s.pc.toNat % 4 = 0 → decodeWord (BitVec.ofNat 32 (s.valueAt pa 4)) = .instr i →
      step s = exec i quiet) ∧
    (s.isaMode = .mips16 → s.pc.toNat % 2 = 0 → hasSecondHalf (half 0) = false → decodeHalf (half 0) = .instr i →
      step s = exec i quiet) ∧
    (s.isaMode = .mips16 → s.pc.toNat % 2 = 0 → s.pc.toNat % 4096 ≠ 4094 → hasSecondHalf (half 0) = true →
      decodePair (half 0) (half 2) = .instr i → step s = exec i quiet)

/-- What a step without an event does when the fetch gives no instruction, in both instruction sets and at both halfwords of a MIPS16e pair: a misaligned or forbidden address, a bus error and a reserved word take their exceptions, a reserved COP0 word first needs coprocessor 0, a word outside the spec and an EXTEND that extends nothing are refused, and a bus error under DEBUG.IEXI is held pending (spec 20 R122, 30 R166, R167, 44 R417, 45 R445, R448, R527, 60 R612, R614; the pending bus error, log 27; that EPC is the first halfword where the second of JAL or JALX fails is the model's choice, log 46; which halfwords are reserved, refused or not extensible, log 20). -/
def Obligations.FetchFaults : Prop := ∀ (s : State) (w : Word) (h h2 : Half),
  let r := s.ready
  let takes := fun (e : Exc) =>
    ∃ t, step s = .next t ∧ Entered r t e ∧ KeepsRegs r t [] ∧ KeepsHiLo r t ∧ KeepsMemory r t []
  let forbidden := fun va : Word => (r.fetchView va).userMode = true ∧ 0x80000000 ≤ va.toNat
  let unanswered := fun va : Word =>
    ¬ forbidden va → r.answers .fetch (r.fetchView va).userMode (translate (r.fetchView va) va) = false →
      (r.cp0.debugReg.iexi = false → takes .ibe) ∧
      (r.cp0.debugReg.iexi = true →
        step s = .next { r with cp0 := { r.cp0 with debugReg := { r.cp0.debugReg with ibusep := true } } })
  s.event = none → r.cp0.debugReg.dm = false →
  (r.isaMode = .mips32 →
    (r.pc.toNat % 4 ≠ 0 ∨ forbidden r.pc → takes (.adEL r.pc)) ∧
    (r.pc.toNat % 4 = 0 → unanswered r.pc) ∧
    (r.fetchWord r.pc = .ok w →
      (decodeWord w = .reserved → takes .ri) ∧
      (decodeWord w = .reservedCop0 → (r.view .coprocessor).cop0Usable = false → takes (.cpu 0)) ∧
      (decodeWord w = .reservedCop0 → (r.view .coprocessor).cop0Usable = true → takes .ri) ∧
      (decodeWord w = .nonzeroField → step s = .refused .nonzeroField))) ∧
  (r.isaMode = .mips16 →
    (r.pc.toNat % 2 ≠ 0 ∨ forbidden r.pc → takes (.adEL r.pc)) ∧
    (r.pc.toNat % 2 = 0 → unanswered r.pc) ∧
    (r.fetchHalf r.pc = .ok h → hasSecondHalf h = false →
      (decodeHalf h = .reserved → takes .ri) ∧
      (decodeHalf h = .nonzeroField → step s = .refused .nonzeroField)) ∧
    (r.fetchHalf r.pc = .ok h → hasSecondHalf h = true →
      (forbidden (r.pc + 2) → takes (.adEL (r.pc + 2))) ∧
      unanswered (r.pc + 2) ∧
      (r.fetchHalf (r.pc + 2) = .ok h2 →
        (decodePair h h2 = .reserved → takes .ri) ∧
        (decodePair h h2 = .notExtensible → step s = .refused .notExtensible) ∧
        (decodePair h h2 = .nonzeroField → step s = .refused .nonzeroField))))

/-- The events of a step that come from the outside or from DEBUG: an enabled interrupt above STATUS.IPL, presented before or arriving with the input of the step, is taken instead of the instruction, at the vector that IntCtl.VS and the vector number give, without carry into bits 31:30; a request that IE, EXL, ERL or IPL holds back lets the instruction run; a debug interrupt enters Debug mode; with DEBUG.SST set the single-step exception comes before the instruction or does not yet; a bus error that was held pending is taken when IEXI is 0 (spec 60 R621 to R623, R626, R627, R634, R661; inputs, log 4; single step, log 12; debug vector, log 16; pending bus errors and the order of events, log 26, log 27; DOZE, log 43). -/
def Obligations.InterruptTaken : Prop := ∀ (s : State) (rest : List StepInput) (q : EicRequest),
  let quiet : State := { s with draws := s.draws + 1, between := [] }
  let arrived : State := { s with
    draws := s.draws + 1, between := [], inputs := rest, eicVector := q.vector
    cp0 := { s.cp0 with
      cause := { s.cp0.cause with ripl := q.ripl }, srsCtl := { s.cp0.srsCtl with eicss := q.eicss } } }
  let requested := fun c : Cp0 => c.status.ie = true ∧ c.status.exl = false ∧ c.status.erl = false ∧
    c.status.ipl.toNat < c.cause.ripl.toNat
  let unharmed := fun t : State => KeepsRegs s t [] ∧ KeepsHiLo s t ∧ KeepsMemory s t []
  let interrupted := fun r : State => ∃ t, step s = .next t ∧ Entered r t .int ∧ unharmed t ∧
    (r.cp0.status.bev = false → r.cp0.cause.iv = true →
      t.pc = 0x80000000 ||| (((r.cp0.ebase.setWidth 32 <<< 12) + 0x200 +
        BitVec.ofNat 32 (r.eicVector.toNat * (32 * r.cp0.intCtlVs.toNat))) &&& 0x3FFFFFFF))
  let debug := fun (r : State) (k : DebugExc) => ∃ t, step s = .next t ∧ DebugEntered r t k
  let noBusError := s.cp0.debugReg.ibusep = false ∧ s.cp0.debugReg.dbusep = false
  let calm := fun r : State => (requested r.cp0 → interrupted r) ∧
    (¬ requested r.cp0 → noBusError → s.waiting = false → s.event = none)
  s.hazards = [] → s.cp0.debugReg.dm = false →
  (s.inputs = [] → s.cp0.debugReg.sst = false → calm quiet) ∧
  (s.inputs = { StepInput.quiet with eic := some q } :: rest → s.cp0.debugReg.sst = false → calm arrived) ∧
  (s.inputs = { StepInput.quiet with debugInterrupt := true } :: rest → s.cp0.debugReg.sst = false →
    debug { quiet with inputs := rest } .dint) ∧
  (s.inputs = [] → s.cp0.debugReg.sst = true → debug quiet .dss ∨ calm quiet) ∧
  (s.inputs = [] → s.cp0.debugReg.sst = false → ¬ requested s.cp0 → s.cp0.debugReg.iexi = false →
    (s.cp0.debugReg.ibusep = true →
      ∃ t, step s = .next t ∧ unharmed t ∧ Entered { quiet with
        cp0 := { s.cp0 with debugReg := { s.cp0.debugReg with ibusep := false } } } t .ibe) ∧
    (s.cp0.debugReg.ibusep = false → s.cp0.debugReg.dbusep = true →
      ∃ t, step s = .next t ∧ unharmed t ∧ Entered { quiet with
        cp0 := { s.cp0 with debugReg := { s.cp0.debugReg with dbusep := false } } } t .dbe))

/-- NMI, reset and soft reset, the first events of a step: where execution goes and what each writes (spec 60 R645, 70 R701 to R703, R706; no EJTAGBOOT, log 16; the inputs of a step are the model's, log 4; SRSCtl as 70 R706 and 10 R80 say, where 60 R620 differs, log 25). -/
def Obligations.NmiAndReset : Prop := ∀ (s : State) (rest : List StepInput),
  let starts := fun (t : State) => t.pc = 0xBFC00000 ∧ t.isaMode = .mips32 ∧ t.delay = none ∧ t.inputs = rest ∧
    t.cp0.status.bev = true ∧ t.cp0.status.erl = true
  let resets := fun (t : State) => starts t ∧ t.cp0.status.rp = false ∧ t.cp0.status.nmi = false ∧
    t.cp0.hwrena = 0 ∧ t.cp0.intCtlVs = 0 ∧ t.cp0.srsMap = 0 ∧ t.cp0.srsCtl.ess = 0 ∧ t.cp0.srsCtl.pss = 0 ∧
    t.cp0.srsCtl.css = 0 ∧ t.cp0.cause.dc = false ∧ t.cp0.ebase = 0 ∧
    t.cp0.config = { k23 := 2, ku := 2, k0 := 2 } ∧ t.cp0.debugReg.dm = false ∧ t.cp0.debugReg.lsnm = false ∧
    t.cp0.debugReg.ibusep = false ∧ t.cp0.debugReg.iexi = false ∧ t.cp0.debugReg.sst = false ∧
    t.cp0.debugReg.countDm = true ∧ t.cp0.debugReg.dbusep = false
  (s.inputs = { StepInput.quiet with nmi := true } :: rest → s.cp0.debugReg.dm = false → s.cp0.debugReg.sst = false →
    ∃ t, step s = .next t ∧ starts t ∧ KeepsRegs s t [] ∧ KeepsHiLo s t ∧ KeepsMemory s t [] ∧ t.llbit = s.llbit ∧
      t.cp0 = { s.cp0 with
        errorEpc := savedPc (restartAddress s) s.isaMode
        status := { s.cp0.status with erl := true, nmi := true, sr := false, bev := true } }) ∧
  (s.inputs = { StepInput.quiet with reset := true } :: rest →
    ∃ t, step s = .next t ∧ resets t ∧ t.cp0.status.sr = false) ∧
  (s.inputs = { StepInput.quiet with softReset := true } :: rest →
    ∃ t, step s = .next t ∧ resets t ∧ t.cp0.status.sr = true ∧
      t.cp0.errorEpc = savedPc (restartAddress s) s.isaMode)

/-- The core timer: `n` ticks add `n` to COUNT, modulo 2^32, and set the timer request exactly if an increment lands on COMPARE; stopped, they change nothing (spec 60 R650). -/
def Obligations.TimerTicks : Prop := ∀ (c : Cp0) (n : Nat),
  let stopped := c.cause.dc = true ∨ c.debugReg.dm = true ∧ c.debugReg.countDm = false
  (stopped → c.ticks n = c) ∧
  (¬ stopped →
    (c.ticks n).count = c.count + BitVec.ofNat 32 n ∧
    ((c.ticks n).cause.ti = true ↔
      c.cause.ti = true ∨ ∃ k, 1 ≤ k ∧ k ≤ n ∧ c.count + BitVec.ofNat 32 k = c.compare) ∧
    c.ticks n = { c with
      count := (c.ticks n).count, cause := { c.cause with ti := (c.ticks n).cause.ti } })

/-- The fixed mapping of virtual to physical addresses, segment by segment, and the modes (spec 20 R101, R105, 00 R12). -/
def Obligations.FixedMapping : Prop := ∀ (c : Cp0) (va : Word),
  (va.toNat < 0x20000000 → c.status.erl = true → (translate c va).toNat = va.toNat) ∧
  (va.toNat < 0x80000000 → (c.status.erl = false ∨ 0x20000000 ≤ va.toNat) →
    (translate c va).toNat = va.toNat + 0x40000000) ∧
  (0x80000000 ≤ va.toNat → va.toNat < 0xA0000000 → (translate c va).toNat = va.toNat - 0x80000000) ∧
  (0xA0000000 ≤ va.toNat → va.toNat < 0xC0000000 → (translate c va).toNat = va.toNat - 0xA0000000) ∧
  (0xC0000000 ≤ va.toNat → (translate c va).toNat = va.toNat) ∧
  (c.debugMode = true ↔ c.debugReg.dm = true) ∧
  (c.kernelMode = true ↔ c.debugReg.dm = false ∧ (c.status.um = false ∨ c.status.exl = true ∨ c.status.erl = true)) ∧
  (c.userMode = true ↔ c.debugReg.dm = false ∧ c.status.um = true ∧ c.status.exl = false ∧ c.status.erl = false) ∧
  (c.cop0Usable = true ↔ c.kernelMode = true ∨ c.debugMode = true ∨ c.status.cu0 = true)

/-! ## Reset, the invariant, encoding -/

/-- What the spec fixes of the machine right after reset (spec 10 R80, 70 R700 to R703). -/
def Obligations.ResetValues : Prop :=
  State.reset.pc = 0xBFC00000 ∧ State.reset.isaMode = .mips32 ∧ State.reset.delay = none ∧
  State.reset.cp0.status.bev = true ∧ State.reset.cp0.status.erl = true ∧ State.reset.cp0.status.rp = false ∧
  State.reset.cp0.status.sr = false ∧ State.reset.cp0.status.nmi = false ∧ State.reset.cp0.hwrena = 0 ∧
  State.reset.cp0.intCtlVs = 0 ∧ State.reset.cp0.srsMap = 0 ∧ State.reset.cp0.srsCtl.ess = 0 ∧
  State.reset.cp0.srsCtl.pss = 0 ∧ State.reset.cp0.srsCtl.css = 0 ∧ State.reset.cp0.cause.dc = false ∧
  State.reset.cp0.ebase = 0 ∧ State.reset.cp0.config = { k23 := 2, ku := 2, k0 := 2 } ∧
  State.reset.cp0.debugReg.dm = false ∧ State.reset.cp0.debugReg.countDm = true ∧ State.reset.cp0.debugReg.sst = false ∧
  State.reset.cp0.debugReg.lsnm = false ∧ State.reset.cp0.debugReg.iexi = false ∧
  State.reset.cp0.debugReg.ibusep = false ∧ State.reset.cp0.debugReg.dbusep = false ∧
  (∀ k : ShadowSet, State.reset.regOf k 0 = 0) ∧ State.reset.cp0.kernelMode = true

/-- The invariant holds at reset; that the reset memory lists nothing is the model's choice (spec 10 R80, 70 R703; log 2). -/
def Obligations.ResetMeetsInvariant : Prop := State.reset.Inv

/-- Every step keeps the invariant: the canonical form of memory, an even program counter and even targets, and legal values in IntCtl.VS and SRSMap (spec 10 R55, R62, 20 R122, 42 R333; log 2). -/
def Obligations.StepKeepsInvariant : Prop := ∀ s t : State, s.Inv → step s = .next t → t.Inv

/-- Words of every family, written from the spec's encodings and examples, decode to the instructions they stand for. -/
def Obligations.DecodesSpecWords : Prop :=
  Reads 0x8FA20004 (.lw 2 29 4) ∧ Reads 0xAFBF0014 (.sw 31 29 20) ∧ Reads 0x88880003 (.lwl 8 4 3) ∧
  Reads 0x00221821 (.addu 3 1 2) ∧ Reads 0x2022FFFF (.addi 2 1 0xFFFF) ∧ Reads 0x00831046 (.rotrv 2 3 4) ∧
  Reads 0x7C825A04 (.ins 2 4 11 8) ∧ Reads 0x70851002 (.mul 2 4 5) ∧ Reads 0x0085001A (.div 4 5) ∧
  Reads 0x0B400040 (.j 0x3400040) ∧ Reads 0x0320FC09 (.jalrHb 31 25 0) ∧ Reads 0x1485FFFE (.bne 4 5 0xFFFE) ∧
  Reads 0x00A001F4 (.teq 5 0 7) ∧ Reads 0x7C02103B (.rdhwr 2 2) ∧ Reads 0x40027801 (.mfc0 2 15 1) ∧
  Reads 0x41626020 (.ei 2) ∧ Reads 0x42000018 .eret ∧ Reads16 0xE4A9 (.m16Addu 2 4 5) ∧
  Reads16 0x65BA (.m16Mov32r 29 2) ∧ Reads16 0x64F4 (.m16Save true true true 4) ∧
  ReadsPair 0x181A 0x0040 (.m16Jal 0x3400040) ∧ ReadsPair 0xF222 0x4A14 (.m16Extend (.addiu8 2 0x1234)) ∧
  ReadsPair 0xF500 0x3260 (.m16Extend (.sll 2 3 20)) ∧ Reads 0xC0820000 (.ll 2 4 0) ∧ Reads 0xE0820000 (.sc 2 4 0) ∧
  Reads 0x04910003 (.bgezal 4 3) ∧ Reads 0x54850003 (.bnel 4 5 3) ∧ Reads 0x04920003 (.bltzall 4 3) ∧
  Reads 0x0000000F (.sync 0) ∧ Reads 0x049F0000 (.synci 4 0) ∧ Reads 0x44020000 (.cop1 0x0020000) ∧
  Reads 0x48020000 (.cop2 0x0020000) ∧ Reads 0x00811001 (.movci 0x20440) ∧ Reads 0xC4820004 (.lwc1 2 4 4) ∧
  Reads 0x42000008 .tlbp ∧ Reads 0x42000001 .tlbr ∧ Reads 0x42000002 .tlbwi ∧ Reads 0x42000006 .tlbwr

/-- Decoding the encoding of a well-formed instruction gives it back, for every instruction and every value of its operands (spec 30 R164, 45 R447 to R450). -/
def Obligations.DecodeEncode : Prop := ∀ i : Instr, i.WellFormed = true → (encode i).decode = .instr i

/-! ## Hazards of coprocessor 0 (spec 70) -/

/-- The hazards of MTC0, EI and DI: which write notes which hazard, that each step moves them one instruction away, that a consumer farther than the spacing of table 2-1 sees the new value, and a nearer one the old or the new; of STATUS ERET sees the new value always, and a fetch the old or the new one until a barrier (spec 70 R720, R721, 10 R37; the reading of the rows, log 8; the window of a fetch, log 9). -/
def Obligations.Coprocessor0Hazards : Prop := ∀ (s : State) (rt rd : Reg) (sel : Reg3),
  let now := s.cp0
  let far := fun (n : Nat) (regs : List HazardReg) => ∀ h ∈ s.hazards, h.reg ∈ regs → n < h.distance
  let check := s.view .interrupt
  let eret := s.view .eret
  let usable := s.view .coprocessor
  let writes : List (Nat × Nat × HazardReg) := [(7, 0, .hwrena), (9, 0, .count), (11, 0, .compare), (12, 0, .status),
    (12, 1, .intCtl), (12, 2, .srsCtl), (12, 3, .srsMap), (13, 0, .cause), (14, 0, .epc), (15, 1, .ebase),
    (16, 0, .config), (23, 0, .debugReg), (24, 0, .depc), (30, 0, .errorEpc), (31, 0, .deSave)]
  let sameMode := fun t : State => t.cp0.status.um = now.status.um ∧ t.cp0.status.exl = now.status.exl ∧
    t.cp0.status.erl = now.status.erl
  (∀ t, s.delay = none → usable.cop0Usable = true → exec (.mtc0 rt rd sel) s = .next t →
    (∀ x ∈ writes, rd.toNat = x.1 → sel.toNat = x.2.1 → t.hazards = ⟨x.2.2, now, 0⟩ :: s.hazards) ∧
    (t.hazards = s.hazards ∨ ∃ k, t.hazards = ⟨k, now, 0⟩ :: s.hazards) ∧
    (rd = 12 → sel = 0 → ¬ sameMode t → t.fetchHazards = now.status :: s.fetchHazards) ∧
    (rd ≠ 12 ∨ sel ≠ 0 ∨ sameMode t → t.fetchHazards = s.fetchHazards)) ∧
  (∀ i ∈ [Instr.di rt, .ei rt], ∀ t, s.delay = none → usable.cop0Usable = true → exec i s = .next t →
    t.hazards = ⟨.interruptEnable, now, 0⟩ :: s.hazards ∧ t.fetchHazards = s.fetchHazards) ∧
  (s.inputs = [] → s.ready.cp0 = now ∧ s.ready.fetchHazards = s.fetchHazards ∧
    s.ready.hazards = (s.hazards.filter (·.distance < 4)).map fun h => { h with distance := h.distance + 1 }) ∧
  (far 0 [.status, .interruptEnable] → eret.status = now.status) ∧
  (far 1 [.status] → usable.status.cu0 = now.status.cu0) ∧
  (far 2 [.status] → far 0 [.interruptEnable] → s.seen.status = now.status ∧ usable.status = now.status) ∧
  (far 2 [.status] → check.status = { now.status with ie := check.status.ie }) ∧
  (far 1 [.status, .interruptEnable] → check.status.ie = now.status.ie) ∧
  (far 1 [.epc] → eret.epc = now.epc) ∧ (far 1 [.depc] → eret.depc = now.depc) ∧
  (far 1 [.errorEpc] → eret.errorEpc = now.errorEpc) ∧
  (far 3 [.cause] → check.cause.ip = now.cause.ip) ∧
  (far 1 [.srsCtl] → (s.view .previousSet).srsCtl.pss = now.srsCtl.pss) ∧
  (∀ u, let c := s.view u
    (far 4 [.compare] → c.cause.ti = now.cause.ti) ∧
    (far 2 [.hwrena] → c.hwrena = now.hwrena) ∧ (far 2 [.count] → c.count = now.count) ∧
    (far 2 [.compare] → c.compare = now.compare) ∧ (far 2 [.intCtl] → c.intCtlVs = now.intCtlVs) ∧
    (far 2 [.srsCtl] → c.srsCtl = now.srsCtl) ∧ (far 2 [.srsMap] → c.srsMap = now.srsMap) ∧
    (far 2 [.cause] → c.cause.dc = now.cause.dc ∧ c.cause.iv = now.cause.iv) ∧ (far 2 [.epc] → c.epc = now.epc) ∧
    (far 2 [.ebase] → c.ebase = now.ebase) ∧ (far 2 [.config] → c.config = now.config) ∧
    (far 2 [.debugReg] → c.debugReg = now.debugReg) ∧ (far 2 [.depc] → c.depc = now.depc) ∧
    (far 2 [.errorEpc] → c.errorEpc = now.errorEpc) ∧ (far 2 [.deSave] → c.deSave = now.deSave) ∧
    c.badVAddr = now.badVAddr) ∧
  (∀ h, s.hazards = [h] → 0 < h.distance →
    (h.reg = .status → s.seen = now ∨ s.seen = { now with status := h.old.status }) ∧
    (h.reg = .status → usable.status.um = now.status.um ∨ usable.status.um = h.old.status.um) ∧
    (h.reg = .interruptEnable → s.seen = now ∧ (check = now ∨ check =
      { now with status := { now.status with ie := h.old.status.ie } })) ∧
    (h.reg = .epc → eret = now ∨ eret = { now with epc := h.old.epc }) ∧
    (h.reg = .compare → s.seen.compare = now.compare ∨ s.seen.compare = h.old.compare)) ∧
  ∀ va, s.fetchView va = { now with status := (s.fetchView va).status } ∧
    (s.fetchView va).status ∈ now.status :: s.fetchHazards
end

