-- ==== Sys2Proof/Laws/State.lean ====
section
/-! SUPPORT. One lemma for each field of the state and each operation that updates the state: what it becomes, or that it is kept. -/

namespace Sys2Proof.Machine

variable (s : State)

/-! ### `writeHiLo` -/

@[simp] theorem State.writeHiLo_gpr (p : BitVec 64) : (s.writeHiLo p).gpr = s.gpr := rfl

@[simp] theorem State.writeHiLo_hi (p : BitVec 64) : (s.writeHiLo p).hi = p.extractLsb' 32 32 := rfl

@[simp] theorem State.writeHiLo_lo (p : BitVec 64) : (s.writeHiLo p).lo = p.extractLsb' 0 32 := rfl

@[simp] theorem State.writeHiLo_hiLoUnread (p : BitVec 64) : (s.writeHiLo p).hiLoUnread = true := rfl

@[simp] theorem State.writeHiLo_pc (p : BitVec 64) : (s.writeHiLo p).pc = s.pc := rfl

@[simp] theorem State.writeHiLo_isaMode (p : BitVec 64) : (s.writeHiLo p).isaMode = s.isaMode := rfl

@[simp] theorem State.writeHiLo_delay (p : BitVec 64) : (s.writeHiLo p).delay = s.delay := rfl

@[simp] theorem State.writeHiLo_llbit (p : BitVec 64) : (s.writeHiLo p).llbit = s.llbit := rfl

@[simp] theorem State.writeHiLo_waiting (p : BitVec 64) : (s.writeHiLo p).waiting = s.waiting := rfl

@[simp] theorem State.writeHiLo_cp0 (p : BitVec 64) : (s.writeHiLo p).cp0 = s.cp0 := rfl

@[simp] theorem State.writeHiLo_eicVector (p : BitVec 64) : (s.writeHiLo p).eicVector = s.eicVector := rfl

@[simp] theorem State.writeHiLo_hazards (p : BitVec 64) : (s.writeHiLo p).hazards = s.hazards := rfl

@[simp] theorem State.writeHiLo_fetchHazards (p : BitVec 64) : (s.writeHiLo p).fetchHazards = s.fetchHazards := rfl

@[simp] theorem State.writeHiLo_mem (p : BitVec 64) : (s.writeHiLo p).mem = s.mem := rfl

@[simp] theorem State.writeHiLo_stale (p : BitVec 64) : (s.writeHiLo p).stale = s.stale := rfl

@[simp] theorem State.writeHiLo_physMap (p : BitVec 64) : (s.writeHiLo p).physMap = s.physMap := rfl

@[simp] theorem State.writeHiLo_inputs (p : BitVec 64) : (s.writeHiLo p).inputs = s.inputs := rfl

@[simp] theorem State.writeHiLo_between (p : BitVec 64) : (s.writeHiLo p).between = s.between := rfl

@[simp] theorem State.writeHiLo_draws (p : BitVec 64) : (s.writeHiLo p).draws = s.draws := rfl

/-! ### `freeHiLo` -/

@[simp] theorem State.freeHiLo_gpr : (s.freeHiLo).gpr = s.gpr := rfl

@[simp] theorem State.freeHiLo_hi : (s.freeHiLo).hi = s.free .hi := rfl

@[simp] theorem State.freeHiLo_lo : (s.freeHiLo).lo = s.free .lo := rfl

@[simp] theorem State.freeHiLo_hiLoUnread : (s.freeHiLo).hiLoUnread = true := rfl

@[simp] theorem State.freeHiLo_pc : (s.freeHiLo).pc = s.pc := rfl

@[simp] theorem State.freeHiLo_isaMode : (s.freeHiLo).isaMode = s.isaMode := rfl

@[simp] theorem State.freeHiLo_delay : (s.freeHiLo).delay = s.delay := rfl

@[simp] theorem State.freeHiLo_llbit : (s.freeHiLo).llbit = s.llbit := rfl

@[simp] theorem State.freeHiLo_waiting : (s.freeHiLo).waiting = s.waiting := rfl

@[simp] theorem State.freeHiLo_cp0 : (s.freeHiLo).cp0 = s.cp0 := rfl

@[simp] theorem State.freeHiLo_eicVector : (s.freeHiLo).eicVector = s.eicVector := rfl

@[simp] theorem State.freeHiLo_hazards : (s.freeHiLo).hazards = s.hazards := rfl

@[simp] theorem State.freeHiLo_fetchHazards : (s.freeHiLo).fetchHazards = s.fetchHazards := rfl

@[simp] theorem State.freeHiLo_mem : (s.freeHiLo).mem = s.mem := rfl

@[simp] theorem State.freeHiLo_stale : (s.freeHiLo).stale = s.stale := rfl

@[simp] theorem State.freeHiLo_physMap : (s.freeHiLo).physMap = s.physMap := rfl

@[simp] theorem State.freeHiLo_inputs : (s.freeHiLo).inputs = s.inputs := rfl

@[simp] theorem State.freeHiLo_between : (s.freeHiLo).between = s.between := rfl

@[simp] theorem State.freeHiLo_draws : (s.freeHiLo).draws = s.draws := rfl

/-! ### `clearHazards` -/

@[simp] theorem State.clearHazards_gpr : (s.clearHazards).gpr = s.gpr := rfl

@[simp] theorem State.clearHazards_hi : (s.clearHazards).hi = s.hi := rfl

@[simp] theorem State.clearHazards_lo : (s.clearHazards).lo = s.lo := rfl

@[simp] theorem State.clearHazards_hiLoUnread : (s.clearHazards).hiLoUnread = s.hiLoUnread := rfl

@[simp] theorem State.clearHazards_pc : (s.clearHazards).pc = s.pc := rfl

@[simp] theorem State.clearHazards_isaMode : (s.clearHazards).isaMode = s.isaMode := rfl

@[simp] theorem State.clearHazards_delay : (s.clearHazards).delay = s.delay := rfl

@[simp] theorem State.clearHazards_llbit : (s.clearHazards).llbit = s.llbit := rfl

@[simp] theorem State.clearHazards_waiting : (s.clearHazards).waiting = s.waiting := rfl

@[simp] theorem State.clearHazards_cp0 : (s.clearHazards).cp0 = s.cp0 := rfl

@[simp] theorem State.clearHazards_eicVector : (s.clearHazards).eicVector = s.eicVector := rfl

@[simp] theorem State.clearHazards_hazards : (s.clearHazards).hazards = [] := rfl

@[simp] theorem State.clearHazards_fetchHazards : (s.clearHazards).fetchHazards = [] := rfl

@[simp] theorem State.clearHazards_mem : (s.clearHazards).mem = s.mem := rfl

@[simp] theorem State.clearHazards_stale : (s.clearHazards).stale = s.stale := rfl

@[simp] theorem State.clearHazards_physMap : (s.clearHazards).physMap = s.physMap := rfl

@[simp] theorem State.clearHazards_inputs : (s.clearHazards).inputs = s.inputs := rfl

@[simp] theorem State.clearHazards_between : (s.clearHazards).between = s.between := rfl

@[simp] theorem State.clearHazards_draws : (s.clearHazards).draws = s.draws := rfl

/-! ### `endNewCode` -/

@[simp] theorem State.endNewCode_gpr : (s.endNewCode).gpr = s.gpr := rfl

@[simp] theorem State.endNewCode_hi : (s.endNewCode).hi = s.hi := rfl

@[simp] theorem State.endNewCode_lo : (s.endNewCode).lo = s.lo := rfl

@[simp] theorem State.endNewCode_hiLoUnread : (s.endNewCode).hiLoUnread = s.hiLoUnread := rfl

@[simp] theorem State.endNewCode_pc : (s.endNewCode).pc = s.pc := rfl

@[simp] theorem State.endNewCode_isaMode : (s.endNewCode).isaMode = s.isaMode := rfl

@[simp] theorem State.endNewCode_delay : (s.endNewCode).delay = s.delay := rfl

@[simp] theorem State.endNewCode_llbit : (s.endNewCode).llbit = s.llbit := rfl

@[simp] theorem State.endNewCode_waiting : (s.endNewCode).waiting = s.waiting := rfl

@[simp] theorem State.endNewCode_cp0 : (s.endNewCode).cp0 = s.cp0 := rfl

@[simp] theorem State.endNewCode_eicVector : (s.endNewCode).eicVector = s.eicVector := rfl

@[simp] theorem State.endNewCode_hazards : (s.endNewCode).hazards = s.hazards := rfl

@[simp] theorem State.endNewCode_fetchHazards : (s.endNewCode).fetchHazards = s.fetchHazards := rfl

@[simp] theorem State.endNewCode_mem : (s.endNewCode).mem = s.mem := rfl

@[simp] theorem State.endNewCode_physMap : (s.endNewCode).physMap = s.physMap := rfl

@[simp] theorem State.endNewCode_inputs : (s.endNewCode).inputs = s.inputs := rfl

@[simp] theorem State.endNewCode_between : (s.endNewCode).between = s.between := rfl

@[simp] theorem State.endNewCode_draws : (s.endNewCode).draws = s.draws := rfl

/-! ### `barrier` -/

@[simp] theorem State.barrier_gpr : (s.barrier).gpr = s.gpr := rfl

@[simp] theorem State.barrier_hi : (s.barrier).hi = s.hi := rfl

@[simp] theorem State.barrier_lo : (s.barrier).lo = s.lo := rfl

@[simp] theorem State.barrier_hiLoUnread : (s.barrier).hiLoUnread = s.hiLoUnread := rfl

@[simp] theorem State.barrier_pc : (s.barrier).pc = s.pc := rfl

@[simp] theorem State.barrier_isaMode : (s.barrier).isaMode = s.isaMode := rfl

@[simp] theorem State.barrier_delay : (s.barrier).delay = s.delay := rfl

@[simp] theorem State.barrier_llbit : (s.barrier).llbit = s.llbit := rfl

@[simp] theorem State.barrier_waiting : (s.barrier).waiting = s.waiting := rfl

@[simp] theorem State.barrier_cp0 : (s.barrier).cp0 = s.cp0 := rfl

@[simp] theorem State.barrier_eicVector : (s.barrier).eicVector = s.eicVector := rfl

@[simp] theorem State.barrier_hazards : (s.barrier).hazards = [] := rfl

@[simp] theorem State.barrier_fetchHazards : (s.barrier).fetchHazards = [] := rfl

@[simp] theorem State.barrier_mem : (s.barrier).mem = s.mem := rfl

@[simp] theorem State.barrier_physMap : (s.barrier).physMap = s.physMap := rfl

@[simp] theorem State.barrier_inputs : (s.barrier).inputs = s.inputs := rfl

@[simp] theorem State.barrier_between : (s.barrier).between = s.between := rfl

@[simp] theorem State.barrier_draws : (s.barrier).draws = s.draws := rfl

/-! ### `orderStores` -/

@[simp] theorem State.orderStores_gpr : (s.orderStores).gpr = s.gpr := rfl

@[simp] theorem State.orderStores_hi : (s.orderStores).hi = s.hi := rfl

@[simp] theorem State.orderStores_lo : (s.orderStores).lo = s.lo := rfl

@[simp] theorem State.orderStores_hiLoUnread : (s.orderStores).hiLoUnread = s.hiLoUnread := rfl

@[simp] theorem State.orderStores_pc : (s.orderStores).pc = s.pc := rfl

@[simp] theorem State.orderStores_isaMode : (s.orderStores).isaMode = s.isaMode := rfl

@[simp] theorem State.orderStores_delay : (s.orderStores).delay = s.delay := rfl

@[simp] theorem State.orderStores_llbit : (s.orderStores).llbit = s.llbit := rfl

@[simp] theorem State.orderStores_waiting : (s.orderStores).waiting = s.waiting := rfl

@[simp] theorem State.orderStores_cp0 : (s.orderStores).cp0 = s.cp0 := rfl

@[simp] theorem State.orderStores_eicVector : (s.orderStores).eicVector = s.eicVector := rfl

@[simp] theorem State.orderStores_hazards : (s.orderStores).hazards = s.hazards := rfl

@[simp] theorem State.orderStores_fetchHazards : (s.orderStores).fetchHazards = s.fetchHazards := rfl

@[simp] theorem State.orderStores_mem : (s.orderStores).mem = s.mem := rfl

@[simp] theorem State.orderStores_physMap : (s.orderStores).physMap = s.physMap := rfl

@[simp] theorem State.orderStores_inputs : (s.orderStores).inputs = s.inputs := rfl

@[simp] theorem State.orderStores_between : (s.orderStores).between = s.between := rfl

@[simp] theorem State.orderStores_draws : (s.orderStores).draws = s.draws := rfl

/-! ### `delayed` -/

@[simp] theorem State.delayed_gpr (len target : Word) (mode : Isa) (b : Bool) : (s.delayed len target mode b).gpr = s.gpr := rfl

@[simp] theorem State.delayed_hi (len target : Word) (mode : Isa) (b : Bool) : (s.delayed len target mode b).hi = s.hi := rfl

@[simp] theorem State.delayed_lo (len target : Word) (mode : Isa) (b : Bool) : (s.delayed len target mode b).lo = s.lo := rfl

@[simp] theorem State.delayed_hiLoUnread (len target : Word) (mode : Isa) (b : Bool) : (s.delayed len target mode b).hiLoUnread = s.hiLoUnread := rfl

@[simp] theorem State.delayed_pc (len target : Word) (mode : Isa) (b : Bool) : (s.delayed len target mode b).pc = s.pc + len := rfl

@[simp] theorem State.delayed_isaMode (len target : Word) (mode : Isa) (b : Bool) : (s.delayed len target mode b).isaMode = s.isaMode := rfl

@[simp] theorem State.delayed_delay (len target : Word) (mode : Isa) (b : Bool) : (s.delayed len target mode b).delay = some ⟨s.pc, target, mode, b⟩ := rfl

@[simp] theorem State.delayed_llbit (len target : Word) (mode : Isa) (b : Bool) : (s.delayed len target mode b).llbit = s.llbit := rfl

@[simp] theorem State.delayed_waiting (len target : Word) (mode : Isa) (b : Bool) : (s.delayed len target mode b).waiting = s.waiting := rfl

@[simp] theorem State.delayed_cp0 (len target : Word) (mode : Isa) (b : Bool) : (s.delayed len target mode b).cp0 = s.cp0 := rfl

@[simp] theorem State.delayed_eicVector (len target : Word) (mode : Isa) (b : Bool) : (s.delayed len target mode b).eicVector = s.eicVector := rfl

@[simp] theorem State.delayed_hazards (len target : Word) (mode : Isa) (b : Bool) : (s.delayed len target mode b).hazards = s.hazards := rfl

@[simp] theorem State.delayed_fetchHazards (len target : Word) (mode : Isa) (b : Bool) : (s.delayed len target mode b).fetchHazards = s.fetchHazards := rfl

@[simp] theorem State.delayed_mem (len target : Word) (mode : Isa) (b : Bool) : (s.delayed len target mode b).mem = s.mem := rfl

@[simp] theorem State.delayed_stale (len target : Word) (mode : Isa) (b : Bool) : (s.delayed len target mode b).stale = s.stale := rfl

@[simp] theorem State.delayed_physMap (len target : Word) (mode : Isa) (b : Bool) : (s.delayed len target mode b).physMap = s.physMap := rfl

@[simp] theorem State.delayed_inputs (len target : Word) (mode : Isa) (b : Bool) : (s.delayed len target mode b).inputs = s.inputs := rfl

@[simp] theorem State.delayed_between (len target : Word) (mode : Isa) (b : Bool) : (s.delayed len target mode b).between = s.between := rfl

@[simp] theorem State.delayed_draws (len target : Word) (mode : Isa) (b : Bool) : (s.delayed len target mode b).draws = s.draws := rfl

/-! ### `jumpTo` -/

@[simp] theorem State.jumpTo_gpr (target : Word) (mode : Isa) : (s.jumpTo target mode).gpr = s.gpr := rfl

@[simp] theorem State.jumpTo_hi (target : Word) (mode : Isa) : (s.jumpTo target mode).hi = s.hi := rfl

@[simp] theorem State.jumpTo_lo (target : Word) (mode : Isa) : (s.jumpTo target mode).lo = s.lo := rfl

@[simp] theorem State.jumpTo_hiLoUnread (target : Word) (mode : Isa) : (s.jumpTo target mode).hiLoUnread = s.hiLoUnread := rfl

@[simp] theorem State.jumpTo_pc (target : Word) (mode : Isa) : (s.jumpTo target mode).pc = target := rfl

@[simp] theorem State.jumpTo_isaMode (target : Word) (mode : Isa) : (s.jumpTo target mode).isaMode = mode := rfl

@[simp] theorem State.jumpTo_delay (target : Word) (mode : Isa) : (s.jumpTo target mode).delay = s.delay := rfl

@[simp] theorem State.jumpTo_llbit (target : Word) (mode : Isa) : (s.jumpTo target mode).llbit = s.llbit := rfl

@[simp] theorem State.jumpTo_waiting (target : Word) (mode : Isa) : (s.jumpTo target mode).waiting = s.waiting := rfl

@[simp] theorem State.jumpTo_cp0 (target : Word) (mode : Isa) : (s.jumpTo target mode).cp0 = s.cp0 := rfl

@[simp] theorem State.jumpTo_eicVector (target : Word) (mode : Isa) : (s.jumpTo target mode).eicVector = s.eicVector := rfl

@[simp] theorem State.jumpTo_hazards (target : Word) (mode : Isa) : (s.jumpTo target mode).hazards = s.hazards := rfl

@[simp] theorem State.jumpTo_fetchHazards (target : Word) (mode : Isa) : (s.jumpTo target mode).fetchHazards = s.fetchHazards := rfl

@[simp] theorem State.jumpTo_mem (target : Word) (mode : Isa) : (s.jumpTo target mode).mem = s.mem := rfl

@[simp] theorem State.jumpTo_stale (target : Word) (mode : Isa) : (s.jumpTo target mode).stale = s.stale := rfl

@[simp] theorem State.jumpTo_physMap (target : Word) (mode : Isa) : (s.jumpTo target mode).physMap = s.physMap := rfl

@[simp] theorem State.jumpTo_inputs (target : Word) (mode : Isa) : (s.jumpTo target mode).inputs = s.inputs := rfl

@[simp] theorem State.jumpTo_between (target : Word) (mode : Isa) : (s.jumpTo target mode).between = s.between := rfl

@[simp] theorem State.jumpTo_draws (target : Word) (mode : Isa) : (s.jumpTo target mode).draws = s.draws := rfl

/-! ### `writeCells` -/

@[simp] theorem State.writeCells_gpr (cs : List Host.Cell) : (s.writeCells cs).gpr = s.gpr := rfl

@[simp] theorem State.writeCells_hi (cs : List Host.Cell) : (s.writeCells cs).hi = s.hi := rfl

@[simp] theorem State.writeCells_lo (cs : List Host.Cell) : (s.writeCells cs).lo = s.lo := rfl

@[simp] theorem State.writeCells_hiLoUnread (cs : List Host.Cell) : (s.writeCells cs).hiLoUnread = s.hiLoUnread := rfl

@[simp] theorem State.writeCells_pc (cs : List Host.Cell) : (s.writeCells cs).pc = s.pc := rfl

@[simp] theorem State.writeCells_isaMode (cs : List Host.Cell) : (s.writeCells cs).isaMode = s.isaMode := rfl

@[simp] theorem State.writeCells_delay (cs : List Host.Cell) : (s.writeCells cs).delay = s.delay := rfl

@[simp] theorem State.writeCells_llbit (cs : List Host.Cell) : (s.writeCells cs).llbit = s.llbit := rfl

@[simp] theorem State.writeCells_waiting (cs : List Host.Cell) : (s.writeCells cs).waiting = s.waiting := rfl

@[simp] theorem State.writeCells_cp0 (cs : List Host.Cell) : (s.writeCells cs).cp0 = s.cp0 := rfl

@[simp] theorem State.writeCells_eicVector (cs : List Host.Cell) : (s.writeCells cs).eicVector = s.eicVector := rfl

@[simp] theorem State.writeCells_hazards (cs : List Host.Cell) : (s.writeCells cs).hazards = s.hazards := rfl

@[simp] theorem State.writeCells_fetchHazards (cs : List Host.Cell) : (s.writeCells cs).fetchHazards = s.fetchHazards := rfl

@[simp] theorem State.writeCells_mem (cs : List Host.Cell) : (s.writeCells cs).mem = cs.foldl (fun m c => m.write c.1 c.2) s.mem := rfl

@[simp] theorem State.writeCells_physMap (cs : List Host.Cell) : (s.writeCells cs).physMap = s.physMap := rfl

@[simp] theorem State.writeCells_inputs (cs : List Host.Cell) : (s.writeCells cs).inputs = s.inputs := rfl

@[simp] theorem State.writeCells_between (cs : List Host.Cell) : (s.writeCells cs).between = s.between := rfl

@[simp] theorem State.writeCells_draws (cs : List Host.Cell) : (s.writeCells cs).draws = s.draws := rfl

/-! ### `storeBytes` -/

@[simp] theorem State.storeBytes_gpr (pa : Word) (vs : List Byte) : (s.storeBytes pa vs).gpr = s.gpr := rfl

@[simp] theorem State.storeBytes_hi (pa : Word) (vs : List Byte) : (s.storeBytes pa vs).hi = s.hi := rfl

@[simp] theorem State.storeBytes_lo (pa : Word) (vs : List Byte) : (s.storeBytes pa vs).lo = s.lo := rfl

@[simp] theorem State.storeBytes_hiLoUnread (pa : Word) (vs : List Byte) : (s.storeBytes pa vs).hiLoUnread = s.hiLoUnread := rfl

@[simp] theorem State.storeBytes_pc (pa : Word) (vs : List Byte) : (s.storeBytes pa vs).pc = s.pc := rfl

@[simp] theorem State.storeBytes_isaMode (pa : Word) (vs : List Byte) : (s.storeBytes pa vs).isaMode = s.isaMode := rfl

@[simp] theorem State.storeBytes_delay (pa : Word) (vs : List Byte) : (s.storeBytes pa vs).delay = s.delay := rfl

@[simp] theorem State.storeBytes_llbit (pa : Word) (vs : List Byte) : (s.storeBytes pa vs).llbit = s.llbit := rfl

@[simp] theorem State.storeBytes_waiting (pa : Word) (vs : List Byte) : (s.storeBytes pa vs).waiting = s.waiting := rfl

@[simp] theorem State.storeBytes_cp0 (pa : Word) (vs : List Byte) : (s.storeBytes pa vs).cp0 = s.cp0 := rfl

@[simp] theorem State.storeBytes_eicVector (pa : Word) (vs : List Byte) : (s.storeBytes pa vs).eicVector = s.eicVector := rfl

@[simp] theorem State.storeBytes_hazards (pa : Word) (vs : List Byte) : (s.storeBytes pa vs).hazards = s.hazards := rfl

@[simp] theorem State.storeBytes_fetchHazards (pa : Word) (vs : List Byte) : (s.storeBytes pa vs).fetchHazards = s.fetchHazards := rfl

@[simp] theorem State.storeBytes_physMap (pa : Word) (vs : List Byte) : (s.storeBytes pa vs).physMap = s.physMap := rfl

@[simp] theorem State.storeBytes_inputs (pa : Word) (vs : List Byte) : (s.storeBytes pa vs).inputs = s.inputs := rfl

@[simp] theorem State.storeBytes_between (pa : Word) (vs : List Byte) : (s.storeBytes pa vs).between = s.between := rfl

@[simp] theorem State.storeBytes_draws (pa : Word) (vs : List Byte) : (s.storeBytes pa vs).draws = s.draws := rfl

/-! ### `busWrites` -/

@[simp] theorem State.busWrites_gpr (ws : List BusWrite) : (s.busWrites ws).gpr = s.gpr := by
  unfold State.busWrites
  induction ws generalizing s with
  | nil => rfl
  | cons w ws ih => rw [List.foldl_cons, ih]; rfl

@[simp] theorem State.busWrites_hi (ws : List BusWrite) : (s.busWrites ws).hi = s.hi := by
  unfold State.busWrites
  induction ws generalizing s with
  | nil => rfl
  | cons w ws ih => rw [List.foldl_cons, ih]; rfl

@[simp] theorem State.busWrites_lo (ws : List BusWrite) : (s.busWrites ws).lo = s.lo := by
  unfold State.busWrites
  induction ws generalizing s with
  | nil => rfl
  | cons w ws ih => rw [List.foldl_cons, ih]; rfl

@[simp] theorem State.busWrites_hiLoUnread (ws : List BusWrite) : (s.busWrites ws).hiLoUnread = s.hiLoUnread := by
  unfold State.busWrites
  induction ws generalizing s with
  | nil => rfl
  | cons w ws ih => rw [List.foldl_cons, ih]; rfl

@[simp] theorem State.busWrites_pc (ws : List BusWrite) : (s.busWrites ws).pc = s.pc := by
  unfold State.busWrites
  induction ws generalizing s with
  | nil => rfl
  | cons w ws ih => rw [List.foldl_cons, ih]; rfl

@[simp] theorem State.busWrites_isaMode (ws : List BusWrite) : (s.busWrites ws).isaMode = s.isaMode := by
  unfold State.busWrites
  induction ws generalizing s with
  | nil => rfl
  | cons w ws ih => rw [List.foldl_cons, ih]; rfl

@[simp] theorem State.busWrites_delay (ws : List BusWrite) : (s.busWrites ws).delay = s.delay := by
  unfold State.busWrites
  induction ws generalizing s with
  | nil => rfl
  | cons w ws ih => rw [List.foldl_cons, ih]; rfl

@[simp] theorem State.busWrites_llbit (ws : List BusWrite) : (s.busWrites ws).llbit = s.llbit := by
  unfold State.busWrites
  induction ws generalizing s with
  | nil => rfl
  | cons w ws ih => rw [List.foldl_cons, ih]; rfl

@[simp] theorem State.busWrites_waiting (ws : List BusWrite) : (s.busWrites ws).waiting = s.waiting := by
  unfold State.busWrites
  induction ws generalizing s with
  | nil => rfl
  | cons w ws ih => rw [List.foldl_cons, ih]; rfl

@[simp] theorem State.busWrites_cp0 (ws : List BusWrite) : (s.busWrites ws).cp0 = s.cp0 := by
  unfold State.busWrites
  induction ws generalizing s with
  | nil => rfl
  | cons w ws ih => rw [List.foldl_cons, ih]; rfl

@[simp] theorem State.busWrites_eicVector (ws : List BusWrite) : (s.busWrites ws).eicVector = s.eicVector := by
  unfold State.busWrites
  induction ws generalizing s with
  | nil => rfl
  | cons w ws ih => rw [List.foldl_cons, ih]; rfl

@[simp] theorem State.busWrites_hazards (ws : List BusWrite) : (s.busWrites ws).hazards = s.hazards := by
  unfold State.busWrites
  induction ws generalizing s with
  | nil => rfl
  | cons w ws ih => rw [List.foldl_cons, ih]; rfl

@[simp] theorem State.busWrites_fetchHazards (ws : List BusWrite) : (s.busWrites ws).fetchHazards = s.fetchHazards := by
  unfold State.busWrites
  induction ws generalizing s with
  | nil => rfl
  | cons w ws ih => rw [List.foldl_cons, ih]; rfl

@[simp] theorem State.busWrites_physMap (ws : List BusWrite) : (s.busWrites ws).physMap = s.physMap := by
  unfold State.busWrites
  induction ws generalizing s with
  | nil => rfl
  | cons w ws ih => rw [List.foldl_cons, ih]; rfl

@[simp] theorem State.busWrites_inputs (ws : List BusWrite) : (s.busWrites ws).inputs = s.inputs := by
  unfold State.busWrites
  induction ws generalizing s with
  | nil => rfl
  | cons w ws ih => rw [List.foldl_cons, ih]; rfl

@[simp] theorem State.busWrites_between (ws : List BusWrite) : (s.busWrites ws).between = s.between := by
  unfold State.busWrites
  induction ws generalizing s with
  | nil => rfl
  | cons w ws ih => rw [List.foldl_cons, ih]; rfl

@[simp] theorem State.busWrites_draws (ws : List BusWrite) : (s.busWrites ws).draws = s.draws := by
  unfold State.busWrites
  induction ws generalizing s with
  | nil => rfl
  | cons w ws ih => rw [List.foldl_cons, ih]; rfl

/-! ### `othersWrite` -/

@[simp] theorem State.othersWrite_gpr : (s.othersWrite).gpr = s.gpr := by
  simp [State.othersWrite]

@[simp] theorem State.othersWrite_hi : (s.othersWrite).hi = s.hi := by
  simp [State.othersWrite]

@[simp] theorem State.othersWrite_lo : (s.othersWrite).lo = s.lo := by
  simp [State.othersWrite]

@[simp] theorem State.othersWrite_hiLoUnread : (s.othersWrite).hiLoUnread = s.hiLoUnread := by
  simp [State.othersWrite]

@[simp] theorem State.othersWrite_pc : (s.othersWrite).pc = s.pc := by
  simp [State.othersWrite]

@[simp] theorem State.othersWrite_isaMode : (s.othersWrite).isaMode = s.isaMode := by
  simp [State.othersWrite]

@[simp] theorem State.othersWrite_delay : (s.othersWrite).delay = s.delay := by
  simp [State.othersWrite]

@[simp] theorem State.othersWrite_llbit : (s.othersWrite).llbit = s.llbit := by
  simp [State.othersWrite]

@[simp] theorem State.othersWrite_waiting : (s.othersWrite).waiting = s.waiting := by
  simp [State.othersWrite]

@[simp] theorem State.othersWrite_cp0 : (s.othersWrite).cp0 = s.cp0 := by
  simp [State.othersWrite]

@[simp] theorem State.othersWrite_eicVector : (s.othersWrite).eicVector = s.eicVector := by
  simp [State.othersWrite]

@[simp] theorem State.othersWrite_hazards : (s.othersWrite).hazards = s.hazards := by
  simp [State.othersWrite]

@[simp] theorem State.othersWrite_fetchHazards : (s.othersWrite).fetchHazards = s.fetchHazards := by
  simp [State.othersWrite]

@[simp] theorem State.othersWrite_physMap : (s.othersWrite).physMap = s.physMap := by
  simp [State.othersWrite]

@[simp] theorem State.othersWrite_inputs : (s.othersWrite).inputs = s.inputs := by
  simp [State.othersWrite]

@[simp] theorem State.othersWrite_between : (s.othersWrite).between = s.between.tail := by
  simp [State.othersWrite]

@[simp] theorem State.othersWrite_draws : (s.othersWrite).draws = s.draws := by
  simp [State.othersWrite]

/-! ### `holdBusError` -/

@[simp] theorem State.holdBusError_gpr : (s.holdBusError).gpr = s.gpr := rfl

@[simp] theorem State.holdBusError_hi : (s.holdBusError).hi = s.hi := rfl

@[simp] theorem State.holdBusError_lo : (s.holdBusError).lo = s.lo := rfl

@[simp] theorem State.holdBusError_hiLoUnread : (s.holdBusError).hiLoUnread = s.hiLoUnread := rfl

@[simp] theorem State.holdBusError_pc : (s.holdBusError).pc = s.pc := rfl

@[simp] theorem State.holdBusError_isaMode : (s.holdBusError).isaMode = s.isaMode := rfl

@[simp] theorem State.holdBusError_delay : (s.holdBusError).delay = s.delay := rfl

@[simp] theorem State.holdBusError_llbit : (s.holdBusError).llbit = s.llbit := rfl

@[simp] theorem State.holdBusError_waiting : (s.holdBusError).waiting = s.waiting := rfl

@[simp] theorem State.holdBusError_cp0 : (s.holdBusError).cp0 = { s.cp0 with debugReg := { s.cp0.debugReg with dbusep := true } } := rfl

@[simp] theorem State.holdBusError_eicVector : (s.holdBusError).eicVector = s.eicVector := rfl

@[simp] theorem State.holdBusError_hazards : (s.holdBusError).hazards = s.hazards := rfl

@[simp] theorem State.holdBusError_fetchHazards : (s.holdBusError).fetchHazards = s.fetchHazards := rfl

@[simp] theorem State.holdBusError_mem : (s.holdBusError).mem = s.mem := rfl

@[simp] theorem State.holdBusError_stale : (s.holdBusError).stale = s.stale := rfl

@[simp] theorem State.holdBusError_physMap : (s.holdBusError).physMap = s.physMap := rfl

@[simp] theorem State.holdBusError_inputs : (s.holdBusError).inputs = s.inputs := rfl

@[simp] theorem State.holdBusError_between : (s.holdBusError).between = s.between := rfl

@[simp] theorem State.holdBusError_draws : (s.holdBusError).draws = s.draws := rfl

/-! ### `takeException` -/

@[simp] theorem State.takeException_gpr (e : Exc) : (s.takeException e).gpr = s.gpr := rfl

@[simp] theorem State.takeException_hi (e : Exc) : (s.takeException e).hi = s.hi := rfl

@[simp] theorem State.takeException_lo (e : Exc) : (s.takeException e).lo = s.lo := rfl

@[simp] theorem State.takeException_hiLoUnread (e : Exc) : (s.takeException e).hiLoUnread = s.hiLoUnread := rfl

@[simp] theorem State.takeException_pc (e : Exc) : (s.takeException e).pc = vectorAddress (vectorBase (s.entryView e)) (vectorOffset (s.entryView e) s.eicVector e) := rfl

@[simp] theorem State.takeException_isaMode (e : Exc) : (s.takeException e).isaMode = .mips32 := rfl

@[simp] theorem State.takeException_delay (e : Exc) : (s.takeException e).delay = none := rfl

@[simp] theorem State.takeException_llbit (e : Exc) : (s.takeException e).llbit = s.llbit := rfl

@[simp] theorem State.takeException_waiting (e : Exc) : (s.takeException e).waiting = false := rfl

@[simp] theorem State.takeException_eicVector (e : Exc) : (s.takeException e).eicVector = s.eicVector := rfl

@[simp] theorem State.takeException_hazards (e : Exc) : (s.takeException e).hazards = [] := rfl

@[simp] theorem State.takeException_fetchHazards (e : Exc) : (s.takeException e).fetchHazards = [] := rfl

@[simp] theorem State.takeException_mem (e : Exc) : (s.takeException e).mem = s.mem := rfl

@[simp] theorem State.takeException_stale (e : Exc) : (s.takeException e).stale = s.stale := rfl

@[simp] theorem State.takeException_physMap (e : Exc) : (s.takeException e).physMap = s.physMap := rfl

@[simp] theorem State.takeException_inputs (e : Exc) : (s.takeException e).inputs = s.inputs := rfl

@[simp] theorem State.takeException_between (e : Exc) : (s.takeException e).between = s.between := rfl

@[simp] theorem State.takeException_draws (e : Exc) : (s.takeException e).draws = s.draws := rfl

/-! ### `takeInDebug` -/

@[simp] theorem State.takeInDebug_gpr (e : Exc) : (s.takeInDebug e).gpr = s.gpr := rfl

@[simp] theorem State.takeInDebug_hi (e : Exc) : (s.takeInDebug e).hi = s.hi := rfl

@[simp] theorem State.takeInDebug_lo (e : Exc) : (s.takeInDebug e).lo = s.lo := rfl

@[simp] theorem State.takeInDebug_hiLoUnread (e : Exc) : (s.takeInDebug e).hiLoUnread = s.hiLoUnread := rfl

@[simp] theorem State.takeInDebug_pc (e : Exc) : (s.takeInDebug e).pc = debugVector := rfl

@[simp] theorem State.takeInDebug_isaMode (e : Exc) : (s.takeInDebug e).isaMode = .mips32 := rfl

@[simp] theorem State.takeInDebug_delay (e : Exc) : (s.takeInDebug e).delay = none := rfl

@[simp] theorem State.takeInDebug_llbit (e : Exc) : (s.takeInDebug e).llbit = s.llbit := rfl

@[simp] theorem State.takeInDebug_waiting (e : Exc) : (s.takeInDebug e).waiting = false := rfl

@[simp] theorem State.takeInDebug_eicVector (e : Exc) : (s.takeInDebug e).eicVector = s.eicVector := rfl

@[simp] theorem State.takeInDebug_hazards (e : Exc) : (s.takeInDebug e).hazards = [] := rfl

@[simp] theorem State.takeInDebug_fetchHazards (e : Exc) : (s.takeInDebug e).fetchHazards = [] := rfl

@[simp] theorem State.takeInDebug_mem (e : Exc) : (s.takeInDebug e).mem = s.mem := rfl

@[simp] theorem State.takeInDebug_stale (e : Exc) : (s.takeInDebug e).stale = s.stale := rfl

@[simp] theorem State.takeInDebug_physMap (e : Exc) : (s.takeInDebug e).physMap = s.physMap := rfl

@[simp] theorem State.takeInDebug_inputs (e : Exc) : (s.takeInDebug e).inputs = s.inputs := rfl

@[simp] theorem State.takeInDebug_between (e : Exc) : (s.takeInDebug e).between = s.between := rfl

@[simp] theorem State.takeInDebug_draws (e : Exc) : (s.takeInDebug e).draws = s.draws := rfl

/-! ### `takeDebug` -/

@[simp] theorem State.takeDebug_gpr (k : DebugExc) : (s.takeDebug k).gpr = s.gpr := rfl

@[simp] theorem State.takeDebug_hi (k : DebugExc) : (s.takeDebug k).hi = s.hi := rfl

@[simp] theorem State.takeDebug_lo (k : DebugExc) : (s.takeDebug k).lo = s.lo := rfl

@[simp] theorem State.takeDebug_hiLoUnread (k : DebugExc) : (s.takeDebug k).hiLoUnread = s.hiLoUnread := rfl

@[simp] theorem State.takeDebug_pc (k : DebugExc) : (s.takeDebug k).pc = debugVector := rfl

@[simp] theorem State.takeDebug_isaMode (k : DebugExc) : (s.takeDebug k).isaMode = .mips32 := rfl

@[simp] theorem State.takeDebug_delay (k : DebugExc) : (s.takeDebug k).delay = none := rfl

@[simp] theorem State.takeDebug_llbit (k : DebugExc) : (s.takeDebug k).llbit = s.llbit := rfl

@[simp] theorem State.takeDebug_waiting (k : DebugExc) : (s.takeDebug k).waiting = false := rfl

@[simp] theorem State.takeDebug_eicVector (k : DebugExc) : (s.takeDebug k).eicVector = s.eicVector := rfl

@[simp] theorem State.takeDebug_hazards (k : DebugExc) : (s.takeDebug k).hazards = [] := rfl

@[simp] theorem State.takeDebug_fetchHazards (k : DebugExc) : (s.takeDebug k).fetchHazards = [] := rfl

@[simp] theorem State.takeDebug_mem (k : DebugExc) : (s.takeDebug k).mem = s.mem := rfl

@[simp] theorem State.takeDebug_stale (k : DebugExc) : (s.takeDebug k).stale = s.stale := rfl

@[simp] theorem State.takeDebug_physMap (k : DebugExc) : (s.takeDebug k).physMap = s.physMap := rfl

@[simp] theorem State.takeDebug_inputs (k : DebugExc) : (s.takeDebug k).inputs = s.inputs := rfl

@[simp] theorem State.takeDebug_between (k : DebugExc) : (s.takeDebug k).between = s.between := rfl

@[simp] theorem State.takeDebug_draws (k : DebugExc) : (s.takeDebug k).draws = s.draws := rfl

/-! ### `takeNmi` -/

@[simp] theorem State.takeNmi_gpr : (s.takeNmi).gpr = s.gpr := rfl

@[simp] theorem State.takeNmi_hi : (s.takeNmi).hi = s.hi := rfl

@[simp] theorem State.takeNmi_lo : (s.takeNmi).lo = s.lo := rfl

@[simp] theorem State.takeNmi_hiLoUnread : (s.takeNmi).hiLoUnread = s.hiLoUnread := rfl

@[simp] theorem State.takeNmi_pc : (s.takeNmi).pc = resetVector := rfl

@[simp] theorem State.takeNmi_isaMode : (s.takeNmi).isaMode = .mips32 := rfl

@[simp] theorem State.takeNmi_delay : (s.takeNmi).delay = none := rfl

@[simp] theorem State.takeNmi_llbit : (s.takeNmi).llbit = s.llbit := rfl

@[simp] theorem State.takeNmi_waiting : (s.takeNmi).waiting = false := rfl

@[simp] theorem State.takeNmi_eicVector : (s.takeNmi).eicVector = s.eicVector := rfl

@[simp] theorem State.takeNmi_hazards : (s.takeNmi).hazards = [] := rfl

@[simp] theorem State.takeNmi_fetchHazards : (s.takeNmi).fetchHazards = [] := rfl

@[simp] theorem State.takeNmi_mem : (s.takeNmi).mem = s.mem := rfl

@[simp] theorem State.takeNmi_stale : (s.takeNmi).stale = s.stale := rfl

@[simp] theorem State.takeNmi_physMap : (s.takeNmi).physMap = s.physMap := rfl

@[simp] theorem State.takeNmi_inputs : (s.takeNmi).inputs = s.inputs := rfl

@[simp] theorem State.takeNmi_between : (s.takeNmi).between = s.between := rfl

@[simp] theorem State.takeNmi_draws : (s.takeNmi).draws = s.draws := rfl

/-! ### `returnFromDebug` -/

@[simp] theorem State.returnFromDebug_gpr : (s.returnFromDebug).gpr = s.gpr := rfl

@[simp] theorem State.returnFromDebug_hi : (s.returnFromDebug).hi = s.hi := rfl

@[simp] theorem State.returnFromDebug_lo : (s.returnFromDebug).lo = s.lo := rfl

@[simp] theorem State.returnFromDebug_hiLoUnread : (s.returnFromDebug).hiLoUnread = s.hiLoUnread := rfl

@[simp] theorem State.returnFromDebug_delay : (s.returnFromDebug).delay = s.delay := rfl

@[simp] theorem State.returnFromDebug_llbit : (s.returnFromDebug).llbit = s.llbit := rfl

@[simp] theorem State.returnFromDebug_waiting : (s.returnFromDebug).waiting = s.waiting := rfl

@[simp] theorem State.returnFromDebug_eicVector : (s.returnFromDebug).eicVector = s.eicVector := rfl

@[simp] theorem State.returnFromDebug_hazards : (s.returnFromDebug).hazards = [] := rfl

@[simp] theorem State.returnFromDebug_fetchHazards : (s.returnFromDebug).fetchHazards = [] := rfl

@[simp] theorem State.returnFromDebug_mem : (s.returnFromDebug).mem = s.mem := rfl

@[simp] theorem State.returnFromDebug_physMap : (s.returnFromDebug).physMap = s.physMap := rfl

@[simp] theorem State.returnFromDebug_inputs : (s.returnFromDebug).inputs = s.inputs := rfl

@[simp] theorem State.returnFromDebug_between : (s.returnFromDebug).between = s.between := rfl

@[simp] theorem State.returnFromDebug_draws : (s.returnFromDebug).draws = s.draws := rfl

/-! ### `jumpRegister` -/

@[simp] theorem State.jumpRegister_gpr (len t : Word) (b : Bool) : (s.jumpRegister len t b).gpr = s.gpr := rfl

@[simp] theorem State.jumpRegister_hi (len t : Word) (b : Bool) : (s.jumpRegister len t b).hi = s.hi := rfl

@[simp] theorem State.jumpRegister_lo (len t : Word) (b : Bool) : (s.jumpRegister len t b).lo = s.lo := rfl

@[simp] theorem State.jumpRegister_hiLoUnread (len t : Word) (b : Bool) : (s.jumpRegister len t b).hiLoUnread = s.hiLoUnread := rfl

@[simp] theorem State.jumpRegister_pc (len t : Word) (b : Bool) : (s.jumpRegister len t b).pc = s.pc + len := rfl

@[simp] theorem State.jumpRegister_isaMode (len t : Word) (b : Bool) : (s.jumpRegister len t b).isaMode = s.isaMode := rfl

@[simp] theorem State.jumpRegister_delay (len t : Word) (b : Bool) : (s.jumpRegister len t b).delay = some ⟨s.pc, clearIsaBit t, isaOfBit (t.getLsbD 0), b⟩ := rfl

@[simp] theorem State.jumpRegister_llbit (len t : Word) (b : Bool) : (s.jumpRegister len t b).llbit = s.llbit := rfl

@[simp] theorem State.jumpRegister_waiting (len t : Word) (b : Bool) : (s.jumpRegister len t b).waiting = s.waiting := rfl

@[simp] theorem State.jumpRegister_cp0 (len t : Word) (b : Bool) : (s.jumpRegister len t b).cp0 = s.cp0 := rfl

@[simp] theorem State.jumpRegister_eicVector (len t : Word) (b : Bool) : (s.jumpRegister len t b).eicVector = s.eicVector := rfl

@[simp] theorem State.jumpRegister_hazards (len t : Word) (b : Bool) : (s.jumpRegister len t b).hazards = s.hazards := rfl

@[simp] theorem State.jumpRegister_fetchHazards (len t : Word) (b : Bool) : (s.jumpRegister len t b).fetchHazards = s.fetchHazards := rfl

@[simp] theorem State.jumpRegister_mem (len t : Word) (b : Bool) : (s.jumpRegister len t b).mem = s.mem := rfl

@[simp] theorem State.jumpRegister_stale (len t : Word) (b : Bool) : (s.jumpRegister len t b).stale = s.stale := rfl

@[simp] theorem State.jumpRegister_physMap (len t : Word) (b : Bool) : (s.jumpRegister len t b).physMap = s.physMap := rfl

@[simp] theorem State.jumpRegister_inputs (len t : Word) (b : Bool) : (s.jumpRegister len t b).inputs = s.inputs := rfl

@[simp] theorem State.jumpRegister_between (len t : Word) (b : Bool) : (s.jumpRegister len t b).between = s.between := rfl

@[simp] theorem State.jumpRegister_draws (len t : Word) (b : Bool) : (s.jumpRegister len t b).draws = s.draws := rfl

/-! ### `jumpCompact` -/

@[simp] theorem State.jumpCompact_gpr (t : Word) : (s.jumpCompact t).gpr = s.gpr := rfl

@[simp] theorem State.jumpCompact_hi (t : Word) : (s.jumpCompact t).hi = s.hi := rfl

@[simp] theorem State.jumpCompact_lo (t : Word) : (s.jumpCompact t).lo = s.lo := rfl

@[simp] theorem State.jumpCompact_hiLoUnread (t : Word) : (s.jumpCompact t).hiLoUnread = s.hiLoUnread := rfl

@[simp] theorem State.jumpCompact_pc (t : Word) : (s.jumpCompact t).pc = clearIsaBit t := rfl

@[simp] theorem State.jumpCompact_isaMode (t : Word) : (s.jumpCompact t).isaMode = isaOfBit (t.getLsbD 0) := rfl

@[simp] theorem State.jumpCompact_delay (t : Word) : (s.jumpCompact t).delay = s.delay := rfl

@[simp] theorem State.jumpCompact_llbit (t : Word) : (s.jumpCompact t).llbit = s.llbit := rfl

@[simp] theorem State.jumpCompact_waiting (t : Word) : (s.jumpCompact t).waiting = s.waiting := rfl

@[simp] theorem State.jumpCompact_cp0 (t : Word) : (s.jumpCompact t).cp0 = s.cp0 := rfl

@[simp] theorem State.jumpCompact_eicVector (t : Word) : (s.jumpCompact t).eicVector = s.eicVector := rfl

@[simp] theorem State.jumpCompact_hazards (t : Word) : (s.jumpCompact t).hazards = s.hazards := rfl

@[simp] theorem State.jumpCompact_fetchHazards (t : Word) : (s.jumpCompact t).fetchHazards = s.fetchHazards := rfl

@[simp] theorem State.jumpCompact_mem (t : Word) : (s.jumpCompact t).mem = s.mem := rfl

@[simp] theorem State.jumpCompact_stale (t : Word) : (s.jumpCompact t).stale = s.stale := rfl

@[simp] theorem State.jumpCompact_physMap (t : Word) : (s.jumpCompact t).physMap = s.physMap := rfl

@[simp] theorem State.jumpCompact_inputs (t : Word) : (s.jumpCompact t).inputs = s.inputs := rfl

@[simp] theorem State.jumpCompact_between (t : Word) : (s.jumpCompact t).between = s.between := rfl

@[simp] theorem State.jumpCompact_draws (t : Word) : (s.jumpCompact t).draws = s.draws := rfl

/-! ### `present` -/

@[simp] theorem State.present_gpr (q : EicRequest) : (s.present q).gpr = s.gpr := rfl

@[simp] theorem State.present_hi (q : EicRequest) : (s.present q).hi = s.hi := rfl

@[simp] theorem State.present_lo (q : EicRequest) : (s.present q).lo = s.lo := rfl

@[simp] theorem State.present_hiLoUnread (q : EicRequest) : (s.present q).hiLoUnread = s.hiLoUnread := rfl

@[simp] theorem State.present_pc (q : EicRequest) : (s.present q).pc = s.pc := rfl

@[simp] theorem State.present_isaMode (q : EicRequest) : (s.present q).isaMode = s.isaMode := rfl

@[simp] theorem State.present_delay (q : EicRequest) : (s.present q).delay = s.delay := rfl

@[simp] theorem State.present_llbit (q : EicRequest) : (s.present q).llbit = s.llbit := rfl

@[simp] theorem State.present_waiting (q : EicRequest) : (s.present q).waiting = s.waiting := rfl

@[simp] theorem State.present_eicVector (q : EicRequest) : (s.present q).eicVector = q.vector := rfl

@[simp] theorem State.present_hazards (q : EicRequest) : (s.present q).hazards = s.hazards := rfl

@[simp] theorem State.present_fetchHazards (q : EicRequest) : (s.present q).fetchHazards = s.fetchHazards := rfl

@[simp] theorem State.present_mem (q : EicRequest) : (s.present q).mem = s.mem := rfl

@[simp] theorem State.present_stale (q : EicRequest) : (s.present q).stale = s.stale := rfl

@[simp] theorem State.present_physMap (q : EicRequest) : (s.present q).physMap = s.physMap := rfl

@[simp] theorem State.present_inputs (q : EicRequest) : (s.present q).inputs = s.inputs := rfl

@[simp] theorem State.present_between (q : EicRequest) : (s.present q).between = s.between := rfl

@[simp] theorem State.present_draws (q : EicRequest) : (s.present q).draws = s.draws := rfl

/-! ### `age` -/

@[simp] theorem State.age_gpr : (s.age).gpr = s.gpr := rfl

@[simp] theorem State.age_hi : (s.age).hi = s.hi := rfl

@[simp] theorem State.age_lo : (s.age).lo = s.lo := rfl

@[simp] theorem State.age_hiLoUnread : (s.age).hiLoUnread = s.hiLoUnread := rfl

@[simp] theorem State.age_pc : (s.age).pc = s.pc := rfl

@[simp] theorem State.age_isaMode : (s.age).isaMode = s.isaMode := rfl

@[simp] theorem State.age_delay : (s.age).delay = s.delay := rfl

@[simp] theorem State.age_llbit : (s.age).llbit = s.llbit := rfl

@[simp] theorem State.age_waiting : (s.age).waiting = s.waiting := rfl

@[simp] theorem State.age_cp0 : (s.age).cp0 = s.cp0 := rfl

@[simp] theorem State.age_eicVector : (s.age).eicVector = s.eicVector := rfl

@[simp] theorem State.age_fetchHazards : (s.age).fetchHazards = s.fetchHazards := rfl

@[simp] theorem State.age_mem : (s.age).mem = s.mem := rfl

@[simp] theorem State.age_stale : (s.age).stale = s.stale := rfl

@[simp] theorem State.age_physMap : (s.age).physMap = s.physMap := rfl

@[simp] theorem State.age_inputs : (s.age).inputs = s.inputs := rfl

@[simp] theorem State.age_between : (s.age).between = s.between := rfl

@[simp] theorem State.age_draws : (s.age).draws = s.draws := rfl

/-! ### `noteWrite` -/

@[simp] theorem State.noteWrite_gpr (k : HazardReg) (c : Cp0) : (s.noteWrite k c).gpr = s.gpr := rfl

@[simp] theorem State.noteWrite_hi (k : HazardReg) (c : Cp0) : (s.noteWrite k c).hi = s.hi := rfl

@[simp] theorem State.noteWrite_lo (k : HazardReg) (c : Cp0) : (s.noteWrite k c).lo = s.lo := rfl

@[simp] theorem State.noteWrite_hiLoUnread (k : HazardReg) (c : Cp0) : (s.noteWrite k c).hiLoUnread = s.hiLoUnread := rfl

@[simp] theorem State.noteWrite_pc (k : HazardReg) (c : Cp0) : (s.noteWrite k c).pc = s.pc := rfl

@[simp] theorem State.noteWrite_isaMode (k : HazardReg) (c : Cp0) : (s.noteWrite k c).isaMode = s.isaMode := rfl

@[simp] theorem State.noteWrite_delay (k : HazardReg) (c : Cp0) : (s.noteWrite k c).delay = s.delay := rfl

@[simp] theorem State.noteWrite_llbit (k : HazardReg) (c : Cp0) : (s.noteWrite k c).llbit = s.llbit := rfl

@[simp] theorem State.noteWrite_waiting (k : HazardReg) (c : Cp0) : (s.noteWrite k c).waiting = s.waiting := rfl

@[simp] theorem State.noteWrite_cp0 (k : HazardReg) (c : Cp0) : (s.noteWrite k c).cp0 = c := rfl

@[simp] theorem State.noteWrite_eicVector (k : HazardReg) (c : Cp0) : (s.noteWrite k c).eicVector = s.eicVector := rfl

@[simp] theorem State.noteWrite_hazards (k : HazardReg) (c : Cp0) : (s.noteWrite k c).hazards = ⟨k, s.cp0, 0⟩ :: s.hazards := rfl

@[simp] theorem State.noteWrite_fetchHazards (k : HazardReg) (c : Cp0) : (s.noteWrite k c).fetchHazards = s.fetchHazards := rfl

@[simp] theorem State.noteWrite_mem (k : HazardReg) (c : Cp0) : (s.noteWrite k c).mem = s.mem := rfl

@[simp] theorem State.noteWrite_stale (k : HazardReg) (c : Cp0) : (s.noteWrite k c).stale = s.stale := rfl

@[simp] theorem State.noteWrite_physMap (k : HazardReg) (c : Cp0) : (s.noteWrite k c).physMap = s.physMap := rfl

@[simp] theorem State.noteWrite_inputs (k : HazardReg) (c : Cp0) : (s.noteWrite k c).inputs = s.inputs := rfl

@[simp] theorem State.noteWrite_between (k : HazardReg) (c : Cp0) : (s.noteWrite k c).between = s.between := rfl

@[simp] theorem State.noteWrite_draws (k : HazardReg) (c : Cp0) : (s.noteWrite k c).draws = s.draws := rfl

/-! ### `setInterruptEnable` -/

@[simp] theorem State.setInterruptEnable_gpr (b : Bool) : (s.setInterruptEnable b).gpr = s.gpr := rfl

@[simp] theorem State.setInterruptEnable_hi (b : Bool) : (s.setInterruptEnable b).hi = s.hi := rfl

@[simp] theorem State.setInterruptEnable_lo (b : Bool) : (s.setInterruptEnable b).lo = s.lo := rfl

@[simp] theorem State.setInterruptEnable_hiLoUnread (b : Bool) : (s.setInterruptEnable b).hiLoUnread = s.hiLoUnread := rfl

@[simp] theorem State.setInterruptEnable_pc (b : Bool) : (s.setInterruptEnable b).pc = s.pc := rfl

@[simp] theorem State.setInterruptEnable_isaMode (b : Bool) : (s.setInterruptEnable b).isaMode = s.isaMode := rfl

@[simp] theorem State.setInterruptEnable_delay (b : Bool) : (s.setInterruptEnable b).delay = s.delay := rfl

@[simp] theorem State.setInterruptEnable_llbit (b : Bool) : (s.setInterruptEnable b).llbit = s.llbit := rfl

@[simp] theorem State.setInterruptEnable_waiting (b : Bool) : (s.setInterruptEnable b).waiting = s.waiting := rfl

@[simp] theorem State.setInterruptEnable_cp0 (b : Bool) : (s.setInterruptEnable b).cp0 = { s.cp0 with status := { s.cp0.status with ie := b } } := rfl

@[simp] theorem State.setInterruptEnable_eicVector (b : Bool) : (s.setInterruptEnable b).eicVector = s.eicVector := rfl

@[simp] theorem State.setInterruptEnable_hazards (b : Bool) : (s.setInterruptEnable b).hazards = ⟨.interruptEnable, s.cp0, 0⟩ :: s.hazards := rfl

@[simp] theorem State.setInterruptEnable_fetchHazards (b : Bool) : (s.setInterruptEnable b).fetchHazards = s.fetchHazards := rfl

@[simp] theorem State.setInterruptEnable_mem (b : Bool) : (s.setInterruptEnable b).mem = s.mem := rfl

@[simp] theorem State.setInterruptEnable_stale (b : Bool) : (s.setInterruptEnable b).stale = s.stale := rfl

@[simp] theorem State.setInterruptEnable_physMap (b : Bool) : (s.setInterruptEnable b).physMap = s.physMap := rfl

@[simp] theorem State.setInterruptEnable_inputs (b : Bool) : (s.setInterruptEnable b).inputs = s.inputs := rfl

@[simp] theorem State.setInterruptEnable_between (b : Bool) : (s.setInterruptEnable b).between = s.between := rfl

@[simp] theorem State.setInterruptEnable_draws (b : Bool) : (s.setInterruptEnable b).draws = s.draws := rfl

/-! ### `writeSet` -/

@[simp] theorem State.writeSet_hi (k : ShadowSet) (r : Reg) (v : Word) : (s.writeSet k r v).hi = s.hi := by
  unfold State.writeSet; split <;> rfl

@[simp] theorem State.writeSet_lo (k : ShadowSet) (r : Reg) (v : Word) : (s.writeSet k r v).lo = s.lo := by
  unfold State.writeSet; split <;> rfl

@[simp] theorem State.writeSet_hiLoUnread (k : ShadowSet) (r : Reg) (v : Word) : (s.writeSet k r v).hiLoUnread = s.hiLoUnread := by
  unfold State.writeSet; split <;> rfl

@[simp] theorem State.writeSet_pc (k : ShadowSet) (r : Reg) (v : Word) : (s.writeSet k r v).pc = s.pc := by
  unfold State.writeSet; split <;> rfl

@[simp] theorem State.writeSet_isaMode (k : ShadowSet) (r : Reg) (v : Word) : (s.writeSet k r v).isaMode = s.isaMode := by
  unfold State.writeSet; split <;> rfl

@[simp] theorem State.writeSet_delay (k : ShadowSet) (r : Reg) (v : Word) : (s.writeSet k r v).delay = s.delay := by
  unfold State.writeSet; split <;> rfl

@[simp] theorem State.writeSet_llbit (k : ShadowSet) (r : Reg) (v : Word) : (s.writeSet k r v).llbit = s.llbit := by
  unfold State.writeSet; split <;> rfl

@[simp] theorem State.writeSet_waiting (k : ShadowSet) (r : Reg) (v : Word) : (s.writeSet k r v).waiting = s.waiting := by
  unfold State.writeSet; split <;> rfl

@[simp] theorem State.writeSet_cp0 (k : ShadowSet) (r : Reg) (v : Word) : (s.writeSet k r v).cp0 = s.cp0 := by
  unfold State.writeSet; split <;> rfl

@[simp] theorem State.writeSet_eicVector (k : ShadowSet) (r : Reg) (v : Word) : (s.writeSet k r v).eicVector = s.eicVector := by
  unfold State.writeSet; split <;> rfl

@[simp] theorem State.writeSet_hazards (k : ShadowSet) (r : Reg) (v : Word) : (s.writeSet k r v).hazards = s.hazards := by
  unfold State.writeSet; split <;> rfl

@[simp] theorem State.writeSet_fetchHazards (k : ShadowSet) (r : Reg) (v : Word) : (s.writeSet k r v).fetchHazards = s.fetchHazards := by
  unfold State.writeSet; split <;> rfl

@[simp] theorem State.writeSet_mem (k : ShadowSet) (r : Reg) (v : Word) : (s.writeSet k r v).mem = s.mem := by
  unfold State.writeSet; split <;> rfl

@[simp] theorem State.writeSet_stale (k : ShadowSet) (r : Reg) (v : Word) : (s.writeSet k r v).stale = s.stale := by
  unfold State.writeSet; split <;> rfl

@[simp] theorem State.writeSet_physMap (k : ShadowSet) (r : Reg) (v : Word) : (s.writeSet k r v).physMap = s.physMap := by
  unfold State.writeSet; split <;> rfl

@[simp] theorem State.writeSet_inputs (k : ShadowSet) (r : Reg) (v : Word) : (s.writeSet k r v).inputs = s.inputs := by
  unfold State.writeSet; split <;> rfl

@[simp] theorem State.writeSet_between (k : ShadowSet) (r : Reg) (v : Word) : (s.writeSet k r v).between = s.between := by
  unfold State.writeSet; split <;> rfl

@[simp] theorem State.writeSet_draws (k : ShadowSet) (r : Reg) (v : Word) : (s.writeSet k r v).draws = s.draws := by
  unfold State.writeSet; split <;> rfl

/-! ### `write` -/

@[simp] theorem State.write_hi (r : Reg) (v : Word) : (s.write r v).hi = s.hi := by
  simp [State.write]

@[simp] theorem State.write_lo (r : Reg) (v : Word) : (s.write r v).lo = s.lo := by
  simp [State.write]

@[simp] theorem State.write_hiLoUnread (r : Reg) (v : Word) : (s.write r v).hiLoUnread = s.hiLoUnread := by
  simp [State.write]

@[simp] theorem State.write_pc (r : Reg) (v : Word) : (s.write r v).pc = s.pc := by
  simp [State.write]

@[simp] theorem State.write_isaMode (r : Reg) (v : Word) : (s.write r v).isaMode = s.isaMode := by
  simp [State.write]

@[simp] theorem State.write_delay (r : Reg) (v : Word) : (s.write r v).delay = s.delay := by
  simp [State.write]

@[simp] theorem State.write_llbit (r : Reg) (v : Word) : (s.write r v).llbit = s.llbit := by
  simp [State.write]

@[simp] theorem State.write_waiting (r : Reg) (v : Word) : (s.write r v).waiting = s.waiting := by
  simp [State.write]

@[simp] theorem State.write_cp0 (r : Reg) (v : Word) : (s.write r v).cp0 = s.cp0 := by
  simp [State.write]

@[simp] theorem State.write_eicVector (r : Reg) (v : Word) : (s.write r v).eicVector = s.eicVector := by
  simp [State.write]

@[simp] theorem State.write_hazards (r : Reg) (v : Word) : (s.write r v).hazards = s.hazards := by
  simp [State.write]

@[simp] theorem State.write_fetchHazards (r : Reg) (v : Word) : (s.write r v).fetchHazards = s.fetchHazards := by
  simp [State.write]

@[simp] theorem State.write_mem (r : Reg) (v : Word) : (s.write r v).mem = s.mem := by
  simp [State.write]

@[simp] theorem State.write_stale (r : Reg) (v : Word) : (s.write r v).stale = s.stale := by
  simp [State.write]

@[simp] theorem State.write_physMap (r : Reg) (v : Word) : (s.write r v).physMap = s.physMap := by
  simp [State.write]

@[simp] theorem State.write_inputs (r : Reg) (v : Word) : (s.write r v).inputs = s.inputs := by
  simp [State.write]

@[simp] theorem State.write_between (r : Reg) (v : Word) : (s.write r v).between = s.between := by
  simp [State.write]

@[simp] theorem State.write_draws (r : Reg) (v : Word) : (s.write r v).draws = s.draws := by
  simp [State.write]

/-! ### `freeLoaded` -/

@[simp] theorem State.freeLoaded_hi (r : Reg) : (s.freeLoaded r).hi = s.hi := by
  simp [State.freeLoaded]

@[simp] theorem State.freeLoaded_lo (r : Reg) : (s.freeLoaded r).lo = s.lo := by
  simp [State.freeLoaded]

@[simp] theorem State.freeLoaded_hiLoUnread (r : Reg) : (s.freeLoaded r).hiLoUnread = s.hiLoUnread := by
  simp [State.freeLoaded]

@[simp] theorem State.freeLoaded_pc (r : Reg) : (s.freeLoaded r).pc = s.pc := by
  simp [State.freeLoaded]

@[simp] theorem State.freeLoaded_isaMode (r : Reg) : (s.freeLoaded r).isaMode = s.isaMode := by
  simp [State.freeLoaded]

@[simp] theorem State.freeLoaded_delay (r : Reg) : (s.freeLoaded r).delay = s.delay := by
  simp [State.freeLoaded]

@[simp] theorem State.freeLoaded_llbit (r : Reg) : (s.freeLoaded r).llbit = s.llbit := by
  simp [State.freeLoaded]

@[simp] theorem State.freeLoaded_waiting (r : Reg) : (s.freeLoaded r).waiting = s.waiting := by
  simp [State.freeLoaded]

@[simp] theorem State.freeLoaded_cp0 (r : Reg) : (s.freeLoaded r).cp0 = s.cp0 := by
  simp [State.freeLoaded]

@[simp] theorem State.freeLoaded_eicVector (r : Reg) : (s.freeLoaded r).eicVector = s.eicVector := by
  simp [State.freeLoaded]

@[simp] theorem State.freeLoaded_hazards (r : Reg) : (s.freeLoaded r).hazards = s.hazards := by
  simp [State.freeLoaded]

@[simp] theorem State.freeLoaded_fetchHazards (r : Reg) : (s.freeLoaded r).fetchHazards = s.fetchHazards := by
  simp [State.freeLoaded]

@[simp] theorem State.freeLoaded_mem (r : Reg) : (s.freeLoaded r).mem = s.mem := by
  simp [State.freeLoaded]

@[simp] theorem State.freeLoaded_stale (r : Reg) : (s.freeLoaded r).stale = s.stale := by
  simp [State.freeLoaded]

@[simp] theorem State.freeLoaded_physMap (r : Reg) : (s.freeLoaded r).physMap = s.physMap := by
  simp [State.freeLoaded]

@[simp] theorem State.freeLoaded_inputs (r : Reg) : (s.freeLoaded r).inputs = s.inputs := by
  simp [State.freeLoaded]

@[simp] theorem State.freeLoaded_between (r : Reg) : (s.freeLoaded r).between = s.between := by
  simp [State.freeLoaded]

@[simp] theorem State.freeLoaded_draws (r : Reg) : (s.freeLoaded r).draws = s.draws := by
  simp [State.freeLoaded]

/-! ### `divide` -/

@[simp] theorem State.divide_gpr (c : Bool) (q r : Word) : (s.divide c q r).gpr = s.gpr := by
  unfold State.divide; split <;> rfl

@[simp] theorem State.divide_hiLoUnread (c : Bool) (q r : Word) : (s.divide c q r).hiLoUnread = true := by
  unfold State.divide; split <;> rfl

@[simp] theorem State.divide_pc (c : Bool) (q r : Word) : (s.divide c q r).pc = s.pc := by
  unfold State.divide; split <;> rfl

@[simp] theorem State.divide_isaMode (c : Bool) (q r : Word) : (s.divide c q r).isaMode = s.isaMode := by
  unfold State.divide; split <;> rfl

@[simp] theorem State.divide_delay (c : Bool) (q r : Word) : (s.divide c q r).delay = s.delay := by
  unfold State.divide; split <;> rfl

@[simp] theorem State.divide_llbit (c : Bool) (q r : Word) : (s.divide c q r).llbit = s.llbit := by
  unfold State.divide; split <;> rfl

@[simp] theorem State.divide_waiting (c : Bool) (q r : Word) : (s.divide c q r).waiting = s.waiting := by
  unfold State.divide; split <;> rfl

@[simp] theorem State.divide_cp0 (c : Bool) (q r : Word) : (s.divide c q r).cp0 = s.cp0 := by
  unfold State.divide; split <;> rfl

@[simp] theorem State.divide_eicVector (c : Bool) (q r : Word) : (s.divide c q r).eicVector = s.eicVector := by
  unfold State.divide; split <;> rfl

@[simp] theorem State.divide_hazards (c : Bool) (q r : Word) : (s.divide c q r).hazards = s.hazards := by
  unfold State.divide; split <;> rfl

@[simp] theorem State.divide_fetchHazards (c : Bool) (q r : Word) : (s.divide c q r).fetchHazards = s.fetchHazards := by
  unfold State.divide; split <;> rfl

@[simp] theorem State.divide_mem (c : Bool) (q r : Word) : (s.divide c q r).mem = s.mem := by
  unfold State.divide; split <;> rfl

@[simp] theorem State.divide_stale (c : Bool) (q r : Word) : (s.divide c q r).stale = s.stale := by
  unfold State.divide; split <;> rfl

@[simp] theorem State.divide_physMap (c : Bool) (q r : Word) : (s.divide c q r).physMap = s.physMap := by
  unfold State.divide; split <;> rfl

@[simp] theorem State.divide_inputs (c : Bool) (q r : Word) : (s.divide c q r).inputs = s.inputs := by
  unfold State.divide; split <;> rfl

@[simp] theorem State.divide_between (c : Bool) (q r : Word) : (s.divide c q r).between = s.between := by
  unfold State.divide; split <;> rfl

@[simp] theorem State.divide_draws (c : Bool) (q r : Word) : (s.divide c q r).draws = s.draws := by
  unfold State.divide; split <;> rfl

/-! ### `syncAddress` -/

@[simp] theorem State.syncAddress_gpr (va : Word) : (s.syncAddress va).gpr = s.gpr := by
  unfold State.syncAddress; dsimp only; split <;> rfl

@[simp] theorem State.syncAddress_hi (va : Word) : (s.syncAddress va).hi = s.hi := by
  unfold State.syncAddress; dsimp only; split <;> rfl

@[simp] theorem State.syncAddress_lo (va : Word) : (s.syncAddress va).lo = s.lo := by
  unfold State.syncAddress; dsimp only; split <;> rfl

@[simp] theorem State.syncAddress_hiLoUnread (va : Word) : (s.syncAddress va).hiLoUnread = s.hiLoUnread := by
  unfold State.syncAddress; dsimp only; split <;> rfl

@[simp] theorem State.syncAddress_pc (va : Word) : (s.syncAddress va).pc = s.pc := by
  unfold State.syncAddress; dsimp only; split <;> rfl

@[simp] theorem State.syncAddress_isaMode (va : Word) : (s.syncAddress va).isaMode = s.isaMode := by
  unfold State.syncAddress; dsimp only; split <;> rfl

@[simp] theorem State.syncAddress_delay (va : Word) : (s.syncAddress va).delay = s.delay := by
  unfold State.syncAddress; dsimp only; split <;> rfl

@[simp] theorem State.syncAddress_llbit (va : Word) : (s.syncAddress va).llbit = s.llbit := by
  unfold State.syncAddress; dsimp only; split <;> rfl

@[simp] theorem State.syncAddress_waiting (va : Word) : (s.syncAddress va).waiting = s.waiting := by
  unfold State.syncAddress; dsimp only; split <;> rfl

@[simp] theorem State.syncAddress_cp0 (va : Word) : (s.syncAddress va).cp0 = s.cp0 := by
  unfold State.syncAddress; dsimp only; split <;> rfl

@[simp] theorem State.syncAddress_eicVector (va : Word) : (s.syncAddress va).eicVector = s.eicVector := by
  unfold State.syncAddress; dsimp only; split <;> rfl

@[simp] theorem State.syncAddress_hazards (va : Word) : (s.syncAddress va).hazards = s.hazards := by
  unfold State.syncAddress; dsimp only; split <;> rfl

@[simp] theorem State.syncAddress_fetchHazards (va : Word) : (s.syncAddress va).fetchHazards = s.fetchHazards := by
  unfold State.syncAddress; dsimp only; split <;> rfl

@[simp] theorem State.syncAddress_mem (va : Word) : (s.syncAddress va).mem = s.mem := by
  unfold State.syncAddress; dsimp only; split <;> rfl

@[simp] theorem State.syncAddress_physMap (va : Word) : (s.syncAddress va).physMap = s.physMap := by
  unfold State.syncAddress; dsimp only; split <;> rfl

@[simp] theorem State.syncAddress_inputs (va : Word) : (s.syncAddress va).inputs = s.inputs := by
  unfold State.syncAddress; dsimp only; split <;> rfl

@[simp] theorem State.syncAddress_between (va : Word) : (s.syncAddress va).between = s.between := by
  unfold State.syncAddress; dsimp only; split <;> rfl

@[simp] theorem State.syncAddress_draws (va : Word) : (s.syncAddress va).draws = s.draws := by
  unfold State.syncAddress; dsimp only; split <;> rfl

/-! ### `noteStatus` -/

@[simp] theorem State.noteStatus_gpr (o : Status) : (s.noteStatus o).gpr = s.gpr := by
  unfold State.noteStatus; split <;> rfl

@[simp] theorem State.noteStatus_hi (o : Status) : (s.noteStatus o).hi = s.hi := by
  unfold State.noteStatus; split <;> rfl

@[simp] theorem State.noteStatus_lo (o : Status) : (s.noteStatus o).lo = s.lo := by
  unfold State.noteStatus; split <;> rfl

@[simp] theorem State.noteStatus_hiLoUnread (o : Status) : (s.noteStatus o).hiLoUnread = s.hiLoUnread := by
  unfold State.noteStatus; split <;> rfl

@[simp] theorem State.noteStatus_pc (o : Status) : (s.noteStatus o).pc = s.pc := by
  unfold State.noteStatus; split <;> rfl

@[simp] theorem State.noteStatus_isaMode (o : Status) : (s.noteStatus o).isaMode = s.isaMode := by
  unfold State.noteStatus; split <;> rfl

@[simp] theorem State.noteStatus_delay (o : Status) : (s.noteStatus o).delay = s.delay := by
  unfold State.noteStatus; split <;> rfl

@[simp] theorem State.noteStatus_llbit (o : Status) : (s.noteStatus o).llbit = s.llbit := by
  unfold State.noteStatus; split <;> rfl

@[simp] theorem State.noteStatus_waiting (o : Status) : (s.noteStatus o).waiting = s.waiting := by
  unfold State.noteStatus; split <;> rfl

@[simp] theorem State.noteStatus_cp0 (o : Status) : (s.noteStatus o).cp0 = s.cp0 := by
  unfold State.noteStatus; split <;> rfl

@[simp] theorem State.noteStatus_eicVector (o : Status) : (s.noteStatus o).eicVector = s.eicVector := by
  unfold State.noteStatus; split <;> rfl

@[simp] theorem State.noteStatus_hazards (o : Status) : (s.noteStatus o).hazards = s.hazards := by
  unfold State.noteStatus; split <;> rfl

@[simp] theorem State.noteStatus_mem (o : Status) : (s.noteStatus o).mem = s.mem := by
  unfold State.noteStatus; split <;> rfl

@[simp] theorem State.noteStatus_stale (o : Status) : (s.noteStatus o).stale = s.stale := by
  unfold State.noteStatus; split <;> rfl

@[simp] theorem State.noteStatus_physMap (o : Status) : (s.noteStatus o).physMap = s.physMap := by
  unfold State.noteStatus; split <;> rfl

@[simp] theorem State.noteStatus_inputs (o : Status) : (s.noteStatus o).inputs = s.inputs := by
  unfold State.noteStatus; split <;> rfl

@[simp] theorem State.noteStatus_between (o : Status) : (s.noteStatus o).between = s.between := by
  unfold State.noteStatus; split <;> rfl

@[simp] theorem State.noteStatus_draws (o : Status) : (s.noteStatus o).draws = s.draws := by
  unfold State.noteStatus; split <;> rfl

/-! ### `land` -/

@[simp] theorem State.land_gpr (d : Delay) : (s.land d).gpr = s.gpr := by
  unfold State.land; split <;> rfl

@[simp] theorem State.land_hi (d : Delay) : (s.land d).hi = s.hi := by
  unfold State.land; split <;> rfl

@[simp] theorem State.land_lo (d : Delay) : (s.land d).lo = s.lo := by
  unfold State.land; split <;> rfl

@[simp] theorem State.land_hiLoUnread (d : Delay) : (s.land d).hiLoUnread = s.hiLoUnread := by
  unfold State.land; split <;> rfl

@[simp] theorem State.land_pc (d : Delay) : (s.land d).pc = d.target := by
  unfold State.land; split <;> rfl

@[simp] theorem State.land_isaMode (d : Delay) : (s.land d).isaMode = d.mode := by
  unfold State.land; split <;> rfl

@[simp] theorem State.land_delay (d : Delay) : (s.land d).delay = none := by
  unfold State.land; split <;> rfl

@[simp] theorem State.land_llbit (d : Delay) : (s.land d).llbit = s.llbit := by
  unfold State.land; split <;> rfl

@[simp] theorem State.land_waiting (d : Delay) : (s.land d).waiting = s.waiting := by
  unfold State.land; split <;> rfl

@[simp] theorem State.land_cp0 (d : Delay) : (s.land d).cp0 = s.cp0 := by
  unfold State.land; split <;> rfl

@[simp] theorem State.land_eicVector (d : Delay) : (s.land d).eicVector = s.eicVector := by
  unfold State.land; split <;> rfl

@[simp] theorem State.land_mem (d : Delay) : (s.land d).mem = s.mem := by
  unfold State.land; split <;> rfl

@[simp] theorem State.land_physMap (d : Delay) : (s.land d).physMap = s.physMap := by
  unfold State.land; split <;> rfl

@[simp] theorem State.land_inputs (d : Delay) : (s.land d).inputs = s.inputs := by
  unfold State.land; split <;> rfl

@[simp] theorem State.land_between (d : Delay) : (s.land d).between = s.between := by
  unfold State.land; split <;> rfl

@[simp] theorem State.land_draws (d : Delay) : (s.land d).draws = s.draws := by
  unfold State.land; split <;> rfl

/-! ### `advance` -/

@[simp] theorem State.advance_gpr (len : Word) : (s.advance len).gpr = s.gpr := by
  unfold State.advance; split <;> simp

@[simp] theorem State.advance_hi (len : Word) : (s.advance len).hi = s.hi := by
  unfold State.advance; split <;> simp

@[simp] theorem State.advance_lo (len : Word) : (s.advance len).lo = s.lo := by
  unfold State.advance; split <;> simp

@[simp] theorem State.advance_hiLoUnread (len : Word) : (s.advance len).hiLoUnread = s.hiLoUnread := by
  unfold State.advance; split <;> simp

@[simp] theorem State.advance_llbit (len : Word) : (s.advance len).llbit = s.llbit := by
  unfold State.advance; split <;> simp

@[simp] theorem State.advance_waiting (len : Word) : (s.advance len).waiting = s.waiting := by
  unfold State.advance; split <;> simp

@[simp] theorem State.advance_cp0 (len : Word) : (s.advance len).cp0 = s.cp0 := by
  unfold State.advance; split <;> simp

@[simp] theorem State.advance_eicVector (len : Word) : (s.advance len).eicVector = s.eicVector := by
  unfold State.advance; split <;> simp

@[simp] theorem State.advance_mem (len : Word) : (s.advance len).mem = s.mem := by
  unfold State.advance; split <;> simp

@[simp] theorem State.advance_physMap (len : Word) : (s.advance len).physMap = s.physMap := by
  unfold State.advance; split <;> simp

@[simp] theorem State.advance_inputs (len : Word) : (s.advance len).inputs = s.inputs := by
  unfold State.advance; split <;> simp

@[simp] theorem State.advance_between (len : Word) : (s.advance len).between = s.between := by
  unfold State.advance; split <;> simp

@[simp] theorem State.advance_draws (len : Word) : (s.advance len).draws = s.draws := by
  unfold State.advance; split <;> simp

/-! ### `raise` -/

@[simp] theorem State.raise_gpr (e : Exc) : (s.raise e).gpr = s.gpr := by
  unfold State.raise; split <;> rfl

@[simp] theorem State.raise_hi (e : Exc) : (s.raise e).hi = s.hi := by
  unfold State.raise; split <;> rfl

@[simp] theorem State.raise_lo (e : Exc) : (s.raise e).lo = s.lo := by
  unfold State.raise; split <;> rfl

@[simp] theorem State.raise_hiLoUnread (e : Exc) : (s.raise e).hiLoUnread = s.hiLoUnread := by
  unfold State.raise; split <;> rfl

@[simp] theorem State.raise_isaMode (e : Exc) : (s.raise e).isaMode = .mips32 := by
  unfold State.raise; split <;> rfl

@[simp] theorem State.raise_delay (e : Exc) : (s.raise e).delay = none := by
  unfold State.raise; split <;> rfl

@[simp] theorem State.raise_llbit (e : Exc) : (s.raise e).llbit = s.llbit := by
  unfold State.raise; split <;> rfl

@[simp] theorem State.raise_waiting (e : Exc) : (s.raise e).waiting = false := by
  unfold State.raise; split <;> rfl

@[simp] theorem State.raise_eicVector (e : Exc) : (s.raise e).eicVector = s.eicVector := by
  unfold State.raise; split <;> rfl

@[simp] theorem State.raise_hazards (e : Exc) : (s.raise e).hazards = [] := by
  unfold State.raise; split <;> rfl

@[simp] theorem State.raise_fetchHazards (e : Exc) : (s.raise e).fetchHazards = [] := by
  unfold State.raise; split <;> rfl

@[simp] theorem State.raise_mem (e : Exc) : (s.raise e).mem = s.mem := by
  unfold State.raise; split <;> rfl

@[simp] theorem State.raise_stale (e : Exc) : (s.raise e).stale = s.stale := by
  unfold State.raise; split <;> rfl

@[simp] theorem State.raise_physMap (e : Exc) : (s.raise e).physMap = s.physMap := by
  unfold State.raise; split <;> rfl

@[simp] theorem State.raise_inputs (e : Exc) : (s.raise e).inputs = s.inputs := by
  unfold State.raise; split <;> rfl

@[simp] theorem State.raise_between (e : Exc) : (s.raise e).between = s.between := by
  unfold State.raise; split <;> rfl

@[simp] theorem State.raise_draws (e : Exc) : (s.raise e).draws = s.draws := by
  unfold State.raise; split <;> rfl

/-! ### `returnFromException` -/

@[simp] theorem State.returnFromException_gpr : (s.returnFromException).gpr = s.gpr := by
  unfold State.returnFromException; dsimp only; split <;> rfl

@[simp] theorem State.returnFromException_hi : (s.returnFromException).hi = s.hi := by
  unfold State.returnFromException; dsimp only; split <;> rfl

@[simp] theorem State.returnFromException_lo : (s.returnFromException).lo = s.lo := by
  unfold State.returnFromException; dsimp only; split <;> rfl

@[simp] theorem State.returnFromException_hiLoUnread : (s.returnFromException).hiLoUnread = s.hiLoUnread := by
  unfold State.returnFromException; dsimp only; split <;> rfl

@[simp] theorem State.returnFromException_delay : (s.returnFromException).delay = s.delay := by
  unfold State.returnFromException; dsimp only; split <;> rfl

@[simp] theorem State.returnFromException_llbit : (s.returnFromException).llbit = false := by
  unfold State.returnFromException; dsimp only; split <;> rfl

@[simp] theorem State.returnFromException_waiting : (s.returnFromException).waiting = s.waiting := by
  unfold State.returnFromException; dsimp only; split <;> rfl

@[simp] theorem State.returnFromException_eicVector : (s.returnFromException).eicVector = s.eicVector := by
  unfold State.returnFromException; dsimp only; split <;> rfl

@[simp] theorem State.returnFromException_hazards : (s.returnFromException).hazards = [] := by
  unfold State.returnFromException; dsimp only; split <;> rfl

@[simp] theorem State.returnFromException_fetchHazards : (s.returnFromException).fetchHazards = [] := by
  unfold State.returnFromException; dsimp only; split <;> rfl

@[simp] theorem State.returnFromException_mem : (s.returnFromException).mem = s.mem := by
  unfold State.returnFromException; dsimp only; split <;> rfl

@[simp] theorem State.returnFromException_physMap : (s.returnFromException).physMap = s.physMap := by
  unfold State.returnFromException; dsimp only; split <;> rfl

@[simp] theorem State.returnFromException_inputs : (s.returnFromException).inputs = s.inputs := by
  unfold State.returnFromException; dsimp only; split <;> rfl

@[simp] theorem State.returnFromException_between : (s.returnFromException).between = s.between := by
  unfold State.returnFromException; dsimp only; split <;> rfl

@[simp] theorem State.returnFromException_draws : (s.returnFromException).draws = s.draws := by
  unfold State.returnFromException; dsimp only; split <;> rfl

end Sys2Proof.Machine
end

