-- ==== Sys2Proof/Laws/Memory.lean ====
section
/-! SUPPORT. Reading after writing, for memory and for general registers, and the canonical form of memory. -/

namespace Sys2Proof.Machine

/-! ## Memory -/

theorem lookupCell_above {cs : List Host.Cell} {a : Nat} (h : ∀ c ∈ cs, a < c.1) : lookupCell cs a = unlistedByte := by
  induction cs with
  | nil => rfl
  | cons c cs ih =>
    have hc := h c (by simp)
    simp only [lookupCell]
    rw [if_neg (by omega)]
    exact ih fun d hd => h d (by simp [hd])

theorem lookupCell_insertCell {cs : List Host.Cell} (h : cs.Pairwise fun c d => c.1 < d.1) (a b : Nat) (v : Byte) :
    lookupCell (insertCell cs a v) b = if b = a then v else lookupCell cs b := by
  induction cs with
  | nil =>
    by_cases hv : v = unlistedByte <;> by_cases hb : b = a <;> simp [insertCell, lookupCell, hv, hb]
  | cons c cs ih =>
    rw [List.pairwise_cons] at h
    have above : lookupCell cs c.1 = unlistedByte := lookupCell_above h.1
    rcases lt_trichotomy a c.1 with hac | hac | hac
    · rw [insertCell, if_pos hac]
      by_cases hv : v = unlistedByte
      · rw [if_pos hv]
        by_cases hb : b = a
        · rw [if_pos hb, hv]
          exact lookupCell_above fun d hd => by
            rcases List.mem_cons.1 hd with rfl | hd
            · omega
            · have := h.1 d hd; omega
        · rw [if_neg hb]
      · rw [if_neg hv, lookupCell]
    · rw [insertCell, if_neg (by omega), if_pos hac]
      by_cases hv : v = unlistedByte
      · rw [if_pos hv]
        by_cases hb : b = a
        · rw [if_pos hb, hv, hb, hac]; exact above
        · rw [if_neg hb, lookupCell, if_neg (by omega)]
      · rw [if_neg hv, lookupCell, lookupCell]
        by_cases hb : b = a
        · rw [if_pos hb, if_pos hb]
        · rw [if_neg hb, if_neg hb, if_neg (by omega)]
    · rw [insertCell, if_neg (by omega), if_neg (by omega), lookupCell, lookupCell, ih h.2]
      by_cases hb : b = a
      · rw [if_neg (by omega), if_pos hb, if_pos hb]
      · rw [if_neg hb, if_neg hb]

theorem insertCell_bounds {cs : List Host.Cell} {a : Nat} {v : Byte} {c : Host.Cell} (h : c ∈ insertCell cs a v) :
    c ∈ cs ∨ c = (a, v) ∧ v ≠ unlistedByte := by
  induction cs with
  | nil =>
    simp only [insertCell] at h
    split_ifs at h with hv
    · simp at h
    · simp at h; exact .inr ⟨h, hv⟩
  | cons d ds ih =>
    simp only [insertCell] at h
    split_ifs at h with h1 h2 h3 h4
    · exact .inl h
    · rcases List.mem_cons.1 h with h | h
      · exact .inr ⟨h, h2⟩
      · exact .inl h
    · exact .inl (List.mem_cons_of_mem _ h)
    · rcases List.mem_cons.1 h with h | h
      · exact .inr ⟨h, h4⟩
      · exact .inl (List.mem_cons_of_mem _ h)
    · rcases List.mem_cons.1 h with h | h
      · exact .inl (by simp [h])
      · rcases ih h with h | h
        · exact .inl (List.mem_cons_of_mem _ h)
        · exact .inr h

theorem insertCell_rising {cs : List Host.Cell} (h : cs.Pairwise fun c d => c.1 < d.1) (a : Nat) (v : Byte) :
    (insertCell cs a v).Pairwise fun c d => c.1 < d.1 := by
  induction cs with
  | nil => simp only [insertCell]; split_ifs <;> simp
  | cons c cs ih =>
    have h' := h
    rw [List.pairwise_cons] at h
    simp only [insertCell]
    split_ifs with h1 h2 h3 h4
    · exact h'
    · refine List.pairwise_cons.2 ⟨fun d hd => ?_, h'⟩
      rcases List.mem_cons.1 hd with rfl | hd
      · exact h1
      · exact lt_trans h1 (h.1 d hd)
    · exact h.2
    · exact List.pairwise_cons.2 ⟨fun d hd => by have := h.1 d hd; simp only; omega, h.2⟩
    · refine List.pairwise_cons.2 ⟨fun d hd => ?_, ih h.2⟩
      rcases insertCell_bounds hd with hd | ⟨rfl, -⟩
      · exact h.1 d hd
      · simp only; omega

/-- A read after a write (spec 20 R110). -/
theorem Memory.read_write {m : Memory} (h : m.wf) (a b : Nat) (v : Byte) :
    (m.write a v).read b = if b = a then v else m.read b := lookupCell_insertCell h.1 a b v

theorem Memory.wf_write {m : Memory} (h : m.wf) {a : Nat} (ha : a < 4294967296) (v : Byte) : (m.write a v).wf := by
  refine ⟨insertCell_rising h.1 a v, fun c hc => ?_⟩
  rcases insertCell_bounds hc with hc | ⟨rfl, hv⟩
  · exact h.2 c hc
  · exact ⟨hv, ha⟩

theorem Memory.wf_reset : State.reset.mem.wf := by decide

/-! ## The stores of the state keep the canonical form -/

/-- Cells written one after the other. -/
theorem Memory.wf_writes {m : Memory} (h : m.wf) {cs : List Host.Cell} (hc : ∀ c ∈ cs, c.1 < 4294967296) :
    (cs.foldl (fun m c => m.write c.1 c.2) m).wf := by
  induction cs generalizing m with
  | nil => exact h
  | cons c cs ih =>
    exact ih (Memory.wf_write h (hc c (by simp)) c.2) fun d hd => hc d (by simp [hd])

/-- A read after cells were written outside its address. -/
theorem Memory.read_writes_outside {m : Memory} (h : m.wf) {cs : List Host.Cell}
    (hc : ∀ c ∈ cs, c.1 < 4294967296) {a : Nat} (ha : ∀ c ∈ cs, c.1 ≠ a) :
    (cs.foldl (fun m c => m.write c.1 c.2) m).read a = m.read a := by
  induction cs generalizing m with
  | nil => rfl
  | cons c cs ih =>
    rw [List.foldl_cons, ih (Memory.wf_write h (hc c (by simp)) c.2) (fun d hd => hc d (by simp [hd]))
      (fun d hd => ha d (by simp [hd])), Memory.read_write h, if_neg fun e => ha c (by simp) e.symm]

theorem State.writeCells_wf {s : State} (h : s.mem.wf) {cs : List Host.Cell} (hc : ∀ c ∈ cs, c.1 < 4294967296) :
    (s.writeCells cs).mem.wf := Memory.wf_writes h hc

theorem State.storedCell_bound (s : State) (pa : Word) (v : Byte) : ∀ c ∈ s.storedCell pa v, c.1 < 4294967296 := by
  intro c hc
  unfold State.storedCell at hc
  split at hc <;> (try dsimp only at hc) <;> (try split_ifs at hc)
  all_goals simp only [List.mem_cons, List.not_mem_nil, or_false] at hc
  all_goals first | exact hc.elim | exact hc ▸ BitVec.isLt _

theorem State.storedCells_bound (s : State) (pa : Word) (vs : List Byte) :
    ∀ c ∈ s.storedCells pa vs, c.1 < 4294967296 := by
  induction vs generalizing pa with
  | nil => simp [State.storedCells]
  | cons v vs ih =>
    intro c hc
    rcases List.mem_append.1 hc with hc | hc
    · exact s.storedCell_bound pa v c hc
    · exact ih (pa + 1) c hc

theorem State.storeBytes_wf {s : State} (h : s.mem.wf) (pa : Word) (vs : List Byte) : (s.storeBytes pa vs).mem.wf :=
  State.writeCells_wf h (s.storedCells_bound pa vs)

theorem BusWrite.cells_bound (w : BusWrite) : ∀ c ∈ w.cells, c.1 < 4294967296 := by
  intro c hc
  obtain ⟨b, -, rfl⟩ := List.mem_map.1 hc
  exact BitVec.isLt _

theorem State.busWrites_wf {s : State} (h : s.mem.wf) (ws : List BusWrite) : (s.busWrites ws).mem.wf := by
  unfold State.busWrites
  induction ws generalizing s with
  | nil => exact h
  | cons w ws ih => exact ih (State.writeCells_wf h w.cells_bound)

theorem State.othersWrite_wf {s : State} (h : s.mem.wf) : s.othersWrite.mem.wf := State.busWrites_wf h _

theorem State.resetMemory_wf {s : State} (h : s.mem.wf) : s.resetMemory.wf := by
  unfold State.resetMemory
  generalize Config.freeCells s.draws = cs
  generalize s.mem = m at h
  induction cs generalizing m with
  | nil => exact h
  | cons c cs ih =>
    rw [List.foldl_cons]
    apply ih
    split
    · exact h
    · exact Memory.wf_write h c.1.isLt _

theorem State.placeBytes_wf {s : State} (h : s.mem.wf) (pa : Word) (vs : List Byte) : (s.placeBytes pa vs).mem.wf := by
  induction vs generalizing s pa with
  | nil => exact h
  | cons v vs ih => exact ih (Memory.wf_write h pa.isLt v) (pa + 1)

/-! ## General registers -/

@[simp] theorem State.regOf_zero (s : State) (k : ShadowSet) : s.regOf k 0 = 0 := rfl

@[simp] theorem State.reg_zero (s : State) : s.reg 0 = 0 := rfl

/-- A register read after a register write (spec 10 R21, R24). -/
theorem State.regOf_writeSet (s : State) (k j : ShadowSet) (r q : Reg) (v : Word) :
    (s.writeSet k r v).regOf j q = if j = k ∧ q = r ∧ r ≠ 0 then v else s.regOf j q := by
  by_cases hr : r = 0
  · have h : ¬ (j = k ∧ q = r ∧ r ≠ 0) := fun h => h.2.2 hr
    rw [if_neg h, State.writeSet, if_pos hr]
  · by_cases hq : q = 0
    · have h : ¬ (j = k ∧ q = r ∧ r ≠ 0) := fun h => hr (h.2.1 ▸ hq)
      rw [if_neg h, State.regOf, State.regOf, if_pos hq, if_pos hq]
    · simp only [State.regOf, State.writeSet, if_neg hr, if_neg hq]
      by_cases hjk : j = k
      · subst hjk
        by_cases hqr : q = r
        · subst hqr
          rw [if_pos ⟨rfl, rfl, hr⟩]; simp
        · have h : r.toNat ≠ q.toNat := fun h => hqr (BitVec.eq_of_toNat_eq h.symm)
          rw [if_neg fun h => hqr h.2.1]; simp [h]
      · have h : k.val ≠ j.val := fun h => hjk (Fin.ext h.symm)
        rw [if_neg fun h => hjk h.1]; simp [h]

theorem State.regOf_write (s : State) (j : ShadowSet) (r q : Reg) (v : Word) :
    (s.write r v).regOf j q = if j = s.cp0.srsCtl.css ∧ q = r ∧ r ≠ 0 then v else s.regOf j q :=
  s.regOf_writeSet _ j r q v

theorem State.reg_write (s : State) (r q : Reg) (v : Word) :
    (s.write r v).reg q = if q = r ∧ r ≠ 0 then v else s.reg q := by
  simp [State.reg, State.regOf_write]

/-- Two states with the same registers read the same. -/
theorem State.regOf_congr {s t : State} (h : t.gpr = s.gpr) (k : ShadowSet) (r : Reg) : t.regOf k r = s.regOf k r := by
  simp [State.regOf, h]

/-! ## Without hazards every consumer sees the registers as they are -/

theorem State.view_eq {s : State} (h : s.hazards = []) (u : Consumer) : s.view u = s.cp0 := by
  simp [State.view, h, viewFrom]

theorem State.seen_eq {s : State} (h : s.hazards = []) : s.seen = s.cp0 := State.view_eq h _

theorem State.entryView_eq {s : State} (h : s.hazards = []) (e : Exc) : s.entryView e = s.cp0 := by
  unfold State.entryView; split <;> exact State.view_eq h _

theorem State.fetchView_eq {s : State} (h : s.fetchHazards = []) (va : Word) : s.fetchView va = s.cp0 := by
  simp [State.fetchView, h, fetchStatusFrom]

end Sys2Proof.Machine
end

