-- ==== Sys2Proof/Laws/Numbers.lean ====
section
/-! SUPPORT. What the operand forms and the bit functions compute, as numbers. -/

namespace Sys2Proof.Machine

theorem add_ofNat (a b : Word) : a + b = BitVec.ofNat 32 (a.toNat + b.toNat) := by simp [BitVec.ofNat_add]

theorem sub_ofInt (a b : Word) : a - b = BitVec.ofInt 32 (a.toNat - b.toNat) := by
  apply BitVec.eq_of_toNat_eq
  rw [BitVec.toNat_sub, BitVec.toNat_ofInt]
  have := a.isLt; have := b.isLt
  omega

theorem add_sext (a : Word) {n : Nat} (i : BitVec n) : a + sext i = BitVec.ofInt 32 (a.toNat + i.toInt) := by
  rw [BitVec.ofInt_add]; congr 1
  simp

theorem sext_toInt {n : Nat} (i : BitVec n) (h : n ≤ 32) : (sext i).toInt = i.toInt := by
  rw [sext, BitVec.toInt_signExtend_of_le h]

theorem zext_eq {n : Nat} (i : BitVec n) : zext i = BitVec.ofNat 32 i.toNat := by
  simp [zext]

theorem scaled_eq {n : Nat} (i : BitVec n) (k : Nat) : scaled i k = BitVec.ofNat 32 (2 ^ k * i.toNat) := by
  apply BitVec.eq_of_toNat_eq
  simp [scaled, zext, Nat.shiftLeft_eq, Nat.mul_comm]

theorem lt_signed_iff (a b : Word) : ltSigned a b = true ↔ a.toInt < b.toInt := by simp [ltSigned]

theorem lt_unsigned_iff (a b : Word) : ltUnsigned a b = true ↔ a.toNat < b.toNat := by simp [ltUnsigned]

theorem lt_zero_iff (a : Word) : ltZero a = true ↔ a.toInt < 0 := by
  rw [ltZero, ← BitVec.msb_eq_getLsbD_last (w := 32), BitVec.msb_eq_toInt]; simp

theorem ge_zero_iff (a : Word) : geZero a = true ↔ 0 ≤ a.toInt := by
  have := lt_zero_iff a
  simp only [geZero, ltZero, Bool.not_eq_true'] at *
  rw [← Bool.not_eq_true, this]; omega

theorem out_of_range_iff (t : Int) : outOfRange t = true ↔ t < -2147483648 ∨ 2147483648 ≤ t := by
  simp [outOfRange]

theorem low_five (x : Word) : (x.extractLsb' 0 5).toNat = x.toNat % 32 := by
  simp [BitVec.extractLsb'_toNat]

theorem shift_left_eq (x : Word) (n : Nat) : x <<< n = BitVec.ofNat 32 (x.toNat * 2 ^ n) := by
  apply BitVec.eq_of_toNat_eq; simp [Nat.shiftLeft_eq]

theorem shift_right_eq (x : Word) (n : Nat) : x >>> n = BitVec.ofNat 32 (x.toNat / 2 ^ n) := by
  apply BitVec.eq_of_toNat_eq
  simp only [BitVec.toNat_ushiftRight, Nat.shiftRight_eq_div_pow, BitVec.toNat_ofNat]
  rw [Nat.mod_eq_of_lt]
  exact lt_of_le_of_lt (Nat.div_le_self _ _) x.isLt

theorem shift_right_arith_eq (x : Word) (n : Nat) : shiftRightArith x n = BitVec.ofInt 32 (x.toInt / 2 ^ n) := by
  rw [shiftRightArith, BitVec.sshiftRight, Int.shiftRight_eq_div_pow]; norm_cast

theorem rotate_right_eq (x : Word) {n : Nat} (h : n < 32) :
    rotateRight x n = BitVec.ofNat 32 (x.toNat / 2 ^ n + x.toNat % 2 ^ n * 2 ^ (32 - n)) := by
  have hx := x.isLt
  rw [rotateRight, BitVec.rotateRight_def, Nat.mod_eq_of_lt h]
  have e : x <<< (32 - n) = BitVec.ofNat 32 (x.toNat % 2 ^ n * 2 ^ (32 - n)) := by
    rw [shift_left_eq]
    apply BitVec.eq_of_toNat_eq
    simp only [BitVec.toNat_ofNat]
    have h2 : (2 : Nat) ^ 32 = 2 ^ n * 2 ^ (32 - n) := by rw [← pow_add]; congr 1; omega
    rw [h2, Nat.mul_mod_mul_right, Nat.mul_mod_mul_right, Nat.mod_mod]
  rw [shift_right_eq, e]
  apply BitVec.eq_of_toNat_eq
  have h2 : (2 : Nat) ^ 32 = 2 ^ n * 2 ^ (32 - n) := by rw [← pow_add]; congr 1; omega
  have a1 : x.toNat / 2 ^ n < 2 ^ (32 - n) := Nat.div_lt_of_lt_mul (by rw [← h2]; exact hx)
  have a2 : x.toNat % 2 ^ n < 2 ^ n := Nat.mod_lt _ (by positivity)
  have a3 : x.toNat % 2 ^ n * 2 ^ (32 - n) < 2 ^ 32 := by
    rw [h2]; exact Nat.mul_lt_mul_of_pos_right a2 (by positivity)
  have a4 : 2 ^ (32 - n) * (x.toNat % 2 ^ n) + x.toNat / 2 ^ n < 2 ^ 32 := by
    rw [h2, Nat.mul_comm (2 ^ n)]
    calc _ < 2 ^ (32 - n) * (x.toNat % 2 ^ n) + 2 ^ (32 - n) := by omega
      _ = 2 ^ (32 - n) * (x.toNat % 2 ^ n + 1) := by ring
      _ ≤ _ := Nat.mul_le_mul_left _ a2
  have a5 : x.toNat / 2 ^ n < 2 ^ 32 := lt_of_le_of_lt (Nat.div_le_self _ _) hx
  rw [BitVec.toNat_or, BitVec.toNat_ofNat, BitVec.toNat_ofNat, BitVec.toNat_ofNat, Nat.mod_eq_of_lt a5, Nat.mod_eq_of_lt a3,
    Nat.or_comm, Nat.mul_comm _ (2 ^ (32 - n)), ← Nat.two_pow_add_eq_or_of_lt a1, Nat.add_comm]
  exact (Nat.mod_eq_of_lt (by omega)).symm

theorem low_ones_toNat (k : Nat) (h : k ≤ 32) : (lowOnes k).toNat = 2 ^ k - 1 := by
  interval_cases k <;> rfl

theorem low_ones_and (x : Word) (k : Nat) (h : k ≤ 32) : (x &&& lowOnes k).toNat = x.toNat % 2 ^ k := by
  rw [BitVec.toNat_and, low_ones_toNat k h, Nat.and_two_pow_sub_one_eq_mod]

theorem extract_field_eq (x : Word) (msbd lsb : Reg) : extractField x msbd lsb = BitVec.ofNat 32 (x.toNat / 2 ^ lsb.toNat % 2 ^ (msbd.toNat + 1)) := by
  apply BitVec.eq_of_toNat_eq
  have := msbd.isLt
  rw [extractField, low_ones_and _ _ (by omega), shift_right_eq, BitVec.toNat_ofNat, BitVec.toNat_ofNat]
  have h1 : x.toNat / 2 ^ lsb.toNat < 2 ^ 32 := lt_of_le_of_lt (Nat.div_le_self _ _) x.isLt
  rw [Nat.mod_eq_of_lt h1, Nat.mod_eq_of_lt (lt_of_le_of_lt (Nat.mod_le _ _) h1)]

theorem low_ones_bit (k i : Nat) (h : k ≤ 32) : (lowOnes k).getLsbD i = decide (i < k) := by
  rw [BitVec.getLsbD, low_ones_toNat k h, Nat.testBit_two_pow_sub_one]

theorem insert_field_eq (old x : Word) (msb lsb : Reg) (h : lsb.toNat ≤ msb.toNat) : insertField old x msb lsb =
  BitVec.ofNat 32 (old.toNat / 2 ^ (msb.toNat + 1) * 2 ^ (msb.toNat + 1) +
        x.toNat % 2 ^ (msb.toNat - lsb.toNat + 1) * 2 ^ lsb.toNat + old.toNat % 2 ^ lsb.toNat) := by
  have hm := msb.isLt
  have hw : msb.toNat - lsb.toNat + 1 ≤ 32 := by omega
  apply BitVec.eq_of_getLsbD_eq; intro i hi
  generalize hA : msb.toNat + 1 = A at *
  generalize hB : lsb.toNat = B at *
  have e1 : old.toNat / 2 ^ A * 2 ^ A + x.toNat % 2 ^ (msb.toNat - B + 1) * 2 ^ B + old.toNat % 2 ^ B =
     2 ^ B * (2 ^ (A - B) * (old.toNat / 2 ^ A) + x.toNat % 2 ^ (A - B)) + old.toNat % 2 ^ B := by
    have : msb.toNat - B + 1 = A - B := by omega
    rw [this]
    have : 2 ^ A = 2 ^ B * 2 ^ (A - B) := by rw [← pow_add]; congr 1; omega
    rw [this]; ring
  rw [BitVec.getLsbD_ofNat, e1]
  simp only [hi, decide_true, Bool.true_and]
  rw [Nat.testBit_two_pow_mul_add _ (Nat.mod_lt _ (by positivity)), Nat.testBit_two_pow_mul_add _ (Nat.mod_lt _ (by positivity))]
  simp only [insertField, hB, BitVec.getLsbD_or, BitVec.getLsbD_and, BitVec.getLsbD_not, BitVec.getLsbD_shiftLeft, hi, decide_true, Bool.true_and]
  rw [show msb.toNat - B + 1 = A - B by omega]
  by_cases h1 : i < B
  · simp [h1, Nat.testBit_mod_two_pow, BitVec.getLsbD]
  · rw [low_ones_bit _ _ (by omega)]
    simp only [h1, decide_false, Bool.not_false, Bool.true_and, if_false]
    by_cases h2 : i - B < A - B
    · simp [h2, Nat.testBit_mod_two_pow, BitVec.getLsbD]
    · simp [h2, Nat.testBit_div_two_pow, BitVec.getLsbD]; congr 1; omega

theorem leading_zeros_eq (x : Word) (n : Nat) (h : ∀ i, n ≤ i → x.getLsbD i = false) : leadingZeros x n = if x.toNat = 0 then n else n - 1 - x.toNat.log2 := by
  induction n with
  | zero =>
    have : x = 0 := by apply BitVec.eq_of_getLsbD_eq; intro i _; simp [h i]
    simp [leadingZeros, this]
  | succ n ih =>
    rw [leadingZeros]
    by_cases hb : x.getLsbD n
    · have h1 : 2 ^ n ≤ x.toNat := Nat.ge_two_pow_of_testBit hb
      have h2 : x.toNat < 2 ^ (n+1) := Nat.lt_pow_two_of_testBit _ (fun i hi => h i hi)
      have h3 : x.toNat ≠ 0 := by have : 0 < 2 ^ n := by positivity
                                  omega
      rw [if_pos hb, if_neg h3, (Nat.log2_eq_iff h3).mpr ⟨h1, h2⟩]; omega
    · rw [if_neg hb, ih]
      · split
        · rfl
        · rename_i h3
          have h2 : x.toNat < 2 ^ n := Nat.lt_pow_two_of_testBit _ (fun i hi => by
            rcases Nat.lt_or_ge n i with h4 | h4
            · exact h i h4
            · have : i = n := by omega
              subst this; rw [Bool.not_eq_true] at hb; exact hb)
          have := (Nat.log2_lt h3).mpr h2
          omega
      · intro i hi
        rcases Nat.lt_or_ge n i with h4 | h4
        · exact h i h4
        · have : i = n := by omega
          subst this; simpa using hb

theorem count_zeros_eq (x : Word) : countZeros x = BitVec.ofNat 32 (if x.toNat = 0 then 32 else 31 - x.toNat.log2) := by
  rw [countZeros, leading_zeros_eq x 32 (fun i hi => BitVec.getLsbD_of_ge _ _ hi)]

theorem count_ones_eq (x : Word) : countOnes x = BitVec.ofNat 32 (if x.toNat = 4294967295 then 32 else 31 - (4294967295 - x.toNat).log2) := by
  rw [countOnes, leading_zeros_eq _ 32 (fun i hi => BitVec.getLsbD_of_ge _ _ hi), BitVec.toNat_not]
  have := x.isLt
  congr 1
  by_cases h : x.toNat = 4294967295
  · simp [h]
  · rw [if_neg h, if_neg (by omega)]

theorem sext_eq_signed_value {n : Nat} (x : BitVec n) (k : Nat) (hk : n = 8 * k) (hn : n ≤ 32): sext x = signedValue x.toNat k := by
  apply BitVec.eq_of_toInt_eq
  have : (256:Nat) ^ k = 2 ^ n := by rw [hk, pow_mul]; norm_num
  rw [sext_toInt _ hn, signedValue, this, ← BitVec.toInt_eq_toNat_bmod, BitVec.toInt_ofInt]
  have h1 := BitVec.toInt_lt (x := x); have h2 := BitVec.le_toInt (x := x)
  have h3 : (2:Int) ^ (n - 1) ≤ 2 ^ 31 := by exact_mod_cast Nat.pow_le_pow_right (by decide) (by omega)
  exact (Int.bmod_eq_of_le (by norm_num at *; omega) (by norm_num at *; omega)).symm

theorem sign_byte_eq (x : Word) : signByte x = signedValue (x.toNat % 256) 1 := by
  rw [signByte, sext_eq_signed_value _ 1 rfl (by decide), BitVec.extractLsb'_toNat]; simp

theorem sign_half_eq (x : Word) : signHalf x = signedValue (x.toNat % 65536) 2 := by
  rw [signHalf, sext_eq_signed_value _ 2 rfl (by decide), BitVec.extractLsb'_toNat]; simp

theorem toNat_append_byte {n : Nat} (a : BitVec n) (b : Byte) : (a ++ b).toNat = a.toNat * 256 + b.toNat := by
  rw [BitVec.toNat_append, Nat.shiftLeft_eq, ← Nat.mul_comm, ← Nat.two_pow_add_eq_or_of_lt b.isLt]

theorem swap_bytes_eq (v : Word) : swapBytes v = BitVec.ofNat 32 (v.toNat / 65536 % 256 * 16777216 + v.toNat / 16777216 * 65536 + v.toNat % 256 * 256 + v.toNat / 256 % 256) := by
    apply BitVec.eq_of_toNat_eq
    have := v.isLt
    rw [swapBytes]; erw [toNat_append_byte, toNat_append_byte, toNat_append_byte]
    simp only [BitVec.extractLsb'_toNat, Nat.shiftRight_eq_div_pow, BitVec.toNat_ofNat]
    norm_num
    have h : v.toNat / 16777216 < 256 := by omega
    rw [Nat.mod_eq_of_lt h]
    omega

theorem high_word_ofInt (x : Int) : (BitVec.ofInt 64 x).extractLsb' 32 32 = BitVec.ofInt 32 (x / 4294967296) := by
  apply BitVec.eq_of_toNat_eq
  rw [BitVec.extractLsb'_toNat, BitVec.toNat_ofInt, BitVec.toNat_ofInt, Nat.shiftRight_eq_div_pow]
  omega

theorem low_word_ofInt (x : Int) : (BitVec.ofInt 64 x).extractLsb' 0 32 = BitVec.ofInt 32 x := by
  apply BitVec.eq_of_toNat_eq
  rw [BitVec.extractLsb'_toNat, BitVec.toNat_ofInt, BitVec.toNat_ofInt, Nat.shiftRight_eq_div_pow]
  omega

theorem product_signed_eq (a b : Word) : productSigned a b = BitVec.ofInt 64 (a.toInt * b.toInt) := by
  rw [BitVec.ofInt_mul]; rfl

theorem product_unsigned_eq (a b : Word) : productUnsigned a b = BitVec.ofInt 64 (a.toNat * b.toNat) := by
  rw [BitVec.ofInt_mul]; simp [productUnsigned]

theorem hi_lo_eq (a b : Word) : hiLo a b = BitVec.ofInt 64 (a.toNat * 4294967296 + b.toNat) := by
  apply BitVec.eq_of_toNat_eq
  have := a.isLt; have := b.isLt
  erw [BitVec.toNat_ofInt, BitVec.toNat_append, Nat.shiftLeft_eq, ← Nat.mul_comm, ← Nat.two_pow_add_eq_or_of_lt b.isLt]
  omega

theorem ofInt_sub (n : Nat) (x y : Int) : BitVec.ofInt n (x - y) = BitVec.ofInt n x - BitVec.ofInt n y := by
  apply BitVec.eq_of_toInt_eq
  simp [BitVec.toInt_sub, BitVec.toInt_ofInt]

end Sys2Proof.Machine
end

