-- ==== Sys2Proof/Laws/Access.lean ====
section
/-! SUPPORT. Addresses and data accesses: where each access goes and what it answers. -/

namespace Sys2Proof.Machine

/-! ## Addresses -/

theorem wordAddress_toNat (x : Word) : (wordAddress x).toNat = x.toNat / 4 * 4 := by
  have h : wordAddress x = (x.extractLsb' 2 30 ++ 0#2 : BitVec (30 + 2)) := by
    apply BitVec.eq_of_getLsbD_eq; intro i hi
    rw [BitVec.getLsbD_append]
    simp only [wordAddress]
    interval_cases i <;> simp
  rw [h]
  have : (x.extractLsb' 2 30 ++ 0#2 : BitVec (30 + 2)).toNat = x.toNat / 4 * 4 := by
    rw [BitVec.toNat_append]
    simp [BitVec.extractLsb'_toNat, Nat.shiftLeft_eq, Nat.shiftRight_eq_div_pow]
    have := x.isLt
    omega
  exact this

theorem wordAddress_eq_iff (x y : Word) : wordAddress x = wordAddress y ↔ x.toNat / 4 = y.toNat / 4 := by
  rw [← BitVec.toNat_inj, wordAddress_toNat, wordAddress_toNat]; omega

theorem toNat_add_small (x : Word) (k : Nat) (h : x.toNat % 4 + k < 4) :
    (x + BitVec.ofNat 32 k).toNat = x.toNat + k := by
  have := x.isLt
  rw [BitVec.toNat_add, BitVec.toNat_ofNat]; omega

theorem wordAddress_add (x : Word) (k : Nat) (h : x.toNat % 4 + k < 4) :
    wordAddress (x + BitVec.ofNat 32 k) = wordAddress x := by
  rw [wordAddress_eq_iff, toNat_add_small x k h]; omega

theorem add_mod_four {x k : Word} (h : k.toNat % 4 = 0) : (x + k).toNat % 4 = x.toNat % 4 := by
  rw [BitVec.toNat_add]; omega

theorem sub_mod_four {x k : Word} (h : k.toNat % 4 = 0) : (x - k).toNat % 4 = x.toNat % 4 := by
  rw [BitVec.toNat_sub]; have := k.isLt; omega

/-- The fixed mapping moves whole words (spec 20 R105). -/
theorem translate_mod (c : Cp0) (va : Word) : (translate c va).toNat % 4 = va.toNat % 4 := by
  simp only [translate]
  split_ifs <;> first | exact add_mod_four (by decide) | exact sub_mod_four (by decide) | rfl

theorem add_wordAddress {x k : Word} (h : k.toNat % 4 = 0) : wordAddress x + k = wordAddress (x + k) := by
  apply BitVec.eq_of_toNat_eq
  rw [wordAddress_toNat, BitVec.toNat_add, BitVec.toNat_add, wordAddress_toNat]
  have := x.isLt; have := k.isLt
  omega

theorem sub_wordAddress {x k : Word} (h : k.toNat % 4 = 0) : wordAddress x - k = wordAddress (x - k) := by
  apply BitVec.eq_of_toNat_eq
  rw [wordAddress_toNat, BitVec.toNat_sub, BitVec.toNat_sub, wordAddress_toNat]
  have := x.isLt; have := k.isLt
  omega

theorem wordAddress_lt (x : Word) {k : Nat} (h : k % 4 = 0) : (wordAddress x).toNat < k ↔ x.toNat < k := by
  rw [wordAddress_toNat]; omega

theorem translate_wordAddress (c : Cp0) (va : Word) : translate c (wordAddress va) = wordAddress (translate c va) := by
  simp only [translate, wordAddress_lt va (k := 0x20000000) (by decide), wordAddress_lt va (k := 0x80000000) (by decide),
    wordAddress_lt va (k := 0xA0000000) (by decide), wordAddress_lt va (k := 0xC0000000) (by decide)]
  split_ifs <;> first | exact add_wordAddress (by decide) | exact sub_wordAddress (by decide) | rfl

theorem xor_three_toNat (x : Word) : (x ^^^ 3).toNat = x.toNat / 4 * 4 + (3 - x.toNat % 4) := by
  have h : x ^^^ 3 = (x.extractLsb' 2 30 ++ ~~~(x.extractLsb' 0 2) : BitVec (30 + 2)) := by
    apply BitVec.eq_of_getLsbD_eq; intro i hi
    rw [BitVec.getLsbD_append]
    interval_cases i <;> simp
  rw [h]
  have : (x.extractLsb' 2 30 ++ ~~~(x.extractLsb' 0 2) : BitVec (30 + 2)).toNat = x.toNat / 4 * 4 + (3 - x.toNat % 4) := by
    rw [BitVec.toNat_append, Nat.shiftLeft_eq, ← Nat.mul_comm, ← Nat.two_pow_add_eq_or_of_lt (BitVec.isLt _)]
    simp only [BitVec.toNat_not, BitVec.extractLsb'_toNat, Nat.shiftRight_eq_div_pow]
    have := x.isLt
    omega
  exact this

theorem xor_two_toNat (x : Word) : (x ^^^ 2).toNat = x.toNat / 4 * 4 + (x.toNat + 2) % 4 := by
  have h : x ^^^ 2 = (x.extractLsb' 2 30 ++ (x.extractLsb' 0 2 + 2) : BitVec (30 + 2)) := by
    apply BitVec.eq_of_getLsbD_eq; intro i hi
    rw [BitVec.getLsbD_append]
    have h2 : ∀ y : BitVec 2, y + 2 = y ^^^ 2 := by decide
    rw [h2]
    interval_cases i <;> simp
  rw [h]
  have : (x.extractLsb' 2 30 ++ (x.extractLsb' 0 2 + 2) : BitVec (30 + 2)).toNat = x.toNat / 4 * 4 + (x.toNat + 2) % 4 := by
    rw [BitVec.toNat_append, Nat.shiftLeft_eq, ← Nat.mul_comm, ← Nat.two_pow_add_eq_or_of_lt (BitVec.isLt _)]
    have h2 : (2 : BitVec 2).toNat = 2 := rfl
    simp only [BitVec.toNat_add, BitVec.extractLsb'_toNat, Nat.shiftRight_eq_div_pow, h2]
    have := x.isLt
    omega
  exact this

/-- The bytes of an aligned access lie in one aligned word. -/
theorem dataAddress_fits (c : Cp0) (w : Width) (va : Word) (h : va.toNat % w.bytes = 0) :
    (dataAddress c w va).toNat % 4 + w.bytes ≤ 4 := by
  have ht := translate_mod c va
  unfold dataAddress laneMask
  cases w <;> simp only [Width.bytes] at h ⊢
  · omega
  · split
    · rw [xor_two_toNat]; omega
    · simp only [BitVec.ofNat_eq_ofNat, BitVec.xor_zero]; omega
  · have : translate c va ^^^ (if reversed c = true then (0 : Word) else 0) = translate c va := by split <;> simp
    simp only [this]; omega

/-! ## Regions -/

theorem State.region_congr (s : State) {p q : Word} (h : wordAddress p = wordAddress q) : s.region p = s.region q := by
  unfold State.region; rw [h]

theorem slot_congr {p q : Word} (h : wordAddress p = wordAddress q) : p.extractLsb' 2 2 = q.extractLsb' 2 2 := by
  rw [wordAddress_eq_iff] at h
  apply BitVec.eq_of_toNat_eq
  simp only [BitVec.extractLsb'_toNat, Nat.shiftRight_eq_div_pow]
  norm_num
  rw [h]

theorem State.busByte_eq {s : State} {pa : Word} (h : ReadsMemory s pa) {q : Word} (hq : wordAddress q = wordAddress pa) :
    s.busByte q = s.mem.read q.toNat := by
  unfold State.busByte
  rw [s.region_congr hq, slot_congr hq]
  cases hr : s.region pa with
  | none => rfl
  | some r =>
    obtain ⟨h1, h2⟩ := h r hr
    cases hk : r.kind with
    | ram => simp [hk]
    | rom => simp [hk]
    | device => exact absurd hk h1
    | registers c t v => simp [hk, h2 c t v hk]

/-! ## The checks -/

theorem misaligned_iff (w : Width) (va : Word) : misaligned w va = true ↔ va.toNat % w.bytes ≠ 0 := by
  have h0 : va.getLsbD 0 = decide (va.toNat % 2 = 1) := by simp [BitVec.getLsbD, Nat.testBit_zero]
  have h1 : va.getLsbD 1 = decide (va.toNat / 2 % 2 = 1) := by simp [BitVec.getLsbD, Nat.testBit_succ]
  cases w
  · simp [misaligned, Width.bytes]; omega
  · simp only [misaligned, Width.bytes, h0, decide_eq_true_eq]; omega
  · simp only [misaligned, Width.bytes, h0, h1, Bool.or_eq_true, decide_eq_true_eq]; omega

theorem allowed_iff (c : Cp0) (va : Word) : allowed c va = false ↔ c.userMode = true ∧ 0x80000000 ≤ va.toNat := by
  have h : va.getLsbD 31 = decide (0x80000000 ≤ va.toNat) := by
    have := va.isLt
    simp only [BitVec.getLsbD, Nat.testBit_eq_decide_div_mod_eq]
    congr 1
    apply propext
    omega
  unfold allowed
  rw [h]
  cases c.userMode <;> simp

theorem addressError_iff (s : State) (w : Width) (va : Word) :
    AddressError s w va ↔ (misaligned w va || !allowed s.seen va) = true := by
  unfold AddressError
  rw [Bool.or_eq_true, misaligned_iff, Bool.not_eq_true', allowed_iff]

theorem addressError_byte_iff (s : State) (va : Word) : AddressError s .byte va ↔ (!allowed s.seen va) = true := by
  rw [addressError_iff]; simp [misaligned]

/-! ## The accesses -/

theorem State.memRead_ok {s : State} {w : Width} {va : Word} (h : Accessible s .load w va) :
    s.memRead w va = .ok (s.busValue w (dataAddress s.seen w va)) := by
  obtain ⟨h1, h2, h3⟩ := h
  rw [addressError_iff] at h1
  simp only [State.memRead]
  rw [if_neg h1, if_neg (by simp [h2]), if_pos h3]

theorem State.memRead_addressError {s : State} {w : Width} {va : Word} (h : AddressError s w va) :
    s.memRead w va = .addressError va := by
  rw [addressError_iff] at h
  simp only [State.memRead]
  rw [if_pos h]

theorem State.memRead_busError {s : State} {w : Width} {va : Word} (h : BusError s .load w va) :
    s.memRead w va = .busError := by
  obtain ⟨h1, h2, h3⟩ := h
  rw [addressError_iff] at h1
  simp only [State.memRead]
  rw [if_neg h1, if_neg (by simp [h2]), if_neg (by simp [h3])]

theorem State.memRead_dseg {s : State} {w : Width} {va : Word} (h : GoesToDseg s w va) : s.memRead w va = .dseg := by
  obtain ⟨h1, h2⟩ := h
  rw [addressError_iff] at h1
  simp only [State.memRead]
  rw [if_neg h1, if_pos h2]

theorem State.memWrite_ok {s : State} {w : Width} {va v : Word} (h : Accessible s .store w va) :
    s.memWrite w va v = .ok (s.storeBytes (dataAddress s.seen w va) (storedBytes w v)) := by
  obtain ⟨h1, h2, h3⟩ := h
  rw [addressError_iff] at h1
  simp only [State.memWrite]
  rw [if_neg h1, if_neg (by simp [h2]), if_pos h3]

theorem State.memWrite_addressError {s : State} {w : Width} {va v : Word} (h : AddressError s w va) :
    s.memWrite w va v = .addressError va := by
  rw [addressError_iff] at h
  simp only [State.memWrite]
  rw [if_pos h]

theorem State.memWrite_busError {s : State} {w : Width} {va v : Word} (h : BusError s .store w va) :
    s.memWrite w va v = .busError := by
  obtain ⟨h1, h2, h3⟩ := h
  rw [addressError_iff] at h1
  simp only [State.memWrite]
  rw [if_neg h1, if_neg (by simp [h2]), if_neg (by simp [h3])]

theorem State.memWrite_dseg {s : State} {w : Width} {va v : Word} (h : GoesToDseg s w va) : s.memWrite w va v = .dseg := by
  obtain ⟨h1, h2⟩ := h
  rw [addressError_iff] at h1
  simp only [State.memWrite]
  rw [if_neg h1, if_pos h2]

/-! ## Values read -/

theorem State.valueAt_one (s : State) (pa : Word) : s.valueAt pa 1 = (s.mem.read pa.toNat).toNat := by
  simp [State.valueAt]

/-- A value read from memory is the bytes from its address on, lowest address least significant (spec 20 R110). -/
theorem State.busValue_eq {s : State} {w : Width} {pa : Word} (h : ReadsMemory s pa)
    (hf : pa.toNat % 4 + w.bytes ≤ 4) : s.busValue w pa = BitVec.ofNat 32 (s.valueAt pa w.bytes) := by
  have hb : ∀ k < w.bytes, s.busByte (pa + BitVec.ofNat 32 k) = s.mem.read (pa + BitVec.ofNat 32 k).toNat :=
    fun k hk => State.busByte_eq h (wordAddress_add pa k (by omega))
  apply BitVec.eq_of_toNat_eq
  cases w <;> simp only [Width.bytes] at hb
  · have h0 := hb 0 (by omega)
    simp only [BitVec.add_zero] at h0
    have := (s.mem.read pa.toNat).isLt
    simp [State.busValue, Width.bytes, State.valueAt, zext, h0]
  · have h0 := hb 0 (by omega)
    have h1 := hb 1 (by omega)
    simp only [BitVec.add_zero] at h0 h1
    have b0 := (s.mem.read pa.toNat).isLt
    have b1 := (s.mem.read (pa + 1#32).toNat).isLt
    simp only [State.busValue, zext, BitVec.ofNat_eq_ofNat, h0, h1, Width.bytes, State.valueAt, BitVec.add_zero]
    rw [BitVec.toNat_setWidth, toNat_append_byte]
    simp only [BitVec.toNat_ofNat]
    omega
  · have h0 := hb 0 (by omega)
    have h1 := hb 1 (by omega)
    have h2 := hb 2 (by omega)
    have h3 := hb 3 (by omega)
    simp only [BitVec.add_zero] at h0 h1 h2 h3
    have b0 := (s.mem.read pa.toNat).isLt
    have b1 := (s.mem.read (pa + 1#32).toNat).isLt
    have b2 := (s.mem.read (pa + 2#32).toNat).isLt
    have b3 := (s.mem.read (pa + 3#32).toNat).isLt
    simp only [State.busValue, BitVec.ofNat_eq_ofNat, h0, h1, h2, h3, Width.bytes, State.valueAt, BitVec.add_zero]
    rw [toNat_append_byte, toNat_append_byte, toNat_append_byte]
    simp only [BitVec.toNat_ofNat]
    omega

end Sys2Proof.Machine
end

