-- ==== Sys2Proof/Laws/Ops.lean ====
section
/-! SUPPORT. For each shared operation, once, everything it can do; the provers cite these instead of unfolding it. -/

namespace Sys2Proof.Machine

/-! ## The advance of the program counter -/

/-- After `advance` from a state `u` that has the control state of `s`, control goes on from `s`. -/
theorem goesOn_advance {s u : State} (len : Word) (hd : u.delay = s.delay) (hp : u.pc = s.pc)
    (hm : u.isaMode = s.isaMode) : GoesOn s (u.advance len) len := by
  unfold GoesOn State.advance
  rw [hd]
  cases s.delay with
  | none => simp [hp, hm]
  | some d => simp [State.land]; split <;> simp

theorem State.advance_regOf (s : State) (len : Word) (k : ShadowSet) (r : Reg) :
    (s.advance len).regOf k r = s.regOf k r := State.regOf_congr (by simp) k r

theorem State.advance_reg (s : State) (len : Word) (r : Reg) : (s.advance len).reg r = s.reg r := by
  simp [State.reg, State.advance_regOf]

theorem State.advance_hazards {s : State} (len : Word) (h : NoBarrier s) :
    (s.advance len).hazards = s.hazards ∧ (s.advance len).fetchHazards = s.fetchHazards ∧
      (s.advance len).stale = s.stale := by
  unfold State.advance
  cases hd : s.delay with
  | none => simp
  | some d => simp [State.land, h d hd]

/-- The system is kept by an advance from a state that keeps it. -/
theorem keepsSystem_advance {s u : State} (len : Word) (hc : u.cp0 = s.cp0) (hl : u.llbit = s.llbit)
    (ho : KeepsOutside s u) (hd : u.delay = s.delay) (hh : u.hazards = s.hazards)
    (hf : u.fetchHazards = s.fetchHazards) : KeepsSystem s (u.advance len) := by
  obtain ⟨h1, h2, h3, h4, h5, h6⟩ := ho
  refine ⟨by simp [hc], by simp [hl], ⟨by simp [h1], by simp [h2], by simp [h3], by simp [h4], by simp [h5], by simp [h6]⟩,
    fun h => ?_⟩
  have hb : NoBarrier u := fun d hd' => h d (hd ▸ hd')
  obtain ⟨h7, h8, _⟩ := State.advance_hazards len hb
  exact ⟨h7.trans hh, h8.trans hf⟩

/-! ## Frames of the register writes -/

theorem keepsRegs_of_gpr {s t : State} (h : t.gpr = s.gpr) (regs : List Reg) : KeepsRegs s t regs :=
  fun k r _ => State.regOf_congr h k r

theorem keepsRegs_write (s : State) (r : Reg) (v : Word) (regs : List Reg) (hr : r ∈ regs) :
    KeepsRegs s (s.write r v) regs := by
  intro k q hq
  rw [State.regOf_write]
  split
  · rename_i h
    exact absurd (h.2.1 ▸ hr) (hq h.1)
  · rfl

theorem keepsMemory_of_mem {s t : State} (h : t.mem = s.mem) (as : List Nat) : KeepsMemory s t as :=
  fun a _ => by rw [h]

theorem State.write_reg_self (s : State) (r : Reg) (v : Word) : (s.write r v).reg r = if r = 0 then 0 else v := by
  rw [State.reg_write]
  by_cases h : r = 0
  · subst h; rfl
  · rw [if_pos ⟨rfl, h⟩, if_neg h]

/-! ## Results in a register -/

@[simp] theorem State.done_eq (s : State) (len : Word) : s.done len = .next (s.advance len) := rfl

/-- A state whose registers, HI, LO, memory, system and stale bytes come from `s`. -/
theorem keepsAllBut_advance {s u : State} (len : Word) (regs : List Reg) (hr : KeepsRegs s u regs) (hh : KeepsHiLo s u)
    (hm : u.mem = s.mem) (hc : u.cp0 = s.cp0) (hl : u.llbit = s.llbit) (ho : KeepsOutside s u)
    (hd : u.delay = s.delay) (hz : u.hazards = s.hazards) (hf : u.fetchHazards = s.fetchHazards)
    (hs : u.stale = s.stale) : KeepsAllBut s (u.advance len) regs := by
  refine ⟨fun k r h => ?_, ?_, keepsMemory_of_mem (by simp [hm]) _, keepsSystem_advance len hc hl ho hd hz hf, fun h => ?_⟩
  · rw [State.advance_regOf]; exact hr k r h
  · obtain ⟨h1, h2, h3⟩ := hh
    exact ⟨by simp [h1], by simp [h2], by simp [h3]⟩
  · have hb : NoBarrier u := fun d hd' => h d (hd ▸ hd')
    rw [(State.advance_hazards len hb).2.2, hs]

theorem keepsOutside_refl (s : State) : KeepsOutside s s := ⟨rfl, rfl, rfl, rfl, rfl, rfl⟩

/-- What `State.result` does. -/
theorem State.result_spec (s : State) (len : Word) (r : Reg) (v : Word) :
    ∃ t, s.result len r v = .next t ∧ t.reg r = (if r = 0 then 0 else v) ∧ KeepsAllBut s t [r] ∧ GoesOn s t len := by
  refine ⟨_, rfl, ?_, ?_, goesOn_advance len (by simp) (by simp) (by simp)⟩
  · rw [State.advance_reg, State.write_reg_self]
  · exact keepsAllBut_advance len _ (keepsRegs_write s r v _ (by simp)) ⟨by simp, by simp, by simp⟩ (by simp) (by simp)
      (by simp) ⟨by simp, by simp, by simp, by simp, by simp, by simp⟩ (by simp) (by simp) (by simp) (by simp)

theorem writes_of_result {i : Instr} {s : State} {len : Word} {r : Reg} {v : Word} (h : exec i s = s.result len r v) :
    Writes i s len r v := by
  unfold Writes; rw [h]; exact s.result_spec len r v

theorem doesNothing_of_advance {i : Instr} {s : State} {len : Word} (h : exec i s = .next (s.advance len)) :
    DoesNothing i s len :=
  ⟨_, h, keepsAllBut_advance len _ (fun _ _ _ => rfl) ⟨rfl, rfl, rfl⟩ rfl rfl rfl (keepsOutside_refl s) rfl rfl rfl rfl,
    goesOn_advance len rfl rfl rfl⟩

/-- What an arithmetic result in HI and LO does. -/
theorem writesHiLo_of_advance {i : Instr} {s u : State} {len : Word} {hi lo : Word}
    (h : exec i s = .next (u.advance len)) (hu : u = { s with hi := hi, lo := lo, hiLoUnread := true }) :
    WritesHiLo i s len hi lo := by
  subst hu
  exact ⟨_, h, by simp, by simp, by simp, fun k r _ => by rw [State.advance_regOf]; rfl,
    keepsMemory_of_mem (by simp) _, keepsSystem_advance len rfl rfl (keepsOutside_refl s) rfl rfl rfl,
    goesOn_advance len rfl rfl rfl⟩

/-! ## Exceptions -/

theorem savedPc_eq (a : Word) (m : Isa) : withIsaBit a m = savedPc a m := by
  apply BitVec.eq_of_getLsbD_eq; intro i hi
  have h : ∀ x : BitVec 31, ∀ y : BitVec 1, ∀ i, (x ++ y : BitVec (31 + 1)).getLsbD i = if i < 1 then y.getLsbD i else x.getLsbD (i - 1) := by
    intro x y i; rw [BitVec.getLsbD_append]
  cases m <;> simp only [withIsaBit, savedPc, isaBit] <;> erw [h] <;> interval_cases i <;> simp

/-- Without Debug mode an instruction's exception is the spec's exception entry. -/
theorem State.raise_eq {s : State} (h : s.cp0.debugReg.dm = false) (e : Exc) : s.raise e = s.takeException e := by
  unfold State.raise; rw [h]; rfl

theorem ebaseWord_eq (b : BitVec 18) : ebaseWord b = 0x80000000 ||| b.setWidth 32 <<< 12 := by
  apply BitVec.eq_of_getLsbD_eq; intro i hi
  show (2#2 ++ b ++ 0#12 : BitVec (2 + 18 + 12)).getLsbD i = _
  simp only [BitVec.getLsbD_append]
  interval_cases i <;> simp

theorem vectorAddress_eq {base : Word} (h : base.extractLsb' 30 2 = 0b10#2) (offset : Word) :
    vectorAddress base offset = vectorGoal base offset := by
  apply BitVec.eq_of_getLsbD_eq; intro i hi
  show (base.extractLsb' 30 2 ++ (base + offset).extractLsb' 0 30 : BitVec (2 + 30)).getLsbD i = _
  rw [BitVec.getLsbD_append, h, vectorGoal]
  generalize base + offset = x
  interval_cases i <;> simp

theorem vectorBase_eq (c : Cp0) :
    vectorBase c = if c.status.bev = true then (0xBFC00200 : Word) else 0x80000000 ||| c.ebase.setWidth 32 <<< 12 := by
  unfold vectorBase; rw [ebaseWord_eq]; rfl

theorem vectorBase_top (c : Cp0) : (vectorBase c).extractLsb' 30 2 = 0b10#2 := by
  unfold vectorBase
  split
  · decide
  · rw [ebaseWord_eq]
    apply BitVec.eq_of_getLsbD_eq; intro i hi
    interval_cases i <;> simp

/-- Taking an exception, line by line (spec 60 R639). -/
theorem State.takeException_entered (s : State) (e : Exc) : Entered s (s.takeException e) e := by
  have hv : s.view (if e = .int then .interrupt else .other) = s.entryView e := by
    unfold State.entryView State.seen; split <;> rfl
  unfold Entered
  rw [hv]
  generalize hc : s.entryView e = c
  refine ⟨fun h hd => ⟨?_, ?_⟩, fun h => ⟨?_, ?_⟩, fun h1 h2 h3 => ?_, fun h => ?_, rfl, fun n hn => ?_, ?_, rfl, ?_, rfl,
    rfl, rfl, rfl, rfl, rfl, rfl, rfl, rfl, rfl, rfl, rfl, rfl, rfl⟩
  · show s.entryEpc (s.entryView e).status.exl e = _
    simp only [hc, State.entryEpc, h, hd, State.restartPc, restartAddress]
    cases s.delay <;> simp [savedPc_eq]
  · show s.entryBd (s.entryView e).status.exl e = _
    simp [hc, State.entryBd, h, hd]
  · show s.entryEpc (s.entryView e).status.exl e = _
    simp [hc, State.entryEpc, h]
  · show s.entryBd (s.entryView e).status.exl e = _
    simp [hc, State.entryBd, h]
  · have e1 : (s.takeException e).cp0.srsCtl = entrySrsCtl c s.cp0.srsCtl e := by rw [← hc]; rfl
    rw [e1]
    simp only [entrySrsCtl, h1, h2, h3, Bool.not_false, Bool.and_true, if_true, true_and]
    exact ⟨fun h => if_neg (by simpa using h), fun h4 h5 => if_pos (by simp [h4, h5])⟩
  · have e1 : (s.takeException e).cp0.srsCtl = entrySrsCtl c s.cp0.srsCtl e := by rw [← hc]; rfl
    rw [e1, entrySrsCtl, if_neg]
    simp only [Bool.and_eq_true, Bool.not_eq_true']
    rcases h with h | h | h <;> simp [h]
  · subst hn; rfl
  · show entryBadVAddr s.cp0.badVAddr e = _
    cases e <;> rfl
  · show vectorAddress (vectorBase (s.entryView e)) (vectorOffset (s.entryView e) s.eicVector e) = _
    rw [vectorAddress_eq (vectorBase_top _), hc, vectorBase_eq]
    congr 1
    simp only [vectorOffset, zext]
    cases c.status.exl <;> cases c.cause.iv <;> cases e <;> simp

theorem raises_of_raise {i : Instr} {s : State} {e : Exc} (h : exec i s = .next (s.raise e))
    (hd : s.cp0.debugReg.dm = false) : Raises i s e :=
  ⟨_, h, State.raise_eq hd e ▸ s.takeException_entered e, keepsRegs_of_gpr (by simp) _, ⟨by simp, by simp, by simp⟩,
    keepsMemory_of_mem (by simp) _⟩

end Sys2Proof.Machine
end

