-- ==== Sys2Proof/Laws/Control.lean ====
section
/-! SUPPORT. What the shared shapes of jumps and branches do. -/

namespace Sys2Proof.Machine

theorem outsideSlot_of_none {s : State} (h : s.delay = none) (k : Result) : s.outsideSlot k = k := by
  simp [State.outsideSlot, h]

theorem outsideSlot_of_some {s : State} (h : s.delay.isSome = true) (k : Result) :
    s.outsideSlot k = .fault .branchInDelaySlot := by simp [State.outsideSlot, h]

/-- A jump without link (spec 42 R320). -/
theorem jumps_of_delayed {i : Instr} {s : State} {len target target' : Word} {mode : Isa} {barrier : Bool}
    (h : exec i s = .next (s.delayed len target' mode barrier)) (ht : target' = target) :
    Jumps i s len target mode barrier none := by
  subst ht
  refine ⟨_, h, ⟨by simp, by simp, by simp⟩, ?_, fun l hl => by cases hl⟩
  exact ⟨keepsRegs_of_gpr (by simp) _, ⟨by simp, by simp, by simp⟩, keepsMemory_of_mem (by simp) _,
    ⟨by simp, by simp, ⟨by simp, by simp, by simp, by simp, by simp⟩, fun _ => ⟨by simp, by simp⟩⟩, fun _ => by simp⟩

/-- A jump with link (spec 42 R320, R326). -/
theorem jumps_of_link {i : Instr} {s : State} {len target target' v : Word} {mode : Isa} {barrier : Bool} {r : Reg}
    (h : exec i s = .next ((s.write r v).delayed len target' mode barrier)) (ht : target' = target) :
    Jumps i s len target mode barrier (some (r, v)) := by
  subst ht
  refine ⟨_, h, ⟨by simp, by simp, by simp⟩, ?_, fun l hl => ?_⟩
  · exact ⟨fun k q hq => (State.regOf_congr (by simp) k q).trans (keepsRegs_write s r v _ (by simp) k q hq),
      ⟨by simp, by simp, by simp⟩, keepsMemory_of_mem (by simp) _,
      ⟨by simp, by simp, ⟨by simp, by simp, by simp, by simp, by simp⟩, fun _ => ⟨by simp, by simp⟩⟩, fun _ => by simp⟩
  · cases hl
    rw [← State.write_reg_self s r v]
    simp [State.reg, State.regOf]

/-- A transfer without delay slot and without link (spec 45 R451, 42 R324). -/
theorem transfers_of_pc {i : Instr} {s : State} {target target' : Word} {mode : Isa} (hd : s.delay = none)
    (h : exec i s = .next { s with pc := target', isaMode := mode }) (ht : target' = target) :
    Transfers i s target mode none := by
  subst ht
  exact ⟨_, h, rfl, rfl, hd, ⟨fun _ _ _ => rfl, ⟨rfl, rfl, rfl⟩, fun _ _ => rfl,
    ⟨rfl, rfl, keepsOutside_refl s, fun _ => ⟨rfl, rfl⟩⟩, fun _ => rfl⟩, fun l hl => by cases hl⟩

/-- A transfer without delay slot, with link (spec 45 R502, 42 R324). -/
theorem transfers_of_link {i : Instr} {s : State} {target target' v : Word} {mode : Isa} {r : Reg}
    (hd : s.delay = none) (h : exec i s = .next { s.write r v with pc := target', isaMode := mode })
    (ht : target' = target) : Transfers i s target mode (some (r, v)) := by
  subst ht
  refine ⟨_, h, rfl, rfl, by simpa using hd, ?_, fun l hl => ?_⟩
  · exact ⟨fun k q hq => (State.regOf_congr (by simp) k q).trans (keepsRegs_write s r v _ (by simp) k q hq),
      ⟨by simp, by simp, by simp⟩, keepsMemory_of_mem (by simp) _,
      ⟨by simp, by simp, ⟨by simp, by simp, by simp, by simp, by simp⟩, fun _ => ⟨by simp, by simp⟩⟩, fun _ => by simp⟩
  · cases hl
    rw [← State.write_reg_self s r v]
    simp [State.reg, State.regOf]

/-! ## Targets -/

theorem sext_shift {n : Nat} (offset : BitVec n) (k : Nat) :
    sext offset <<< k = BitVec.ofInt 32 (2 ^ k * offset.toInt) := by
  have h : sext offset = BitVec.ofInt 32 offset.toInt := rfl
  have e : BitVec.ofNat 32 (2 ^ k) = BitVec.ofInt 32 (2 ^ k) := by rw [← BitVec.ofInt_natCast]; push_cast; rfl
  rw [shift_left_eq, Nat.mul_comm, BitVec.ofNat_mul, BitVec.ofInt_mul, ← h, e]
  simp

theorem branch_target_eq (s : State) (offset : BitVec 16) : branchTarget s.pc offset = branchGoal s offset := by
  rw [branchTarget, branchGoal, sext_shift, BitVec.ofInt_add, BitVec.ofInt_add]
  simp

theorem jump_target_eq (s : State) (index : BitVec 26) : jumpTarget s.pc index = regionGoal s index := by
  apply BitVec.eq_of_toNat_eq
  show ((s.pc + 4).extractLsb' 28 4 ++ index ++ 0#2 : BitVec (4 + 26 + 2)).toNat = _
  have h1 := index.isLt
  have h2 := (s.pc + 4).isLt
  rw [BitVec.toNat_append, BitVec.toNat_append, Nat.shiftLeft_eq, Nat.shiftLeft_eq, regionGoal, ← Nat.mul_comm (2 ^ 2),
    ← Nat.mul_comm (2 ^ 26), ← Nat.two_pow_add_eq_or_of_lt index.isLt, ← Nat.two_pow_add_eq_or_of_lt (0#2).isLt,
    BitVec.extractLsb'_toNat, Nat.shiftRight_eq_div_pow, BitVec.toNat_ofNat, BitVec.toNat_ofNat]
  omega

theorem clear_isa_bit_eq (t : Word) : clearIsaBit t = goalOf t := by
  apply BitVec.eq_of_getLsbD_eq; intro i hi
  show (t.extractLsb' 1 31 ++ 0#1 : BitVec (31 + 1)).getLsbD i = _
  rw [BitVec.getLsbD_append, goalOf]
  interval_cases i <;> simp

theorem isa_of_bit_eq (t : Word) : isaOfBit (t.getLsbD 0) = modeOf t := by
  have h0 : t.getLsbD 0 = decide (t.toNat % 2 = 1) := by simp [BitVec.getLsbD, Nat.testBit_zero]
  simp only [isaOfBit, modeOf, h0, decide_eq_true_eq]

theorem halfword_target_eq (s : State) (len : Nat) {n : Nat} (offset : BitVec n) :
    halfwordTarget (s.pc + BitVec.ofNat 32 len) offset = BitVec.ofInt 32 (s.pc.toNat + len + 2 * offset.toInt) := by
  rw [halfwordTarget, sext_shift, BitVec.ofInt_add, BitVec.ofInt_add]
  simp

/-! ## Conditional branches -/

/-- What a conditional branch does (spec 42 R320). -/
theorem branchesIf_of_branch {i : Instr} {s : State} {c : Prop} {offset : BitVec 16} {b : Bool} (hd : s.delay = none)
    (h : exec i s = s.branch b offset) (hc : b = true ↔ c) : BranchesIf i s c (branchGoal s offset) none := by
  rw [State.branch, outsideSlot_of_none hd] at h
  refine ⟨fun k => jumps_of_delayed h ?_, fun k => jumps_of_delayed h ?_⟩
  · rw [hc.mpr k]; exact branch_target_eq _ _
  · rw [← hc] at k; simp [k]

/-- What a conditional branch with link does (spec 42 R320, R326). -/
theorem branchesIf_of_link {i : Instr} {s : State} {c : Prop} {offset : BitVec 16} {b : Bool} {v : Word}
    (hd : s.delay = none) (h : exec i s = (s.write 31 v).branch b offset) (hc : b = true ↔ c) :
    BranchesIf i s c (branchGoal s offset) (some (31, v)) := by
  rw [State.branch, outsideSlot_of_none (by simpa using hd)] at h
  refine ⟨fun k => jumps_of_link (by simpa using h) ?_, fun k => jumps_of_link (by simpa using h) ?_⟩
  · rw [hc.mpr k]; exact branch_target_eq _ _
  · rw [← hc] at k; simp [k]

/-- What a branch-likely does (spec 42 R324). -/
theorem branchesLikely_of_branchLikely {i : Instr} {s : State} {c : Prop} {offset : BitVec 16} {b : Bool}
    (hd : s.delay = none) (h : exec i s = s.branchLikely b offset) (hc : b = true ↔ c) :
    BranchesLikely i s c (branchGoal s offset) none := by
  rw [State.branchLikely, outsideSlot_of_none hd] at h
  refine ⟨fun k => ?_, fun k => ?_⟩
  · rw [hc.mpr k] at h; exact jumps_of_delayed h (branch_target_eq _ _)
  · rw [← hc, Bool.not_eq_true] at k; rw [k] at h; exact transfers_of_pc hd h rfl

/-- What a branch-likely with link does (spec 42 R324, R326). -/
theorem branchesLikely_of_link {i : Instr} {s : State} {c : Prop} {offset : BitVec 16} {b : Bool} {v : Word}
    (hd : s.delay = none) (h : exec i s = (s.write 31 v).branchLikely b offset) (hc : b = true ↔ c) :
    BranchesLikely i s c (branchGoal s offset) (some (31, v)) := by
  rw [State.branchLikely, outsideSlot_of_none (by simpa using hd)] at h
  refine ⟨fun k => ?_, fun k => ?_⟩
  · rw [hc.mpr k] at h; exact jumps_of_link (by simpa using h) (branch_target_eq _ _)
  · rw [← hc, Bool.not_eq_true] at k; rw [k] at h
    exact transfers_of_link (mode := s.isaMode) hd (by rw [h]; simp) rfl

end Sys2Proof.Machine
end

