-- ==== Sys2Proof/Laws/Decode.lean ====
section
/-! SUPPORT. Cutting a word into fields and joining them again lose nothing. -/

namespace Sys2Proof

theorem Fields.toWord_ofWord (w : Word) : (Fields.ofWord w).toWord = w := by
  apply BitVec.eq_of_getLsbD_eq; intro i hi
  have h : ∀ i op rs rt rd sa fn, (Fields.toWord ⟨op, rs, rt, rd, sa, fn⟩).getLsbD i =
    (op ++ rs ++ rt ++ rd ++ sa ++ fn : BitVec (6+5+5+5+5+6)).getLsbD i := fun _ _ _ _ _ _ _ => rfl
  simp only [Fields.ofWord, h, BitVec.getLsbD_append, BitVec.getLsbD_extractLsb']
  interval_cases i <;> simp

@[simp] theorem Fields.ofWord_toWord (f : Fields) : Fields.ofWord f.toWord = f := by
  rcases f with ⟨op, rs, rt, rd, sa, fn⟩
  have h : ∀ i, (Fields.toWord ⟨op, rs, rt, rd, sa, fn⟩).getLsbD i = (op ++ rs ++ rt ++ rd ++ sa ++ fn : BitVec (6+5+5+5+5+6)).getLsbD i := fun i => rfl
  simp only [Fields.ofWord, Fields.mk.injEq]
  refine ⟨?_, ?_, ?_, ?_, ?_, ?_⟩ <;> (apply BitVec.eq_of_getLsbD_eq; intro i hi; simp only [BitVec.getLsbD_extractLsb', h, BitVec.getLsbD_append]; interval_cases i <;> simp)

@[simp] theorem Halfword.ofHalf_toHalf (f : Halfword) : Halfword.ofHalf f.toHalf = f := by
  rcases f with ⟨op, rx, y2, y1, y0, z2, z1, z0, f⟩
  have h : ∀ i, (Halfword.toHalf ⟨op, rx, y2, y1, y0, z2, z1, z0, f⟩).getLsbD i = (op ++ rx ++ y2 ++ y1 ++ y0 ++ z2 ++ z1 ++ z0 ++ f : BitVec (5+3+1+1+1+1+1+1+2)).getLsbD i := fun i => rfl
  simp only [Halfword.ofHalf, Halfword.mk.injEq]
  refine ⟨?_, ?_, ?_, ?_, ?_, ?_, ?_, ?_, ?_⟩ <;> (apply BitVec.eq_of_getLsbD_eq; intro i hi; simp only [BitVec.getLsbD_extractLsb', h, BitVec.getLsbD_append]; interval_cases i <;> simp)

@[simp] theorem Fields.imm_ofImm (op : BitVec 6) (rs rt : BitVec 5) (i : BitVec 16) : (Fields.ofImm op rs rt i).imm = i := by
  apply BitVec.eq_of_getLsbD_eq; intro k hk
  show (i.extractLsb' 11 5 ++ i.extractLsb' 6 5 ++ i.extractLsb' 0 6 : BitVec (5+5+6)).getLsbD k = _
  simp only [BitVec.getLsbD_append, BitVec.getLsbD_extractLsb']
  interval_cases k <;> simp

@[simp] theorem Fields.index_ofIndex (op : BitVec 6) (i : BitVec 26) : (Fields.ofIndex op i).index = i := by
  apply BitVec.eq_of_getLsbD_eq; intro k hk
  show (i.extractLsb' 21 5 ++ i.extractLsb' 16 5 ++ i.extractLsb' 11 5 ++ i.extractLsb' 6 5 ++ i.extractLsb' 0 6 : BitVec (5+5+5+5+6)).getLsbD k = _
  simp only [BitVec.getLsbD_append, BitVec.getLsbD_extractLsb']
  interval_cases k <;> simp

@[simp] theorem Fields.code20_ofCode20 (op : BitVec 6) (i : BitVec 20) (fn : BitVec 6) : (Fields.ofCode20 op i fn).code20 = i := by
  apply BitVec.eq_of_getLsbD_eq; intro k hk
  show (i.extractLsb' 15 5 ++ i.extractLsb' 10 5 ++ i.extractLsb' 5 5 ++ i.extractLsb' 0 5 : BitVec (5+5+5+5)).getLsbD k = _
  simp only [BitVec.getLsbD_append, BitVec.getLsbD_extractLsb']
  interval_cases k <;> simp

@[simp] theorem Fields.code10_ofCode10 (rs rt : BitVec 5) (i : BitVec 10) (fn : BitVec 6) : (Fields.ofCode10 rs rt i fn).code10 = i := by
  apply BitVec.eq_of_getLsbD_eq; intro k hk
  show (i.extractLsb' 5 5 ++ i.extractLsb' 0 5 : BitVec (5+5)).getLsbD k = _
  simp only [BitVec.getLsbD_append, BitVec.getLsbD_extractLsb']
  interval_cases k <;> simp

@[simp] theorem Halfword.imm8_ofImm8 (op : BitVec 5) (x : Reg3) (i : BitVec 8) : (Halfword.ofImm8 op x i).imm8 = i := by
  apply BitVec.eq_of_getLsbD_eq; intro k hk
  show (i.extractLsb' 7 1 ++ i.extractLsb' 6 1 ++ i.extractLsb' 5 1 ++ i.extractLsb' 4 1 ++ i.extractLsb' 3 1 ++ i.extractLsb' 2 1 ++ i.extractLsb' 0 2 : BitVec (1+1+1+1+1+1+2)).getLsbD k = _
  simp only [BitVec.getLsbD_append, BitVec.getLsbD_extractLsb']
  interval_cases k <;> simp

@[simp] theorem Halfword.imm11_ofImm11 (op : BitVec 5) (i : BitVec 11) : (Halfword.ofImm11 op i).imm11 = i := by
  apply BitVec.eq_of_getLsbD_eq; intro k hk
  show (i.extractLsb' 8 3 ++ i.extractLsb' 7 1 ++ i.extractLsb' 6 1 ++ i.extractLsb' 5 1 ++ i.extractLsb' 4 1 ++ i.extractLsb' 3 1 ++ i.extractLsb' 2 1 ++ i.extractLsb' 0 2 : BitVec (3+1+1+1+1+1+1+2)).getLsbD k = _
  simp only [BitVec.getLsbD_append, BitVec.getLsbD_extractLsb']
  interval_cases k <;> simp

@[simp] theorem Halfword.imm5_ofImm5 (op : BitVec 5) (x y : Reg3) (i : BitVec 5) : (Halfword.ofImm5 op x y i).imm5 = i := by
  apply BitVec.eq_of_getLsbD_eq; intro k hk
  show (i.extractLsb' 4 1 ++ i.extractLsb' 3 1 ++ i.extractLsb' 2 1 ++ i.extractLsb' 0 2 : BitVec (1+1+1+2)).getLsbD k = _
  simp only [BitVec.getLsbD_append, BitVec.getLsbD_extractLsb']
  interval_cases k <;> simp

@[simp] theorem Halfword.ry_ofImm5 (op : BitVec 5) (x y : Reg3) (i : BitVec 5) : (Halfword.ofImm5 op x y i).ry = y := by
  apply BitVec.eq_of_getLsbD_eq; intro k hk
  show (y.extractLsb' 2 1 ++ y.extractLsb' 1 1 ++ y.extractLsb' 0 1 : BitVec (1+1+1)).getLsbD k = _
  simp only [BitVec.getLsbD_append, BitVec.getLsbD_extractLsb']
  interval_cases k <;> simp

@[simp] theorem Halfword.imm4_ofImm4 (op : BitVec 5) (x y : Reg3) (i : BitVec 4) : (Halfword.ofImm4 op x y i).imm4 = i := by
  apply BitVec.eq_of_getLsbD_eq; intro k hk
  show (i.extractLsb' 3 1 ++ i.extractLsb' 2 1 ++ i.extractLsb' 0 2 : BitVec (1+1+2)).getLsbD k = _
  simp only [BitVec.getLsbD_append, BitVec.getLsbD_extractLsb']
  interval_cases k <;> simp

@[simp] theorem Halfword.ry_ofImm4 (op : BitVec 5) (x y : Reg3) (i : BitVec 4) : (Halfword.ofImm4 op x y i).ry = y := by
  apply BitVec.eq_of_getLsbD_eq; intro k hk
  show (y.extractLsb' 2 1 ++ y.extractLsb' 1 1 ++ y.extractLsb' 0 1 : BitVec (1+1+1)).getLsbD k = _
  simp only [BitVec.getLsbD_append, BitVec.getLsbD_extractLsb']
  interval_cases k <;> simp

@[simp] theorem Halfword.ry_ofRz (op : BitVec 5) (x y z : Reg3) (f : BitVec 2) : (Halfword.ofRz op x y z f).ry = y := by
  apply BitVec.eq_of_getLsbD_eq; intro k hk
  show (y.extractLsb' 2 1 ++ y.extractLsb' 1 1 ++ y.extractLsb' 0 1 : BitVec (1+1+1)).getLsbD k = _
  simp only [BitVec.getLsbD_append, BitVec.getLsbD_extractLsb']
  interval_cases k <;> simp

@[simp] theorem Halfword.rz_ofRz (op : BitVec 5) (x y z : Reg3) (f : BitVec 2) : (Halfword.ofRz op x y z f).rz = z := by
  apply BitVec.eq_of_getLsbD_eq; intro k hk
  show (z.extractLsb' 2 1 ++ z.extractLsb' 1 1 ++ z.extractLsb' 0 1 : BitVec (1+1+1)).getLsbD k = _
  simp only [BitVec.getLsbD_append, BitVec.getLsbD_extractLsb']
  interval_cases k <;> simp

@[simp] theorem Halfword.imm4_ofFrame (v a b c : Bool) (i : BitVec 4) : (Halfword.ofFrame v a b c i).imm4 = i := by
  apply BitVec.eq_of_getLsbD_eq; intro k hk
  show (i.extractLsb' 3 1 ++ i.extractLsb' 2 1 ++ i.extractLsb' 0 2 : BitVec (1+1+2)).getLsbD k = _
  simp only [BitVec.getLsbD_append, BitVec.getLsbD_extractLsb']
  interval_cases k <;> simp

@[simp] theorem Halfword.r32_ofMov32r (r : Reg) (z : Reg3) : (Halfword.ofMov32r r z).r32 = r := by
  apply BitVec.eq_of_getLsbD_eq; intro k hk
  show (r.extractLsb' 4 1 ++ r.extractLsb' 3 1 ++ r.extractLsb' 2 1 ++ r.extractLsb' 1 1 ++ r.extractLsb' 0 1 : BitVec (1+1+1+1+1)).getLsbD k = _
  simp only [BitVec.getLsbD_append, BitVec.getLsbD_extractLsb']
  interval_cases k <;> simp

@[simp] theorem Halfword.movz_ofMov32r (r : Reg) (z : Reg3) : (Halfword.ofMov32r r z).movz = z := by
  apply BitVec.eq_of_getLsbD_eq; intro k hk
  show (z.extractLsb' 2 1 ++ z.extractLsb' 0 2 : BitVec (1+2)).getLsbD k = _
  simp only [BitVec.getLsbD_append, BitVec.getLsbD_extractLsb']
  interval_cases k <;> simp

@[simp] theorem Halfword.op_ofImm8 (op : BitVec 5) (x : Reg3) (i : BitVec 8) : (Halfword.ofImm8 op x i).op = op := rfl

@[simp] theorem Halfword.rx_ofImm8 (op : BitVec 5) (x : Reg3) (i : BitVec 8) : (Halfword.ofImm8 op x i).rx = x := rfl

@[simp] theorem Halfword.op_ofImm5 (op : BitVec 5) (x y : Reg3) (i : BitVec 5) : (Halfword.ofImm5 op x y i).op = op := rfl

@[simp] theorem Halfword.rx_ofImm5 (op : BitVec 5) (x y : Reg3) (i : BitVec 5) : (Halfword.ofImm5 op x y i).rx = x := rfl

@[simp] theorem Halfword.op_ofImm4 (op : BitVec 5) (x y : Reg3) (i : BitVec 4) : (Halfword.ofImm4 op x y i).op = op := rfl

@[simp] theorem Halfword.rx_ofImm4 (op : BitVec 5) (x y : Reg3) (i : BitVec 4) : (Halfword.ofImm4 op x y i).rx = x := rfl

@[simp] theorem Halfword.op_ofRz (op : BitVec 5) (x y z : Reg3) (f : BitVec 2) : (Halfword.ofRz op x y z f).op = op := rfl

@[simp] theorem Halfword.rx_ofRz (op : BitVec 5) (x y z : Reg3) (f : BitVec 2) : (Halfword.ofRz op x y z f).rx = x := rfl

@[simp] theorem Halfword.f_ofRz (op : BitVec 5) (x y z : Reg3) (f : BitVec 2) : (Halfword.ofRz op x y z f).f = f := rfl

@[simp] theorem Halfword.z2_ofImm4 (op : BitVec 5) (x y : Reg3) (i : BitVec 4) : (Halfword.ofImm4 op x y i).z2 = 0 := rfl

@[simp] theorem Halfword.op_ofImm11 (op : BitVec 5) (i : BitVec 11) : (Halfword.ofImm11 op i).op = op := rfl

@[simp] theorem Halfword.op_prefixOf16 (i : BitVec 16) : (Halfword.prefixOf16 i).op = 0x1E := rfl

/-- A 16-bit immediate is put together again from the prefix and the low five bits (spec 45 R448). -/
theorem extImm16_eq (i : BitVec 16) {h : Halfword} (hi : h.imm5 = i.extractLsb' 0 5) :
    extImm16 (Halfword.prefixOf16 i) h = i := by
  rw [extImm16, hi, Halfword.prefixOf16, Halfword.imm11_ofImm11]
  apply BitVec.eq_of_getLsbD_eq; intro k hk
  show ((i.extractLsb' 5 6 ++ i.extractLsb' 11 5 : BitVec (6 + 5)).extractLsb' 0 5 ++
    (i.extractLsb' 5 6 ++ i.extractLsb' 11 5 : BitVec (6 + 5)).extractLsb' 5 6 ++ i.extractLsb' 0 5 :
      BitVec (5 + 6 + 5)).getLsbD k = _
  simp only [BitVec.getLsbD_append, BitVec.getLsbD_extractLsb']
  interval_cases k <;> simp

/-- A 15-bit immediate is put together again from the prefix and the low four bits (spec 45 R448). -/
theorem extImm15_eq (i : BitVec 15) (x y : Reg3) :
    extImm15 (Halfword.ofImm11 0x1E (i.extractLsb' 4 7 ++ i.extractLsb' 11 4))
      (Halfword.ofImm4 8 x y (i.extractLsb' 0 4)) = i := by
  rw [extImm15, Halfword.imm4_ofImm4, Halfword.imm11_ofImm11]
  apply BitVec.eq_of_getLsbD_eq; intro k hk
  show ((i.extractLsb' 4 7 ++ i.extractLsb' 11 4 : BitVec (7 + 4)).extractLsb' 0 4 ++
    (i.extractLsb' 4 7 ++ i.extractLsb' 11 4 : BitVec (7 + 4)).extractLsb' 4 7 ++ i.extractLsb' 0 4 :
      BitVec (4 + 7 + 4)).getLsbD k = _
  simp only [BitVec.getLsbD_append, BitVec.getLsbD_extractLsb']
  interval_cases k <;> simp

/-- The index of JAL and JALX of MIPS16e is put together again (spec 45 R463). -/
theorem jumpIndex_eq (x : BitVec 1) (i : BitVec 26) :
    jumpIndex (Halfword.ofImm11 3 (x ++ i.extractLsb' 16 5 ++ i.extractLsb' 21 5))
      (Halfword.ofImm11 (i.extractLsb' 11 5) (i.extractLsb' 0 11)) = i ∧
    (x ++ i.extractLsb' 16 5 ++ i.extractLsb' 21 5 : BitVec 11).extractLsb' 10 1 = x := by
  constructor
  · rw [jumpIndex, Halfword.imm11_ofImm11, Halfword.imm11_ofImm11, Halfword.op_ofImm11]
    apply BitVec.eq_of_getLsbD_eq; intro k hk
    show ((x ++ i.extractLsb' 16 5 ++ i.extractLsb' 21 5 : BitVec (1 + 5 + 5)).extractLsb' 0 5 ++
      (x ++ i.extractLsb' 16 5 ++ i.extractLsb' 21 5 : BitVec (1 + 5 + 5)).extractLsb' 5 5 ++ i.extractLsb' 11 5 ++
      i.extractLsb' 0 11 : BitVec (5 + 5 + 5 + 11)).getLsbD k = _
    simp only [BitVec.getLsbD_append, BitVec.getLsbD_extractLsb']
    interval_cases k <;> simp
  · apply BitVec.eq_of_getLsbD_eq; intro k hk
    show ((x ++ i.extractLsb' 16 5 ++ i.extractLsb' 21 5 : BitVec (1 + 5 + 5)).extractLsb' 10 1).getLsbD k = _
    simp only [BitVec.getLsbD_append, BitVec.getLsbD_extractLsb']
    interval_cases k; simp

/-- The amount of an extended shift (spec 45 R448). -/
theorem extShift_eq (sa : BitVec 5) : (sa ++ 0#6 : BitVec 11).extractLsb' 6 5 = sa ∧
    (sa ++ 0#6 : BitVec 11).extractLsb' 0 6 = 0 := by
  revert sa; decide

/-- The operands of an extended SAVE or RESTORE in its prefix (spec 45 R478). -/
theorem extFrame_eq (xs : BitVec 3) (a : BitVec 4) (f : BitVec 8) :
    (xs ++ f.extractLsb' 4 4 ++ a : BitVec 11).extractLsb' 8 3 = xs ∧
    (xs ++ f.extractLsb' 4 4 ++ a : BitVec 11).extractLsb' 0 4 = a ∧
    ((xs ++ f.extractLsb' 4 4 ++ a : BitVec 11).extractLsb' 4 4 ++ f.extractLsb' 0 4 : BitVec 8) = f := by
  have h : ∀ k, (xs ++ f.extractLsb' 4 4 ++ a : BitVec 11).getLsbD k =
      if k < 4 then a.getLsbD k else if k < 8 then (f.extractLsb' 4 4).getLsbD (k - 4) else xs.getLsbD (k - 4 - 4) := by
    intro k
    show (xs ++ f.extractLsb' 4 4 ++ a : BitVec (3 + 4 + 4)).getLsbD k = _
    rw [BitVec.getLsbD_append, BitVec.getLsbD_append]
    split
    · rfl
    · split <;> split <;> first | rfl | omega
  refine ⟨?_, ?_, ?_⟩ <;> (apply BitVec.eq_of_getLsbD_eq; intro k hk)
  · rw [BitVec.getLsbD_extractLsb', h]; interval_cases k <;> simp
  · rw [BitVec.getLsbD_extractLsb', h]; interval_cases k <;> simp
  · show ((xs ++ f.extractLsb' 4 4 ++ a : BitVec 11).extractLsb' 4 4 ++ f.extractLsb' 0 4 : BitVec (4 + 4)).getLsbD k = _
    rw [BitVec.getLsbD_append]; simp only [BitVec.getLsbD_extractLsb', h]; interval_cases k <;> simp

/-- The code of WAIT (spec 43 R381). -/
theorem code19_eq (c : BitVec 19) (fn : BitVec 6) :
    (Fields.ofCode19 c fn).code19 = c ∧ (Fields.ofCode19 c fn).rs.extractLsb' 4 1 = 1 := by
  have h : ∀ k, (Fields.ofCode19 c fn).rs.getLsbD k = if k < 4 then (c.extractLsb' 15 4).getLsbD k else (1#1).getLsbD (k - 4) := by
    intro k
    show (1#1 ++ c.extractLsb' 15 4 : BitVec (1 + 4)).getLsbD k = _
    rw [BitVec.getLsbD_append]
  constructor <;> (apply BitVec.eq_of_getLsbD_eq; intro k hk)
  · show ((Fields.ofCode19 c fn).rs.extractLsb' 0 4 ++ c.extractLsb' 10 5 ++ c.extractLsb' 5 5 ++ c.extractLsb' 0 5 :
      BitVec (4 + 5 + 5 + 5)).getLsbD k = _
    simp only [BitVec.getLsbD_append, BitVec.getLsbD_extractLsb', h]
    interval_cases k <;> simp
  · rw [BitVec.getLsbD_extractLsb', h]; interval_cases k; simp

end Sys2Proof
end

