-- ==== Sys2Proof/Laws/LoadStore.lean ====
section
/-! SUPPORT. What the shared shapes of loads and stores do. -/

namespace Sys2Proof.Machine

/-! ## What an instruction sees does not depend on the registers or on memory -/

theorem State.view_congr {s t : State} (hc : t.cp0 = s.cp0) (hh : t.hazards = s.hazards) (hd : t.draws = s.draws)
    (u : Consumer) : t.view u = s.view u := by simp [State.view, hc, hh, hd]

theorem State.seen_congr {s t : State} (hc : t.cp0 = s.cp0) (hh : t.hazards = s.hazards) (hd : t.draws = s.draws) :
    t.seen = s.seen := State.view_congr hc hh hd _

@[simp] theorem State.write_view (s : State) (r : Reg) (v : Word) (u : Consumer) : (s.write r v).view u = s.view u :=
  State.view_congr (by simp) (by simp) (by simp) u

@[simp] theorem State.write_seen (s : State) (r : Reg) (v : Word) : (s.write r v).seen = s.seen :=
  State.seen_congr (by simp) (by simp) (by simp)

@[simp] theorem State.storeBytes_seen (s : State) (pa : Word) (vs : List Byte) : (s.storeBytes pa vs).seen = s.seen :=
  State.seen_congr (by simp) (by simp) (by simp)

/-! ## The data bus error -/

theorem State.loadTo_busError (s : State) (len : Word) (r : Reg) (f : Word → Word) :
    s.loadTo len r .busError f = (s.write r (s.free (.loadDestination r.toNat))).dataBusError (·.done len) := rfl

theorem State.storeTo_busError (s : State) (len : Word) :
    s.storeTo len .busError = s.dataBusError (·.done len) := rfl

theorem State.write_entered {s t : State} {e : Exc} {r : Reg} {v : Word} (h : Entered (s.write r v) t e) :
    Entered s t e := by
  unfold Entered at *
  simpa [restartAddress] using h

/-- A data bus error that is not held back is taken; of the registers only the destination changes (spec 20 R124). -/
theorem raisesBusError_of_faulted {i : Instr} {s : State} {r : Reg} {v : Word} {k : State → Result}
    (ht : TakesExceptions s) (h : exec i s = (s.write r v).dataBusError k) : RaisesBusError i s [r] := by
  refine ⟨(s.write r v).takeException .dbe, ?_, State.write_entered (State.takeException_entered _ _), ?_,
    ⟨by simp, by simp, by simp⟩, keepsMemory_of_mem (by simp) _⟩
  · rw [h, State.dataBusError, if_neg (by simp [ht.2]), State.raise_eq (by simp [ht.1])]
  · intro k q hq
    exact (State.regOf_congr (by simp) k q).trans (keepsRegs_write s r v [r] (by simp) k q hq)

theorem raisesBusError_of_same {i : Instr} {s : State} {k : State → Result} (ht : TakesExceptions s)
    (h : exec i s = s.dataBusError k) (regs : List Reg) : RaisesBusError i s regs := by
  refine ⟨s.takeException .dbe, ?_, State.takeException_entered _ _, keepsRegs_of_gpr (by simp) _,
    ⟨by simp, by simp, by simp⟩, keepsMemory_of_mem (by simp) _⟩
  rw [h, State.dataBusError, if_neg (by simp [ht.2]), State.raise_eq ht.1]

/-- What a data bus error does that is held pending (spec 10 R36, R75). -/
theorem holdsBusError_of_done {i : Instr} {s : State} {len : Word} (hi : s.cp0.debugReg.iexi = true)
    (h : exec i s = s.dataBusError (·.done len)) (regs : List Reg) : HoldsBusError i s len regs := by
  refine ⟨s.holdBusError.advance len, ?_, by simp, keepsRegs_of_gpr (by simp) _, ⟨by simp, by simp, by simp⟩,
    keepsMemory_of_mem (by simp) _, ⟨by simp, by simp, by simp, by simp, by simp, by simp⟩, fun hb => ?_,
    goesOn_advance len (by simp) (by simp) (by simp)⟩
  · rw [h, State.dataBusError, if_pos hi]; rfl
  · have := State.advance_hazards (s := s.holdBusError) len hb
    exact ⟨this.1, this.2.1⟩

/-- The same of a load; of the registers only the destination changes (spec 20 R124, 10 R75). -/
theorem holdsBusError_of_loaded {i : Instr} {s : State} {len : Word} {r : Reg} {v : Word}
    (hi : s.cp0.debugReg.iexi = true) (h : exec i s = (s.write r v).dataBusError (·.done len)) :
    HoldsBusError i s len [r] := by
  refine ⟨(s.write r v).holdBusError.advance len, ?_, by simp, fun k q hq => ?_, ⟨by simp, by simp, by simp⟩,
    keepsMemory_of_mem (by simp) _, ⟨by simp, by simp, by simp, by simp, by simp, by simp⟩, fun hb => ?_,
    goesOn_advance len (by simp) (by simp) (by simp)⟩
  · rw [h, State.dataBusError, if_pos (by simpa using hi)]; rfl
  · exact (State.regOf_congr (by simp) k q).trans (keepsRegs_write s r v [r] (by simp) k q hq)
  · have := State.advance_hazards (s := (s.write r v).holdBusError) len (by simpa [NoBarrier] using hb)
    exact ⟨by simpa using this.1, by simpa using this.2.1⟩

/-! ## Loads -/

/-- What a load does. -/
theorem loads_of_loadTo {i : Instr} {s : State} {len : Word} {rd : Reg} {w : Width} {va v : Word} {f : Word → Word}
    (h : exec i s = s.loadTo len rd (s.memRead w va) f)
    (hv : f (BitVec.ofNat 32 (s.valueAt (dataAddress s.seen w va) w.bytes)) = v) : Loads i s len rd w va v := by
  refine ⟨fun ha => ?_, fun ha hd => ?_, fun ha ht => ?_, fun ha hi => ?_, fun ha => ?_⟩
  · rw [State.memRead_ok ha] at h
    refine ⟨_, writes_of_result h, fun hm => ?_⟩
    rw [State.busValue_eq hm, hv]
    exact dataAddress_fits _ _ _ (by
      have := ha.1
      unfold AddressError at this
      omega)
  · rw [State.memRead_addressError ha] at h
    exact raises_of_raise h hd
  · rw [State.memRead_busError ha, State.loadTo_busError] at h
    exact raisesBusError_of_faulted ht h
  · rw [State.memRead_busError ha, State.loadTo_busError] at h
    exact holdsBusError_of_loaded hi h
  · rw [State.memRead_dseg ha] at h
    exact h

/-! ## Stores -/

/-- A read after a run of bytes was written. -/
theorem Memory.read_writes_run {m : Memory} (h : m.wf) (base n : Nat) (b : Nat → Byte) (hb : base + n ≤ 4294967296)
    (a : Nat) :
    (((List.range n).map fun k => (base + k, b k)).foldl (fun m c => m.write c.1 c.2) m).read a =
      if base ≤ a ∧ a < base + n then b (a - base) else m.read a := by
  induction n with
  | zero => simp
  | succ n ih =>
    have hw := Memory.wf_writes h (cs := (List.range n).map fun k => (base + k, b k)) fun c hc => by
      obtain ⟨k, hk, rfl⟩ := List.mem_map.1 hc
      have := List.mem_range.1 hk
      dsimp only; omega
    rw [List.range_succ, List.map_append, List.foldl_append]
    simp only [List.map_cons, List.map_nil, List.foldl_cons, List.foldl_nil]
    rw [Memory.read_write hw, ih (by omega)]
    by_cases e : a = base + n
    · rw [if_pos e, if_pos (by omega)]; congr 1; omega
    · rw [if_neg e]
      by_cases e2 : base ≤ a ∧ a < base + n
      · rw [if_pos e2, if_pos (by omega)]
      · rw [if_neg e2, if_neg (by omega)]

theorem State.storedCells_eq (s : State) (pa : Word) (vs : List Byte) :
    s.storedCells pa vs =
      (List.range vs.length).flatMap fun k => s.storedCell (pa + BitVec.ofNat 32 k) (vs.getD k 0) := by
  induction vs generalizing pa with
  | nil => rfl
  | cons v vs ih =>
    rw [State.storedCells, ih, List.length_cons, List.range_succ_eq_map, List.flatMap_cons, List.flatMap_map]
    congr 1
    · simp
    · congr 1; funext k
      rw [BitVec.add_assoc, List.getD_cons_succ]
      congr 2
      rw [Nat.succ_eq_add_one, Nat.add_comm, BitVec.ofNat_add]; rfl

theorem flatMap_singleton_range {α : Type} {n : Nat} {f : Nat → List α} {g : Nat → α} (h : ∀ k < n, f k = [g k]) :
    (List.range n).flatMap f = (List.range n).map g := by
  induction n with
  | zero => rfl
  | succ n ih =>
    rw [List.range_succ, List.flatMap_append, List.map_append, ih fun k hk => h k (by omega)]
    simp [h n (by omega)]

/-- A store whose bytes change one cell each, from `base` on. -/
theorem storedBytes_of_cells {s t : State} (hw : s.mem.wf) {pa base : Word} {vs : List Byte} {b : Nat → Byte}
    (ht : t.mem = (s.storeBytes pa vs).mem) (hf : base.toNat % 4 + vs.length ≤ 4)
    (hc : ∀ k < vs.length, s.storedCell (pa + BitVec.ofNat 32 k) (vs.getD k 0) = [((base.toNat + k), b k)]) :
    StoredBytes s t base vs.length b := by
  have hr : ∀ a, t.mem.read a = if base.toNat ≤ a ∧ a < base.toNat + vs.length then b (a - base.toNat)
      else s.mem.read a := fun a => by
    rw [ht]
    show ((s.storedCells pa vs).foldl (fun m c => m.write c.1 c.2) s.mem).read a = _
    rw [State.storedCells_eq, flatMap_singleton_range hc]
    exact Memory.read_writes_run hw _ _ _ (by have := base.isLt; omega) a
  refine ⟨fun k hk => ?_, fun a ha => ?_⟩
  · rw [hr, toNat_add_small base k (by omega), if_pos (by omega)]
    congr 1; omega
  · rw [hr, if_neg]
    rintro ⟨h1, h2⟩
    apply ha
    simp only [List.mem_map, List.mem_range]
    refine ⟨a - base.toNat, by omega, ?_⟩
    rw [toNat_add_small base _ (by omega)]; omega

theorem keepsMemory_of_noCells {s t : State} {pa : Word} {vs : List Byte} (ht : t.mem = (s.storeBytes pa vs).mem)
    (hc : ∀ k < vs.length, s.storedCell (pa + BitVec.ofNat 32 k) (vs.getD k 0) = []) : KeepsMemory s t [] := by
  have e : s.storedCells pa vs = [] := by
    rw [State.storedCells_eq, List.flatMap_eq_nil_iff]
    intro k hk
    exact hc k (List.mem_range.1 hk)
  intro a _
  rw [ht]
  show ((s.storedCells pa vs).foldl (fun m c => m.write c.1 c.2) s.mem).read a = _
  rw [e]; rfl

theorem register_toNat (x : Word) : (x &&& 0xFFFFFFF3).toNat = x.toNat / 16 * 16 + x.toNat % 4 := by
  have h : x &&& 0xFFFFFFF3 = (x.extractLsb' 4 28 ++ 0#2 ++ x.extractLsb' 0 2 : BitVec (28 + 2 + 2)) := by
    apply BitVec.eq_of_getLsbD_eq; intro i hi
    rw [BitVec.getLsbD_append, BitVec.getLsbD_append]
    interval_cases i <;> simp
  rw [h]
  have : (x.extractLsb' 4 28 ++ 0#2 ++ x.extractLsb' 0 2 : BitVec (28 + 2 + 2)).toNat = x.toNat / 16 * 16 + x.toNat % 4 := by
    rw [BitVec.toNat_append, BitVec.toNat_append, Nat.shiftLeft_eq, Nat.shiftLeft_eq, Nat.mul_comm _ (2 ^ 2),
      ← Nat.two_pow_add_eq_or_of_lt (BitVec.isLt _), Nat.mul_comm _ (2 ^ 2), ← Nat.two_pow_add_eq_or_of_lt (BitVec.isLt _)]
    simp only [BitVec.extractLsb'_toNat, Nat.shiftRight_eq_div_pow, BitVec.toNat_ofNat]
    have := x.isLt
    omega
  exact this

theorem register_add {pa : Word} {k : Nat} (h : pa.toNat % 4 + k < 4) :
    ((pa + BitVec.ofNat 32 k) &&& ~~~12#32).toNat = (pa &&& 0xFFFFFFF3).toNat + k := by
  show ((pa + BitVec.ofNat 32 k) &&& 0xFFFFFFF3).toNat = _
  rw [register_toNat, register_toNat, toNat_add_small pa k h]
  omega

/-- What bytes stored inside one aligned word change, region by region (spec 20 R110, R115, R119). -/
theorem storedAt_of_storeBytes {s t : State} (hw : s.mem.wf) {pa : Word} {vs : List Byte} {v : Nat}
    (ht : t.mem = (s.storeBytes pa vs).mem) (hf : pa.toNat % 4 + vs.length ≤ 4)
    (hv : ∀ k < vs.length, vs.getD k 0 = numberByte v k) : StoredAt s t pa vs.length v := by
  have hreg : ∀ k < vs.length, s.region (pa + BitVec.ofNat 32 k) = s.region pa := fun k hk =>
    s.region_congr (wordAddress_add pa k (by omega))
  have hslot : ∀ k < vs.length, (pa + BitVec.ofNat 32 k).extractLsb' 2 2 = pa.extractLsb' 2 2 := fun k hk =>
    slot_congr (wordAddress_add pa k (by omega))
  have hbase : (pa &&& 0xFFFFFFF3).toNat % 4 + vs.length ≤ 4 := by rw [register_toNat]; omega
  have hval : ∀ k < vs.length, ((pa &&& 0xFFFFFFF3) + BitVec.ofNat 32 k).toNat = (pa &&& 0xFFFFFFF3).toNat + k :=
    fun k hk => toNat_add_small _ k (by omega)
  unfold StoredAt
  split
  · rename_i h
    exact storedBytes_of_cells hw ht hf fun k hk => by
      rw [State.storedCell, hreg k hk, h, ← hv k hk, ← toNat_add_small pa k (by omega)]
  · rename_i h
    exact storedBytes_of_cells hw ht hf fun k hk => by
      rw [State.storedCell, hreg k hk, h, ← hv k hk, ← toNat_add_small pa k (by omega)]
  · rename_i h
    exact keepsMemory_of_noCells ht fun k hk => by rw [State.storedCell, hreg k hk, h]
  · rename_i h
    exact keepsMemory_of_noCells ht fun k hk => by rw [State.storedCell, hreg k hk, h]
  · rename_i clr set inv h
    have hcell : ∀ k (hk : k < vs.length), s.storedCell (pa + BitVec.ofNat 32 k) (vs.getD k 0) =
        if pa.extractLsb' 2 2 = 0 then [((pa &&& 0xFFFFFFF3).toNat + k, numberByte v k)]
        else if pa.extractLsb' 2 2 = set then [((pa &&& 0xFFFFFFF3).toNat + k,
          s.mem.read ((pa &&& 0xFFFFFFF3) + BitVec.ofNat 32 k).toNat ||| numberByte v k)]
        else if pa.extractLsb' 2 2 = clr then [((pa &&& 0xFFFFFFF3).toNat + k,
          s.mem.read ((pa &&& 0xFFFFFFF3) + BitVec.ofNat 32 k).toNat &&& ~~~numberByte v k)]
        else if pa.extractLsb' 2 2 = inv then [((pa &&& 0xFFFFFFF3).toNat + k,
          s.mem.read ((pa &&& 0xFFFFFFF3) + BitVec.ofNat 32 k).toNat ^^^ numberByte v k)]
        else [] := fun k hk => by
      rw [State.storedCell, hreg k hk, h]
      simp only [hslot k hk, register_add (pa := pa) (k := k) (by omega), hval k hk, hv k hk]
    dsimp only
    split_ifs with h0 h1 h2 h3
    · exact storedBytes_of_cells hw ht hbase fun k hk => by rw [hcell k hk, if_pos h0]
    · exact storedBytes_of_cells hw ht hbase fun k hk => by rw [hcell k hk, if_neg h0, if_pos h1]
    · exact storedBytes_of_cells hw ht hbase fun k hk => by rw [hcell k hk, if_neg h0, if_neg h1, if_pos h2]
    · exact storedBytes_of_cells hw ht hbase fun k hk => by rw [hcell k hk, if_neg h0, if_neg h1, if_neg h2, if_pos h3]
    · exact keepsMemory_of_noCells ht fun k hk => by rw [hcell k hk, if_neg h0, if_neg h1, if_neg h2, if_neg h3]

theorem byteOf_eq (v : Word) (k : Nat) : byteOf v k = numberByte v.toNat k := by
  unfold numberByte
  apply BitVec.eq_of_toNat_eq
  rw [byteOf, BitVec.extractLsb'_toNat, BitVec.toNat_ofNat, Nat.shiftRight_eq_div_pow, pow_mul]; rfl

theorem storedBytes_length (w : Width) (v : Word) : (storedBytes w v).length = w.bytes := by cases w <;> rfl

theorem storedBytes_getD (w : Width) (v : Word) (k : Nat) (h : k < w.bytes) :
    (storedBytes w v).getD k 0 = numberByte v.toNat k := by
  rw [← byteOf_eq]
  cases w <;> simp only [Width.bytes] at h
  · interval_cases k; rfl
  · interval_cases k <;> rfl
  · interval_cases k <;> rfl

/-- The frame of a store. -/
theorem stores_frame (s : State) (len pa : Word) (vs : List Byte) :
    KeepsRegs s ((s.storeBytes pa vs).advance len) [] ∧ KeepsHiLo s ((s.storeBytes pa vs).advance len) ∧
      KeepsSystem s ((s.storeBytes pa vs).advance len) ∧ GoesOn s ((s.storeBytes pa vs).advance len) len :=
  ⟨keepsRegs_of_gpr (by simp) _, ⟨by simp, by simp, by simp⟩,
    keepsSystem_advance len (by simp) (by simp) ⟨by simp, by simp, by simp, by simp, by simp, by simp⟩ (by simp)
      (by simp) (by simp),
    goesOn_advance len (by simp) (by simp) (by simp)⟩

/-- What a store does. -/
theorem stores_of_storeTo {i : Instr} {s : State} {len : Word} {w : Width} {va v : Word}
    (h : exec i s = s.storeTo len (s.memWrite w va v)) : Stores i s len w va v := by
  refine ⟨fun ha hw => ?_, fun ha hd => ?_, fun ha ht => ?_, fun ha hi => ?_, fun ha => ?_⟩
  · rw [State.memWrite_ok ha] at h
    obtain ⟨h1, h2, h3, h4⟩ := stores_frame s len (dataAddress s.seen w va) (storedBytes w v)
    refine ⟨_, h, h1, h2, h3, h4, ?_⟩
    have hf := dataAddress_fits s.seen w va (by
      have := ha.1
      unfold AddressError at this
      omega)
    have := storedAt_of_storeBytes (pa := dataAddress s.seen w va) (t := (s.storeBytes (dataAddress s.seen w va) (storedBytes w v)).advance len) hw
      (by simp) (by rw [storedBytes_length]; exact hf)
      (fun k hk => storedBytes_getD w v k (by rwa [storedBytes_length] at hk))
    rwa [storedBytes_length] at this
  · rw [State.memWrite_addressError ha] at h
    exact raises_of_raise h hd
  · rw [State.memWrite_busError ha, State.storeTo_busError] at h
    exact raisesBusError_of_same ht h _
  · rw [State.memWrite_busError ha, State.storeTo_busError] at h
    exact holdsBusError_of_done hi h _
  · rw [State.memWrite_dseg ha] at h
    exact h

/-! ## The unaligned loads and stores -/

theorem partialByte_eq (s : State) (va : Word) : partialByte s.seen va = byteIndex s va := by
  have h : ∀ x : BitVec 2, (x ^^^ 3).toNat = 3 - x.toNat ∧ (x ^^^ 0).toNat = x.toNat := by decide
  have e : (va.extractLsb' 0 2).toNat = va.toNat % 4 := by simp [BitVec.extractLsb'_toNat]
  unfold partialByte byteIndex reversed
  by_cases hr : s.seen.userMode = true ∧ s.seen.status.re = true
  · rw [if_pos hr, if_pos (by simp [hr]), (h _).1, e]
  · rw [if_neg hr, if_neg (by simpa using hr), (h _).2, e]

theorem byteIndex_lt (s : State) (va : Word) : byteIndex s va < 4 := by
  unfold byteIndex; split <;> omega

theorem wordAt_aligned (s : State) (va : Word) : (wordAt s va).toNat % 4 = 0 := by
  rw [wordAt, translate_mod, wordAddress_toNat]; omega

/-- The register after LWL, as a number (spec 40 R207). -/
theorem merge_left_eq (old w : Word) {b : Nat} (hb : b < 4) :
    mergeLeft old w b = BitVec.ofNat 32 (w.toNat % 256 ^ (b + 1) * 256 ^ (3 - b) + old.toNat % 256 ^ (3 - b)) := by
  apply BitVec.eq_of_toNat_eq
  have hs : 8 * (3 - b) ≤ 32 := by omega
  have h256 : ∀ k, (256 : Nat) ^ k = 2 ^ (8 * k) := fun k => by rw [pow_mul]; norm_num
  have hl : old.toNat % 2 ^ (8 * (3 - b)) < 2 ^ (8 * (3 - b)) := Nat.mod_lt _ (by positivity)
  have hm : w.toNat * 2 ^ (8 * (3 - b)) % 2 ^ 32 = 2 ^ (8 * (3 - b)) * (w.toNat % 2 ^ (8 * (b + 1))) := by
    have : (2 : Nat) ^ 32 = 2 ^ (8 * (b + 1)) * 2 ^ (8 * (3 - b)) := by rw [← pow_add]; congr 1; omega
    rw [this, Nat.mul_mod_mul_right, Nat.mul_comm]
  rw [mergeLeft, BitVec.toNat_or, low_ones_and _ _ hs, BitVec.toNat_shiftLeft, Nat.shiftLeft_eq, hm,
    ← Nat.two_pow_add_eq_or_of_lt hl, BitVec.toNat_ofNat, h256, h256, Nat.mul_comm (2 ^ (8 * (3 - b)))]
  refine (Nat.mod_eq_of_lt ?_).symm
  have h2 : (2 : Nat) ^ 32 = 2 ^ (8 * (b + 1)) * 2 ^ (8 * (3 - b)) := by rw [← pow_add]; congr 1; omega
  have h3 : w.toNat % 2 ^ (8 * (b + 1)) + 1 ≤ 2 ^ (8 * (b + 1)) := Nat.mod_lt _ (by positivity)
  have h4 := Nat.mul_le_mul_right (2 ^ (8 * (3 - b))) h3
  rw [h2]
  rw [Nat.add_mul] at h4
  omega

/-- The register after LWR, as a number (spec 40 R208). -/
theorem merge_right_eq (old w : Word) {b : Nat} (hb : b < 4) :
    mergeRight old w b = BitVec.ofNat 32 (w.toNat / 256 ^ b + old.toNat / 256 ^ (4 - b) * 256 ^ (4 - b)) := by
  have h256 : ∀ k, (256 : Nat) ^ k = 2 ^ (8 * k) := fun k => by rw [pow_mul]; norm_num
  have hw : w.toNat / 2 ^ (8 * b) < 2 ^ (8 * (4 - b)) := by
    apply Nat.div_lt_of_lt_mul
    rw [← pow_add, show 8 * b + 8 * (4 - b) = 32 by omega]; exact w.isLt
  apply BitVec.eq_of_getLsbD_eq; intro i hi
  rw [BitVec.getLsbD_ofNat, h256, h256, Nat.add_comm, Nat.mul_comm, Nat.testBit_two_pow_mul_add _ hw]
  simp only [mergeRight, BitVec.getLsbD_or, BitVec.getLsbD_ushiftRight, BitVec.getLsbD_and, BitVec.getLsbD_not, hi,
    decide_true, Bool.true_and]
  have hone : ∀ j, (0xFFFFFFFF#32).getLsbD j = decide (j < 32) := fun j => by
    rw [show (0xFFFFFFFF#32) = BitVec.allOnes 32 from rfl, BitVec.getLsbD_allOnes]
  rw [hone]
  by_cases h : i < 8 * (4 - b)
  · rw [if_pos h, decide_eq_true (by omega : 8 * b + i < 32), Nat.testBit_div_two_pow, BitVec.getLsbD]
    simp [Nat.add_comm]
  · rw [if_neg h, decide_eq_false (by omega : ¬ 8 * b + i < 32), Nat.testBit_div_two_pow, BitVec.getLsbD,
      BitVec.getLsbD, Nat.testBit_lt_two_pow (lt_of_lt_of_le w.isLt (Nat.pow_le_pow_right (by decide) (by omega)))]
    simp only [Bool.not_false, Bool.and_true, Bool.false_or]
    congr 1; omega

/-- What LWL and LWR do. -/
theorem partialLoads_of_loadTo {i : Instr} {s : State} {rd : Reg} {va v : Word} {f : Word → Word}
    (h : exec i s = s.loadTo 4 rd (s.memReadPartial va) f) (hv : f (BitVec.ofNat 32 (s.valueAt (wordAt s va) 4)) = v) :
    PartialLoads i s rd va v := by
  have hn : ∀ {va}, ¬ AddressError s .byte va → ¬ (!allowed s.seen va) = true := fun h1 => by
    rwa [addressError_byte_iff] at h1
  refine ⟨fun h1 h2 h3 => ?_, fun h1 hd => ?_, fun h1 h2 h3 => ?_, fun ha => ?_⟩
  · have e : s.memReadPartial va = .ok (s.busValue .word (wordAt s va)) := by
      simp only [State.memReadPartial]
      rw [if_neg (hn h1), if_neg (by simp [h2])]
      exact if_pos h3
    rw [e] at h
    refine ⟨_, writes_of_result h, fun hm => ?_⟩
    have hal := wordAt_aligned s va
    rw [State.busValue_eq hm (by simp only [Width.bytes]; omega), ← hv]; rfl
  · have e : s.memReadPartial va = .addressError va := by
      rw [addressError_byte_iff] at h1
      simp only [State.memReadPartial]
      rw [if_pos h1]
    rw [e] at h
    exact raises_of_raise h hd
  · have e : s.memReadPartial va = .busError := by
      simp only [State.memReadPartial]
      rw [if_neg (hn h1), if_neg (by simp [h2])]
      exact if_neg (by rw [← wordAt, h3]; decide)
    rw [e, State.loadTo_busError] at h
    exact ⟨fun ht => raisesBusError_of_faulted ht h, fun hi => holdsBusError_of_loaded hi h⟩
  · have e : s.memReadPartial va = .dseg := by
      simp only [State.memReadPartial]
      rw [if_neg (hn ha.1), if_pos ha.2]
    rw [e] at h
    exact h

/-- What SWL and SWR do. -/
theorem partialStores_of_storeTo {i : Instr} {s : State} {va v pa : Word} {left : Bool} {bs : List Byte} {n x : Nat}
    (h : exec i s = s.storeTo 4 (s.memWritePartial left va v)) (hn : bs.length = n)
    (hb : (if left then s.storeBytes (wordAt s va) (leftBytes v (byteIndex s va))
      else s.storeBytes (wordAt s va + BitVec.ofNat 32 (byteIndex s va)) (rightBytes v (byteIndex s va))) =
      s.storeBytes pa bs)
    (hf : pa.toNat % 4 + n ≤ 4)
    (hv : ∀ k < n, bs.getD k 0 = numberByte x k) : PartialStores i s va pa n x := by
  have hnot : ∀ {va}, ¬ AddressError s .byte va → ¬ (!allowed s.seen va) = true := fun h1 => by
    rwa [addressError_byte_iff] at h1
  refine ⟨fun h1 h2 h3 hw => ?_, fun h1 hd => ?_, fun h1 h2 h3 => ?_, fun ha => ?_⟩
  · have e : s.memWritePartial left va v = .ok (s.storeBytes pa bs) := by
      simp only [State.memWritePartial]
      rw [if_neg (hnot h1), if_neg (by simp [h2]), ← hb, partialByte_eq]
      exact if_pos h3
    rw [e] at h
    obtain ⟨k1, k2, k3, k4⟩ := stores_frame s 4 pa bs
    refine ⟨_, h, k1, k2, k3, k4, ?_⟩
    have := storedAt_of_storeBytes (pa := pa) (t := (s.storeBytes pa bs).advance 4) (v := x) hw (by simp) (by rw [hn]; exact hf)
      (fun k hk => hv k (hn ▸ hk))
    rwa [hn] at this
  · have e : s.memWritePartial left va v = .addressError va := by
      rw [addressError_byte_iff] at h1
      simp only [State.memWritePartial]
      rw [if_pos h1]
    rw [e] at h
    exact raises_of_raise h hd
  · have e : s.memWritePartial left va v = .busError := by
      simp only [State.memWritePartial]
      rw [if_neg (hnot h1), if_neg (by simp [h2])]
      exact if_neg (by rw [← wordAt, h3]; decide)
    rw [e, State.storeTo_busError] at h
    exact ⟨fun ht => raisesBusError_of_same ht h _, fun hi => holdsBusError_of_done hi h _⟩
  · have e : s.memWritePartial left va v = .dseg := by
      simp only [State.memWritePartial]
      rw [if_neg (hnot ha.1), if_pos ha.2]
    rw [e] at h
    exact h

end Sys2Proof.Machine
end

