-- ==== Sys2Proof/Laws/Hazards.lean ====
section
/-! SUPPORT. What a consumer sees of coprocessor 0 while hazards are pending, what a fetch sees of stored bytes, and the end of the instruction in the slot of a jump with barrier. -/

namespace Sys2Proof.Machine

/-! ## The view of a consumer -/

/-- A field that no pending hazard lets the consumer see old is seen as it is. -/
theorem viewFrom_field {α : Type} (field : Cp0 → α) (use : Consumer) {hs : List Hazard}
    (h : ∀ x ∈ hs, ∀ (old : HazardPart → Bool) (older now : Cp0), field older = field (x.reg.put now x.old) →
      field (x.apply use old older now) = field now) (draws k : Nat) (now : Cp0) :
    field (viewFrom draws use hs k now) = field now := by
  induction hs generalizing k now with
  | nil => rfl
  | cons x xs ih => exact h x (by simp) _ _ now (ih (fun y hy => h y (by simp [hy])) _ _)

theorem State.view_field {α : Type} (field : Cp0 → α) (use : Consumer) {s : State}
    (h : ∀ x ∈ s.hazards, ∀ (old : HazardPart → Bool) (older now : Cp0), field older = field (x.reg.put now x.old) →
      field (x.apply use old older now) = field now) : field (s.view use) = field s.cp0 :=
  viewFrom_field field use h _ _ _

/-- With one hazard pending, the view is what that hazard makes of it. -/
theorem State.view_one {s : State} {h : Hazard} (hs : s.hazards = [h]) (use : Consumer) :
    s.view use = h.apply use (fun p => Config.freeBit s.draws (.seesOld (use = .interrupt) 0 p))
      (h.reg.put s.cp0 h.old) s.cp0 := by
  unfold State.view; rw [hs]; rfl

/-! ## Fetches of stored bytes -/

/-- An aligned word that no pending store touches is fetched as it is (spec 20 R141). -/
theorem fetchByteFrom_untouched {es : List StaleStore} {a b : Nat} (hb : a ≤ b ∧ b < a + 4)
    (h : ∀ e ∈ es, e.touches a = false) (draws fetch k : Nat) (now : Byte) :
    fetchByteFrom draws fetch b es k now now = now := by
  induction es generalizing k with
  | nil => rfl
  | cons e es ih =>
    have he : e.undo b now = now := by
      unfold StaleStore.undo
      have hn : e.cells.find? (fun c => c.1 = b) = none := by
        rw [List.find?_eq_none]
        intro c hc hcb
        have hf := h e (by simp)
        simp only [StaleStore.touches, List.any_eq_false, Bool.and_eq_true, decide_eq_true_eq] at hf
        have := hf c hc
        simp only [decide_eq_true_eq] at hcb
        omega
      rw [hn]
    simp only [fetchByteFrom, he, ite_self]
    exact ih (fun x hx => h x (by simp [hx])) _

theorem State.fetchByte_untouched {s : State} {pa : Word}
    (h : ∀ e ∈ s.stale, e.touches (wordAddress pa).toNat = false) (f : Word) : s.fetchByte f pa = s.busByte pa :=
  fetchByteFrom_untouched (by rw [wordAddress_toNat]; omega) h _ _ _ _

/-! ## The slot of a jump with barrier -/

/-- No hazard is pending in the next state, if there is one. -/
def Settles (r : Result) : Prop := ∀ t, r = .next t → t.hazards = [] ∧ t.fetchHazards = []

/-- The instruction stands in the slot of a jump with barrier. -/
def InBarrierSlot (s : State) : Prop := ∃ d, s.delay = some d ∧ d.barrier = true

theorem settles_fault (f : Fault) : Settles (.fault f) := fun _ h => by cases h

theorem settles_refused (r : Refusal) : Settles (.refused r) := fun _ h => by cases h

theorem settles_raise (s : State) (e : Exc) : Settles (.next (s.raise e)) := fun t h => by cases h; simp

theorem settles_advance {s u : State} (h : InBarrierSlot s) (hd : u.delay = s.delay) (len : Word) :
    Settles (.next (u.advance len)) := by
  obtain ⟨d, h1, h2⟩ := h
  intro t ht; cases ht
  simp [State.advance, hd, h1, State.land, h2]

theorem settles_outsideSlot {s : State} (h : InBarrierSlot s) (k : Result) : Settles (s.outsideSlot k) := by
  obtain ⟨d, h1, _⟩ := h
  rw [State.outsideSlot, if_pos (by simp [h1])]
  exact settles_fault _

theorem settles_result {s u : State} (h : InBarrierSlot s) (hd : u.delay = s.delay) (len : Word) (r : Reg) (v : Word) :
    Settles (u.result len r v) := settles_advance h (by simpa using hd) len

theorem settles_resultOrOverflow {s : State} (h : InBarrierSlot s) (r : Reg) (o : Bool) (v : Word) :
    Settles (s.resultOrOverflow r o v) := by
  unfold State.resultOrOverflow; split
  · exact settles_raise _ _
  · exact settles_result h rfl _ _ _

theorem settles_trap {s : State} (h : InBarrierSlot s) (c : Bool) : Settles (s.trap c) := by
  unfold State.trap; split
  · exact settles_raise _ _
  · exact settles_advance h rfl _

theorem settles_needCop0 (s : State) (use : Consumer) {k : Result} (h : Settles k) : Settles (s.needCop0 use k) := by
  unfold State.needCop0; split
  · exact h
  · exact settles_raise _ _

/-- The continuation settles in every state with the same pending transfer. -/
def SettlesTo (s : State) (k : State → Result) : Prop := ∀ t : State, t.delay = s.delay → Settles (k t)

theorem settlesTo_done {s : State} (h : InBarrierSlot s) (len : Word) : SettlesTo s (·.done len) :=
  fun _ hd => settles_advance h hd len

theorem settles_loadWith {s u : State} (hd : u.delay = s.delay) (r : Reg) (m : MemResult Word) (f : Word → Word)
    {k held : State → Result} (hk : SettlesTo s k) (hh : SettlesTo s held) : Settles (u.loadWith r m f k held) := by
  cases m with
  | ok v => exact hk _ (by simpa using hd)
  | addressError va => exact settles_raise _ _
  | busError =>
    show Settles ((u.freeLoaded r).dataBusError held)
    unfold State.dataBusError; split
    · exact hh _ (by simpa using hd)
    · exact settles_raise _ _
  | dseg => exact settles_refused _

theorem settles_storeWith {s u : State} (hd : u.delay = s.delay) {m : MemResult State}
    (hm : ∀ t, m = .ok t → t.delay = s.delay) {k held : State → Result} (hk : SettlesTo s k)
    (hh : SettlesTo s held) : Settles (u.storeWith m k held) := by
  cases m with
  | ok t => exact hk _ (hm t rfl)
  | addressError va => exact settles_raise _ _
  | busError =>
    show Settles (u.dataBusError held)
    unfold State.dataBusError; split
    · exact hh _ (by simpa using hd)
    · exact settles_raise _ _
  | dseg => exact settles_refused _

theorem State.memWrite_delay {s t : State} {w : Width} {va v : Word} (h : s.memWrite w va v = .ok t) :
    t.delay = s.delay := by
  simp only [State.memWrite] at h
  split_ifs at h
  cases h; simp

theorem State.memWritePartial_delay {s t : State} {left : Bool} {va v : Word}
    (h : s.memWritePartial left va v = .ok t) : t.delay = s.delay := by
  simp only [State.memWritePartial] at h
  split_ifs at h <;> (cases h; simp)

theorem settles_loadTo {s : State} (h : InBarrierSlot s) (len : Word) (r : Reg) (m : MemResult Word) (f : Word → Word) :
    Settles (s.loadTo len r m f) := settles_loadWith rfl r m f (settlesTo_done h len) (settlesTo_done h len)

theorem settles_storeTo {s : State} (h : InBarrierSlot s) (len : Word) {m : MemResult State}
    (hm : ∀ t, m = .ok t → t.delay = s.delay) : Settles (s.storeTo len m) :=
  settles_storeWith rfl hm (settlesTo_done h len) (settlesTo_done h len)

theorem settles_pushWords {s u : State} (h : InBarrierSlot s) (hd : u.delay = s.delay) (len top : Word)
    {f : State → State} (hf : ∀ t, (f t).delay = t.delay) (vs : List Word) : Settles (u.pushWords len top f vs) := by
  induction vs generalizing u top with
  | nil => exact settles_advance h ((hf u).trans hd) len
  | cons v vs ih =>
    have hk : SettlesTo s fun t => t.othersWrite.pushWords len (top - 4) f vs := fun t ht => ih (by simpa using ht) _
    exact settles_storeWith hd (fun t e => (State.memWrite_delay e).trans hd) hk hk

theorem settles_popWords {s u : State} (h : InBarrierSlot s) (hd : u.delay = s.delay) (len top : Word)
    {f : State → State} (hf : ∀ t, (f t).delay = t.delay) (rs : List Reg) : Settles (u.popWords len top f rs) := by
  induction rs generalizing u top with
  | nil => exact settles_advance h ((hf u).trans hd) len
  | cons r rs ih =>
    have hk : SettlesTo s fun t => t.othersWrite.popWords len (top - 4) f rs := fun t ht => ih (by simpa using ht) _
    exact settles_loadWith hd r _ id hk hk

end Sys2Proof.Machine
end

