-- ==== Sys2Proof/Laws/Invariant.lean ====
section
/-! SUPPORT. The shared operations keep the invariant of the machine. -/

namespace Sys2Proof.Machine

/-- The outcome is no next state, or one that meets the invariant. -/
def KeepsInv (r : Result) : Prop := ∀ t, r = .next t → t.Inv

theorem keepsInv_next {t : State} (h : t.Inv) : KeepsInv (.next t) := fun u hu => by cases hu; exact h

theorem keepsInv_fault (f : Fault) : KeepsInv (.fault f) := fun _ h => by cases h

theorem keepsInv_refused (r : Refusal) : KeepsInv (.refused r) := fun _ h => by cases h

/-! ## Even addresses -/

theorem even_add {a b : Word} (ha : a.getLsbD 0 = false) (hb : b.getLsbD 0 = false) : (a + b).getLsbD 0 = false := by
  have h0 : ∀ x : Word, x.getLsbD 0 = decide (x.toNat % 2 = 1) := fun x => by simp [BitVec.getLsbD, Nat.testBit_zero]
  rw [h0] at *
  simp only [decide_eq_false_iff_not] at *
  rw [BitVec.toNat_add]; omega

theorem even_shift (x : Word) {k : Nat} (h : 0 < k) : (x <<< k).getLsbD 0 = false := by
  simp [h]

theorem clearIsaBit_even (t : Word) : (clearIsaBit t).getLsbD 0 = false := by
  show (t.extractLsb' 1 31 ++ 0#1 : BitVec (31 + 1)).getLsbD 0 = false
  rw [BitVec.getLsbD_append]; simp

theorem jumpTarget_even (pc : Word) (index : BitVec 26) : (jumpTarget pc index).getLsbD 0 = false := by
  show ((pc + 4).extractLsb' 28 4 ++ index ++ 0#2 : BitVec (4 + 26 + 2)).getLsbD 0 = false
  rw [BitVec.getLsbD_append]; simp

theorem branchTarget_even {pc : Word} (h : pc.getLsbD 0 = false) (offset : BitVec 16) :
    (branchTarget pc offset).getLsbD 0 = false :=
  even_add (even_add h (by decide)) (even_shift _ (by decide))

theorem halfwordTarget_even {pc : Word} (h : pc.getLsbD 0 = false) {n : Nat} (offset : BitVec n) :
    (halfwordTarget pc offset).getLsbD 0 = false := even_add h (even_shift _ (by decide))

theorem vector_even (c : Cp0) (v : BitVec 6) (e : Exc) :
    (vectorAddress (vectorBase c) (vectorOffset c v e)).getLsbD 0 = false := by
  have h : (vectorBase c + vectorOffset c v e).getLsbD 0 = false := by
    apply even_add
    · unfold vectorBase
      split
      · decide
      · show (2#2 ++ c.ebase ++ 0#12 : BitVec (2 + 18 + 12)).getLsbD 0 = false
        rw [BitVec.getLsbD_append]; simp
    · unfold vectorOffset
      split
      · apply even_add (by decide)
        split
        · decide
        · have h0 : ∀ x : Word, x.getLsbD 0 = decide (x.toNat % 2 = 1) := fun x => by
            simp [BitVec.getLsbD, Nat.testBit_zero]
          have hs := even_shift (zext c.intCtlVs) (k := 5) (by decide)
          rw [h0] at *
          simp only [decide_eq_false_iff_not] at *
          have e : (zext c.intCtlVs <<< 5).toNat % 2 = 0 := by omega
          rw [BitVec.toNat_mul, Nat.mod_mod_of_dvd _ (by decide), Nat.mul_mod, e]
          norm_num
      · decide
  show ((vectorBase c).extractLsb' 30 2 ++ (vectorBase c + vectorOffset c v e).extractLsb' 0 30 :
    BitVec (2 + 30)).getLsbD 0 = false
  rw [BitVec.getLsbD_append]
  simpa using h

/-! ## The operations -/

/-- The invariant of a state that has the memory, the delay and the two registers of another. -/
theorem State.inv_of {s t : State} (h : s.Inv) (hm : t.mem.wf) (hp : t.pc.getLsbD 0 = false)
    (hd : ∀ x, t.delay = some x → s.delay = some x) (hv : t.cp0.intCtlVs = s.cp0.intCtlVs)
    (hs : t.cp0.srsMap = s.cp0.srsMap) : t.Inv :=
  ⟨hm, hp, fun x e => h.2.2.1 x (hd x e), hv ▸ h.2.2.2.1, hs ▸ h.2.2.2.2⟩

theorem State.inv_same {s t : State} (h : s.Inv) (hm : t.mem = s.mem) (hp : t.pc = s.pc) (hd : t.delay = s.delay)
    (hv : t.cp0.intCtlVs = s.cp0.intCtlVs) (hs : t.cp0.srsMap = s.cp0.srsMap) : t.Inv :=
  State.inv_of h (hm ▸ h.1) (hp ▸ h.2.1) (fun _ e => hd ▸ e) hv hs

theorem State.write_inv {s : State} (h : s.Inv) (r : Reg) (v : Word) : (s.write r v).Inv :=
  State.inv_same h (by simp) (by simp) (by simp) (by simp) (by simp)

theorem State.advance_inv {s : State} (h : s.Inv) {len : Word} (hl : len.getLsbD 0 = false) : (s.advance len).Inv := by
  refine ⟨by simpa using h.1, ?_, ?_, by simpa using h.2.2.2.1, by simpa using h.2.2.2.2⟩
  · unfold State.advance
    cases hd : s.delay with
    | none => exact even_add h.2.1 hl
    | some d => simpa [State.land] using (by split <;> simpa using (h.2.2.1 d hd).1)
  · intro d e
    unfold State.advance at e
    cases hd : s.delay with
    | none => simp [hd] at e
    | some d' => rw [hd] at e; simp at e

theorem State.raise_inv {s : State} (h : s.Inv) (e : Exc) : (s.raise e).Inv := by
  unfold State.raise
  split
  · exact ⟨by simpa using h.1, by simp [debugVector], by simp, by simpa [State.takeInDebug] using h.2.2.2.1,
      by simpa [State.takeInDebug] using h.2.2.2.2⟩
  · refine ⟨by simpa using h.1, vector_even _ _ _, by simp, by simpa [State.takeException] using h.2.2.2.1,
      by simpa [State.takeException] using h.2.2.2.2⟩

theorem State.takeException_inv {s : State} (h : s.Inv) (e : Exc) : (s.takeException e).Inv :=
  ⟨by simpa using h.1, vector_even _ _ _, by simp, by simpa [State.takeException] using h.2.2.2.1,
    by simpa [State.takeException] using h.2.2.2.2⟩

theorem State.takeDebug_inv {s : State} (h : s.Inv) (k : DebugExc) : (s.takeDebug k).Inv :=
  ⟨by simpa using h.1, by simp [debugVector], by simp, by simpa [State.takeDebug] using h.2.2.2.1,
    by simpa [State.takeDebug] using h.2.2.2.2⟩

theorem State.delayed_inv {s : State} (h : s.Inv) {len target : Word} (hl : len.getLsbD 0 = false)
    (ht : target.getLsbD 0 = false) (mode : Isa) (barrier : Bool) : (s.delayed len target mode barrier).Inv := by
  refine ⟨by simpa using h.1, even_add h.2.1 hl, fun d e => ?_, by simpa using h.2.2.2.1, by simpa using h.2.2.2.2⟩
  simp only [State.delayed, Option.some.injEq] at e
  subst e; exact ⟨ht, h.2.1⟩

theorem State.jumpTo_inv {s : State} (h : s.Inv) {target : Word} (ht : target.getLsbD 0 = false) (mode : Isa) :
    (s.jumpTo target mode).Inv :=
  State.inv_of h (by simpa using h.1) (by simpa using ht) (fun _ e => by simpa using e) (by simp) (by simp)

theorem State.storeBytes_inv {s : State} (h : s.Inv) (pa : Word) (vs : List Byte) : (s.storeBytes pa vs).Inv :=
  State.inv_of h (State.storeBytes_wf h.1 pa vs) (by simpa using h.2.1) (fun _ e => by simpa using e) (by simp) (by simp)

theorem State.clearHazards_inv {s : State} (h : s.Inv) : s.clearHazards.Inv :=
  State.inv_same h (by simp) (by simp) (by simp) (by simp) (by simp)

theorem State.barrier_inv {s : State} (h : s.Inv) : s.barrier.Inv :=
  State.inv_same h (by simp) (by simp) (by simp) (by simp) (by simp)

/-! ## The shapes of meanings -/

theorem keepsInv_result {s : State} (h : s.Inv) {len : Word} (hl : len.getLsbD 0 = false) (r : Reg) (v : Word) :
    KeepsInv (s.result len r v) := keepsInv_next (State.advance_inv (State.write_inv h r v) hl)

theorem keepsInv_advance {s : State} (h : s.Inv) {len : Word} (hl : len.getLsbD 0 = false) :
    KeepsInv (.next (s.advance len)) := keepsInv_next (State.advance_inv h hl)

theorem keepsInv_raise {s : State} (h : s.Inv) (e : Exc) : KeepsInv (.next (s.raise e)) :=
  keepsInv_next (State.raise_inv h e)

theorem keepsInv_resultOrOverflow {s : State} (h : s.Inv) (r : Reg) (o : Bool) (v : Word) :
    KeepsInv (s.resultOrOverflow r o v) := by
  unfold State.resultOrOverflow; split
  · exact keepsInv_raise h _
  · exact keepsInv_result h (by decide) r v

theorem keepsInv_trap {s : State} (h : s.Inv) (c : Bool) : KeepsInv (s.trap c) := by
  unfold State.trap; split
  · exact keepsInv_raise h _
  · exact keepsInv_advance h (by decide)

theorem keepsInv_needCop0 {s : State} (h : s.Inv) (use : Consumer) {k : Result} (hk : KeepsInv k) :
    KeepsInv (s.needCop0 use k) := by
  unfold State.needCop0; split
  · exact hk
  · exact keepsInv_raise h _

theorem keepsInv_outsideSlot {s : State} {k : Result} (hk : KeepsInv k) : KeepsInv (s.outsideSlot k) := by
  unfold State.outsideSlot; split
  · exact keepsInv_fault _
  · exact hk

theorem State.holdBusError_inv {s : State} (h : s.Inv) : s.holdBusError.Inv :=
  State.inv_same h rfl rfl rfl rfl rfl

theorem State.othersWrite_inv {s : State} (h : s.Inv) : s.othersWrite.Inv :=
  State.inv_of h (State.othersWrite_wf h.1) (by simpa using h.2.1) (fun _ e => by simpa using e) (by simp) (by simp)

/-- The continuation keeps the invariant. -/
def InvTo (k : State → Result) : Prop := ∀ t : State, t.Inv → KeepsInv (k t)

theorem invTo_done {len : Word} (hl : len.getLsbD 0 = false) : InvTo (·.done len) := fun _ h => keepsInv_advance h hl

theorem keepsInv_dataBusError {s : State} (h : s.Inv) {k : State → Result} (hk : InvTo k) :
    KeepsInv (s.dataBusError k) := by
  unfold State.dataBusError; split
  · exact hk _ (State.holdBusError_inv h)
  · exact keepsInv_raise h _

theorem keepsInv_loadWith {s : State} (h : s.Inv) (r : Reg) (m : MemResult Word) (f : Word → Word)
    {k held : State → Result} (hk : InvTo k) (hh : InvTo held) : KeepsInv (s.loadWith r m f k held) := by
  cases m with
  | ok v => exact hk _ (State.write_inv h _ _)
  | addressError va => exact keepsInv_raise h _
  | busError => exact keepsInv_dataBusError (State.write_inv h _ _) hh
  | dseg => exact keepsInv_refused _

theorem keepsInv_loadTo {s : State} (h : s.Inv) {len : Word} (hl : len.getLsbD 0 = false) (r : Reg)
    (m : MemResult Word) (f : Word → Word) : KeepsInv (s.loadTo len r m f) :=
  keepsInv_loadWith h r m f (invTo_done hl) (invTo_done hl)

theorem keepsInv_storeWith {s : State} (h : s.Inv) {m : MemResult State} (hm : ∀ t, m = .ok t → t.Inv)
    {k held : State → Result} (hk : InvTo k) (hh : InvTo held) : KeepsInv (s.storeWith m k held) := by
  cases m with
  | ok t => exact hk t (hm t rfl)
  | addressError va => exact keepsInv_raise h _
  | busError => exact keepsInv_dataBusError h hh
  | dseg => exact keepsInv_refused _

theorem keepsInv_storeTo {s : State} (h : s.Inv) {len : Word} (hl : len.getLsbD 0 = false) {m : MemResult State}
    (hm : ∀ t, m = .ok t → t.Inv) : KeepsInv (s.storeTo len m) :=
  keepsInv_storeWith h hm (invTo_done hl) (invTo_done hl)

theorem State.memWrite_inv {s t : State} (h : s.Inv) {w : Width} {va v : Word} (ht : s.memWrite w va v = .ok t) :
    t.Inv := by
  simp only [State.memWrite] at ht
  split_ifs at ht
  cases ht
  exact State.storeBytes_inv h _ _

theorem State.memWritePartial_inv {s t : State} (h : s.Inv) {left : Bool} {va v : Word}
    (ht : s.memWritePartial left va v = .ok t) : t.Inv := by
  simp only [State.memWritePartial] at ht
  split_ifs at ht <;> (cases ht; exact State.storeBytes_inv h _ _)

theorem keepsInv_pushWords {s : State} (h : s.Inv) {len : Word} (hl : len.getLsbD 0 = false) (top : Word)
    {f : State → State} (hf : ∀ t, t.Inv → (f t).Inv) (vs : List Word) : KeepsInv (s.pushWords len top f vs) := by
  induction vs generalizing s top with
  | nil => exact keepsInv_advance (hf s h) hl
  | cons v vs ih =>
    have hk : InvTo fun u => u.othersWrite.pushWords len (top - 4) f vs := fun t ht => ih (State.othersWrite_inv ht) _
    exact keepsInv_storeWith h (fun t e => State.memWrite_inv h e) hk hk

theorem keepsInv_popWords {s : State} (h : s.Inv) {len : Word} (hl : len.getLsbD 0 = false) (top : Word)
    {f : State → State} (hf : ∀ t, t.Inv → (f t).Inv) (rs : List Reg) : KeepsInv (s.popWords len top f rs) := by
  induction rs generalizing s top with
  | nil => exact keepsInv_advance (hf s h) hl
  | cons r rs ih =>
    have hk : InvTo fun u => u.othersWrite.popWords len (top - 4) f rs := fun t ht => ih (State.othersWrite_inv ht) _
    exact keepsInv_loadWith h r _ id hk hk

theorem keepsInv_branch {s : State} (h : s.Inv) (c : Bool) (offset : BitVec 16) : KeepsInv (s.branch c offset) := by
  apply keepsInv_outsideSlot
  apply keepsInv_next
  apply State.delayed_inv h (by decide)
  split
  · exact branchTarget_even h.2.1 _
  · exact even_add h.2.1 (by decide)

theorem keepsInv_branchLikely {s : State} (h : s.Inv) (c : Bool) (offset : BitVec 16) :
    KeepsInv (s.branchLikely c offset) := by
  apply keepsInv_outsideSlot
  apply keepsInv_next
  split
  · exact State.delayed_inv h (by decide) (branchTarget_even h.2.1 _) _ _
  · exact State.inv_of h h.1 (even_add h.2.1 (by decide)) (fun _ e => e) rfl rfl

theorem keepsInv_branch16 {s : State} (h : s.Inv) {len : Word} (hl : len.getLsbD 0 = false) (c : Bool) {n : Nat}
    (offset : BitVec n) : KeepsInv (s.branch16 len c offset) := by
  apply keepsInv_outsideSlot
  apply keepsInv_next
  refine State.inv_of h h.1 ?_ (fun _ e => e) rfl rfl
  show (if c then _ else _ : Word).getLsbD 0 = false
  split
  · exact halfwordTarget_even (even_add h.2.1 hl) _
  · exact even_add h.2.1 hl

theorem State.returnFromException_inv {s : State} (h : s.Inv) : s.returnFromException.Inv := by
  apply State.barrier_inv
  split
  · exact State.inv_of h h.1 (clearIsaBit_even _) (fun _ e => e) rfl rfl
  · exact State.inv_of h h.1 (clearIsaBit_even _) (fun _ e => e) rfl rfl

theorem State.returnFromDebug_inv {s : State} (h : s.Inv) : s.returnFromDebug.Inv :=
  State.barrier_inv (State.inv_of h h.1 (clearIsaBit_even _) (fun _ e => e) rfl rfl)

theorem State.takeReset_inv {s : State} (h : s.Inv) (soft : Bool) : (s.takeReset soft).Inv :=
  ⟨State.resetMemory_wf h.1, (by decide : resetVector.getLsbD 0 = false), fun _ e => absurd e (by simp [State.takeReset]),
    (by decide : legalSpacing 0 = true), (by decide : legalSrsMap 0 = true)⟩

theorem State.takeNmi_inv {s : State} (h : s.Inv) : s.takeNmi.Inv :=
  ⟨by simpa using h.1, (by decide : resetVector.getLsbD 0 = false), fun _ e => by simp at e, by simpa [State.takeNmi] using h.2.2.2.1,
    by simpa [State.takeNmi] using h.2.2.2.2⟩

/-! ## The boundary of a step -/

theorem Cp0.ticks_kept (c : Cp0) (n : Nat) : (c.ticks n).intCtlVs = c.intCtlVs ∧ (c.ticks n).srsMap = c.srsMap := by
  induction n generalizing c with
  | zero => exact ⟨rfl, rfl⟩
  | succ n ih =>
    have h : c.tick.intCtlVs = c.intCtlVs ∧ c.tick.srsMap = c.srsMap := by unfold Cp0.tick; split <;> exact ⟨rfl, rfl⟩
    exact ⟨(ih c.tick).1.trans h.1, (ih c.tick).2.trans h.2⟩

theorem State.busWrites_inv {s : State} (h : s.Inv) (ws : List BusWrite) : (s.busWrites ws).Inv :=
  State.inv_of h (State.busWrites_wf h.1 ws) (by simpa using h.2.1) (fun _ e => by simpa using e) (by simp) (by simp)

theorem State.absorb_inv {s : State} (h : s.Inv) : s.absorb.Inv := by
  have h1 : ∀ t : State, t.Inv → ∀ n (f : Hazard → Hazard) b,
      State.Inv { t with between := b, cp0 := t.cp0.ticks n, hazards := t.hazards.map f } := fun t ht n f b =>
    State.inv_of ht ht.1 ht.2.1 (fun _ e => e) (Cp0.ticks_kept _ _).1 (Cp0.ticks_kept _ _).2
  apply h1
  apply State.busWrites_inv
  have h2 : State.Inv { s with inputs := s.inputs.tail, draws := s.draws + 1 } := State.inv_same h rfl rfl rfl rfl rfl
  cases s.input.eic with
  | none => exact h2
  | some q => exact State.inv_same h2 rfl rfl rfl rfl rfl

theorem State.age_inv {s : State} (h : s.Inv) : s.age.Inv := State.inv_same h rfl rfl rfl rfl rfl

theorem State.ready_inv {s : State} (h : s.Inv) : s.ready.Inv :=
  State.inv_same (State.age_inv (State.absorb_inv h)) rfl rfl rfl rfl rfl

end Sys2Proof.Machine
end

