-- ==== Sys2Proof/Laws/PerInstr.lean ====
section
/-! SUPPORT. The round trip of encoding and decoding, one lemma for each instruction. -/

namespace Sys2Proof.Laws.RoundTrip

open Sys2Proof

/-- Decoding the encoding of the instruction gives it back, if its operands are well-formed. -/
def Statement (i : Instr) : Prop := i.WellFormed = true → (encode i).decode = .instr i

/-- The round trip of a MIPS32 word is that of its fields. -/
theorem of_fields {i : Instr} {f : Fields} (h : encode i = .word f) (hd : decodeFields f = .instr i) : Statement i := by
  intro _; rw [h]; simpa [Encoded.decode, decodeWord] using hd

/-- The round trip of a halfword is that of its fields. -/
theorem of_half {i : Instr} {f : Halfword} (h : encode i = .half f)
    (hs : (decide (f.op = 3) || decide (f.op = 0x1E)) = false) (hd : decodeHalfword f = .instr i) : Statement i := by
  intro _; rw [h]
  have e : hasSecondHalf f.toHalf = false := by
    have : f.toHalf.extractLsb' 11 5 = f.op := congrArg Halfword.op (Halfword.ofHalf_toHalf f)
    simp only [hasSecondHalf, this]
    simpa using hs
  simpa [Encoded.decode, decodeHalf, e] using hd

/-- A halfword with the operation of SAVE and RESTORE, extended. -/
theorem frame_of_fields {p g : Halfword} (h : g.op = 12) (hr : g.rx = 4) : decodeExtended p g = decodeExtFrame p g := by
  simp [decodeExtended, decodeExtI8, h, hr]

/-- The round trip of two halfwords is that of their fields. -/
theorem of_pair {i : Instr} {f g : Halfword} (h : encode i = .pair f g) (hs : f.op = 3 ∨ f.op = 0x1E)
    (hd : decodePairFields f g = .instr i) : Statement i := by
  intro _; rw [h]
  have e : hasSecondHalf f.toHalf = true := by
    have : f.toHalf.extractLsb' 11 5 = f.op := congrArg Halfword.op (Halfword.ofHalf_toHalf f)
    simp only [hasSecondHalf, this]
    simpa using hs
  simpa [Encoded.decode, decodePair, e] using hd

theorem nop : Statement .nop := of_fields rfl rfl

theorem ssnop : Statement .ssnop := of_fields rfl rfl

theorem ehb : Statement .ehb := of_fields rfl rfl

theorem lb (rt : Reg) (base : Reg) (offset : BitVec 16) : Statement (.lb rt base offset) := of_fields rfl (by
  change Decoded.instr (.lb _ _ _) = _
  simp only [Decoded.instr.injEq, Instr.lb.injEq]
  refine ⟨?_, ?_, ?_⟩ <;> first | rfl | simp)

theorem lbu (rt : Reg) (base : Reg) (offset : BitVec 16) : Statement (.lbu rt base offset) := of_fields rfl (by
  change Decoded.instr (.lbu _ _ _) = _
  simp only [Decoded.instr.injEq, Instr.lbu.injEq]
  refine ⟨?_, ?_, ?_⟩ <;> first | rfl | simp)

theorem lh (rt : Reg) (base : Reg) (offset : BitVec 16) : Statement (.lh rt base offset) := of_fields rfl (by
  change Decoded.instr (.lh _ _ _) = _
  simp only [Decoded.instr.injEq, Instr.lh.injEq]
  refine ⟨?_, ?_, ?_⟩ <;> first | rfl | simp)

theorem lhu (rt : Reg) (base : Reg) (offset : BitVec 16) : Statement (.lhu rt base offset) := of_fields rfl (by
  change Decoded.instr (.lhu _ _ _) = _
  simp only [Decoded.instr.injEq, Instr.lhu.injEq]
  refine ⟨?_, ?_, ?_⟩ <;> first | rfl | simp)

theorem lw (rt : Reg) (base : Reg) (offset : BitVec 16) : Statement (.lw rt base offset) := of_fields rfl (by
  change Decoded.instr (.lw _ _ _) = _
  simp only [Decoded.instr.injEq, Instr.lw.injEq]
  refine ⟨?_, ?_, ?_⟩ <;> first | rfl | simp)

theorem lwl (rt : Reg) (base : Reg) (offset : BitVec 16) : Statement (.lwl rt base offset) := of_fields rfl (by
  change Decoded.instr (.lwl _ _ _) = _
  simp only [Decoded.instr.injEq, Instr.lwl.injEq]
  refine ⟨?_, ?_, ?_⟩ <;> first | rfl | simp)

theorem lwr (rt : Reg) (base : Reg) (offset : BitVec 16) : Statement (.lwr rt base offset) := of_fields rfl (by
  change Decoded.instr (.lwr _ _ _) = _
  simp only [Decoded.instr.injEq, Instr.lwr.injEq]
  refine ⟨?_, ?_, ?_⟩ <;> first | rfl | simp)

theorem sb (rt : Reg) (base : Reg) (offset : BitVec 16) : Statement (.sb rt base offset) := of_fields rfl (by
  change Decoded.instr (.sb _ _ _) = _
  simp only [Decoded.instr.injEq, Instr.sb.injEq]
  refine ⟨?_, ?_, ?_⟩ <;> first | rfl | simp)

theorem sh (rt : Reg) (base : Reg) (offset : BitVec 16) : Statement (.sh rt base offset) := of_fields rfl (by
  change Decoded.instr (.sh _ _ _) = _
  simp only [Decoded.instr.injEq, Instr.sh.injEq]
  refine ⟨?_, ?_, ?_⟩ <;> first | rfl | simp)

theorem sw (rt : Reg) (base : Reg) (offset : BitVec 16) : Statement (.sw rt base offset) := of_fields rfl (by
  change Decoded.instr (.sw _ _ _) = _
  simp only [Decoded.instr.injEq, Instr.sw.injEq]
  refine ⟨?_, ?_, ?_⟩ <;> first | rfl | simp)

theorem swl (rt : Reg) (base : Reg) (offset : BitVec 16) : Statement (.swl rt base offset) := of_fields rfl (by
  change Decoded.instr (.swl _ _ _) = _
  simp only [Decoded.instr.injEq, Instr.swl.injEq]
  refine ⟨?_, ?_, ?_⟩ <;> first | rfl | simp)

theorem swr (rt : Reg) (base : Reg) (offset : BitVec 16) : Statement (.swr rt base offset) := of_fields rfl (by
  change Decoded.instr (.swr _ _ _) = _
  simp only [Decoded.instr.injEq, Instr.swr.injEq]
  refine ⟨?_, ?_, ?_⟩ <;> first | rfl | simp)

theorem ll (rt : Reg) (base : Reg) (offset : BitVec 16) : Statement (.ll rt base offset) := of_fields rfl (by
  change Decoded.instr (.ll _ _ _) = _
  simp only [Decoded.instr.injEq, Instr.ll.injEq]
  refine ⟨?_, ?_, ?_⟩ <;> first | rfl | simp)

theorem sc (rt : Reg) (base : Reg) (offset : BitVec 16) : Statement (.sc rt base offset) := of_fields rfl (by
  change Decoded.instr (.sc _ _ _) = _
  simp only [Decoded.instr.injEq, Instr.sc.injEq]
  refine ⟨?_, ?_, ?_⟩ <;> first | rfl | simp)

theorem pref (hint : Reg) (base : Reg) (offset : BitVec 16) : Statement (.pref hint base offset) := of_fields rfl (by
  change Decoded.instr (.pref _ _ _) = _
  simp only [Decoded.instr.injEq, Instr.pref.injEq]
  refine ⟨?_, ?_, ?_⟩ <;> first | rfl | simp)

theorem cache (op : Reg) (base : Reg) (offset : BitVec 16) : Statement (.cache op base offset) := of_fields rfl (by
  change Decoded.instr (.cache _ _ _) = _
  simp only [Decoded.instr.injEq, Instr.cache.injEq]
  refine ⟨?_, ?_, ?_⟩ <;> first | rfl | simp)

theorem lwc1 (rt : Reg) (base : Reg) (offset : BitVec 16) : Statement (.lwc1 rt base offset) := of_fields rfl (by
  change Decoded.instr (.lwc1 _ _ _) = _
  simp only [Decoded.instr.injEq, Instr.lwc1.injEq]
  refine ⟨?_, ?_, ?_⟩ <;> first | rfl | simp)

theorem lwc2 (rt : Reg) (base : Reg) (offset : BitVec 16) : Statement (.lwc2 rt base offset) := of_fields rfl (by
  change Decoded.instr (.lwc2 _ _ _) = _
  simp only [Decoded.instr.injEq, Instr.lwc2.injEq]
  refine ⟨?_, ?_, ?_⟩ <;> first | rfl | simp)

theorem ldc1 (rt : Reg) (base : Reg) (offset : BitVec 16) : Statement (.ldc1 rt base offset) := of_fields rfl (by
  change Decoded.instr (.ldc1 _ _ _) = _
  simp only [Decoded.instr.injEq, Instr.ldc1.injEq]
  refine ⟨?_, ?_, ?_⟩ <;> first | rfl | simp)

theorem ldc2 (rt : Reg) (base : Reg) (offset : BitVec 16) : Statement (.ldc2 rt base offset) := of_fields rfl (by
  change Decoded.instr (.ldc2 _ _ _) = _
  simp only [Decoded.instr.injEq, Instr.ldc2.injEq]
  refine ⟨?_, ?_, ?_⟩ <;> first | rfl | simp)

theorem swc1 (rt : Reg) (base : Reg) (offset : BitVec 16) : Statement (.swc1 rt base offset) := of_fields rfl (by
  change Decoded.instr (.swc1 _ _ _) = _
  simp only [Decoded.instr.injEq, Instr.swc1.injEq]
  refine ⟨?_, ?_, ?_⟩ <;> first | rfl | simp)

theorem swc2 (rt : Reg) (base : Reg) (offset : BitVec 16) : Statement (.swc2 rt base offset) := of_fields rfl (by
  change Decoded.instr (.swc2 _ _ _) = _
  simp only [Decoded.instr.injEq, Instr.swc2.injEq]
  refine ⟨?_, ?_, ?_⟩ <;> first | rfl | simp)

theorem sdc1 (rt : Reg) (base : Reg) (offset : BitVec 16) : Statement (.sdc1 rt base offset) := of_fields rfl (by
  change Decoded.instr (.sdc1 _ _ _) = _
  simp only [Decoded.instr.injEq, Instr.sdc1.injEq]
  refine ⟨?_, ?_, ?_⟩ <;> first | rfl | simp)

theorem sdc2 (rt : Reg) (base : Reg) (offset : BitVec 16) : Statement (.sdc2 rt base offset) := of_fields rfl (by
  change Decoded.instr (.sdc2 _ _ _) = _
  simp only [Decoded.instr.injEq, Instr.sdc2.injEq]
  refine ⟨?_, ?_, ?_⟩ <;> first | rfl | simp)

theorem add (rd : Reg) (rs : Reg) (rt : Reg) : Statement (.add rd rs rt) := of_fields rfl rfl

theorem addu (rd : Reg) (rs : Reg) (rt : Reg) : Statement (.addu rd rs rt) := of_fields rfl rfl

theorem sub (rd : Reg) (rs : Reg) (rt : Reg) : Statement (.sub rd rs rt) := of_fields rfl rfl

theorem subu (rd : Reg) (rs : Reg) (rt : Reg) : Statement (.subu rd rs rt) := of_fields rfl rfl

theorem slt (rd : Reg) (rs : Reg) (rt : Reg) : Statement (.slt rd rs rt) := of_fields rfl rfl

theorem sltu (rd : Reg) (rs : Reg) (rt : Reg) : Statement (.sltu rd rs rt) := of_fields rfl rfl

theorem and (rd : Reg) (rs : Reg) (rt : Reg) : Statement (.and rd rs rt) := of_fields rfl rfl

theorem or (rd : Reg) (rs : Reg) (rt : Reg) : Statement (.or rd rs rt) := of_fields rfl rfl

theorem xor (rd : Reg) (rs : Reg) (rt : Reg) : Statement (.xor rd rs rt) := of_fields rfl rfl

theorem nor (rd : Reg) (rs : Reg) (rt : Reg) : Statement (.nor rd rs rt) := of_fields rfl rfl

theorem addi (rt : Reg) (rs : Reg) (imm : BitVec 16) : Statement (.addi rt rs imm) := of_fields rfl (by
  change Decoded.instr (.addi _ _ _) = _
  simp only [Decoded.instr.injEq, Instr.addi.injEq]
  refine ⟨?_, ?_, ?_⟩ <;> first | rfl | simp)

theorem addiu (rt : Reg) (rs : Reg) (imm : BitVec 16) : Statement (.addiu rt rs imm) := of_fields rfl (by
  change Decoded.instr (.addiu _ _ _) = _
  simp only [Decoded.instr.injEq, Instr.addiu.injEq]
  refine ⟨?_, ?_, ?_⟩ <;> first | rfl | simp)

theorem slti (rt : Reg) (rs : Reg) (imm : BitVec 16) : Statement (.slti rt rs imm) := of_fields rfl (by
  change Decoded.instr (.slti _ _ _) = _
  simp only [Decoded.instr.injEq, Instr.slti.injEq]
  refine ⟨?_, ?_, ?_⟩ <;> first | rfl | simp)

theorem sltiu (rt : Reg) (rs : Reg) (imm : BitVec 16) : Statement (.sltiu rt rs imm) := of_fields rfl (by
  change Decoded.instr (.sltiu _ _ _) = _
  simp only [Decoded.instr.injEq, Instr.sltiu.injEq]
  refine ⟨?_, ?_, ?_⟩ <;> first | rfl | simp)

theorem andi (rt : Reg) (rs : Reg) (imm : BitVec 16) : Statement (.andi rt rs imm) := of_fields rfl (by
  change Decoded.instr (.andi _ _ _) = _
  simp only [Decoded.instr.injEq, Instr.andi.injEq]
  refine ⟨?_, ?_, ?_⟩ <;> first | rfl | simp)

theorem ori (rt : Reg) (rs : Reg) (imm : BitVec 16) : Statement (.ori rt rs imm) := of_fields rfl (by
  change Decoded.instr (.ori _ _ _) = _
  simp only [Decoded.instr.injEq, Instr.ori.injEq]
  refine ⟨?_, ?_, ?_⟩ <;> first | rfl | simp)

theorem xori (rt : Reg) (rs : Reg) (imm : BitVec 16) : Statement (.xori rt rs imm) := of_fields rfl (by
  change Decoded.instr (.xori _ _ _) = _
  simp only [Decoded.instr.injEq, Instr.xori.injEq]
  refine ⟨?_, ?_, ?_⟩ <;> first | rfl | simp)

theorem lui (rt : Reg) (imm : BitVec 16) : Statement (.lui rt imm) := of_fields rfl (by
  change Decoded.instr (.lui _ _) = _
  simp only [Decoded.instr.injEq, Instr.lui.injEq]
  refine ⟨?_, ?_⟩ <;> first | rfl | simp)

theorem sll (rd rt sa : Reg) : Statement (.sll rd rt sa) := fun hw => by
  refine of_fields rfl ?_ hw
  show (if rd = 0 ∧ rt = 0 then (match sa.toNat with
    | 0 => .instr .nop | 1 => .instr .ssnop | 3 => .instr .ehb | _ => .instr (.sll rd rt sa)) else Decoded.instr (.sll rd rt sa)) = _
  have h : ¬ (rd = 0 ∧ rt = 0 ∧ (sa = 0 ∨ sa = 1 ∨ sa = 3)) := by simp only [Instr.WellFormed, decide_eq_true_eq] at hw; exact hw
  split
  · rename_i h1
    split
    · rename_i h2; exact absurd ⟨h1.1, h1.2, .inl (BitVec.eq_of_toNat_eq h2)⟩ h
    · rename_i h2; exact absurd ⟨h1.1, h1.2, .inr (.inl (BitVec.eq_of_toNat_eq h2))⟩ h
    · rename_i h2; exact absurd ⟨h1.1, h1.2, .inr (.inr (BitVec.eq_of_toNat_eq h2))⟩ h
    · rfl
  · rfl

theorem srl (rd : Reg) (rt : Reg) (sa : Reg) : Statement (.srl rd rt sa) := of_fields rfl rfl

theorem sra (rd : Reg) (rt : Reg) (sa : Reg) : Statement (.sra rd rt sa) := of_fields rfl rfl

theorem rotr (rd : Reg) (rt : Reg) (sa : Reg) : Statement (.rotr rd rt sa) := of_fields rfl rfl

theorem sllv (rd : Reg) (rt : Reg) (rs : Reg) : Statement (.sllv rd rt rs) := of_fields rfl rfl

theorem srlv (rd : Reg) (rt : Reg) (rs : Reg) : Statement (.srlv rd rt rs) := of_fields rfl rfl

theorem srav (rd : Reg) (rt : Reg) (rs : Reg) : Statement (.srav rd rt rs) := of_fields rfl rfl

theorem rotrv (rd : Reg) (rt : Reg) (rs : Reg) : Statement (.rotrv rd rt rs) := of_fields rfl rfl

theorem mult (rs : Reg) (rt : Reg) : Statement (.mult rs rt) := of_fields rfl rfl

theorem multu (rs : Reg) (rt : Reg) : Statement (.multu rs rt) := of_fields rfl rfl

theorem div (rs : Reg) (rt : Reg) : Statement (.div rs rt) := of_fields rfl rfl

theorem divu (rs : Reg) (rt : Reg) : Statement (.divu rs rt) := of_fields rfl rfl

theorem madd (rs : Reg) (rt : Reg) : Statement (.madd rs rt) := of_fields rfl rfl

theorem maddu (rs : Reg) (rt : Reg) : Statement (.maddu rs rt) := of_fields rfl rfl

theorem msub (rs : Reg) (rt : Reg) : Statement (.msub rs rt) := of_fields rfl rfl

theorem msubu (rs : Reg) (rt : Reg) : Statement (.msubu rs rt) := of_fields rfl rfl

theorem mul (rd : Reg) (rs : Reg) (rt : Reg) : Statement (.mul rd rs rt) := of_fields rfl rfl

theorem mfhi (rd : Reg) : Statement (.mfhi rd) := of_fields rfl rfl

theorem mflo (rd : Reg) : Statement (.mflo rd) := of_fields rfl rfl

theorem mthi (rs : Reg) : Statement (.mthi rs) := of_fields rfl rfl

theorem mtlo (rs : Reg) : Statement (.mtlo rs) := of_fields rfl rfl

theorem clz (rd : Reg) (rs : Reg) (rt : Reg) : Statement (.clz rd rs rt) := of_fields rfl rfl

theorem clo (rd : Reg) (rs : Reg) (rt : Reg) : Statement (.clo rd rs rt) := of_fields rfl rfl

theorem ext (rt : Reg) (rs : Reg) (msbd : Reg) (lsb : Reg) : Statement (.ext rt rs msbd lsb) := of_fields rfl rfl

theorem ins (rt : Reg) (rs : Reg) (msb : Reg) (lsb : Reg) : Statement (.ins rt rs msb lsb) := of_fields rfl rfl

theorem seb (rd : Reg) (rt : Reg) : Statement (.seb rd rt) := of_fields rfl rfl

theorem seh (rd : Reg) (rt : Reg) : Statement (.seh rd rt) := of_fields rfl rfl

theorem wsbh (rd : Reg) (rt : Reg) : Statement (.wsbh rd rt) := of_fields rfl rfl

theorem j (index : BitVec 26) : Statement (.j index) := of_fields rfl (by
  change Decoded.instr (.j _) = _
  simp only [Decoded.instr.injEq, Instr.j.injEq]
  simp)

theorem jal (index : BitVec 26) : Statement (.jal index) := of_fields rfl (by
  change Decoded.instr (.jal _) = _
  simp only [Decoded.instr.injEq, Instr.jal.injEq]
  simp)

theorem jalx (index : BitVec 26) : Statement (.jalx index) := of_fields rfl (by
  change Decoded.instr (.jalx _) = _
  simp only [Decoded.instr.injEq, Instr.jalx.injEq]
  simp)

theorem jr (rs : Reg) (hint : BitVec 4) : Statement (.jr rs hint) := of_fields rfl (by
  have h : ∀ x : BitVec 4, (0#1 ++ x : BitVec 5).extractLsb' 4 1 = 0 ∧ (0#1 ++ x : BitVec 5).extractLsb' 0 4 = x := by decide
  simp [decodeFields, decodeSpecial, h])

theorem jrHb (rs : Reg) (hint : BitVec 4) : Statement (.jrHb rs hint) := of_fields rfl (by
  have h : ∀ x : BitVec 4, (1#1 ++ x : BitVec 5).extractLsb' 4 1 = 1 ∧ (1#1 ++ x : BitVec 5).extractLsb' 0 4 = x := by decide
  simp [decodeFields, decodeSpecial, h])

theorem jalr (rd rs : Reg) (hint : BitVec 4) : Statement (.jalr rd rs hint) := of_fields rfl (by
  have h : ∀ x : BitVec 4, (0#1 ++ x : BitVec 5).extractLsb' 4 1 = 0 ∧ (0#1 ++ x : BitVec 5).extractLsb' 0 4 = x := by decide
  simp [decodeFields, decodeSpecial, h])

theorem jalrHb (rd rs : Reg) (hint : BitVec 4) : Statement (.jalrHb rd rs hint) := of_fields rfl (by
  have h : ∀ x : BitVec 4, (1#1 ++ x : BitVec 5).extractLsb' 4 1 = 1 ∧ (1#1 ++ x : BitVec 5).extractLsb' 0 4 = x := by decide
  simp [decodeFields, decodeSpecial, h])

theorem beq (rs : Reg) (rt : Reg) (offset : BitVec 16) : Statement (.beq rs rt offset) := of_fields rfl (by
  change Decoded.instr (.beq _ _ _) = _
  simp only [Decoded.instr.injEq, Instr.beq.injEq]
  refine ⟨?_, ?_, ?_⟩ <;> first | rfl | simp)

theorem bne (rs : Reg) (rt : Reg) (offset : BitVec 16) : Statement (.bne rs rt offset) := of_fields rfl (by
  change Decoded.instr (.bne _ _ _) = _
  simp only [Decoded.instr.injEq, Instr.bne.injEq]
  refine ⟨?_, ?_, ?_⟩ <;> first | rfl | simp)

theorem beql (rs : Reg) (rt : Reg) (offset : BitVec 16) : Statement (.beql rs rt offset) := of_fields rfl (by
  change Decoded.instr (.beql _ _ _) = _
  simp only [Decoded.instr.injEq, Instr.beql.injEq]
  refine ⟨?_, ?_, ?_⟩ <;> first | rfl | simp)

theorem bnel (rs : Reg) (rt : Reg) (offset : BitVec 16) : Statement (.bnel rs rt offset) := of_fields rfl (by
  change Decoded.instr (.bnel _ _ _) = _
  simp only [Decoded.instr.injEq, Instr.bnel.injEq]
  refine ⟨?_, ?_, ?_⟩ <;> first | rfl | simp)

theorem blez (rs : Reg) (offset : BitVec 16) : Statement (.blez rs offset) := of_fields rfl (by
  change Decoded.instr (.blez _ _) = _
  simp only [Decoded.instr.injEq, Instr.blez.injEq]
  refine ⟨?_, ?_⟩ <;> first | rfl | simp)

theorem bgtz (rs : Reg) (offset : BitVec 16) : Statement (.bgtz rs offset) := of_fields rfl (by
  change Decoded.instr (.bgtz _ _) = _
  simp only [Decoded.instr.injEq, Instr.bgtz.injEq]
  refine ⟨?_, ?_⟩ <;> first | rfl | simp)

theorem blezl (rs : Reg) (offset : BitVec 16) : Statement (.blezl rs offset) := of_fields rfl (by
  change Decoded.instr (.blezl _ _) = _
  simp only [Decoded.instr.injEq, Instr.blezl.injEq]
  refine ⟨?_, ?_⟩ <;> first | rfl | simp)

theorem bgtzl (rs : Reg) (offset : BitVec 16) : Statement (.bgtzl rs offset) := of_fields rfl (by
  change Decoded.instr (.bgtzl _ _) = _
  simp only [Decoded.instr.injEq, Instr.bgtzl.injEq]
  refine ⟨?_, ?_⟩ <;> first | rfl | simp)

theorem bltz (rs : Reg) (offset : BitVec 16) : Statement (.bltz rs offset) := of_fields rfl (by
  change Decoded.instr (.bltz _ _) = _
  simp only [Decoded.instr.injEq, Instr.bltz.injEq]
  refine ⟨?_, ?_⟩ <;> first | rfl | simp)

theorem bgez (rs : Reg) (offset : BitVec 16) : Statement (.bgez rs offset) := of_fields rfl (by
  change Decoded.instr (.bgez _ _) = _
  simp only [Decoded.instr.injEq, Instr.bgez.injEq]
  refine ⟨?_, ?_⟩ <;> first | rfl | simp)

theorem bltzl (rs : Reg) (offset : BitVec 16) : Statement (.bltzl rs offset) := of_fields rfl (by
  change Decoded.instr (.bltzl _ _) = _
  simp only [Decoded.instr.injEq, Instr.bltzl.injEq]
  refine ⟨?_, ?_⟩ <;> first | rfl | simp)

theorem bgezl (rs : Reg) (offset : BitVec 16) : Statement (.bgezl rs offset) := of_fields rfl (by
  change Decoded.instr (.bgezl _ _) = _
  simp only [Decoded.instr.injEq, Instr.bgezl.injEq]
  refine ⟨?_, ?_⟩ <;> first | rfl | simp)

theorem bltzal (rs : Reg) (offset : BitVec 16) : Statement (.bltzal rs offset) := of_fields rfl (by
  change Decoded.instr (.bltzal _ _) = _
  simp only [Decoded.instr.injEq, Instr.bltzal.injEq]
  refine ⟨?_, ?_⟩ <;> first | rfl | simp)

theorem bgezal (rs : Reg) (offset : BitVec 16) : Statement (.bgezal rs offset) := of_fields rfl (by
  change Decoded.instr (.bgezal _ _) = _
  simp only [Decoded.instr.injEq, Instr.bgezal.injEq]
  refine ⟨?_, ?_⟩ <;> first | rfl | simp)

theorem bltzall (rs : Reg) (offset : BitVec 16) : Statement (.bltzall rs offset) := of_fields rfl (by
  change Decoded.instr (.bltzall _ _) = _
  simp only [Decoded.instr.injEq, Instr.bltzall.injEq]
  refine ⟨?_, ?_⟩ <;> first | rfl | simp)

theorem bgezall (rs : Reg) (offset : BitVec 16) : Statement (.bgezall rs offset) := of_fields rfl (by
  change Decoded.instr (.bgezall _ _) = _
  simp only [Decoded.instr.injEq, Instr.bgezall.injEq]
  refine ⟨?_, ?_⟩ <;> first | rfl | simp)

theorem sync (stype : Reg) : Statement (.sync stype) := of_fields rfl rfl

theorem synci (base : Reg) (offset : BitVec 16) : Statement (.synci base offset) := of_fields rfl (by
  change Decoded.instr (.synci _ _) = _
  simp only [Decoded.instr.injEq, Instr.synci.injEq]
  refine ⟨?_, ?_⟩ <;> first | rfl | simp)

theorem syscall (code : BitVec 20) : Statement (.syscall code) := of_fields rfl (by
  change Decoded.instr (.syscall _) = _
  simp only [Decoded.instr.injEq, Instr.syscall.injEq]
  simp)

theorem break_ (code : BitVec 20) : Statement (.break_ code) := of_fields rfl (by
  change Decoded.instr (.break_ _) = _
  simp only [Decoded.instr.injEq, Instr.break_.injEq]
  simp)

theorem sdbbp (code : BitVec 20) : Statement (.sdbbp code) := of_fields rfl (by
  change Decoded.instr (.sdbbp _) = _
  simp only [Decoded.instr.injEq, Instr.sdbbp.injEq]
  simp)

theorem tge (rs : Reg) (rt : Reg) (code : BitVec 10) : Statement (.tge rs rt code) := of_fields rfl (by
  change Decoded.instr (.tge _ _ _) = _
  simp only [Decoded.instr.injEq, Instr.tge.injEq]
  refine ⟨?_, ?_, ?_⟩ <;> first | rfl | simp)

theorem tgeu (rs : Reg) (rt : Reg) (code : BitVec 10) : Statement (.tgeu rs rt code) := of_fields rfl (by
  change Decoded.instr (.tgeu _ _ _) = _
  simp only [Decoded.instr.injEq, Instr.tgeu.injEq]
  refine ⟨?_, ?_, ?_⟩ <;> first | rfl | simp)

theorem tlt (rs : Reg) (rt : Reg) (code : BitVec 10) : Statement (.tlt rs rt code) := of_fields rfl (by
  change Decoded.instr (.tlt _ _ _) = _
  simp only [Decoded.instr.injEq, Instr.tlt.injEq]
  refine ⟨?_, ?_, ?_⟩ <;> first | rfl | simp)

theorem tltu (rs : Reg) (rt : Reg) (code : BitVec 10) : Statement (.tltu rs rt code) := of_fields rfl (by
  change Decoded.instr (.tltu _ _ _) = _
  simp only [Decoded.instr.injEq, Instr.tltu.injEq]
  refine ⟨?_, ?_, ?_⟩ <;> first | rfl | simp)

theorem teq (rs : Reg) (rt : Reg) (code : BitVec 10) : Statement (.teq rs rt code) := of_fields rfl (by
  change Decoded.instr (.teq _ _ _) = _
  simp only [Decoded.instr.injEq, Instr.teq.injEq]
  refine ⟨?_, ?_, ?_⟩ <;> first | rfl | simp)

theorem tne (rs : Reg) (rt : Reg) (code : BitVec 10) : Statement (.tne rs rt code) := of_fields rfl (by
  change Decoded.instr (.tne _ _ _) = _
  simp only [Decoded.instr.injEq, Instr.tne.injEq]
  refine ⟨?_, ?_, ?_⟩ <;> first | rfl | simp)

theorem tgei (rs : Reg) (imm : BitVec 16) : Statement (.tgei rs imm) := of_fields rfl (by
  change Decoded.instr (.tgei _ _) = _
  simp only [Decoded.instr.injEq, Instr.tgei.injEq]
  refine ⟨?_, ?_⟩ <;> first | rfl | simp)

theorem tgeiu (rs : Reg) (imm : BitVec 16) : Statement (.tgeiu rs imm) := of_fields rfl (by
  change Decoded.instr (.tgeiu _ _) = _
  simp only [Decoded.instr.injEq, Instr.tgeiu.injEq]
  refine ⟨?_, ?_⟩ <;> first | rfl | simp)

theorem tlti (rs : Reg) (imm : BitVec 16) : Statement (.tlti rs imm) := of_fields rfl (by
  change Decoded.instr (.tlti _ _) = _
  simp only [Decoded.instr.injEq, Instr.tlti.injEq]
  refine ⟨?_, ?_⟩ <;> first | rfl | simp)

theorem tltiu (rs : Reg) (imm : BitVec 16) : Statement (.tltiu rs imm) := of_fields rfl (by
  change Decoded.instr (.tltiu _ _) = _
  simp only [Decoded.instr.injEq, Instr.tltiu.injEq]
  refine ⟨?_, ?_⟩ <;> first | rfl | simp)

theorem teqi (rs : Reg) (imm : BitVec 16) : Statement (.teqi rs imm) := of_fields rfl (by
  change Decoded.instr (.teqi _ _) = _
  simp only [Decoded.instr.injEq, Instr.teqi.injEq]
  refine ⟨?_, ?_⟩ <;> first | rfl | simp)

theorem tnei (rs : Reg) (imm : BitVec 16) : Statement (.tnei rs imm) := of_fields rfl (by
  change Decoded.instr (.tnei _ _) = _
  simp only [Decoded.instr.injEq, Instr.tnei.injEq]
  refine ⟨?_, ?_⟩ <;> first | rfl | simp)

theorem movz (rd : Reg) (rs : Reg) (rt : Reg) : Statement (.movz rd rs rt) := of_fields rfl rfl

theorem movn (rd : Reg) (rs : Reg) (rt : Reg) : Statement (.movn rd rs rt) := of_fields rfl rfl

theorem rdhwr (rt : Reg) (rd : Reg) : Statement (.rdhwr rt rd) := of_fields rfl rfl

theorem wait (code : BitVec 19) : Statement (.wait code) := of_fields rfl (by
  show (if (Fields.ofCode19 code 0x20).rs.extractLsb' 4 1 = 1 then Decoded.instr (.wait (Fields.ofCode19 code 0x20).code19) else _) = _
  rw [if_pos (code19_eq _ _).2, (code19_eq _ _).1])

theorem mfc0 (rt rd : Reg) (sel : Reg3) : Statement (.mfc0 rt rd sel) := of_fields rfl (by
  have h : ∀ x : Reg3, (0#3 ++ x : BitVec 6).extractLsb' 3 3 = 0 ∧ (0#3 ++ x : BitVec 6).extractLsb' 0 3 = x := by decide
  simp [decodeFields, decodeCop0, Decoded.ofZero, h])

theorem mtc0 (rt rd : Reg) (sel : Reg3) : Statement (.mtc0 rt rd sel) := of_fields rfl (by
  have h : ∀ x : Reg3, (0#3 ++ x : BitVec 6).extractLsb' 3 3 = 0 ∧ (0#3 ++ x : BitVec 6).extractLsb' 0 3 = x := by decide
  simp [decodeFields, decodeCop0, Decoded.ofZero, h])

theorem rdpgpr (rd rt : Reg) : Statement (.rdpgpr rd rt) :=
  of_fields rfl (by simp [decodeFields, decodeCop0, Decoded.ofZero])

theorem wrpgpr (rd rt : Reg) : Statement (.wrpgpr rd rt) :=
  of_fields rfl (by simp [decodeFields, decodeCop0, Decoded.ofZero])

theorem di (rt : Reg) : Statement (.di rt) :=
  of_fields rfl (by simp [decodeFields, decodeCop0])

theorem ei (rt : Reg) : Statement (.ei rt) :=
  of_fields rfl (by simp [decodeFields, decodeCop0])

theorem eret : Statement .eret := of_fields rfl rfl

theorem deret : Statement .deret := of_fields rfl rfl

theorem tlbr : Statement .tlbr := of_fields rfl rfl

theorem tlbwi : Statement .tlbwi := of_fields rfl rfl

theorem tlbwr : Statement .tlbwr := of_fields rfl rfl

theorem tlbp : Statement .tlbp := of_fields rfl rfl

theorem cop1 (cofun : BitVec 26) : Statement (.cop1 cofun) := of_fields rfl (by
  change Decoded.instr (.cop1 _) = _
  simp only [Decoded.instr.injEq, Instr.cop1.injEq]
  simp)

theorem cop2 (cofun : BitVec 26) : Statement (.cop2 cofun) := of_fields rfl (by
  change Decoded.instr (.cop2 _) = _
  simp only [Decoded.instr.injEq, Instr.cop2.injEq]
  simp)

theorem cop1x (cofun : BitVec 26) : Statement (.cop1x cofun) := of_fields rfl (by
  change Decoded.instr (.cop1x _) = _
  simp only [Decoded.instr.injEq, Instr.cop1x.injEq]
  simp)

theorem movci (operands : BitVec 20) : Statement (.movci operands) := of_fields rfl (by
  change Decoded.instr (.movci _) = _
  simp only [Decoded.instr.injEq, Instr.movci.injEq]
  simp)

theorem m16Extend (op : ExtOp) : Statement (.m16Extend op) := by
  cases op
  case addiu y x imm =>
    refine of_pair rfl (Or.inr rfl) ?_
    have h := extImm15_eq imm x y
    rw [decodePairFields, if_pos (by simp)]
    change Decoded.ofZero _ (.m16Extend (.addiu (Halfword.ofImm4 8 x y _).ry _ (extImm15 _ _))) = _
    rw [h, Halfword.ry_ofImm4]; rfl
  case save xsregs aregs frame ra s0 s1 =>
    refine of_pair rfl (Or.inr rfl) ?_
    have h := extFrame_eq xsregs aregs frame
    rw [decodePairFields, if_pos (by simp)]
    rw [frame_of_fields rfl rfl]
    simp only [decodeExtFrame, Halfword.imm11_ofImm11, Halfword.imm4_ofFrame, h]
    cases ra <;> cases s0 <;> cases s1 <;> rfl
  case restore xsregs aregs frame ra s0 s1 =>
    refine of_pair rfl (Or.inr rfl) ?_
    have h := extFrame_eq xsregs aregs frame
    rw [decodePairFields, if_pos (by simp)]
    rw [frame_of_fields rfl rfl]
    simp only [decodeExtFrame, Halfword.imm11_ofImm11, Halfword.imm4_ofFrame, h]
    cases ra <;> cases s0 <;> cases s1 <;> rfl
  case sll x y sa =>
    exact of_pair rfl (Or.inr rfl) (by simp [decodePairFields, decodeExtended, decodeExtShift, Decoded.ofZero, extShift_eq])
  case srl x y sa =>
    exact of_pair rfl (Or.inr rfl) (by simp [decodePairFields, decodeExtended, decodeExtShift, Decoded.ofZero, extShift_eq])
  case sra x y sa =>
    exact of_pair rfl (Or.inr rfl) (by simp [decodePairFields, decodeExtended, decodeExtShift, Decoded.ofZero, extShift_eq])
  all_goals
    exact of_pair rfl (Or.inr rfl)
      (by simp [decodePairFields, decodeExtended, decodeExtI8, Decoded.ofZero, extImm16_eq])

theorem m16Addiusp (x : Reg3) (imm : BitVec 8) : Statement (.m16Addiusp x imm) := of_half rfl rfl (by
  change Decoded.instr (.m16Addiusp _ _) = _
  simp only [Decoded.instr.injEq, Instr.m16Addiusp.injEq]
  refine ⟨?_, ?_⟩ <;> first | rfl | simp)

theorem m16Addiupc (x : Reg3) (imm : BitVec 8) : Statement (.m16Addiupc x imm) := of_half rfl rfl (by
  change Decoded.instr (.m16Addiupc _ _) = _
  simp only [Decoded.instr.injEq, Instr.m16Addiupc.injEq]
  refine ⟨?_, ?_⟩ <;> first | rfl | simp)

theorem m16B (offset : BitVec 11) : Statement (.m16B offset) := of_half rfl rfl (by
  change Decoded.instr (.m16B _) = _
  simp only [Decoded.instr.injEq, Instr.m16B.injEq]
  simp)

theorem m16Jal (index : BitVec 26) : Statement (.m16Jal index) := of_pair rfl (Or.inl rfl) (by
  have h := jumpIndex_eq 0 index
  rw [decodePairFields, if_neg (by simp), Halfword.imm11_ofImm11, h.2, h.1]; rfl)

theorem m16Jalx (index : BitVec 26) : Statement (.m16Jalx index) := of_pair rfl (Or.inl rfl) (by
  have h := jumpIndex_eq 1 index
  rw [decodePairFields, if_neg (by simp), Halfword.imm11_ofImm11, h.2, h.1]; rfl)

theorem m16Beqz (x : Reg3) (offset : BitVec 8) : Statement (.m16Beqz x offset) := of_half rfl rfl (by
  change Decoded.instr (.m16Beqz _ _) = _
  simp only [Decoded.instr.injEq, Instr.m16Beqz.injEq]
  refine ⟨?_, ?_⟩ <;> first | rfl | simp)

theorem m16Bnez (x : Reg3) (offset : BitVec 8) : Statement (.m16Bnez x offset) := of_half rfl rfl (by
  change Decoded.instr (.m16Bnez _ _) = _
  simp only [Decoded.instr.injEq, Instr.m16Bnez.injEq]
  refine ⟨?_, ?_⟩ <;> first | rfl | simp)

theorem m16Sll (x : Reg3) (y : Reg3) (sa : Reg3) : Statement (.m16Sll x y sa) := of_half rfl rfl (by
  change Decoded.instr (.m16Sll _ _ _) = _
  simp only [Decoded.instr.injEq, Instr.m16Sll.injEq]
  refine ⟨?_, ?_, ?_⟩ <;> first | rfl | simp)

theorem m16Srl (x : Reg3) (y : Reg3) (sa : Reg3) : Statement (.m16Srl x y sa) := of_half rfl rfl (by
  change Decoded.instr (.m16Srl _ _ _) = _
  simp only [Decoded.instr.injEq, Instr.m16Srl.injEq]
  refine ⟨?_, ?_, ?_⟩ <;> first | rfl | simp)

theorem m16Sra (x : Reg3) (y : Reg3) (sa : Reg3) : Statement (.m16Sra x y sa) := of_half rfl rfl (by
  change Decoded.instr (.m16Sra _ _ _) = _
  simp only [Decoded.instr.injEq, Instr.m16Sra.injEq]
  refine ⟨?_, ?_, ?_⟩ <;> first | rfl | simp)

theorem m16Addiu (y : Reg3) (x : Reg3) (imm : BitVec 4) : Statement (.m16Addiu y x imm) := of_half rfl rfl (by
  change Decoded.instr (.m16Addiu _ _ _) = _
  simp only [Decoded.instr.injEq, Instr.m16Addiu.injEq]
  refine ⟨?_, ?_, ?_⟩ <;> first | rfl | simp)

theorem m16Addiu8 (x : Reg3) (imm : BitVec 8) : Statement (.m16Addiu8 x imm) := of_half rfl rfl (by
  change Decoded.instr (.m16Addiu8 _ _) = _
  simp only [Decoded.instr.injEq, Instr.m16Addiu8.injEq]
  refine ⟨?_, ?_⟩ <;> first | rfl | simp)

theorem m16Slti (x : Reg3) (imm : BitVec 8) : Statement (.m16Slti x imm) := of_half rfl rfl (by
  change Decoded.instr (.m16Slti _ _) = _
  simp only [Decoded.instr.injEq, Instr.m16Slti.injEq]
  refine ⟨?_, ?_⟩ <;> first | rfl | simp)

theorem m16Sltiu (x : Reg3) (imm : BitVec 8) : Statement (.m16Sltiu x imm) := of_half rfl rfl (by
  change Decoded.instr (.m16Sltiu _ _) = _
  simp only [Decoded.instr.injEq, Instr.m16Sltiu.injEq]
  refine ⟨?_, ?_⟩ <;> first | rfl | simp)

theorem m16Bteqz (offset : BitVec 8) : Statement (.m16Bteqz offset) := of_half rfl rfl (by
  change Decoded.instr (.m16Bteqz _) = _
  simp only [Decoded.instr.injEq, Instr.m16Bteqz.injEq]
  simp)

theorem m16Btnez (offset : BitVec 8) : Statement (.m16Btnez offset) := of_half rfl rfl (by
  change Decoded.instr (.m16Btnez _) = _
  simp only [Decoded.instr.injEq, Instr.m16Btnez.injEq]
  simp)

theorem m16Swrasp (imm : BitVec 8) : Statement (.m16Swrasp imm) := of_half rfl rfl (by
  change Decoded.instr (.m16Swrasp _) = _
  simp only [Decoded.instr.injEq, Instr.m16Swrasp.injEq]
  simp)

theorem m16Adjsp (imm : BitVec 8) : Statement (.m16Adjsp imm) := of_half rfl rfl (by
  change Decoded.instr (.m16Adjsp _) = _
  simp only [Decoded.instr.injEq, Instr.m16Adjsp.injEq]
  simp)

theorem m16Save (ra s0 s1 : Bool) (frame : BitVec 4) : Statement (.m16Save ra s0 s1 frame) := of_half rfl rfl (by
  change Decoded.instr (.m16Save _ _ _ _) = _
  rw [Halfword.imm4_ofFrame]
  cases ra <;> cases s0 <;> cases s1 <;> rfl)

theorem m16Restore (ra s0 s1 : Bool) (frame : BitVec 4) : Statement (.m16Restore ra s0 s1 frame) := of_half rfl rfl (by
  change Decoded.instr (.m16Restore _ _ _ _) = _
  rw [Halfword.imm4_ofFrame]
  cases ra <;> cases s0 <;> cases s1 <;> rfl)

theorem m16Mov32r (r32 : Reg) (z : Reg3) : Statement (.m16Mov32r r32 z) := fun hw => by
  refine of_half rfl rfl ?_ hw
  have h : ¬ (r32 = 0 ∧ z = 0) := by simp only [Instr.WellFormed, decide_eq_true_eq] at hw; exact hw
  change (if _ then _ else Decoded.instr (.m16Mov32r (Halfword.ofMov32r r32 z).r32 (Halfword.ofMov32r r32 z).movz)) = _
  rw [Halfword.r32_ofMov32r, Halfword.movz_ofMov32r, if_neg h]

theorem m16Movr32 (y : Reg3) (r32 : Reg) : Statement (.m16Movr32 y r32) := of_half rfl rfl (by
  change Decoded.instr (.m16Movr32 _ _) = _
  simp only [Decoded.instr.injEq, Instr.m16Movr32.injEq]
  refine ⟨?_, ?_⟩ <;> first | rfl | simp)

theorem m16Li (x : Reg3) (imm : BitVec 8) : Statement (.m16Li x imm) := of_half rfl rfl (by
  change Decoded.instr (.m16Li _ _) = _
  simp only [Decoded.instr.injEq, Instr.m16Li.injEq]
  refine ⟨?_, ?_⟩ <;> first | rfl | simp)

theorem m16Cmpi (x : Reg3) (imm : BitVec 8) : Statement (.m16Cmpi x imm) := of_half rfl rfl (by
  change Decoded.instr (.m16Cmpi _ _) = _
  simp only [Decoded.instr.injEq, Instr.m16Cmpi.injEq]
  refine ⟨?_, ?_⟩ <;> first | rfl | simp)

theorem m16Lb (y : Reg3) (x : Reg3) (imm : Reg) : Statement (.m16Lb y x imm) := of_half rfl rfl (by
  change Decoded.instr (.m16Lb _ _ _) = _
  simp only [Decoded.instr.injEq, Instr.m16Lb.injEq]
  refine ⟨?_, ?_, ?_⟩ <;> first | rfl | simp)

theorem m16Lh (y : Reg3) (x : Reg3) (imm : Reg) : Statement (.m16Lh y x imm) := of_half rfl rfl (by
  change Decoded.instr (.m16Lh _ _ _) = _
  simp only [Decoded.instr.injEq, Instr.m16Lh.injEq]
  refine ⟨?_, ?_, ?_⟩ <;> first | rfl | simp)

theorem m16Lwsp (x : Reg3) (imm : BitVec 8) : Statement (.m16Lwsp x imm) := of_half rfl rfl (by
  change Decoded.instr (.m16Lwsp _ _) = _
  simp only [Decoded.instr.injEq, Instr.m16Lwsp.injEq]
  refine ⟨?_, ?_⟩ <;> first | rfl | simp)

theorem m16Lw (y : Reg3) (x : Reg3) (imm : Reg) : Statement (.m16Lw y x imm) := of_half rfl rfl (by
  change Decoded.instr (.m16Lw _ _ _) = _
  simp only [Decoded.instr.injEq, Instr.m16Lw.injEq]
  refine ⟨?_, ?_, ?_⟩ <;> first | rfl | simp)

theorem m16Lbu (y : Reg3) (x : Reg3) (imm : Reg) : Statement (.m16Lbu y x imm) := of_half rfl rfl (by
  change Decoded.instr (.m16Lbu _ _ _) = _
  simp only [Decoded.instr.injEq, Instr.m16Lbu.injEq]
  refine ⟨?_, ?_, ?_⟩ <;> first | rfl | simp)

theorem m16Lhu (y : Reg3) (x : Reg3) (imm : Reg) : Statement (.m16Lhu y x imm) := of_half rfl rfl (by
  change Decoded.instr (.m16Lhu _ _ _) = _
  simp only [Decoded.instr.injEq, Instr.m16Lhu.injEq]
  refine ⟨?_, ?_, ?_⟩ <;> first | rfl | simp)

theorem m16Lwpc (x : Reg3) (imm : BitVec 8) : Statement (.m16Lwpc x imm) := of_half rfl rfl (by
  change Decoded.instr (.m16Lwpc _ _) = _
  simp only [Decoded.instr.injEq, Instr.m16Lwpc.injEq]
  refine ⟨?_, ?_⟩ <;> first | rfl | simp)

theorem m16Sb (y : Reg3) (x : Reg3) (imm : Reg) : Statement (.m16Sb y x imm) := of_half rfl rfl (by
  change Decoded.instr (.m16Sb _ _ _) = _
  simp only [Decoded.instr.injEq, Instr.m16Sb.injEq]
  refine ⟨?_, ?_, ?_⟩ <;> first | rfl | simp)

theorem m16Sh (y : Reg3) (x : Reg3) (imm : Reg) : Statement (.m16Sh y x imm) := of_half rfl rfl (by
  change Decoded.instr (.m16Sh _ _ _) = _
  simp only [Decoded.instr.injEq, Instr.m16Sh.injEq]
  refine ⟨?_, ?_, ?_⟩ <;> first | rfl | simp)

theorem m16Swsp (x : Reg3) (imm : BitVec 8) : Statement (.m16Swsp x imm) := of_half rfl rfl (by
  change Decoded.instr (.m16Swsp _ _) = _
  simp only [Decoded.instr.injEq, Instr.m16Swsp.injEq]
  refine ⟨?_, ?_⟩ <;> first | rfl | simp)

theorem m16Sw (y : Reg3) (x : Reg3) (imm : Reg) : Statement (.m16Sw y x imm) := of_half rfl rfl (by
  change Decoded.instr (.m16Sw _ _ _) = _
  simp only [Decoded.instr.injEq, Instr.m16Sw.injEq]
  refine ⟨?_, ?_, ?_⟩ <;> first | rfl | simp)

theorem m16Addu (z : Reg3) (x : Reg3) (y : Reg3) : Statement (.m16Addu z x y) := of_half rfl rfl (by
  change Decoded.instr (.m16Addu _ _ _) = _
  simp only [Decoded.instr.injEq, Instr.m16Addu.injEq]
  refine ⟨?_, ?_, ?_⟩ <;> first | rfl | simp)

theorem m16Subu (z : Reg3) (x : Reg3) (y : Reg3) : Statement (.m16Subu z x y) := of_half rfl rfl (by
  change Decoded.instr (.m16Subu _ _ _) = _
  simp only [Decoded.instr.injEq, Instr.m16Subu.injEq]
  refine ⟨?_, ?_, ?_⟩ <;> first | rfl | simp)

theorem m16Jr (x : Reg3) : Statement (.m16Jr x) := of_half rfl rfl (by
  simp [decodeHalfword, decodeRr, decodeJumpRegister])

theorem m16Jalr (x : Reg3) : Statement (.m16Jalr x) := of_half rfl rfl (by
  simp [decodeHalfword, decodeRr, decodeJumpRegister])

theorem m16Jrc (x : Reg3) : Statement (.m16Jrc x) := of_half rfl rfl (by
  simp [decodeHalfword, decodeRr, decodeJumpRegister])

theorem m16Jalrc (x : Reg3) : Statement (.m16Jalrc x) := of_half rfl rfl (by
  simp [decodeHalfword, decodeRr, decodeJumpRegister])

theorem m16JrRa : Statement .m16JrRa := of_half rfl rfl rfl

theorem m16JrcRa : Statement .m16JrcRa := of_half rfl rfl rfl

theorem m16Sdbbp (code : BitVec 6) : Statement (.m16Sdbbp code) := of_half rfl rfl (by
  have h : ∀ c : BitVec 6, (Halfword.ofImm5 0x1D (c.extractLsb' 3 3) (c.extractLsb' 0 3) 1).code6 = c := by decide
  have e := h code
  simp only [Halfword.ofCode6, decodeHalfword, Halfword.op_ofImm5]
  simp [decodeRr]
  exact e)

theorem m16Break (code : BitVec 6) : Statement (.m16Break code) := of_half rfl rfl (by
  have h : ∀ c : BitVec 6, (Halfword.ofImm5 0x1D (c.extractLsb' 3 3) (c.extractLsb' 0 3) 5).code6 = c := by decide
  have e := h code
  simp only [Halfword.ofCode6, decodeHalfword, Halfword.op_ofImm5]
  simp [decodeRr]
  exact e)

theorem m16Slt (x : Reg3) (y : Reg3) : Statement (.m16Slt x y) := of_half rfl rfl (by
  simp [decodeHalfword, decodeRr])

theorem m16Sltu (x : Reg3) (y : Reg3) : Statement (.m16Sltu x y) := of_half rfl rfl (by
  simp [decodeHalfword, decodeRr])

theorem m16Cmp (x : Reg3) (y : Reg3) : Statement (.m16Cmp x y) := of_half rfl rfl (by
  simp [decodeHalfword, decodeRr])

theorem m16Neg (x : Reg3) (y : Reg3) : Statement (.m16Neg x y) := of_half rfl rfl (by
  simp [decodeHalfword, decodeRr])

theorem m16And (x : Reg3) (y : Reg3) : Statement (.m16And x y) := of_half rfl rfl (by
  simp [decodeHalfword, decodeRr])

theorem m16Or (x : Reg3) (y : Reg3) : Statement (.m16Or x y) := of_half rfl rfl (by
  simp [decodeHalfword, decodeRr])

theorem m16Xor (x : Reg3) (y : Reg3) : Statement (.m16Xor x y) := of_half rfl rfl (by
  simp [decodeHalfword, decodeRr])

theorem m16Not (x : Reg3) (y : Reg3) : Statement (.m16Not x y) := of_half rfl rfl (by
  simp [decodeHalfword, decodeRr])

theorem m16Mult (x : Reg3) (y : Reg3) : Statement (.m16Mult x y) := of_half rfl rfl (by
  simp [decodeHalfword, decodeRr])

theorem m16Multu (x : Reg3) (y : Reg3) : Statement (.m16Multu x y) := of_half rfl rfl (by
  simp [decodeHalfword, decodeRr])

theorem m16Div (x : Reg3) (y : Reg3) : Statement (.m16Div x y) := of_half rfl rfl (by
  simp [decodeHalfword, decodeRr])

theorem m16Divu (x : Reg3) (y : Reg3) : Statement (.m16Divu x y) := of_half rfl rfl (by
  simp [decodeHalfword, decodeRr])

theorem m16Sllv (y : Reg3) (x : Reg3) : Statement (.m16Sllv y x) := of_half rfl rfl (by
  simp [decodeHalfword, decodeRr])

theorem m16Srlv (y : Reg3) (x : Reg3) : Statement (.m16Srlv y x) := of_half rfl rfl (by
  simp [decodeHalfword, decodeRr])

theorem m16Srav (y : Reg3) (x : Reg3) : Statement (.m16Srav y x) := of_half rfl rfl (by
  simp [decodeHalfword, decodeRr])

theorem m16Mfhi (x : Reg3) : Statement (.m16Mfhi x) := of_half rfl rfl (by
  simp [decodeHalfword, decodeRr, Decoded.ofZero])

theorem m16Mflo (x : Reg3) : Statement (.m16Mflo x) := of_half rfl rfl (by
  simp [decodeHalfword, decodeRr, Decoded.ofZero])

theorem m16Zeb (x : Reg3) : Statement (.m16Zeb x) := of_half rfl rfl (by
  simp [decodeHalfword, decodeRr, decodeConvert])

theorem m16Zeh (x : Reg3) : Statement (.m16Zeh x) := of_half rfl rfl (by
  simp [decodeHalfword, decodeRr, decodeConvert])

theorem m16Seb (x : Reg3) : Statement (.m16Seb x) := of_half rfl rfl (by
  simp [decodeHalfword, decodeRr, decodeConvert])

theorem m16Seh (x : Reg3) : Statement (.m16Seh x) := of_half rfl rfl (by
  simp [decodeHalfword, decodeRr, decodeConvert])

theorem m16Nop : Statement .m16Nop := of_half rfl rfl rfl

end Sys2Proof.Laws.RoundTrip
end

