-- ==== Sys2Proof/Laws/Registers.lean ====
section
/-! SUPPORT. The layouts of the coprocessor 0 registers, field by field. -/

namespace Sys2Proof.Machine

/-- STATUS as a word (spec 10 R46). -/
theorem Status.toWord_spec (s : Status) : StatusWord s.toWord s := by
  obtain ⟨cu0, rp, fr, re, bev, sr, nmi, ipl, r98, um, erl, exl, ie⟩ := s
  have h : ∀ i, (Status.toWord ⟨cu0, rp, fr, re, bev, sr, nmi, ipl, r98, um, erl, exl, ie⟩).getLsbD i = (0#3 ++ bit cu0 ++ bit rp ++ bit fr ++ bit re ++ 0#2 ++ bit bev ++ 0#1 ++ bit sr ++ bit nmi ++ 0#3 ++ ipl ++ r98 ++ 0#3 ++ bit um ++ 0#1 ++ bit erl ++ bit exl ++ bit ie : BitVec (3+1+1+1+1+2+1+1+1+1+3+6+2+3+1+1+1+1+1)).getLsbD i := fun i => rfl
  unfold StatusWord
  refine ⟨?_, ?_, ?_, ?_, ?_, ?_, ?_, ?_, ?_, ?_, ?_, ?_, ?_, ?_⟩
  any_goals (rw [h]; simp only [BitVec.getLsbD_append]; simp)
  all_goals (apply BitVec.eq_of_getLsbD_eq; intro i hi; simp only [BitVec.getLsbD_and, BitVec.getLsbD_extractLsb', h, BitVec.getLsbD_append]; interval_cases i <;> simp)

/-- SRSCtl as a word (spec 10 R56). -/
theorem SrsCtl.toWord_spec (c : SrsCtl) : (c.toWord.extractLsb' 26 4 = BitVec.ofNat 4 Config.hss ∧
      (c.toWord.extractLsb' 18 4).toNat = c.eicss.val ∧ (c.toWord.extractLsb' 12 4).toNat = c.ess.val ∧
      (c.toWord.extractLsb' 6 4).toNat = c.pss.val ∧ (c.toWord.extractLsb' 0 4).toNat = c.css.val ∧
      c.toWord &&& 0xC3C30C30 = 0) := by
  obtain ⟨a, b, c, d⟩ := c
  revert a b c d; decide

/-- CAUSE as a word (spec 10 R63). -/
theorem Cause.toWord_spec (c : Cause) : (fun v : Word => v.getLsbD 31 = c.bd ∧ v.getLsbD 30 = c.ti ∧ v.extractLsb' 28 2 = c.ce ∧
      v.getLsbD 27 = c.dc ∧ v.getLsbD 23 = c.iv ∧ v.extractLsb' 10 6 = c.ripl ∧
      v.extractLsb' 8 2 = c.ip ∧ v.extractLsb' 2 5 = c.excCode ∧ v &&& 0x077F0083 = 0) c.toWord := by
  obtain ⟨bd, ti, ce, dc, iv, ripl, ip, exc⟩ := c
  have h : ∀ i, (Cause.toWord ⟨bd, ti, ce, dc, iv, ripl, ip, exc⟩).getLsbD i = (bit bd ++ bit ti ++ ce ++ bit dc ++ 0#3 ++ bit iv ++ 0#7 ++ ripl ++ ip ++ 0#1 ++ exc ++ 0#2 : BitVec (1+1+2+1+3+1+7+6+2+1+5+2)).getLsbD i := fun i => rfl
  refine ⟨?_, ?_, ?_, ?_, ?_, ?_, ?_, ?_, ?_⟩
  any_goals (rw [h]; simp only [BitVec.getLsbD_append]; simp)
  all_goals (apply BitVec.eq_of_getLsbD_eq; intro i hi; simp only [BitVec.getLsbD_and, BitVec.getLsbD_extractLsb', h, BitVec.getLsbD_append]; interval_cases i <;> simp)

/-- CONFIG as a word (spec 10 R68). -/
theorem Config0.toWord_spec (c : Config0) : (fun v : Word => v.extractLsb' 28 3 = c.k23 ∧ v.extractLsb' 25 3 = c.ku ∧
      v.extractLsb' 0 3 = c.k0 ∧ v &&& 0x81FFFFF8 = 0x80010580) c.toWord := by
  obtain ⟨k23, ku, k0⟩ := c
  have h : ∀ i, (Config0.toWord ⟨k23, ku, k0⟩).getLsbD i = (1#1 ++ k23 ++ ku ++ 0#8 ++ 1#1 ++ 0#1 ++ 0#2 ++ 1#3 ++ 3#3 ++ 0#4 ++ k0 : BitVec (1+3+3+8+1+1+2+3+3+4+3)).getLsbD i := fun i => rfl
  refine ⟨?_, ?_, ?_, ?_⟩
  all_goals (apply BitVec.eq_of_getLsbD_eq; intro i hi; simp only [BitVec.getLsbD_and, BitVec.getLsbD_extractLsb', h, BitVec.getLsbD_append]; interval_cases i <;> simp)

/-- DEBUG as a word in Debug mode (spec 10 R73). -/
theorem Debug.toWord_spec (d : Debug) : (fun v : Word => v.getLsbD 31 = d.dbd ∧ v.getLsbD 28 = d.lsnm ∧ v.getLsbD 27 = d.doze ∧
        v.getLsbD 26 = d.halt ∧ v.getLsbD 25 = d.countDm ∧ v.getLsbD 24 = d.ibusep ∧
        v.getLsbD 21 = d.dbusep ∧ v.getLsbD 20 = d.iexi ∧ v.extractLsb' 10 5 = d.dexcCode ∧
        v.getLsbD 8 = d.sst ∧ v.getLsbD 5 = d.dint ∧ v.getLsbD 4 = d.dib ∧
        v.getLsbD 3 = d.ddbs ∧ v.getLsbD 2 = d.ddbl ∧ v.getLsbD 1 = d.dbp ∧
        v.getLsbD 0 = d.dss ∧ v &&& 0x20CC02C0 = 0 ∧ v.getLsbD 30 = d.dm ∧ v.extractLsb' 15 3 = 2) d.toWord := by
  obtain ⟨a1,a2,a3,a4,a5,a6,a7,a8,a9,a10,a11,a12,a13,a14,a15,a16,a17⟩ := d
  have h : ∀ i, (Debug.toWord ⟨a1,a2,a3,a4,a5,a6,a7,a8,a9,a10,a11,a12,a13,a14,a15,a16,a17⟩).getLsbD i = (bit a1 ++ bit a2 ++ 0#1 ++ bit a3 ++ bit a4 ++ bit a5 ++ bit a6 ++ bit a7 ++ 0#2 ++ bit a8 ++ bit a9 ++ 0#2 ++ 2#3 ++ a10 ++ 0#1 ++ bit a11 ++ 0#2 ++ bit a12 ++ bit a13 ++ bit a14 ++ bit a15 ++ bit a16 ++ bit a17 : BitVec (1+1+1+1+1+1+1+1+2+1+1+2+3+5+1+1+2+1+1+1+1+1+1)).getLsbD i := fun i => rfl
  refine ⟨?_, ?_, ?_, ?_, ?_, ?_, ?_, ?_, ?_, ?_, ?_, ?_, ?_, ?_, ?_, ?_, ?_, ?_, ?_⟩
  any_goals (rw [h]; simp only [BitVec.getLsbD_append]; simp)
  all_goals (apply BitVec.eq_of_getLsbD_eq; intro i hi; simp only [BitVec.getLsbD_and, BitVec.getLsbD_extractLsb', h, BitVec.getLsbD_append]; interval_cases i <;> simp)

end Sys2Proof.Machine
end

