-- ==== Sys2Proof/Laws/Words.lean ====
section
/-! SUPPORT. The fields of the words and halfwords that the statements write out. -/

namespace Sys2Proof.Machine

theorem Fields.ofWord_rWord (m : Word) (rs rt rd sa : Reg) :
    Fields.ofWord (rWord m rs rt rd sa) =
      ⟨m.extractLsb' 26 6, m.extractLsb' 21 5 ||| rs, m.extractLsb' 16 5 ||| rt, m.extractLsb' 11 5 ||| rd,
        m.extractLsb' 6 5 ||| sa, m.extractLsb' 0 6⟩ := by
  simp only [Fields.ofWord, rWord, Fields.mk.injEq]
  refine ⟨?_, ?_, ?_, ?_, ?_, ?_⟩ <;>
    (apply BitVec.eq_of_getLsbD_eq; intro i hi; interval_cases i <;> simp)

theorem Fields.ofWord_iWord (m : Word) (rs rt : Reg) (imm : BitVec 16) :
    Fields.ofWord (iWord m rs rt imm) =
      Fields.ofImm (m.extractLsb' 26 6) (m.extractLsb' 21 5 ||| rs) (m.extractLsb' 16 5 ||| rt) (m.extractLsb' 0 16 ||| imm) := by
  simp only [Fields.ofWord, Fields.ofImm, iWord, Fields.mk.injEq]
  refine ⟨?_, ?_, ?_, ?_, ?_, ?_⟩ <;>
    (apply BitVec.eq_of_getLsbD_eq; intro i hi
     simp only [BitVec.getLsbD_extractLsb', BitVec.getLsbD_or, BitVec.getLsbD_shiftLeft, BitVec.getLsbD_setWidth]
     interval_cases i <;> simp)

theorem Fields.ofWord_jWord (m : Word) (index : BitVec 26) :
    Fields.ofWord (jWord m index) =
      Fields.ofIndex (m.extractLsb' 26 6) (m.extractLsb' 0 26 ||| index) := by
  simp only [Fields.ofWord, Fields.ofIndex, jWord, Fields.mk.injEq]
  refine ⟨?_, ?_, ?_, ?_, ?_, ?_⟩ <;>
    (apply BitVec.eq_of_getLsbD_eq; intro i hi
     simp only [BitVec.getLsbD_extractLsb', BitVec.getLsbD_or, BitVec.getLsbD_setWidth]
     interval_cases i <;> simp)

theorem Fields.ofWord_codeWord (m : Word) (code : BitVec 20) :
    Fields.ofWord (codeWord m code) =
      Fields.ofCode20 (m.extractLsb' 26 6) (m.extractLsb' 6 20 ||| code) (m.extractLsb' 0 6) := by
  simp only [Fields.ofWord, Fields.ofCode20, codeWord, Fields.mk.injEq]
  refine ⟨?_, ?_, ?_, ?_, ?_, ?_⟩ <;>
    (apply BitVec.eq_of_getLsbD_eq; intro i hi
     simp only [BitVec.getLsbD_extractLsb', BitVec.getLsbD_or, BitVec.getLsbD_shiftLeft, BitVec.getLsbD_setWidth]
     interval_cases i <;> simp)

theorem Fields.ofWord_waitWord (code : BitVec 19) :
    Fields.ofWord (codeWord 0x42000020 code) = Fields.ofCode19 code 0x20 := by
  simp only [Fields.ofWord, Fields.ofCode19, codeWord, Fields.mk.injEq]
  have h : ∀ i, (1#1 ++ code.extractLsb' 15 4 : BitVec 5).getLsbD i =
      if i < 4 then (code.extractLsb' 15 4).getLsbD i else (1#1).getLsbD (i - 4) := fun i => BitVec.getLsbD_append
  refine ⟨?_, ?_, ?_, ?_, ?_, ?_⟩ <;>
    (apply BitVec.eq_of_getLsbD_eq; intro i hi; try rw [h]
     interval_cases i <;> simp)

theorem Fields.ofWord_trapWord (m : Word) (rs rt : Reg) (code : BitVec 10) :
    Fields.ofWord (trapWord m rs rt code) =
      ⟨m.extractLsb' 26 6, m.extractLsb' 21 5 ||| rs, m.extractLsb' 16 5 ||| rt, m.extractLsb' 11 5 ||| code.extractLsb' 5 5,
        m.extractLsb' 6 5 ||| code.extractLsb' 0 5, m.extractLsb' 0 6⟩ := by
  simp only [Fields.ofWord, trapWord, Fields.mk.injEq]
  refine ⟨?_, ?_, ?_, ?_, ?_, ?_⟩ <;>
    (apply BitVec.eq_of_getLsbD_eq; intro i hi
     simp only [BitVec.getLsbD_extractLsb', BitVec.getLsbD_or, BitVec.getLsbD_shiftLeft, BitVec.getLsbD_setWidth]
     interval_cases i <;> simp)

theorem Halfword.ofHalf_xyzHalf (m : Half) (x y z : Reg3) :
    Halfword.ofHalf (xyzHalf m x y z) =
      Halfword.ofRz (m.extractLsb' 11 5) (m.extractLsb' 8 3 ||| x) (m.extractLsb' 5 3 ||| y) (m.extractLsb' 2 3 ||| z)
        (m.extractLsb' 0 2) := by
  simp only [Halfword.ofHalf, Halfword.ofRz, xyzHalf, Halfword.mk.injEq]
  refine ⟨?_, ?_, ?_, ?_, ?_, ?_, ?_, ?_, ?_⟩ <;>
    (apply BitVec.eq_of_getLsbD_eq; intro i hi
     simp only [BitVec.getLsbD_extractLsb', BitVec.getLsbD_or, BitVec.getLsbD_shiftLeft, BitVec.getLsbD_setWidth]
     interval_cases i <;> simp)

theorem Halfword.ofHalf_xyHalf5 (m : Half) (x y : Reg3) (imm : BitVec 5) :
    Halfword.ofHalf (xyHalf m x y imm) =
      Halfword.ofImm5 (m.extractLsb' 11 5) (m.extractLsb' 8 3 ||| x) (m.extractLsb' 5 3 ||| y) (m.extractLsb' 0 5 ||| imm) := by
  simp only [Halfword.ofHalf, Halfword.ofImm5, xyHalf, Halfword.mk.injEq]
  refine ⟨?_, ?_, ?_, ?_, ?_, ?_, ?_, ?_, ?_⟩ <;>
    (apply BitVec.eq_of_getLsbD_eq; intro i hi
     simp only [BitVec.getLsbD_extractLsb', BitVec.getLsbD_or, BitVec.getLsbD_shiftLeft, BitVec.getLsbD_setWidth]
     interval_cases i <;> simp)

theorem Halfword.ofHalf_xHalf8 (m : Half) (x : Reg3) (imm : BitVec 8) :
    Halfword.ofHalf (xHalf m x imm) =
      Halfword.ofImm8 (m.extractLsb' 11 5) (m.extractLsb' 8 3 ||| x) (m.extractLsb' 0 8 ||| imm) := by
  simp only [Halfword.ofHalf, Halfword.ofImm8, xHalf, Halfword.mk.injEq]
  refine ⟨?_, ?_, ?_, ?_, ?_, ?_, ?_, ?_, ?_⟩ <;>
    (apply BitVec.eq_of_getLsbD_eq; intro i hi
     simp only [BitVec.getLsbD_extractLsb', BitVec.getLsbD_or, BitVec.getLsbD_shiftLeft, BitVec.getLsbD_setWidth]
     interval_cases i <;> simp)

theorem Halfword.ofHalf_xHalf5 (m : Half) (x : Reg3) (imm : BitVec 5) :
    Halfword.ofHalf (xHalf m x imm) =
      Halfword.ofImm5 (m.extractLsb' 11 5) (m.extractLsb' 8 3 ||| x) (m.extractLsb' 5 3) (m.extractLsb' 0 5 ||| imm) := by
  simp only [Halfword.ofHalf, Halfword.ofImm5, xHalf, Halfword.mk.injEq]
  refine ⟨?_, ?_, ?_, ?_, ?_, ?_, ?_, ?_, ?_⟩ <;>
    (apply BitVec.eq_of_getLsbD_eq; intro i hi
     simp only [BitVec.getLsbD_extractLsb', BitVec.getLsbD_or, BitVec.getLsbD_shiftLeft, BitVec.getLsbD_setWidth]
     interval_cases i <;> simp)

theorem Halfword.ofHalf_xyHalf4 (x y : Reg3) (imm : BitVec 4) :
    Halfword.ofHalf (xyHalf 0x4000 x y imm) =
      Halfword.ofImm4 8 x y imm := by
  simp only [Halfword.ofHalf, Halfword.ofImm4, xyHalf, Halfword.mk.injEq]
  refine ⟨?_, ?_, ?_, ?_, ?_, ?_, ?_, ?_, ?_⟩ <;>
    (apply BitVec.eq_of_getLsbD_eq; intro i hi
     simp only [BitVec.getLsbD_extractLsb', BitVec.getLsbD_or, BitVec.getLsbD_shiftLeft, BitVec.getLsbD_setWidth]
     interval_cases i <;> simp)

theorem Halfword.toHalf_ofHalf (w : Half) : (Halfword.ofHalf w).toHalf = w := by
  apply BitVec.eq_of_getLsbD_eq; intro i hi
  have h : ∀ i op rx y2 y1 y0 z2 z1 z0 f, (Halfword.toHalf ⟨op, rx, y2, y1, y0, z2, z1, z0, f⟩).getLsbD i =
    (op ++ rx ++ y2 ++ y1 ++ y0 ++ z2 ++ z1 ++ z0 ++ f : BitVec (5+3+1+1+1+1+1+1+2)).getLsbD i := fun _ _ _ _ _ _ _ _ _ _ => rfl
  simp only [Halfword.ofHalf, h, BitVec.getLsbD_append, BitVec.getLsbD_extractLsb']
  interval_cases i <;> simp

/-! ## A word reads as the instruction whose encoding has its fields -/

theorem reads_of_encode {w : Word} {i : Instr} {f : Fields} (hs : Laws.RoundTrip.Statement i)
    (hw : i.WellFormed = true) (he : encode i = .word f) (hf : Fields.ofWord w = f) : Reads w i := by
  have := hs hw
  rw [he, ← hf] at this
  simpa [Encoded.decode, decodeWord, Reads] using this

theorem reads16_of_encode {w : Half} {i : Instr} {f : Halfword} (hs : Laws.RoundTrip.Statement i)
    (hw : i.WellFormed = true) (he : encode i = .half f) (hf : Halfword.ofHalf w = f) : Reads16 w i := by
  have := hs hw
  rw [he, ← hf] at this
  simp only [Encoded.decode, Halfword.toHalf_ofHalf] at this
  split at this
  · cases this
  · rename_i h; exact ⟨by simpa using h, this⟩

end Sys2Proof.Machine
end

