-- ==== Sys2Proof/Tests/Slice0.lean ====
section
/-! SUPPORT. Tests: decoding of words written from the encodings of the spec, steps from its vectors, and for every statement with premises a state and operands that meet them. -/

open Sys2Proof Sys2Proof.Machine

namespace Sys2Proof.Tests

/-! ## Decoding -/

/-- Words of the instructions of spec 40, from its encodings and examples. -/
theorem test_decode_loads_and_stores : ([
    (0x8082FFFF, .lb 2 4 0xFFFF), (0x90820000, .lbu 2 4 0), (0x84A30002, .lh 3 5 2), (0x94A30002, .lhu 3 5 2),
    (0x8FA20004, .lw 2 29 4), (0x88880003, .lwl 8 4 3), (0x98880000, .lwr 8 4 0), (0xA0820000, .sb 2 4 0),
    (0xA4820006, .sh 2 4 6), (0xAFBF0014, .sw 31 29 20), (0xA8880003, .swl 8 4 3), (0xB8880000, .swr 8 4 0),
    (0xC0820000, .ll 2 4 0), (0xE0820000, .sc 2 4 0), (0xCC800000, .pref 0 4 0), (0xBC950000, .cache 21 4 0),
    (0xC4820000, .lwc1 2 4 0), (0xC8820000, .lwc2 2 4 0), (0xD4820000, .ldc1 2 4 0), (0xD8820000, .ldc2 2 4 0),
    (0xE4820000, .swc1 2 4 0), (0xE8820000, .swc2 2 4 0), (0xF4820000, .sdc1 2 4 0), (0xF8820000, .sdc2 2 4 0)] :
    List (Word × Instr)).all (fun p => decodeWord p.1 = .instr p.2) = true := by decide

/-- Words of the instructions of spec 41, from its encodings and examples. -/
theorem test_decode_arithmetic : ([
    (0x00221820, .add 3 1 2), (0x00221821, .addu 3 1 2), (0x00221822, .sub 3 1 2), (0x00221823, .subu 3 1 2),
    (0x0022182A, .slt 3 1 2), (0x0022182B, .sltu 3 1 2), (0x00221824, .and 3 1 2), (0x00221825, .or 3 1 2),
    (0x00221826, .xor 3 1 2), (0x00221827, .nor 3 1 2), (0x2022FFFF, .addi 2 1 0xFFFF),
    (0x27BDFFE8, .addiu 29 29 0xFFE8), (0x2822FFFF, .slti 2 1 0xFFFF), (0x2C22FFFF, .sltiu 2 1 0xFFFF),
    (0x3022FF00, .andi 2 1 0xFF00), (0x34228000, .ori 2 1 0x8000), (0x3822FFFF, .xori 2 1 0xFFFF),
    (0x3C02BF88, .lui 2 0xBF88)] :
    List (Word × Instr)).all (fun p => decodeWord p.1 = .instr p.2) = true := by decide

/-- Words of the instructions of spec 41, from its encodings and examples. -/
theorem test_decode_shifts : ([
    (0x00031100, .sll 2 3 4), (0x00031102, .srl 2 3 4), (0x00031103, .sra 2 3 4), (0x00231202, .rotr 2 3 8),
    (0x00831004, .sllv 2 3 4), (0x00831006, .srlv 2 3 4), (0x00831007, .srav 2 3 4), (0x00831046, .rotrv 2 3 4),
    (0x70821020, .clz 2 4 2), (0x70821021, .clo 2 4 2), (0x7C821A00, .ext 2 4 3 8), (0x7C825A04, .ins 2 4 11 8),
    (0x7C041420, .seb 2 4), (0x7C041620, .seh 2 4), (0x7C0410A0, .wsbh 2 4), (0x0022180A, .movz 3 1 2),
    (0x0022180B, .movn 3 1 2)] :
    List (Word × Instr)).all (fun p => decodeWord p.1 = .instr p.2) = true := by decide

/-- Words of the instructions of spec 41, from its encodings and examples. -/
theorem test_decode_multiplies_and_divides : ([
    (0x00850018, .mult 4 5), (0x00850019, .multu 4 5), (0x0085001A, .div 4 5), (0x0085001B, .divu 4 5),
    (0x70850000, .madd 4 5), (0x70850001, .maddu 4 5), (0x70850004, .msub 4 5), (0x70850005, .msubu 4 5),
    (0x70851002, .mul 2 4 5), (0x00001010, .mfhi 2), (0x00001012, .mflo 2), (0x00800011, .mthi 4),
    (0x00800013, .mtlo 4)] :
    List (Word × Instr)).all (fun p => decodeWord p.1 = .instr p.2) = true := by decide

/-- Words of the instructions of spec 42, from its encodings and examples. -/
theorem test_decode_jumps_and_branches : ([
    (0x0B400040, .j 0x3400040), (0x0F400040, .jal 0x3400040), (0x77400040, .jalx 0x3400040),
    (0x03E00008, .jr 31 0), (0x03E00408, .jrHb 31 0), (0x0320F809, .jalr 31 25 0),
    (0x0320FC09, .jalrHb 31 25 0), (0x10850003, .beq 4 5 3), (0x1485FFFE, .bne 4 5 0xFFFE),
    (0x50850003, .beql 4 5 3), (0x54850003, .bnel 4 5 3), (0x18800003, .blez 4 3), (0x1C800003, .bgtz 4 3),
    (0x58800003, .blezl 4 3), (0x5C800003, .bgtzl 4 3), (0x04800003, .bltz 4 3), (0x04810003, .bgez 4 3),
    (0x04820003, .bltzl 4 3), (0x04830003, .bgezl 4 3), (0x04900003, .bltzal 4 3), (0x04910003, .bgezal 4 3),
    (0x04920003, .bltzall 4 3), (0x04930003, .bgezall 4 3)] :
    List (Word × Instr)).all (fun p => decodeWord p.1 = .instr p.2) = true := by decide

/-- Words of the instructions of spec 43, from its encodings and examples. -/
theorem test_decode_traps_and_barriers : ([
    (0x00000000, .nop), (0x00000040, .ssnop), (0x000000C0, .ehb), (0x0000000F, .sync 0),
    (0x049F0000, .synci 4 0), (0x0000000C, .syscall 0), (0x0000000D, .break_ 0), (0x7000003F, .sdbbp 0),
    (0x00850030, .tge 4 5 0), (0x00850031, .tgeu 4 5 0), (0x00850032, .tlt 4 5 0), (0x00850033, .tltu 4 5 0),
    (0x00850034, .teq 4 5 0), (0x00850036, .tne 4 5 0), (0x04880005, .tgei 4 5), (0x04890005, .tgeiu 4 5),
    (0x048A0005, .tlti 4 5), (0x048B0005, .tltiu 4 5), (0x048C0005, .teqi 4 5), (0x048E0005, .tnei 4 5),
    (0x7C02103B, .rdhwr 2 2), (0x42000020, .wait 0)] :
    List (Word × Instr)).all (fun p => decodeWord p.1 = .instr p.2) = true := by decide

/-- Words of the instructions of spec 44, from its encodings and examples. -/
theorem test_decode_coprocessors : ([
    (0x40026000, .mfc0 2 12 0), (0x40826000, .mtc0 2 12 0), (0x41441000, .rdpgpr 2 4),
    (0x41C41000, .wrpgpr 2 4), (0x41606000, .di 0), (0x41626020, .ei 2), (0x42000018, .eret),
    (0x4200001F, .deret), (0x42000001, .tlbr), (0x42000002, .tlbwi), (0x42000006, .tlbwr), (0x42000008, .tlbp),
    (0x44000001, .cop1 1), (0x48000001, .cop2 1), (0x4C000001, .cop1x 1), (0x00801001, .movci 0x20040)] :
    List (Word × Instr)).all (fun p => decodeWord p.1 = .instr p.2) = true := by decide

/-- Halfwords of MIPS16e, from the encodings and examples of spec 45. -/
theorem test_decode_mips16_first : ([
    (0x0202, .m16Addiusp 2 2), (0x0A04, .m16Addiupc 2 4), (0x1004, .m16B 4), (0x2204, .m16Beqz 2 4),
    (0x2AFE, .m16Bnez 2 0xFE), (0x3270, .m16Sll 2 3 4), (0x3272, .m16Srl 2 3 4), (0x3273, .m16Sra 2 3 4),
    (0x426F, .m16Addiu 3 2 15), (0x4AFF, .m16Addiu8 2 0xFF), (0x5205, .m16Slti 2 5), (0x5A05, .m16Sltiu 2 5),
    (0x6004, .m16Bteqz 4), (0x6104, .m16Btnez 4), (0x6205, .m16Swrasp 5), (0x63FE, .m16Adjsp 0xFE),
    (0x64F4, .m16Save true true true 4), (0x6474, .m16Restore true true true 4), (0x65BA, .m16Mov32r 29 2),
    (0x675D, .m16Movr32 2 29), (0x6A05, .m16Li 2 5), (0x7205, .m16Cmpi 2 5), (0x8441, .m16Lb 2 4 1),
    (0x8C41, .m16Lh 2 4 1), (0x9201, .m16Lwsp 2 1), (0x9C41, .m16Lw 2 4 1), (0xA441, .m16Lbu 2 4 1),
    (0xAC41, .m16Lhu 2 4 1), (0xB202, .m16Lwpc 2 2), (0xC441, .m16Sb 2 4 1), (0xCC41, .m16Sh 2 4 1),
    (0xD201, .m16Swsp 2 1)] :
    List (Half × Instr)).all (fun p => hasSecondHalf p.1 = false ∧ decodeHalf p.1 = .instr p.2) = true := by decide

/-- Halfwords of MIPS16e, from the encodings and examples of spec 45. -/
theorem test_decode_mips16_second : ([
    (0xDC41, .m16Sw 2 4 1), (0xE4A9, .m16Addu 2 4 5), (0xE4AB, .m16Subu 2 4 5), (0xEA00, .m16Jr 2),
    (0xE820, .m16JrRa), (0xEA40, .m16Jalr 2), (0xEA80, .m16Jrc 2), (0xE8A0, .m16JrcRa), (0xEAC0, .m16Jalrc 2),
    (0xE801, .m16Sdbbp 0), (0xECA2, .m16Slt 4 5), (0xECA3, .m16Sltu 4 5), (0xEB44, .m16Sllv 2 3),
    (0xE805, .m16Break 0), (0xEB46, .m16Srlv 2 3), (0xEB47, .m16Srav 2 3), (0xECAA, .m16Cmp 4 5),
    (0xEA6B, .m16Neg 2 3), (0xEA6C, .m16And 2 3), (0xEA6D, .m16Or 2 3), (0xEA6E, .m16Xor 2 3),
    (0xEA6F, .m16Not 2 3), (0xEA10, .m16Mfhi 2), (0xEA12, .m16Mflo 2), (0xECB8, .m16Mult 4 5),
    (0xECB9, .m16Multu 4 5), (0xECBA, .m16Div 4 5), (0xECBB, .m16Divu 4 5), (0xEA11, .m16Zeb 2),
    (0xEA31, .m16Zeh 2), (0xEA91, .m16Seb 2), (0xEAB1, .m16Seh 2), (0x6500, .m16Nop)] :
    List (Half × Instr)).all (fun p => hasSecondHalf p.1 = false ∧ decodeHalf p.1 = .instr p.2) = true := by decide

/-- Pairs of halfwords of MIPS16e: JAL, JALX and every extended instruction, from the encodings of spec 45 R448. -/
theorem test_decode_mips16_pairs : ([
    (0x181A, 0x0040, .m16Jal 0x3400040), (0x1C1A, 0x0040, .m16Jalx 0x3400040),
    (0xF253, 0x021C, .m16Extend (.addiusp 2 0x9A5C)), (0xF253, 0x0A1C, .m16Extend (.addiupc 2 0x9A5C)),
    (0xF253, 0x101C, .m16Extend (.b 0x9A5C)), (0xF253, 0x221C, .m16Extend (.beqz 2 0x9A5C)),
    (0xF253, 0x2A1C, .m16Extend (.bnez 2 0x9A5C)), (0xF500, 0x3260, .m16Extend (.sll 2 3 20)),
    (0xF500, 0x3262, .m16Extend (.srl 2 3 20)), (0xF500, 0x3263, .m16Extend (.sra 2 3 20)),
    (0xF25B, 0x426C, .m16Extend (.addiu 3 2 0x5A5C)), (0xF253, 0x4A1C, .m16Extend (.addiu8 2 0x9A5C)),
    (0xF253, 0x521C, .m16Extend (.slti 2 0x9A5C)), (0xF253, 0x5A1C, .m16Extend (.sltiu 2 0x9A5C)),
    (0xF253, 0x601C, .m16Extend (.bteqz 0x9A5C)), (0xF253, 0x611C, .m16Extend (.btnez 0x9A5C)),
    (0xF253, 0x621C, .m16Extend (.swrasp 0x9A5C)), (0xF253, 0x631C, .m16Extend (.adjsp 0x9A5C)),
    (0xF090, 0x64D4, .m16Extend (.save 0 0 0x94 true false true)),
    (0xF090, 0x6454, .m16Extend (.restore 0 0 0x94 true false true)),
    (0xF253, 0x6A1C, .m16Extend (.li 2 0x9A5C)), (0xF253, 0x721C, .m16Extend (.cmpi 2 0x9A5C)),
    (0xF253, 0x847C, .m16Extend (.lb 3 4 0x9A5C)), (0xF253, 0x8C7C, .m16Extend (.lh 3 4 0x9A5C)),
    (0xF253, 0x9C7C, .m16Extend (.lw 3 4 0x9A5C)), (0xF253, 0xA47C, .m16Extend (.lbu 3 4 0x9A5C)),
    (0xF253, 0xAC7C, .m16Extend (.lhu 3 4 0x9A5C)), (0xF253, 0xC47C, .m16Extend (.sb 3 4 0x9A5C)),
    (0xF253, 0xCC7C, .m16Extend (.sh 3 4 0x9A5C)), (0xF253, 0xDC7C, .m16Extend (.sw 3 4 0x9A5C)),
    (0xF253, 0x921C, .m16Extend (.lwsp 2 0x9A5C)), (0xF253, 0xB21C, .m16Extend (.lwpc 2 0x9A5C)),
    (0xF253, 0xD21C, .m16Extend (.swsp 2 0x9A5C))] :
    List (Half × Half × Instr)).all (fun p => hasSecondHalf p.1 = true ∧ decodePair p.1 p.2.1 = .instr p.2.2) = true := by decide

/-- What stands in no row of the tables (spec 30 R164, R167, 44 R417, 45 R448, R527): MFMC0 with rd other than 12 is reserved, a nonzero must-be-zero field is not executed, EXTEND before a reserved halfword is reserved and before one that cannot be extended is refused; the second halfword of an extended B may have any h[10:8]. -/
theorem test_decode_none :
    [0x41600000, 0x41606840, 0x40200000].all (fun w : Word => decodeWord w = .reservedCop0) = true ∧
    [0x41606001, 0x00000060].all (fun w : Word => decodeWord w = .nonzeroField) = true ∧
    [(0xF000, 0x3001), (0xF000, 0x6600), (0xF000, 0xE813), (0xF000, 0xE860)].all
      (fun p : Half × Half => decodePair p.1 p.2 = .reserved) = true ∧
    [(0xF000, 0xE802), (0xF000, 0x6500)].all (fun p : Half × Half => decodePair p.1 p.2 = .notExtensible) = true ∧
    decodePair 0xF253 0x171C = .instr (.m16Extend (.b 0x9A5C)) := by decide

/-! ## Steps, from the vectors of spec 95 -/

/-- A field of the next state. -/
def after {α : Type} (r : Result) (f : State → α) : Option α :=
  match r with
  | .next t => some (f t)
  | _ => none

/-- The outcome of an instruction word. -/
def run (w : Word) (s : State) : Result :=
  match decodeWord w with
  | .instr i => exec i s
  | _ => .refused .nonzeroField

/-- The outcome of an instruction halfword. -/
def run16 (h : Half) (s : State) : Result :=
  match decodeHalf h with
  | .instr i => exec i s
  | _ => .refused .nonzeroField

/-- `s` with values in registers of the current set. -/
def withRegs (s : State) (l : List (Reg × Word)) : State := l.foldl (fun s p => s.write p.1 p.2) s

/-- `s` with another STATUS. -/
def withStatus (s : State) (st : Status) : State := { s with cp0 := { s.cp0 with status := st } }

/-- STATUS = 0x00000000. -/
def clearStatus : Status := { Status.reset with bev := false, erl := false }

/-- Kernel mode, STATUS = 0, at the address of the branches of spec 95 2.4, EBASE = 0x9D001000 as in 2.7. -/
def kernel : State :=
  { State.reset with pc := 0x9D000010, cp0 := { Cp0.reset with status := clearStatus, ebase := 0x1D001 } }

/-- User mode, STATUS = 0x00000010. -/
def user : State := withStatus kernel { clearStatus with um := true }

/-- Debug mode. -/
def inDebug : State := { kernel with cp0 := { kernel.cp0 with debugReg := { kernel.cp0.debugReg with dm := true } } }

/-- Kernel mode in a delay slot. -/
def inSlot : State := { kernel with delay := some { branch := 0x9D00000C, target := 0x9D000100, mode := .mips32, barrier := false } }

/-- The bytes 11 22 33 44 55 66 77 88 at 0xA0000100, the address in r4 (spec 95 2.2). -/
def withData (s : State) : State :=
  withRegs { s with mem := { cells := [⟨0x100, 0x11⟩, ⟨0x101, 0x22⟩, ⟨0x102, 0x33⟩, ⟨0x103, 0x44⟩, ⟨0x104, 0x55⟩,
    ⟨0x105, 0x66⟩, ⟨0x106, 0x77⟩, ⟨0x107, 0x88⟩] } } [(4, 0xA0000100)]

/-- Words with the register each writes and its value. -/
def gives (s : State) (l : List (Word × Reg × Word)) : Bool :=
  l.all fun p => after (run p.1 s) (fun t => t.reg p.2.1) = some p.2.2

/-- The memory at 0x100 to 0x107 after a word. -/
def leaves (s : State) (w : Word) (l : List Byte) : Bool :=
  after (run w s) (fun t => (List.range 8).map fun k => t.mem.read (0x100 + k)) = some l

/-- The exception code after a word, BADVADDR and the next address. -/
def raises (s : State) (w : Word) (code : BitVec 5) (va pc : Word) : Bool :=
  after (run w s) (fun t => (t.cp0.cause.excCode, t.cp0.badVAddr, t.pc)) = some (code, va, pc)

/-- The pending transfer after a word. -/
def goes (s : State) (w : Word) : Option (Word × Option Word) :=
  after (run w s) fun t => (t.pc, t.delay.map fun d => d.target)

theorem test_loads : gives (withData kernel) [
    (0x8C820000, 2, 0x44332211), (0x84820002, 2, 0x00004433), (0x94820006, 2, 0x00008877),
    (0x84820006, 2, 0xFFFF8877), (0x80820007, 2, 0xFFFFFF88), (0x90820007, 2, 0x00000088),
    (0x8C800000, 0, 0), (0xC0820000, 2, 0x44332211)] = true := by decide

theorem test_load_address_errors :
    raises (withData kernel) 0x8C820001 4 0xA0000101 0x9D001180 = true ∧
    raises (withData kernel) 0x84820001 4 0xA0000101 0x9D001180 = true ∧
    raises (withData kernel) 0xAC820002 5 0xA0000102 0x9D001180 = true ∧
    raises (withData kernel) 0xA4820001 5 0xA0000101 0x9D001180 = true ∧
    raises (withRegs user [(4, 0x80000000)]) 0xAC820000 5 0x80000000 0x9D001180 = true := by decide

theorem test_stores : let s := withRegs (withData kernel) [(2, 0xAABBCCDD)]
    leaves s 0xA0820001 [0x11, 0xDD, 0x33, 0x44, 0x55, 0x66, 0x77, 0x88] = true ∧
    leaves s 0xA4820002 [0x11, 0x22, 0xDD, 0xCC, 0x55, 0x66, 0x77, 0x88] = true ∧
    leaves s 0xAC820004 [0x11, 0x22, 0x33, 0x44, 0xDD, 0xCC, 0xBB, 0xAA] = true := by decide

theorem test_unaligned_loads : gives (withRegs (withData kernel) [(4, 0xA0000101), (8, 0xAAAAAAAA)]) [
    (0x98880000, 8, 0xAA443322), (0x88880003, 8, 0x55AAAAAA)] = true := by decide

theorem test_unaligned_load_second_half :
    gives (withRegs (withData kernel) [(4, 0xA0000101), (8, 0xAA443322)]) [(0x88880003, 8, 0x55443322)] = true := by
  decide

theorem test_unaligned_stores : let s := withRegs (withData kernel) [(4, 0xA0000101), (8, 0xDDCCBBAA)]
    leaves s 0xB8880000 [0x11, 0xAA, 0xBB, 0xCC, 0x55, 0x66, 0x77, 0x88] = true ∧
    leaves s 0xA8880003 [0x11, 0x22, 0x33, 0x44, 0xDD, 0x66, 0x77, 0x88] = true := by decide

/-- In the reversed byte order of User mode the byte at address 0 of a word is its most significant (spec 20 R111). -/
theorem test_reversed_load : gives (withRegs (withStatus { kernel with mem := { cells := [⟨0x40000103, 0x77⟩] } }
    { clearStatus with um := true, re := true }) [(4, 0x100)]) [(0x80820000, 2, 0x77)] = true := by decide

theorem test_store_conditional : let s := withRegs (withData kernel) [(3, 0xAABBCCDD)]
    after (run 0xE0830000 { s with llbit := true }) (fun t => (t.reg 3, t.mem.read 0x100)) = some (1, 0xDD) ∧
    after (run 0xE0830000 s) (fun t => (t.reg 3, t.mem.read 0x100)) = some (0, 0x11) := by decide

/-- Another bus master writes a word that SAVE stored, between its accesses (spec 00 R13): the later value stays. -/
theorem test_write_between_accesses :
    let w : BusWrite := { address := 0x11C, bytes := [(0, 9), (3, 8)] }
    after (run16 0x64F4 { withRegs kernel [(29, 0xA0000120), (31, 1), (17, 2), (16, 3)] with between := [[w]] })
      (fun t => (t.mem.read 0x11C, t.mem.read 0x11F, t.mem.read 0x118, t.between)) = some (9, 8, 2, []) := by decide

/-- The writes to the four addresses of a peripheral register (spec 95 1.1), with CLR, SET and INV at words 1 to 3. -/
theorem test_set_clr_inv :
    let r : Region := { base := 0, size := 0x1000, kind := .registers 1 2 3, fetch := false, load := true, store := true, user := true }
    let s : State := { kernel with physMap := [r], mem := { cells := [⟨0x100, 0x55⟩, ⟨0x101, 0x55⟩, ⟨0x102, 0xaa⟩, ⟨0x103, 0xaa⟩] } }
    let v := fun (w : Word) => after (run w (withRegs s [(4, 0xA0000100), (2, 0xff)])) fun t => t.valueAt 0x100 4
    v 0xAC820000 = some 0x000000ff ∧ v 0xAC820008 = some 0xaaaa55ff ∧ v 0xAC820004 = some 0xaaaa5500 ∧
    v 0xAC82000C = some 0xaaaa55aa := by decide

theorem test_absent_coprocessors :
    after (run 0xC4820000 kernel) (fun t => (t.cp0.cause.excCode, t.cp0.cause.ce)) = some (11, 1) ∧
    after (run 0xC8820000 kernel) (fun t => (t.cp0.cause.excCode, t.cp0.cause.ce)) = some (11, 2) ∧
    after (run 0x44000000 kernel) (fun t => (t.cp0.cause.excCode, t.cp0.cause.ce)) = some (11, 1) ∧
    after (run 0x48000000 kernel) (fun t => (t.cp0.cause.excCode, t.cp0.cause.ce)) = some (11, 2) := by decide

theorem test_prefetch_and_cache :
    after (run 0xCC800000 user) (fun t => t.pc) = some 0x9D000014 ∧
    after (run 0xBC950000 kernel) (fun t => t.pc) = some 0x9D000014 ∧
    after (run 0xBC950000 user) (fun t => (t.cp0.cause.excCode, t.cp0.cause.ce)) = some (11, 0) := by decide

theorem test_add_and_subtract : gives (withRegs kernel [(1, 0x7FFFFFFF), (2, 1)]) [
    (0x00221821, 3, 0x80000000), (0x2022FFFF, 2, 0x7FFFFFFE), (0x24228000, 2, 0x7FFF7FFF), (0x00220021, 0, 0)] = true ∧
    gives (withRegs kernel [(1, 0xFFFFFFFF), (2, 1)]) [(0x00221820, 3, 0)] = true ∧
    gives (withRegs kernel [(2, 1)]) [(0x00221823, 3, 0xFFFFFFFF)] = true := by decide

theorem test_overflow :
    after (run 0x00221820 (withRegs kernel [(1, 0x7FFFFFFF), (2, 1), (3, 9)])) (fun t => (t.cp0.cause.excCode, t.reg 3)) =
      some (12, 9) ∧
    raises (withRegs kernel [(1, 0x80000000), (2, 0xFFFFFFFF)]) 0x00221820 12 0 0x9D001180 = true ∧
    raises (withRegs kernel [(1, 0x80000000), (2, 1)]) 0x00221822 12 0 0x9D001180 = true ∧
    raises (withRegs kernel [(1, 0x7FFFFFFF)]) 0x20220001 12 0 0x9D001180 = true := by decide

theorem test_compare :
    gives (withRegs kernel [(1, 0xFFFFFFFF), (2, 1)]) [(0x0022182A, 3, 1), (0x0022182B, 3, 0), (0x2C22FFFF, 2, 0)] = true ∧
    gives (withRegs kernel [(1, 0xFFFFFFFE)]) [(0x2822FFFF, 2, 1), (0x2C22FFFF, 2, 1)] = true := by decide

theorem test_logic :
    gives (withRegs kernel [(1, 0xF0F0F0F0), (2, 0xFF00FF00)]) [
      (0x00221824, 3, 0xF000F000), (0x00221825, 3, 0xFFF0FFF0), (0x00221826, 3, 0x0FF00FF0), (0x00201827, 3, 0x0F0F0F0F),
      (0x3C028000, 2, 0x80000000)] = true ∧
    gives (withRegs kernel [(1, 0xFFFFFFFF)]) [(0x30228000, 2, 0x00008000), (0x3822FFFF, 2, 0xFFFF0000)] = true ∧
    gives (withRegs kernel [(1, 0x12340000)]) [(0x3422FFFF, 2, 0x1234FFFF)] = true := by decide

theorem test_shifts : gives (withRegs kernel [(1, 0x80000001), (2, 0x24)]) [
    (0x00011100, 2, 0x00000010), (0x00011102, 2, 0x08000000), (0x00011103, 2, 0xF8000000), (0x00211102, 2, 0x18000000),
    (0x00411804, 3, 0x00000010), (0x00411806, 3, 0x08000000), (0x00411807, 3, 0xF8000000), (0x00411846, 3, 0x18000000),
    (0x00011003, 2, 0x80000001)] = true := by decide

/-- HI and LO after a word, from HI, LO, r4 and r5. -/
def hiLoOf (w hi lo a b : Word) : Option (Word × Word) :=
  after (run w (withRegs { kernel with hi := hi, lo := lo } [(4, a), (5, b)])) fun t => (t.hi, t.lo)

theorem test_multiplies :
    hiLoOf 0x00850018 0 0 0xFFFFFFFE 3 = some (0xFFFFFFFF, 0xFFFFFFFA) ∧
    hiLoOf 0x00850019 0 0 0xFFFFFFFE 3 = some (0x00000002, 0xFFFFFFFA) ∧
    hiLoOf 0x70850001 1 0xFFFFFFFF 2 3 = some (0x00000002, 0x00000005) ∧
    hiLoOf 0x70850000 0 0 0xFFFFFFFE 3 = some (0xFFFFFFFF, 0xFFFFFFFA) ∧
    hiLoOf 0x70850004 0 0 2 3 = some (0xFFFFFFFF, 0xFFFFFFFA) ∧ hiLoOf 0x70850005 0 6 2 3 = some (0, 0) ∧
    gives (withRegs kernel [(4, 0x00010000), (5, 0x00010001)]) [(0x70851002, 2, 0x00010000)] = true := by decide

theorem test_divides :
    hiLoOf 0x0085001A 0 0 0xFFFFFFF9 2 = some (0xFFFFFFFF, 0xFFFFFFFD) ∧
    hiLoOf 0x0085001A 0 0 7 0xFFFFFFFE = some (0x00000001, 0xFFFFFFFD) ∧
    hiLoOf 0x0085001B 0 0 0xFFFFFFF9 2 = some (0x00000001, 0x7FFFFFFC) ∧
    after (run 0x0085001A kernel) (fun t => t.pc) = some 0x9D000014 := by decide

theorem test_hi_lo_moves : let s := withRegs { kernel with hi := 5, lo := 6 } [(4, 9)]
    gives s [(0x00001010, 2, 5), (0x00001012, 2, 6)] = true ∧ after (run 0x00800011 s) (fun t => (t.hi, t.lo)) = some (9, 6) ∧
    after (run 0x00800013 s) (fun t => (t.hi, t.lo)) = some (5, 9) := by decide

theorem test_count_bits :
    gives (withRegs kernel [(4, 0x00010000)]) [(0x70821020, 2, 15)] = true ∧
    gives (withRegs kernel [(4, 0)]) [(0x70821020, 2, 32)] = true ∧
    gives (withRegs kernel [(4, 0xFFFF0000)]) [(0x70821021, 2, 16)] = true ∧
    gives (withRegs kernel [(4, 0x7FFFFFFF)]) [(0x70821021, 2, 0)] = true := by decide

theorem test_bit_fields :
    gives (withRegs kernel [(4, 0x12345678)]) [(0x7C821A00, 2, 6), (0x7C82F800, 2, 0x12345678)] = true ∧
    gives (withRegs kernel [(2, 0xFFFFFFFF), (4, 0x12345670)]) [(0x7C825A04, 2, 0xFFFFF0FF)] = true ∧
    gives (withRegs kernel [(4, 0x80)]) [(0x7C041420, 2, 0xFFFFFF80)] = true ∧
    gives (withRegs kernel [(4, 0x18000)]) [(0x7C041620, 2, 0xFFFF8000)] = true ∧
    gives (withRegs kernel [(4, 0x11223344)]) [(0x7C0410A0, 2, 0x22114433)] = true := by decide

theorem test_conditional_moves :
    gives (withRegs kernel [(2, 7), (4, 9), (5, 0)]) [(0x0085100A, 2, 9), (0x0085100B, 2, 7)] = true ∧
    gives (withRegs kernel [(2, 7), (4, 9), (5, 1)]) [(0x0085100A, 2, 7), (0x0085100B, 2, 9)] = true := by decide

theorem test_branches : let eq := withRegs kernel [(1, 5), (2, 5)]
    let ne := withRegs kernel [(1, 0x80000000)]
    goes (withRegs kernel [(1, 5), (2, 5)]) 0x10220003 = some (0x9D000014, some 0x9D000020) ∧
    goes (withRegs kernel [(1, 5)]) 0x10220003 = some (0x9D000014, some 0x9D000018) ∧
    goes (withRegs kernel [(1, 5)]) 0x1422FFFF = some (0x9D000014, some 0x9D000010) ∧
    goes kernel 0x10007FFF = some (0x9D000014, some 0x9D020010) ∧
    goes kernel 0x10008000 = some (0x9D000014, some 0x9CFE0014) ∧
    goes ne 0x1C200003 = some (0x9D000014, some 0x9D000018) ∧ goes ne 0x18200003 = some (0x9D000014, some 0x9D000020) ∧
    goes kernel 0x04200003 = some (0x9D000014, some 0x9D000018) ∧ goes kernel 0x04210003 = some (0x9D000014, some 0x9D000020) ∧
    goes eq 0x50220003 = some (0x9D000014, some 0x9D000020) := by decide

theorem test_branches_likely : let one := withRegs kernel [(1, 1)]
    let low := withRegs kernel [(1, 0xFFFFFFFF)]
    goes one 0x50220003 = some (0x9D000018, none) ∧ goes kernel 0x54220003 = some (0x9D000018, none) ∧
    goes one 0x58200001 = some (0x9D000018, none) ∧ goes low 0x5C200001 = some (0x9D000018, none) ∧
    goes one 0x04220001 = some (0x9D000018, none) ∧ goes low 0x04230001 = some (0x9D000018, none) ∧
    goes one 0x04320001 = some (0x9D000018, none) ∧ goes low 0x04330001 = some (0x9D000018, none) := by decide

theorem test_links : gives kernel [(0x04300001, 31, 0x9D000018), (0x04310001, 31, 0x9D000018), (0x04320001, 31, 0x9D000018),
    (0x0F400040, 31, 0x9D000018), (0x77400040, 31, 0x9D000018), (0x0320F809, 31, 0x9D000018)] = true := by decide

theorem test_jumps :
    goes kernel 0x0B400040 = some (0x9D000014, some 0x9D000100) ∧
    goes { kernel with pc := 0x9FFFFFFC } 0x08000000 = some (0xA0000000, some 0xA0000000) ∧
    after (run 0x77400040 kernel) (fun t => t.delay.map (fun d => (d.target, d.mode))) = some (some (0x9D000100, .mips16)) ∧
    after (run 0x03E00008 (withRegs kernel [(31, 0x9D000401)])) (fun t => t.delay.map (fun d => (d.target, d.mode))) =
      some (some (0x9D000400, .mips16)) ∧
    goes (withRegs kernel [(31, 0x9D000402)]) 0x03E00008 = some (0x9D000014, some 0x9D000402) := by decide

theorem test_slot_goes_to_target :
    after (run 0 inSlot) (fun t => (t.pc, t.delay.isSome)) = some (0x9D000100, false) := by decide

/-- The exception code after a word, or none. -/
def codeOf (s : State) (w : Word) : Option (Option (BitVec 5)) :=
  after (run w s) fun t => if t.cp0.status.exl then some t.cp0.cause.excCode else none

theorem test_traps : let s := withRegs kernel [(1, 0xFFFFFFFF), (2, 1), (5, 3)]
    codeOf s 0x0000000C = some (some 8) ∧ codeOf s 0x0007000D = some (some 9) ∧ codeOf s 0x00A001F4 = some none ∧
    codeOf s 0x000001F4 = some (some 13) ∧ codeOf s 0x00220030 = some none ∧ codeOf s 0x00220031 = some (some 13) ∧
    codeOf s 0x00220032 = some (some 13) ∧ codeOf s 0x00220033 = some none ∧ codeOf s 0x00220036 = some (some 13) := by
  decide

theorem test_immediate_traps : let s := withRegs kernel [(1, 0xFFFFFFFF)]
    codeOf s 0x0428FFFF = some (some 13) ∧ codeOf s 0x0429FFFF = some (some 13) ∧ codeOf s 0x042AFFFF = some none ∧
    codeOf s 0x042BFFFF = some none ∧ codeOf s 0x042CFFFF = some (some 13) ∧ codeOf s 0x042EFFFF = some none := by decide

theorem test_debug_breakpoint :
    after (run 0x7000003F kernel) (fun t => (t.cp0.debugReg.dm, t.cp0.debugReg.dbp, t.cp0.depc)) = some (true, true, 0x9D000010) := by
  decide

theorem test_synci : after (run 0x049F0000 kernel) (fun t => t.pc) = some 0x9D000014 ∧
    after (run 0x0000000F kernel) (fun t => t.pc) = some 0x9D000014 := by decide

theorem test_read_hardware_register :
    gives { kernel with cp0 := { kernel.cp0 with count := 77 } } [(0x7C02103B, 2, 77), (0x7C02183B, 2, 2)] = true ∧
    codeOf user 0x7C02103B = some (some 10) ∧ codeOf kernel 0x7C02203B = some (some 10) ∧
    gives (withRegs { user with cp0 := { user.cp0 with hwrena := 1 } } [(2, 5)]) [(0x7C02003B, 2, 0)] = true := by decide

theorem test_move_from_coprocessor0 :
    gives (withStatus State.reset clearStatus) [(0x40026000, 2, 0), (0x40027801, 2, 0x80000000), (0x40028000, 2, 0xA4010582),
      (0x40028001, 2, 0x80000006), (0x40028002, 2, 0x80000000), (0x40028003, 2, 0x60), (0x40026002, 2, 0x04000000)] = true ∧
    after (run 0x40026000 user) (fun t => (t.cp0.cause.excCode, t.cp0.cause.ce)) = some (11, 0) := by decide

theorem test_move_to_coprocessor0 :
    after (run 0x40826000 (withRegs kernel [(2, 0xFFFFFFFF)])) (fun t => t.cp0.status.toWord) = some 0x1A40FF17 ∧
    after (run 0x40827801 (withRegs State.reset [(2, 0xFFFFFFFF)])) (fun t => ebaseWord t.cp0.ebase) = some 0xBFFFF000 ∧
    after (run 0x40825800 (withRegs { kernel with cp0 := { kernel.cp0 with cause := { Cause.reset with ti := true } } } [(2, 8)]))
      (fun t => (t.cp0.compare, t.cp0.cause.ti)) = some (8, false) := by decide

theorem test_interrupt_enable : let on := withStatus kernel { clearStatus with ie := true }
    after (run 0x41606000 on) (fun t => t.cp0.status) = some clearStatus ∧
    after (run 0x41626000 on) (fun t => (t.reg 2, t.cp0.status)) = some (1, clearStatus) ∧
    after (run 0x41626020 (withRegs kernel [(2, 9)])) (fun t => (t.reg 2, t.cp0.status.ie)) = some (0, true) := by decide

theorem test_eret :
    after (run 0x42000018 { withStatus kernel { clearStatus with ie := true, exl := true } with
      llbit := true, cp0 := { kernel.cp0 with epc := 0x9D000201, status := { clearStatus with ie := true, exl := true } } })
      (fun t => (t.pc, t.isaMode, t.cp0.status.toWord, t.llbit)) = some (0x9D000200, .mips16, 1, false) ∧
    after (run 0x42000018 { kernel with
      cp0 := { kernel.cp0 with errorEpc := 0x9D000000, status := { clearStatus with ie := true, exl := true, erl := true } } })
      (fun t => (t.pc, t.cp0.status.toWord)) = some (0x9D000000, 3) := by decide

theorem test_deret : codeOf kernel 0x4200001F = some (some 10) ∧
    after (run 0x4200001F { inDebug with cp0 := { inDebug.cp0 with depc := 0x9D000400 } }) (fun t => (t.pc, t.cp0.debugReg.dm)) =
      some (0x9D000400, false) := by decide

theorem test_previous_set :
    let s := withRegs { kernel with cp0 := { kernel.cp0 with srsCtl := { SrsCtl.reset with pss := 1 } } } [(2, 6)]
    gives (s.writeSet 1 4 7) [(0x41441000, 2, 7)] = true ∧
    after (run 0x41C22000 s) (fun t => (t.regOf 1 4, t.reg 4)) = some (6, 0) := by decide

theorem test_wait : after (run 0x42000020 kernel) (fun t => (t.pc, t.waiting)) = some (0x9D000014, true) := by decide

/-! ### Exceptions, interrupts, timer (spec 95 2.7, 2.8) -/

theorem test_exception_in_slot :
    after (run 0x0000000C inSlot) (fun t => (t.cp0.epc, t.cp0.cause.bd, t.cp0.status.toWord, t.pc)) =
      some (0x9D00000C, true, 2, 0x9D001180) := by decide

theorem test_nested_exception :
    after (run 0x00000034 (withStatus kernel { clearStatus with exl := true })) (fun t => (t.cp0.epc, t.cp0.cause.excCode, t.pc)) =
      some (0, 13, 0x9D001180) := by decide

theorem test_boot_vector :
    after (run 0x0000000C (withStatus kernel { clearStatus with bev := true })) (fun t => (t.cp0.epc, t.cp0.status.toWord, t.pc)) =
      some (0x9D000010, 0x00400002, 0xBFC00380) := by decide

/-- A state with an interrupt request: STATUS, CAUSE.IV, IntCtl.VS, the priority, at EBASE = 0x9D000000, vector number 5. -/
def requested (st : Status) (iv : Bool) (vs : BitVec 5) (ripl : BitVec 6) : State :=
  { kernel with
    eicVector := 5
    cp0 := { kernel.cp0 with
      status := st, intCtlVs := vs, ebase := 0x1D000, cause := { Cause.reset with iv := iv, ripl := ripl }
      srsCtl := { SrsCtl.reset with eicss := 1 } } }

/-- Where the next step goes, and the shadow set. -/
def taken (s : State) : Option (Word × ShadowSet × Bool) := after (step s) fun t => (t.pc, t.cp0.srsCtl.css, t.cp0.status.exl)

theorem test_interrupts : let ie := { clearStatus with ie := true }
    taken (requested ie true 1 3) = some (0x9D0002A0, 1, true) ∧ taken (requested ie true 16 3) = some (0x9D000C00, 1, true) ∧
    taken (requested ie true 0 3) = some (0x9D000200, 1, true) ∧ taken (requested ie false 1 3) = some (0x9D000180, 0, true) ∧
    taken (requested { ie with ipl := 3 } true 1 4) = some (0x9D0002A0, 1, true) ∧
    taken (requested { ie with bev := true } true 1 3) = some (0xBFC00400, 0, true) := by decide

theorem test_interrupts_held_back : let ie := { clearStatus with ie := true }
    taken (requested { ie with ipl := 3 } true 1 3) = some (0x9D000014, 0, false) ∧
    taken (requested clearStatus true 1 63) = some (0x9D000014, 0, false) ∧
    taken (requested { ie with exl := true } true 1 63) = some (0x9D000014, 0, true) ∧
    taken (requested { ie with erl := true } true 1 63) = some (0x9D000014, 0, false) ∧
    taken (requested ie true 1 0) = some (0x9D000014, 0, false) := by decide

/-- The vector address does not carry into bits 31:30 (spec 60 R634): EBASE = 0xBFFFF000, spacing 0x200, vectors 6 and 7. -/
theorem test_vector_without_carry :
    let s := requested { clearStatus with ie := true } true 16 1
    let goes := fun v => after (step { s with eicVector := v, cp0 := { s.cp0 with ebase := 0x3FFFF } }) fun t => t.pc
    goes 6 = some 0xBFFFFE00 ∧ goes 7 = some 0x80000000 := by decide

/-- DEBUG.DOZE: 0 for SDBBP in running code, whatever STATUS.RP, and 1 for a debug interrupt while WAIT idles (spec 10 R48, R75). -/
theorem test_doze :
    after (run 0x7000003F (withStatus kernel { clearStatus with rp := true })) (fun t => t.cp0.debugReg.doze) = some false ∧
    after (step { kernel with waiting := true, inputs := [{ StepInput.quiet with debugInterrupt := true }] })
      (fun t => t.cp0.debugReg.doze) = some true := by decide

/-- Each of the two fetches of a MIPS16e pair is made under its own choice of STATUS (spec 20 R122, 70 R721). -/
theorem test_fetch_choices (va : Word) :
    let s : State := { kernel with fetchHazards := [{ clearStatus with um := true }] }
    (s.fetchView va).status.um = Config.freeBit s.draws (.fetchOldStatus va.toNat 0) := by
  show (if _ then _ else _ : Status).um = _
  cases Config.freeBit _ _ <;> rfl

theorem test_shadow_set_on_exception :
    after (run 0x0000000C { kernel with cp0 := { kernel.cp0 with srsCtl := { SrsCtl.reset with ess := 1 } } })
      (fun t => (t.cp0.srsCtl.pss, t.cp0.srsCtl.css)) = some (0, 1) := by decide

theorem test_timer : let c : Cp0 := { Cp0.reset with count := 0xFFFFFFFE }
    ((c.ticks 1).count, (c.ticks 1).cause.ti) = (0xFFFFFFFF, false) ∧ ((c.ticks 2).count, (c.ticks 2).cause.ti) = (0, true) ∧
    ({ c with cause := { c.cause with dc := true } }.ticks 5).count = 0xFFFFFFFE := by decide

/-- Two reserved words, and a fetch from an address that is no multiple of 4 (spec 95 2.5, 2.7). -/
theorem test_fetch_faults :
    let at_ := fun (w : Nat) => after (step ({ kernel with pc := 0x9D000010 }.withFetchWord 32 w)) fun t => t.cp0.cause.excCode
    at_ 0xFC000000 = some 10 ∧ at_ 0x00000005 = some 10 ∧
    after (step { kernel with pc := 0x9D000402 }) (fun t => (t.cp0.cause.excCode, t.cp0.epc, t.cp0.badVAddr)) =
      some (4, 0x9D000402, 0x9D000402) := by decide

/-- An instruction placed at the reset vector is the first to run. -/
theorem test_first_instruction :
    after (step (State.reset.withFetchWord 32 0x3C020880)) (fun t => (t.reg 2, t.pc)) = some (0x08800000, 0xBFC00004) ∧
    after (step (State.reset.withFetchWord 16 0x6A05)) (fun t => (t.reg 2, t.pc)) = some (5, 0xBFC00002) := by decide

/-- The mapping of addresses (spec 95 2.1). -/
theorem test_translation : let c := kernel.cp0
    let e := { c with status := { c.status with erl := true } }
    [(0x00001000, 0x40001000), (0x7FFFFFFC, 0xBFFFFFFC), (0x80000000, 0), (0x9D000000, 0x1D000000), (0xA0000100, 0x100),
      (0xBFC00000, 0x1FC00000), (0xC0000000, 0xC0000000), (0xFF200200, 0xFF200200)].all
      (fun p : Word × Word => Machine.translate c p.1 = p.2) = true ∧
    Machine.translate e 0x00001000 = 0x00001000 ∧ Machine.translate e 0x20000000 = 0x60000000 := by decide

/-! ### MIPS16e (spec 95 2.10) -/

/-- Halfwords with the register each writes and its value. -/
def gives16 (s : State) (l : List (Half × Reg × Word)) : Bool :=
  l.all fun p => after (run16 p.1 s) (fun t => t.reg p.2.1) = some p.2.2

theorem test_mips16 : let s := withRegs { kernel with isaMode := .mips16 } [(2, 9), (3, 3), (4, 10), (5, 20), (29, 0xA0000100), (31, 7)]
    gives16 s [(0x6A05, 2, 5), (0x4AFF, 2, 8), (0x63FE, 29, 0xA00000F0), (0x675D, 2, 0xA0000100), (0xE4A9, 2, 30),
      (0x3270, 2, 0x30), (0x7205, 24, 12), (0x6500, 0, 0)] = true ∧
    after (run16 0x6205 s) (fun t => t.mem.read 0x114) = some 7 ∧
    after (run16 0x6004 s) (fun t => (t.pc, t.delay.isSome)) = some (0x9D00001A, false) ∧
    after (run16 0x2204 s) (fun t => t.pc) = some 0x9D000012 := by decide

theorem test_mips16_jumps : let s := withRegs { kernel with isaMode := .mips16 } [(31, 0x9D000400)]
    after (run16 0xE820 s) (fun t => (t.pc, t.delay.map fun d => (d.target, d.mode))) =
      some (0x9D000012, some (0x9D000400, .mips32)) ∧
    after (run16 0xE8A0 s) (fun t => (t.pc, t.isaMode, t.delay.isSome)) = some (0x9D000400, .mips32, false) ∧
    after (exec (.m16Jal 0x3400040) s) (fun t => t.reg 31) = some 0x9D000017 ∧
    after (run16 0xE805 s) (fun t => (t.cp0.cause.excCode, t.cp0.epc, t.isaMode)) = some (9, 0x9D000011, .mips32) := by decide

/-- SAVE of ra, s1 and s0, with a frame of 32 bytes (spec 45 R478). -/
theorem test_mips16_save :
    after (run16 0x64F4 (withRegs kernel [(29, 0xA0000120), (31, 1), (17, 2), (16, 3)]))
      (fun t => (t.reg 29, t.mem.read 0x11C, t.mem.read 0x118, t.mem.read 0x114)) = some (0xA0000100, 1, 2, 3) := by decide

/-! ## Operands that break an operand condition -/

/-- One ill-formed instruction for each check. -/
theorem test_ill_formed : [Instr.clz 1 2 3, .clo 1 2 3, .ext 1 2 31 1, .ins 1 2 0 1, .jalr 5 5 0, .jalrHb 5 5 0, .bltzal 31 1,
    .bgezal 31 1, .bltzall 31 1, .bgezall 31 1, .sll 0 0 0, .sll 0 0 1, .sll 0 0 3, .m16Mov32r 0 0,
    .m16Extend (.save 1 0 4 true true true), .m16Extend (.save 0 1 4 true true true),
    .m16Extend (.restore 1 0 4 true true true), .m16Extend (.restore 0 1 4 true true true)].all
    (fun i => !i.WellFormed) = true := by decide

/-- The neighbours that are well-formed. -/
theorem test_well_formed : [Instr.clz 1 2 1, .clo 1 2 1, .ext 1 2 31 0, .ins 1 2 31 31, .jalr 5 6 0, .jalrHb 5 6 0,
    .bltzal 30 1, .bgezal 30 1, .bltzall 30 1, .bgezall 30 1, .sll 0 0 2, .sll 1 0 0, .m16Mov32r 0 1, .m16Mov32r 1 0,
    .m16Extend (.save 0 0 4 true true true), .m16Extend (.restore 0 0 4 true true true)].all (fun i => i.WellFormed) = true := by
  decide

/-! ## The hypotheses of the statements can be met -/

/-- An access that succeeds, from its checks. -/
theorem accessible {s : State} {k : Access} {w : Width} {va : Word}
    (h : ¬ (va.toNat % w.bytes ≠ 0 ∨ s.seen.userMode = true ∧ 0x80000000 ≤ va.toNat) ∧ inDseg s.seen va = false ∧
      s.answers k s.seen.userMode (dataAddress s.seen w va) = true) : Accessible s k w va := h

/-- An access that ends in a bus error, from its checks. -/
theorem bus_error {s : State} {k : Access} {w : Width} {va : Word}
    (h : ¬ (va.toNat % w.bytes ≠ 0 ∨ s.seen.userMode = true ∧ 0x80000000 ≤ va.toNat) ∧ inDseg s.seen va = false ∧
      s.answers k s.seen.userMode (dataAddress s.seen w va) = false) : BusError s k w va := h

/-- An address error, from its check. -/
theorem address_error {s : State} {w : Width} {va : Word}
    (h : va.toNat % w.bytes ≠ 0 ∨ s.seen.userMode = true ∧ 0x80000000 ≤ va.toNat) : AddressError s w va := h

/-- An access to dseg, from its checks. -/
theorem goes_to_dseg {s : State} {w : Width} {va : Word}
    (h : ¬ (va.toNat % w.bytes ≠ 0 ∨ s.seen.userMode = true ∧ 0x80000000 ≤ va.toNat) ∧ inDseg s.seen va = true) :
    GoesToDseg s w va := h

/-- Where no region is listed, a load reads memory. -/
theorem reads_memory {s : State} {pa : Word} (h : s.region pa = none) : ReadsMemory s pa := fun r e => by
  rw [h] at e; cases e

/-- Where no region is listed, a store goes to memory. -/
theorem stores_memory {s : State} {pa : Word} (h : s.region pa = none) : StoresMemory s pa := fun r e => by
  rw [h] at e; cases e

/-- `s` with an address in r4. -/
def at_ (s : State) (a : Word) : State := withRegs s [(4, a)]

/-- The address of an access with base r4. -/
def addr (s : State) (offset : BitVec 16) : Word := BitVec.ofInt 32 ((s.reg 4).toNat + offset.toInt)

/-- Kernel mode, with a region of this kind at physical addresses 0x100 to 0x10F that answers loads and stores or none. -/
def withRegion (kind : RegionKind) (answers : Bool) : State :=
  { kernel with
    physMap := [{ base := 0x100, size := 16, kind := kind, fetch := answers, load := answers, store := answers, user := true }] }

/-- Kernel mode, addresses 0x100 to 0x10F answering nothing. -/
def silent : State := at_ (withRegion .ram false) 0xA0000100

/-- As `silent`, bus errors held pending. -/
def held : State := { silent with cp0 := { silent.cp0 with debugReg := { silent.cp0.debugReg with iexi := true } } }

theorem witness_AddSubtractTrap :
    (-2147483648 ≤ ((at_ kernel 0x7FFFFFFF).reg 4).toInt + (kernel.reg 5).toInt ∧
      ((at_ kernel 0x7FFFFFFF).reg 4).toInt + (kernel.reg 5).toInt < 2147483648) ∧
    (2147483648 ≤ ((withRegs kernel [(4, 0x7FFFFFFF), (5, 1)]).reg 4).toInt +
      ((withRegs kernel [(4, 0x7FFFFFFF), (5, 1)]).reg 5).toInt ∧
      (withRegs kernel [(4, 0x7FFFFFFF), (5, 1)]).cp0.debugReg.dm = false) ∧
    ((at_ kernel 0x80000000).reg 4).toInt - ((withRegs kernel [(5, 1)]).reg 5).toInt < -2147483648 ∧
    ((at_ kernel 0x80000000).reg 4).toInt + (0xFFFF#16).toInt < -2147483648 := by decide

theorem witness_LogicAndConditionalMove : kernel.reg 5 = 0 ∧ (withRegs kernel [(5, 1)]).reg 5 ≠ 0 := by decide

theorem witness_ShiftsAndRotates : ∃ rd rt sa : Reg, ¬ (rd = 0 ∧ rt = 0 ∧ (sa = 0 ∨ sa = 1 ∨ sa = 3)) := ⟨0, 0, 2, by decide⟩

theorem witness_BitFields : (0 : Reg).toNat + (31 : Reg).toNat ≤ 31 ∧ 31 < (1 : Reg).toNat + (31 : Reg).toNat ∧
    (31 : Reg).toNat ≤ (31 : Reg).toNat ∧ (0 : Reg).toNat < (1 : Reg).toNat := by decide

theorem witness_ExtendSwapCount : ∃ rd rt : Reg, rt ≠ rd := ⟨0, 1, by decide⟩

/-- r4 and r5, and r2 and r3 for MIPS16e, as dividend and divisor. -/
def dividing (a b : Word) : State := withRegs kernel [(4, a), (5, b), (2, a), (3, b)]

theorem witness_Divides :
    ((dividing 0x80000000 1).reg 5 ≠ 0 ∧
      ¬ ((dividing 0x80000000 1).reg 4 = 0x80000000 ∧ (dividing 0x80000000 1).reg 5 = 0xFFFFFFFF)) ∧
    ((dividing 0x80000001 0xFFFFFFFF).reg 5 ≠ 0 ∧
      ¬ ((dividing 0x80000001 0xFFFFFFFF).reg 4 = 0x80000000 ∧ (dividing 0x80000001 0xFFFFFFFF).reg 5 = 0xFFFFFFFF)) ∧
    ¬ ((dividing 0x80000000 0xFFFFFFFF).reg 5 ≠ 0 ∧
      ¬ ((dividing 0x80000000 0xFFFFFFFF).reg 4 = 0x80000000 ∧ (dividing 0x80000000 0xFFFFFFFF).reg 5 = 0xFFFFFFFF)) ∧
    (dividing 1 0).reg 5 = 0 := by decide

theorem witness_HiLoMoves : kernel.hiLoUnread = false := by decide

theorem witness_AlignedLoads :
    (Accessible (at_ kernel 0x80000000) .load .word (addr (at_ kernel 0x80000000) 0) ∧
      ReadsMemory (at_ kernel 0x80000000) (dataAddress (at_ kernel 0x80000000).seen .word 0x80000000)) ∧
    (Accessible (at_ user 0x80000000) .load .half (addr (at_ user 0x80000000) 0xFFFE) ∧
      ReadsMemory (at_ user 0x80000000) (dataAddress (at_ user 0x80000000).seen .half 0x7FFFFFFE)) ∧
    (Accessible (at_ user 0x80000000) .load .byte (addr (at_ user 0x80000000) 0xFFFF) ∧
      ReadsMemory (at_ user 0x80000000) (dataAddress (at_ user 0x80000000).seen .byte 0x7FFFFFFF)) ∧
    (AddressError (at_ kernel 0x80000000) .word (addr (at_ kernel 0x80000000) 2) ∧
      AddressError (at_ kernel 0x80000000) .half (addr (at_ kernel 0x80000000) 1) ∧ kernel.cp0.debugReg.dm = false) ∧
    (AddressError (at_ user 0x80000000) .byte (addr (at_ user 0x80000000) 0) ∧ (at_ user 0x80000000).cp0.debugReg.dm = false) ∧
    (BusError silent .load .word (addr silent 0) ∧ BusError silent .load .half (addr silent 0) ∧
      BusError silent .load .byte (addr silent 0) ∧ TakesExceptions silent) ∧
    (BusError held .load .byte (addr held 15) ∧ held.cp0.debugReg.iexi = true) ∧
    (GoesToDseg (at_ inDebug 0xFF200000) .word (addr (at_ inDebug 0xFF200000) 0) ∧
      GoesToDseg (at_ inDebug 0xFF200000) .half (addr (at_ inDebug 0xFF200000) 0) ∧
      GoesToDseg (at_ inDebug 0xFF200000) .byte (addr (at_ inDebug 0xFF200000) 0)) :=
  ⟨⟨accessible (by decide), reads_memory (by decide)⟩, ⟨accessible (by decide), reads_memory (by decide)⟩,
    ⟨accessible (by decide), reads_memory (by decide)⟩,
    ⟨address_error (by decide), address_error (by decide), by decide⟩, ⟨address_error (by decide), by decide⟩,
    ⟨bus_error (by decide), bus_error (by decide), bus_error (by decide), by decide, by decide⟩,
    ⟨bus_error (by decide), by decide⟩, ⟨goes_to_dseg (by decide), goes_to_dseg (by decide), goes_to_dseg (by decide)⟩⟩

/-- A load of a peripheral register at its base address also reads memory. -/
theorem witness_reads_register :
    ReadsMemory (at_ (withRegion (.registers 1 2 3) true) 0xA0000100) 0x100 := fun r e => by
  obtain rfl : _ = r := Option.some.inj ((by decide : (at_ (withRegion (.registers 1 2 3) true) 0xA0000100).region 0x100 =
    some { base := 0x100, size := 16, kind := .registers 1 2 3, fetch := true, load := true, store := true, user := true }).symm.trans e)
  exact ⟨by decide, fun _ _ _ _ => by decide⟩

theorem witness_UnalignedLoads :
    (¬ AddressError (at_ user 0x7FFFFFFF) .byte (addr (at_ user 0x7FFFFFFF) 0) ∧
      inDseg (at_ user 0x7FFFFFFF).seen (addr (at_ user 0x7FFFFFFF) 0) = false ∧
      (at_ user 0x7FFFFFFF).answers .load (at_ user 0x7FFFFFFF).seen.userMode (wordAt (at_ user 0x7FFFFFFF) 0x7FFFFFFF) = true ∧
      ReadsMemory (at_ user 0x7FFFFFFF) (wordAt (at_ user 0x7FFFFFFF) 0x7FFFFFFF)) ∧
    (AddressError (at_ user 0x80000000) .byte (addr (at_ user 0x80000000) 0) ∧ user.cp0.debugReg.dm = false) ∧
    (¬ AddressError silent .byte (addr silent 3) ∧ inDseg silent.seen (addr silent 3) = false ∧
      silent.answers .load silent.seen.userMode (wordAt silent (addr silent 3)) = false ∧ TakesExceptions silent) ∧
    (¬ AddressError held .byte (addr held 3) ∧ inDseg held.seen (addr held 3) = false ∧
      held.answers .load held.seen.userMode (wordAt held (addr held 3)) = false ∧ held.cp0.debugReg.iexi = true) ∧
    GoesToDseg (at_ inDebug 0xFF200000) .byte (addr (at_ inDebug 0xFF200000) 0) :=
  ⟨⟨(accessible (k := .load) (by decide)).1, by decide, by decide, reads_memory (by decide)⟩,
    ⟨address_error (by decide), by decide⟩,
    ⟨(bus_error (k := .load) (by decide)).1, by decide, by decide, by decide, by decide⟩,
    ⟨(bus_error (k := .load) (by decide)).1, by decide, by decide, by decide⟩, goes_to_dseg (by decide)⟩

theorem witness_AlignedStores :
    (Accessible (at_ kernel 0x80000000) .store .word (addr (at_ kernel 0x80000000) 0) ∧ (at_ kernel 0x80000000).mem.wf) ∧
    (Accessible (at_ user 0x80000000) .store .half (addr (at_ user 0x80000000) 0xFFFE) ∧ (at_ user 0x80000000).mem.wf) ∧
    (Accessible (at_ user 0x80000000) .store .byte (addr (at_ user 0x80000000) 0xFFFF) ∧ (at_ user 0x80000000).mem.wf) ∧
    (AddressError (at_ kernel 0x80000000) .word (addr (at_ kernel 0x80000000) 2) ∧
      AddressError (at_ kernel 0x80000000) .half (addr (at_ kernel 0x80000000) 1) ∧ kernel.cp0.debugReg.dm = false) ∧
    (AddressError (at_ user 0x80000000) .byte (addr (at_ user 0x80000000) 0) ∧ (at_ user 0x80000000).cp0.debugReg.dm = false) ∧
    (BusError silent .store .word (addr silent 0) ∧ BusError silent .store .half (addr silent 0) ∧
      BusError silent .store .byte (addr silent 0) ∧ TakesExceptions silent) ∧
    (BusError held .store .word (addr held 12) ∧ held.cp0.debugReg.iexi = true) ∧
    GoesToDseg (at_ inDebug 0xFF3FFFFC) .word (addr (at_ inDebug 0xFF3FFFFC) 0) :=
  ⟨⟨accessible (by decide), by decide⟩, ⟨accessible (by decide), by decide⟩, ⟨accessible (by decide), by decide⟩,
    ⟨address_error (by decide), address_error (by decide), by decide⟩, ⟨address_error (by decide), by decide⟩,
    ⟨bus_error (by decide), bus_error (by decide), bus_error (by decide), by decide, by decide⟩,
    ⟨bus_error (by decide), by decide⟩, goes_to_dseg (by decide)⟩

theorem witness_UnalignedStores :
    (¬ AddressError (at_ user 0x7FFFFFFF) .byte (addr (at_ user 0x7FFFFFFF) 0) ∧
      inDseg (at_ user 0x7FFFFFFF).seen (addr (at_ user 0x7FFFFFFF) 0) = false ∧
      (at_ user 0x7FFFFFFF).answers .store (at_ user 0x7FFFFFFF).seen.userMode (wordAt (at_ user 0x7FFFFFFF) 0x7FFFFFFF) = true ∧
      (at_ user 0x7FFFFFFF).mem.wf) ∧
    (AddressError (at_ user 0x80000000) .byte (addr (at_ user 0x80000000) 0) ∧ user.cp0.debugReg.dm = false) ∧
    (¬ AddressError silent .byte (addr silent 3) ∧ inDseg silent.seen (addr silent 3) = false ∧
      silent.answers .store silent.seen.userMode (wordAt silent (addr silent 3)) = false ∧ TakesExceptions silent) ∧
    (¬ AddressError held .byte (addr held 3) ∧ inDseg held.seen (addr held 3) = false ∧
      held.answers .store held.seen.userMode (wordAt held (addr held 3)) = false ∧ held.cp0.debugReg.iexi = true) ∧
    GoesToDseg (at_ inDebug 0xFF200000) .byte (addr (at_ inDebug 0xFF200000) 0) :=
  ⟨⟨(accessible (k := .store) (by decide)).1, by decide, by decide, by decide⟩,
    ⟨address_error (by decide), by decide⟩,
    ⟨(bus_error (k := .store) (by decide)).1, by decide, by decide, by decide, by decide⟩,
    ⟨(bus_error (k := .store) (by decide)).1, by decide, by decide, by decide⟩, goes_to_dseg (by decide)⟩

/-- A store to a region of this kind, at the offset of r4 given: the premises, the kind and the word of the block. -/
def meetsStore (kind : RegionKind) (offset : BitVec 16) (slot : BitVec 2) : Prop :=
  Accessible (at_ (withRegion kind true) 0xA0000100) .store .word (addr (at_ (withRegion kind true) 0xA0000100) offset) ∧
    (at_ (withRegion kind true) 0xA0000100).mem.wf ∧
    (∃ r, (at_ (withRegion kind true) 0xA0000100).region (dataAddress (at_ (withRegion kind true) 0xA0000100).seen .word
      (addr (at_ (withRegion kind true) 0xA0000100) offset)) = some r ∧ r.kind = kind) ∧
    (dataAddress (at_ (withRegion kind true) 0xA0000100).seen .word
      (addr (at_ (withRegion kind true) 0xA0000100) offset)).extractLsb' 2 2 = slot

/-- The base address, the SET, CLR and INV addresses (words 2, 1, 3), a word that is none of them, flash and a device. -/
theorem witness_PeripheralStores :
    meetsStore (.registers 1 2 3) 0 0 ∧ meetsStore (.registers 1 2 3) 8 2 ∧ meetsStore (.registers 1 2 3) 4 1 ∧
    meetsStore (.registers 1 2 3) 12 3 ∧ meetsStore (.registers 1 1 1) 12 3 ∧ meetsStore .rom 0 0 ∧ meetsStore .device 0 0 :=
  ⟨⟨accessible (by decide), by decide, ⟨_, rfl, rfl⟩, by decide⟩, ⟨accessible (by decide), by decide, ⟨_, rfl, rfl⟩, by decide⟩,
    ⟨accessible (by decide), by decide, ⟨_, rfl, rfl⟩, by decide⟩, ⟨accessible (by decide), by decide, ⟨_, rfl, rfl⟩, by decide⟩,
    ⟨accessible (by decide), by decide, ⟨_, rfl, rfl⟩, by decide⟩, ⟨accessible (by decide), by decide, ⟨_, rfl, rfl⟩, by decide⟩,
    ⟨accessible (by decide), by decide, ⟨_, rfl, rfl⟩, by decide⟩⟩

/-- Kernel mode with LLbit set and an address in r4. -/
def linked (s : State) (a : Word) : State := { at_ s a with llbit := true }

theorem witness_LinkedLoadStore :
    (Accessible (at_ kernel 0x80000000) .load .word (addr (at_ kernel 0x80000000) 0) ∧
      ReadsMemory (at_ kernel 0x80000000) (dataAddress (at_ kernel 0x80000000).seen .word 0x80000000)) ∧
    (AddressError (at_ kernel 0x80000001) .word (addr (at_ kernel 0x80000001) 0) ∧ kernel.cp0.debugReg.dm = false) ∧
    (BusError silent .load .word (addr silent 0) ∧ TakesExceptions silent) ∧
    (BusError held .load .word (addr held 0) ∧ held.cp0.debugReg.iexi = true) ∧
    GoesToDseg (at_ inDebug 0xFF200000) .word (addr (at_ inDebug 0xFF200000) 0) ∧
    (Accessible (linked kernel 0x80000000) .store .word (addr (linked kernel 0x80000000) 0) ∧
      (linked kernel 0x80000000).llbit = true ∧ (linked kernel 0x80000000).mem.wf) ∧
    (¬ AddressError (at_ kernel 0x80000000) .word (addr (at_ kernel 0x80000000) 0) ∧ (at_ kernel 0x80000000).llbit = false) ∧
    (BusError (linked silent 0xA0000100) .store .word (addr (linked silent 0xA0000100) 0) ∧
      (linked silent 0xA0000100).llbit = true ∧ TakesExceptions (linked silent 0xA0000100)) ∧
    (BusError (linked held 0xA0000100) .store .word (addr (linked held 0xA0000100) 0) ∧
      (linked held 0xA0000100).llbit = true ∧ (linked held 0xA0000100).cp0.debugReg.iexi = true) ∧
    (GoesToDseg (linked inDebug 0xFF200000) .word (addr (linked inDebug 0xFF200000) 0) ∧
      (linked inDebug 0xFF200000).llbit = true) :=
  ⟨⟨accessible (by decide), reads_memory (by decide)⟩, ⟨address_error (by decide), by decide⟩,
    ⟨bus_error (by decide), by decide, by decide⟩, ⟨bus_error (by decide), by decide⟩, goes_to_dseg (by decide),
    ⟨accessible (by decide), by decide, by decide⟩,
    ⟨(accessible (k := .store) (by decide)).1, by decide⟩, ⟨bus_error (by decide), by decide, by decide, by decide⟩,
    ⟨bus_error (by decide), by decide, by decide⟩, ⟨goes_to_dseg (by decide), by decide⟩⟩

/-- Coprocessor 0 is usable in Kernel mode, in User mode with CU0 and in Debug mode, and not in User mode without CU0: the premises of PrefetchAndCache, MoveFromCoprocessor0, InterruptEnable, ShadowSetMoves, TlbInstructions and AbsentCoprocessors. -/
theorem witness_coprocessor0 : (kernel.view .coprocessor).cop0Usable = true ∧ (inDebug.view .coprocessor).cop0Usable = true ∧
    ((withStatus user { clearStatus with um := true, cu0 := true }).view .coprocessor).cop0Usable = true ∧
    ((user.view .coprocessor).cop0Usable = false ∧ user.cp0.debugReg.dm = false) ∧ kernel.cp0.debugReg.dm = false := by decide

theorem witness_TlbInstructions : ((kernel.view .coprocessor).cop0Usable = true ∧ kernel.cp0.debugReg.dm = false) ∧
    ((user.view .coprocessor).cop0Usable = false ∧ user.cp0.debugReg.dm = false) := by decide

/-- No transfer is pending: the premise of RegionJumps, Mips16AddAndMove and the other statements on extended instructions. -/
theorem witness_no_slot : kernel.delay = none := by decide

theorem witness_RegisterJumps : kernel.delay = none ∧ (31 : Reg) ≠ 30 ∧ (30 : Reg) = 30 := by decide

/-- r4 is -1, 0 and 1, r5 is 0, and register 31 is or is not the source. -/
theorem witness_Branches : kernel.delay = none ∧ (at_ kernel 0).reg 4 = (at_ kernel 0).reg 5 ∧
    (at_ kernel 1).reg 4 ≠ (at_ kernel 1).reg 5 ∧
    (((at_ kernel 0).reg 4).toInt ≤ 0 ∧ ¬ ((at_ kernel 1).reg 4).toInt ≤ 0) ∧
    (0 < ((at_ kernel 1).reg 4).toInt ∧ ¬ 0 < ((at_ kernel 0).reg 4).toInt) ∧
    (((at_ kernel 0xFFFFFFFF).reg 4).toInt < 0 ∧ ¬ ((at_ kernel 0).reg 4).toInt < 0) ∧
    (0 ≤ ((at_ kernel 0).reg 4).toInt ∧ ¬ 0 ≤ ((at_ kernel 0xFFFFFFFF).reg 4).toInt) ∧
    (4 : Reg) ≠ 31 ∧ (31 : Reg) = 31 := by decide

/-- As for the branches. -/
theorem witness_LikelyBranches : kernel.delay = none ∧ (at_ kernel 0).reg 4 = (at_ kernel 0).reg 5 ∧
    (at_ kernel 1).reg 4 ≠ (at_ kernel 1).reg 5 ∧ ((at_ kernel 0xFFFFFFFF).reg 4).toInt < 0 ∧
    ¬ ((at_ kernel 0).reg 4).toInt < 0 ∧ 0 < ((at_ kernel 1).reg 4).toInt ∧ (4 : Reg) ≠ 31 ∧ (31 : Reg) = 31 := by decide

theorem witness_TransferInDelaySlot : inSlot.delay.isSome = true := by decide

/-- A store into the word at 0xA0000100 that a fetch may not see yet, the address in r4. -/
def newCode : State := at_ { kernel with stale := [⟨[(0x100, 1)], .stored⟩] } 0xA0000100

/-- A barrier in the slot, and the sequence for new code after a store at 0xA0000100, ended by JR.HB with NOP or a store to the next word in its slot, or by ERET. -/
theorem witness_NoOperationsAndBarriers :
    (∃ d, ({ inSlot with delay := some { branch := 0, target := 0, mode := .mips32, barrier := true } }).delay = some d ∧
      d.barrier = true) ∧
    NoBarrier kernel ∧
    ∃ t u, newCode.delay = none ∧ exec (.synci 4 0) newCode = .next t ∧ exec (.sync 0) t = .next u ∧
      ¬ AddressError newCode .byte 0xA0000100 ∧ wordAddress 0x103 = wordAt newCode 0xA0000100 ∧
      (∃ w, exec (.jrHb 4 0) u = .next w ∧ exec .nop w = .next (w.advance 4) ∧ ∃ (x : State) (new : List StaleStore), exec (.sb 4 4 4) w = .next (x.advance 4) ∧
        x.delay = w.delay ∧ x.stale = new ++ w.stale ∧ new.all (fun e => e.cells.all fun c => c.1 / 4 ≠ 0x100 / 4) = true) ∧
      (u.view .eret).cop0Usable = true ∧ ∃ v, exec .eret u = .next v :=
  ⟨⟨_, rfl, rfl⟩, nofun,
    ⟨_, _, rfl, rfl, rfl, (accessible (k := .load) (by decide)).1, by decide,
      ⟨_, rfl, rfl, _, [⟨[(0x104, 0)], .stored⟩], rfl, by decide, by decide, by decide⟩, by decide, _, rfl⟩⟩

/-- After the sequence the fetch of the new word sees it; before, a free bit decides (spec 20 R141). -/
theorem test_new_code :
    after (exec (.synci 4 0) newCode) (fun t => after (exec (.sync 0) t) fun u => after (exec (.jrHb 4 0) u) fun w =>
      after (exec .nop w) fun v => (v.stale, v.fetchByte 0x100 0x100)) = some (some (some (some ([], 0)))) := by decide

/-- Also the premise of SystemCallAndBreak. -/
theorem witness_Traps : kernel.cp0.debugReg.dm = false ∧
    (kernel.reg 5).toInt ≤ (kernel.reg 4).toInt ∧ ¬ (kernel.reg 5).toInt ≤ ((at_ kernel 0xFFFFFFFF).reg 4).toInt ∧
    (kernel.reg 5).toNat ≤ (kernel.reg 4).toNat ∧ ¬ ((withRegs kernel [(5, 1)]).reg 5).toNat ≤ (kernel.reg 4).toNat ∧
    kernel.reg 4 = kernel.reg 5 ∧ (at_ kernel 1).reg 4 ≠ (at_ kernel 1).reg 5 ∧
    (0xFFFF#16).toInt ≤ ((at_ kernel 0xFFFFFFFF).reg 4).toInt ∧ ¬ (1#16).toInt ≤ (kernel.reg 4).toInt ∧
    (0xFFFF#16 |>.signExtend 32).toNat ≤ ((at_ kernel 0xFFFFFFFF).reg 4).toNat ∧
    ¬ (0xFFFF#16 |>.signExtend 32).toNat ≤ (kernel.reg 4).toNat ∧
    ((at_ kernel 0xFFFFFFFF).reg 4).toInt = (0xFFFF#16).toInt ∧ (kernel.reg 4).toInt ≠ (0xFFFF#16).toInt := by decide

theorem witness_DebugBreakpoints : kernel.cp0.debugReg.dm = false ∧ inDebug.cp0.debugReg.dm = true := by decide

theorem witness_ReadHardwareRegister :
    (kernel.seen.cop0Usable = true ∧ (0 : Reg) = 0) ∧
    (({ user with cp0 := { user.cp0 with hwrena := 8 } }).seen.hwrena.getLsbD (3 : Reg).toNat = true) ∧
    (¬ (user.seen.cop0Usable = true ∨ user.seen.hwrena.getLsbD (3 : Reg).toNat = true) ∧ user.cp0.debugReg.dm = false) ∧
    3 < (4 : Reg).toNat := by decide

theorem witness_WaitMayIdle : (kernel.delay = none ∧ (kernel.view .coprocessor).cop0Usable = true) ∧
    (user.delay = none ∧ (user.view .coprocessor).cop0Usable = false ∧ user.cp0.debugReg.dm = false) ∧
    ∃ s : State, s.waiting = true ∧ s.inputs = [{ StepInput.quiet with stayIdle := true }] ∧ s.hazards = [] ∧
      s.cp0.debugReg.dm = false ∧ s.cp0.debugReg.sst = false ∧ s.cp0.debugReg.ibusep = false ∧ s.cp0.debugReg.dbusep = false ∧
      s.cp0.interruptPending = false :=
  ⟨by decide, by decide, { kernel with waiting := true, inputs := [{ StepInput.quiet with stayIdle := true }] }, by decide⟩

theorem witness_MoveFromCoprocessor0 : (kernel.view .coprocessor).cop0Usable = true ∧ inDebug.seen.debugReg.dm = true ∧
    ((user.view .coprocessor).cop0Usable = false ∧ user.cp0.debugReg.dm = false) ∧ (16 : Reg).toNat = 16 ∧ (3 : Reg3).toNat = 3 := by decide

/-- r4 with each value that a clause asks for. -/
theorem witness_MoveToCoprocessor0 : (kernel.view .coprocessor).cop0Usable = true ∧
    (((at_ kernel 0x200).reg 4).extractLsb' 5 5 ∈ [0, 1, 2, 4, 8, 16#5] ∧
      ((at_ kernel 0x60).reg 4).extractLsb' 5 5 ∉ [0, 1, 2, 4, 8, 16#5]) ∧
    ((((at_ kernel 0x1040).reg 4).extractLsb' 12 4).toNat < Config.hss + 1 ∧
      (((at_ kernel 0x1040).reg 4).extractLsb' 6 4).toNat < Config.hss + 1) ∧
    (Config.hss < (((at_ kernel 0x2000).reg 4).extractLsb' 12 4).toNat ∧
      Config.hss < (((at_ kernel 0x0080).reg 4).extractLsb' 6 4).toNat) ∧
    ((∀ k < 8, (((at_ kernel 0x11111111).reg 4).extractLsb' (4 * k) 4).toNat ≤ Config.hss) ∧
      ∃ k < 8, Config.hss < (((at_ kernel 0x20000000).reg 4).extractLsb' (4 * k) 4).toNat) ∧
    (((at_ kernel 0).reg 4).getLsbD 22 = false ∧ ((at_ kernel 0x00400000).reg 4).getLsbD 22 = true) ∧
    ((at_ State.reset 0x9D001000).seen.status.bev = true ∧
      (kernel.seen.status.bev = false ∧ ((at_ kernel 0x9D001000).reg 4).extractLsb' 12 18 = kernel.cp0.ebase) ∧
      ((at_ kernel 0x9D002000).reg 4).extractLsb' 12 18 ≠ kernel.cp0.ebase) ∧
    (kernel.cp0.debugReg.dm = false ∧ inDebug.cp0.debugReg.dm = true) ∧
    ((16 : Reg).toNat, (1 : Reg3).toNat) ∉ [(7, 0), (9, 0), (11, 0), (12, 0), (12, 1), (12, 2), (12, 3), (13, 0), (14, 0),
      (15, 1), (16, 0), (23, 0), (24, 0), (30, 0), (31, 0)] := by decide

theorem witness_MoveToStatus : (kernel.view .coprocessor).cop0Usable = true ∧ ((at_ kernel 0).reg 4).getLsbD 2 = false ∧
    State.reset.cp0.status.erl = true ∧ kernel.pc.getLsbD 31 = true ∧
    (((at_ { kernel with pc := 0x7FFFFFFC } 4).reg 4).getLsbD 2 = true ∧ kernel.cp0.status.erl = false ∧
      ({ kernel with pc := 0x7FFFFFFC }).pc.getLsbD 31 = false) := by decide

theorem witness_Returns : (kernel.delay = none ∧ (kernel.view .eret).cop0Usable = true ∧ kernel.cp0.status.erl = false) ∧
    (State.reset.delay = none ∧ (State.reset.view .eret).cop0Usable = true ∧ State.reset.cp0.status.erl = true) ∧
    (inDebug.delay = none ∧ inDebug.cp0.debugReg.dm = true) ∧ kernel.cp0.debugReg.dm = false ∧
    (user.delay = none ∧ (user.view .eret).cop0Usable = false ∧ user.cp0.debugReg.dm = false) := by decide

theorem witness_UserModeLacksCoprocessor0 :
    ((user.view .coprocessor).userMode = true ∧ (user.view .coprocessor).status.cu0 = false) ∧
    ((user.view .eret).userMode = true ∧ (user.view .eret).status.cu0 = false) ∧ user.delay = none ∧
    user.cp0.debugReg.dm = false := by decide

theorem witness_Mips16AddAndMove : ((0 : Reg) ≠ 0 ∨ (1 : Reg3) ≠ 0) ∧ ((1 : Reg) ≠ 0 ∨ (0 : Reg3) ≠ 0) ∧ kernel.delay = none := by
  decide

theorem witness_Mips16HiLo :
    ((dividing 0x80000000 1).xr 3 ≠ 0 ∧
      ¬ ((dividing 0x80000000 1).xr 2 = 0x80000000 ∧ (dividing 0x80000000 1).xr 3 = 0xFFFFFFFF)) ∧
    ¬ ((dividing 0x80000000 0xFFFFFFFF).xr 3 ≠ 0 ∧
      ¬ ((dividing 0x80000000 0xFFFFFFFF).xr 2 = 0x80000000 ∧ (dividing 0x80000000 0xFFFFFFFF).xr 3 = 0xFFFFFFFF)) ∧
    (dividing 1 0).xr 3 = 0 := by decide

/-- Kernel and User mode with the same address in r4, r29 and the program counter. -/
def near (s : State) (a : Word) : State := { withRegs s [(4, a), (29, a)] with pc := a, isaMode := .mips16 }

theorem witness_Mips16Loads :
    (Accessible (near kernel 0x80000000) .load .word ((near kernel 0x80000000).xr 4) ∧
      ReadsMemory (near kernel 0x80000000) (dataAddress (near kernel 0x80000000).seen .word 0x80000000)) ∧
    Accessible (near kernel 0x80000000) .load .word ((near kernel 0x80000000).reg 29) ∧
    Accessible (near kernel 0x80000002) .load .word (restartAddress (near kernel 0x80000002) &&& 0xFFFFFFFC) ∧
    Accessible (near user 0x7FFFFFFE) .load .half ((near user 0x7FFFFFFE).xr 4) ∧
    Accessible (near user 0x7FFFFFFF) .load .byte ((near user 0x7FFFFFFF).xr 4) ∧
    (AddressError (near user 0x7FFFFFFE) .word ((near user 0x7FFFFFFE).xr 4) ∧
      AddressError (near user 0x7FFFFFFE) .word ((near user 0x7FFFFFFE).reg 29) ∧
      AddressError (near user 0x80000000) .byte ((near user 0x80000000).xr 4) ∧
      AddressError (near user 0x80000000) .word (restartAddress (near user 0x80000000) &&& 0xFFFFFFFC) ∧
      (near user 0x80000000).cp0.debugReg.dm = false) ∧
    (BusError (near silent 0xA0000100) .load .word ((near silent 0xA0000100).xr 4) ∧ TakesExceptions (near silent 0xA0000100)) ∧
    (BusError (near held 0xA0000100) .load .word ((near held 0xA0000100).xr 4) ∧
      (near held 0xA0000100).cp0.debugReg.iexi = true) ∧
    GoesToDseg (near inDebug 0xFF200000) .word ((near inDebug 0xFF200000).xr 4) ∧ (near kernel 0x80000000).delay = none :=
  ⟨⟨accessible (by decide), reads_memory (by decide)⟩, accessible (by decide), accessible (by decide), accessible (by decide),
    accessible (by decide),
    ⟨address_error (by decide), address_error (by decide), address_error (by decide), address_error (by decide), by decide⟩,
    ⟨bus_error (by decide), by decide, by decide⟩, ⟨bus_error (by decide), by decide⟩, goes_to_dseg (by decide), by decide⟩

theorem witness_Mips16Stores :
    (Accessible (near kernel 0x80000000) .store .word ((near kernel 0x80000000).xr 4) ∧ (near kernel 0x80000000).mem.wf) ∧
    Accessible (near kernel 0x80000000) .store .word ((near kernel 0x80000000).reg 29) ∧
    Accessible (near user 0x7FFFFFFE) .store .half ((near user 0x7FFFFFFE).xr 4) ∧
    Accessible (near user 0x7FFFFFFF) .store .byte ((near user 0x7FFFFFFF).xr 4) ∧
    (AddressError (near user 0x7FFFFFFE) .word ((near user 0x7FFFFFFE).xr 4) ∧
      AddressError (near user 0x7FFFFFFE) .word ((near user 0x7FFFFFFE).reg 29) ∧
      AddressError (near user 0x80000000) .byte ((near user 0x80000000).xr 4) ∧ (near user 0x80000000).cp0.debugReg.dm = false) ∧
    (BusError (near silent 0xA0000100) .store .word ((near silent 0xA0000100).xr 4) ∧
      TakesExceptions (near silent 0xA0000100)) ∧
    (BusError (near held 0xA0000100) .store .word ((near held 0xA0000100).xr 4) ∧
      (near held 0xA0000100).cp0.debugReg.iexi = true) ∧
    GoesToDseg (near inDebug 0xFF200000) .word ((near inDebug 0xFF200000).xr 4) ∧ (near kernel 0x80000000).delay = none :=
  ⟨⟨accessible (by decide), by decide⟩, accessible (by decide), accessible (by decide),
    accessible (by decide), ⟨address_error (by decide), address_error (by decide), address_error (by decide), by decide⟩,
    ⟨bus_error (by decide), by decide, by decide⟩, ⟨bus_error (by decide), by decide⟩, goes_to_dseg (by decide), by decide⟩

theorem witness_Mips16Branches : kernel.delay = none ∧ kernel.xr 2 = 0 ∧ (withRegs kernel [(2, 1)]).xr 2 ≠ 0 ∧
    kernel.reg 24 = 0 ∧ (withRegs kernel [(24, 1)]).reg 24 ≠ 0 := by decide

/-- Word `k` of a frame with this top. -/
def slot (top : Word) (k : Nat) : Word := top - BitVec.ofNat 32 (4 * (k + 1))

/-- The bus answers the access to word `k` of a frame. -/
def answered (s : State) (a : Access) (top : Word) (k : Nat) : Bool :=
  s.answers a s.seen.userMode (dataAddress s.seen .word (slot top k))

/-- The first `n` words of a frame are accessed without an exception, as Mips16Frames says it. -/
def passed (s : State) (a : Access) (top : Word) (n : Nat) : Prop := ∀ k < n, ¬ AddressError s .word (slot top k) ∧
  inDseg s.seen (slot top k) = false ∧ (answered s a top k = true ∨ s.cp0.debugReg.iexi = true)

/-- `passed`, from the checks of each word. -/
theorem passed_of {s : State} {a : Access} {top : Word} {n : Nat} (h : ∀ k < n,
    ¬ ((slot top k).toNat % 4 ≠ 0 ∨ s.seen.userMode = true ∧ 0x80000000 ≤ (slot top k).toNat) ∧
      inDseg s.seen (slot top k) = false ∧ (answered s a top k = true ∨ s.cp0.debugReg.iexi = true)) : passed s a top n := h

/-- Frames of three words that pass: in plain memory, in flash and over a block of peripheral registers, and with a bus error held pending at the second word. -/
theorem witness_Mips16Frames_pass :
    (passed (near kernel 0x80000010) .store 0x80000010 3 ∧ (near kernel 0x80000010).mem.wf ∧
      (near kernel 0x80000010).between = [] ∧ (near kernel 0x80000010).delay = none ∧
      ∀ k < 3, answered (near kernel 0x80000010) .store 0x80000010 k = true ∧
        StoresMemory (near kernel 0x80000010) (dataAddress (near kernel 0x80000010).seen .word (slot 0x80000010 k))) ∧
    passed (near (withRegion .rom true) 0xA0000110) .store 0xA0000110 3 ∧
    passed (near (withRegion (.registers 1 2 3) true) 0xA0000110) .store 0xA0000110 3 ∧
    (passed (near held 0xA0000114) .store 0xA0000114 3 ∧ answered (near held 0xA0000114) .store 0xA0000114 0 = true ∧
      answered (near held 0xA0000114) .store 0xA0000114 1 = false) ∧
    passed (near held 0xA000010C) .load 0xA0000114 3 ∧
    (passed (near kernel 0x80000010) .load 0x80000090 3 ∧ ∀ k < 3,
      ReadsMemory (near kernel 0x80000010) (dataAddress (near kernel 0x80000010).seen .word (slot 0x80000090 k))) := by
  refine ⟨⟨passed_of (by decide), by decide, by decide, by decide, fun k h => ?_⟩, passed_of (by decide), passed_of (by decide),
    ⟨passed_of (by decide), by decide, by decide⟩, passed_of (by decide), passed_of (by decide), fun k h => ?_⟩
  · interval_cases k <;> exact ⟨by decide, stores_memory (by decide)⟩
  · interval_cases k <;> exact reads_memory (by decide)

/-- Where a frame ends at its first word or at its second: an odd address, below address 0 in User mode, addresses that answer nothing, dseg; and an extended form with statics. -/
theorem witness_Mips16Frames_end :
    (AddressError (near kernel 2) .word (slot 2 0) ∧ (near kernel 2).cp0.debugReg.dm = false) ∧
    (passed (near user 4) .store 4 1 ∧ AddressError (near user 4) .word (slot 4 1) ∧ (near user 4).cp0.debugReg.dm = false) ∧
    (passed (near silent 0xA0000114) .store 0xA0000114 1 ∧
      BusError (near silent 0xA0000114) .store .word (slot 0xA0000114 1) ∧ TakesExceptions (near silent 0xA0000114)) ∧
    (passed (near inDebug 0xFF400004) .store 0xFF400004 1 ∧ GoesToDseg (near inDebug 0xFF400004) .word (slot 0xFF400004 1)) ∧
    AddressError (near kernel 2) .word (slot ((near kernel 2).reg 29 + 128) 0) ∧
    (passed (near user 0xFFFFFFFC) .load ((near user 0xFFFFFFFC).reg 29 + 8) 1 ∧
      AddressError (near user 0xFFFFFFFC) .word (slot ((near user 0xFFFFFFFC).reg 29 + 8) 1)) ∧
    (passed (near silent 0xA000010C) .load ((near silent 0xA000010C).reg 29 + 8) 1 ∧
      BusError (near silent 0xA000010C) .load .word (slot ((near silent 0xA000010C).reg 29 + 8) 1)) ∧
    (passed (near inDebug 0xFF3FFFFC) .load ((near inDebug 0xFF3FFFFC).reg 29 + 8) 1 ∧
      GoesToDseg (near inDebug 0xFF3FFFFC) .word (slot ((near inDebug 0xFF3FFFFC).reg 29 + 8) 1)) ∧
    ((1 : BitVec 3) ≠ 0 ∨ (0 : BitVec 4) ≠ 0) ∧ ((0 : BitVec 3) ≠ 0 ∨ (1 : BitVec 4) ≠ 0) :=
  ⟨⟨address_error (by decide), by decide⟩, ⟨passed_of (by decide), address_error (by decide), by decide⟩,
    ⟨passed_of (by decide), bus_error (by decide), by decide, by decide⟩, ⟨passed_of (by decide), goes_to_dseg (by decide)⟩,
    address_error (by decide), ⟨passed_of (by decide), address_error (by decide)⟩,
    ⟨passed_of (by decide), bus_error (by decide)⟩, ⟨passed_of (by decide), goes_to_dseg (by decide)⟩, by decide, by decide⟩

theorem witness_ExceptionEntry : kernel.cp0.debugReg.dm = false := by decide

theorem witness_ExceptionInDebugMode : inDebug.cp0.debugReg.dm = true := by decide

/-- What the step asks for from outside the instruction. -/
def quietly (s : State) : Bool :=
  s.inputs = [] ∧ s.hazards = [] ∧ s.fetchHazards = [] ∧ s.stale = [] ∧ s.physMap = [] ∧ s.cp0.debugReg.dm = false ∧
    s.cp0.debugReg.sst = false ∧ s.cp0.debugReg.ibusep = false ∧ s.cp0.debugReg.dbusep = false ∧ s.cp0.interruptPending = false

/-- ADD r3, r1, r2 at the last word of User mode; LI v0, 5 there in MIPS16e mode; MIPS16e JAL at the end of a page. -/
theorem witness_StepRunsInstruction :
    (kernel.event = none ∧ ∃ i, kernel.ready.fetchDecode = .run i) ∧
    (∃ s : State, quietly s = true ∧ s.cp0.userMode = true ∧ s.pc.toNat + 2 < 0x80000000 ∧ s.isaMode = .mips32 ∧
      s.pc.toNat % 4 = 0 ∧ decodeWord (BitVec.ofNat 32 (s.valueAt (Machine.translate s.cp0 s.pc) 4)) = .instr (.add 3 1 2)) ∧
    (∃ s : State, quietly s = true ∧ s.cp0.userMode = true ∧ s.pc.toNat + 2 < 0x80000000 ∧ s.isaMode = .mips16 ∧
      s.pc.toNat % 2 = 0 ∧ hasSecondHalf (BitVec.ofNat 16 (s.valueAt (Machine.translate s.cp0 s.pc) 2)) = false ∧
      decodeHalf (BitVec.ofNat 16 (s.valueAt (Machine.translate s.cp0 s.pc) 2)) = .instr (.m16Li 2 5)) ∧
    (∃ s : State, quietly s = true ∧ s.cp0.userMode = false ∧ s.isaMode = .mips16 ∧ s.pc.toNat % 2 = 0 ∧
      s.pc.toNat % 4096 ≠ 4094 ∧ hasSecondHalf (BitVec.ofNat 16 (s.valueAt (Machine.translate s.cp0 s.pc) 2)) = true ∧
      decodePair (BitVec.ofNat 16 (s.valueAt (Machine.translate s.cp0 s.pc) 2))
        (BitVec.ofNat 16 (s.valueAt (Machine.translate s.cp0 s.pc + 2) 2)) = .instr (.m16Jal 0x3400040)) :=
  ⟨⟨by decide, _, rfl⟩,
    ⟨{ user with pc := 0x7FFFFFFC, mem := { cells := [(0xBFFFFFFC, 0x20), (0xBFFFFFFD, 0x18), (0xBFFFFFFE, 0x22)] } }, by decide⟩,
    ⟨{ user with pc := 0x7FFFFFFC, isaMode := .mips16, mem := { cells := [(0xBFFFFFFC, 5), (0xBFFFFFFD, 0x6A)] } }, by decide⟩,
    ⟨{ kernel with pc := 0x80000FFC, isaMode := .mips16, mem := { cells := [(0xFFC, 0x1A), (0xFFD, 0x18), (0xFFE, 0x40)] } },
      by decide⟩⟩

/-- The premises that all clauses of FetchFaults share, with the instruction set. -/
def fetches (s : State) (m : Isa) : Bool := s.event.isNone ∧ s.ready.isaMode = m ∧ s.ready.cp0.debugReg.dm = false

/-- The bits at the program counter, as the fetch finds them: a word, or the two halfwords of a MIPS16e pair. -/
def fetched (s : State) (w : Word) : Bool :=
  fetches (s.withFetchWord 32 w.toNat) .mips32 ∧
    (s.withFetchWord 32 w.toNat).ready.fetchWord (s.withFetchWord 32 w.toNat).ready.pc = .ok w

/-- MIPS16e mode at `pc`, with bytes in memory. -/
def at16 (s : State) (pc : Word) (cells : List Host.Cell) : State := { s with pc := pc, isaMode := .mips16, mem := { cells := cells } }

/-- The bus does not answer a fetch at `va`, which is no forbidden address. -/
def unanswered (s : State) (va : Word) : Bool :=
  let r := s.ready
  ¬ ((r.fetchView va).userMode = true ∧ 0x80000000 ≤ va.toNat) ∧
    r.answers .fetch (r.fetchView va).userMode (Machine.translate (r.fetchView va) va) = false

theorem witness_FetchFaults :
    (fetches { kernel with pc := 0x9D000402 } .mips32 = true ∧ ({ kernel with pc := 0x9D000402 }).ready.pc.toNat % 4 ≠ 0) ∧
    (fetches { user with pc := 0x80000000 } .mips32 = true ∧ (({ user with pc := 0x80000000 }).ready.fetchView 0x80000000).userMode = true ∧
      0x80000000 ≤ ({ user with pc := 0x80000000 }).ready.pc.toNat) ∧
    ([{ silent with pc := 0xA0000100 }, { held with pc := 0xA0000100 }].all fun s : State =>
      fetches s .mips32 ∧ s.ready.pc.toNat % 4 = 0 ∧ unanswered s s.ready.pc) = true ∧
    (silent.ready.cp0.debugReg.iexi = false ∧ held.ready.cp0.debugReg.iexi = true) ∧
    (fetched kernel 0xFC000000 = true ∧ decodeWord 0xFC000000 = .reserved) ∧
    (fetched { user with pc := 0 } 0x40200000 = true ∧ (user.ready.view .coprocessor).cop0Usable = false) ∧
    (fetched kernel 0x40200000 = true ∧ (kernel.ready.view .coprocessor).cop0Usable = true ∧
      decodeWord 0x40200000 = .reservedCop0) ∧
    (fetched kernel 0x00000060 = true ∧ decodeWord 0x00000060 = .nonzeroField) := by decide

/-- The clauses on MIPS16e: an odd address, a forbidden one, addresses that answer nothing, a reserved halfword (0xF800), a nonzero field (MFHI with ry = 1), and for a pair: its second halfword at a forbidden address and at one that answers nothing, EXTEND before a reserved halfword, before SLT, and before ADDIU8 with h[7:5] = 1. -/
theorem witness_FetchFaults_mips16 :
    (fetches (at16 kernel 0x9D000401 []) .mips16 = true ∧ (at16 kernel 0x9D000401 []).ready.pc.toNat % 2 ≠ 0) ∧
    (fetches (at16 user 0x80000000 []) .mips16 = true ∧ ((at16 user 0x80000000 []).ready.fetchView 0x80000000).userMode = true) ∧
    (fetches (at16 silent 0xA000010E []) .mips16 = true ∧ unanswered (at16 silent 0xA000010E []) 0xA000010E = true) ∧
    (let s := at16 kernel 0x80000000 [(1, 0xF8)]
     fetches s .mips16 = true ∧ s.ready.fetchHalf s.ready.pc = .ok 0xF800 ∧ decodeHalf 0xF800 = .reserved) ∧
    (let s := at16 kernel 0x80000000 [(0, 0x30), (1, 0xE8)]
     s.ready.fetchHalf s.ready.pc = .ok 0xE830 ∧ decodeHalf 0xE830 = .nonzeroField) ∧
    (let s := at16 user 0x7FFFFFFE [(0xBFFFFFFF, 0xF0)]
     fetches s .mips16 = true ∧ s.ready.fetchHalf s.ready.pc = .ok 0xF000 ∧ hasSecondHalf 0xF000 = true ∧
      0x80000000 ≤ (s.ready.pc + 2).toNat) ∧
    (let s := at16 silent 0xA00000FE [(0xFF, 0xF0)]
     s.ready.fetchHalf s.ready.pc = .ok 0xF000 ∧ unanswered s (s.ready.pc + 2) = true) ∧
    (let s := at16 kernel 0x80000000 [(1, 0xF0), (3, 0xF8)]
     s.ready.fetchHalf s.ready.pc = .ok 0xF000 ∧ s.ready.fetchHalf (s.ready.pc + 2) = .ok 0xF800) ∧
    decodePair 0xF000 0xF800 = .reserved ∧ decodePair 0xF000 0xE802 = .notExtensible ∧
    decodePair 0xF000 0x4820 = .nonzeroField := by decide

/-- What all clauses of InterruptTaken share. -/
def interruptible (s : State) : Bool := s.hazards = [] ∧ s.cp0.debugReg.dm = false

/-- A request that is enabled, as InterruptTaken says it. -/
def isRequested (c : Cp0) : Bool :=
  c.status.ie = true ∧ c.status.exl = false ∧ c.status.erl = false ∧ c.status.ipl.toNat < c.cause.ripl.toNat

/-- `s` with bits of DEBUG. -/
def withDebug (s : State) (sst ibusep dbusep : Bool) : State :=
  { s with cp0 := { s.cp0 with debugReg := { s.cp0.debugReg with sst := sst, ibusep := ibusep, dbusep := dbusep } } }

/-- Priority 1 above IPL 0 and 63 above 62, and priorities not above IPL; a request that arrives, at either side of IPL = 3; a debug interrupt; single step; pending bus errors. -/
theorem witness_InterruptTaken : let ie := { clearStatus with ie := true }
    let arrives := fun ripl : BitVec 6 => ({ kernel with
      inputs := [{ StepInput.quiet with eic := some { ripl := ripl, vector := 7, eicss := 1 } }],
      cp0 := { kernel.cp0 with status := { ie with ipl := 3 } } } : State)
    let presented := fun ripl : BitVec 6 => { (arrives ripl).cp0 with
      cause := { (arrives ripl).cp0.cause with ripl := ripl }, srsCtl := { (arrives ripl).cp0.srsCtl with eicss := 1 } }
    [requested ie true 1 1, requested { ie with ipl := 62 } false 1 63].all
      (fun s => s.inputs = [] ∧ interruptible s ∧ s.cp0.debugReg.sst = false ∧ isRequested s.cp0) = true ∧
    [requested { ie with ipl := 1 } true 1 1, requested clearStatus true 1 63, requested { ie with exl := true } true 1 63,
      requested { ie with erl := true } true 1 63].all
      (fun s => s.inputs = [] ∧ interruptible s ∧ s.cp0.debugReg.sst = false ∧ !isRequested s.cp0 ∧
        s.cp0.debugReg.ibusep = false ∧ s.cp0.debugReg.dbusep = false ∧ s.waiting = false) = true ∧
    ((requested ie true 1 1).cp0.status.bev = false ∧ (requested ie true 1 1).cp0.cause.iv = true) ∧
    (interruptible (arrives 4) = true ∧ isRequested (presented 4) = true ∧ isRequested (presented 3) = false) ∧
    interruptible { kernel with inputs := [{ StepInput.quiet with debugInterrupt := true }] } = true ∧
    (interruptible (withDebug kernel true false false) = true ∧ (withDebug kernel true false false).inputs = []) ∧
    [withDebug kernel false true false, withDebug kernel false true true, withDebug kernel false false true].all
      (fun s => interruptible s ∧ s.inputs = [] ∧ !isRequested s.cp0 ∧ s.cp0.debugReg.iexi = false) = true := by decide

/-- A request that arrives with the input of the step is taken in it, one at its level is not; a debug interrupt enters Debug mode. -/
theorem test_arriving_events : let s := fun inp : StepInput => ({ kernel with
      inputs := [inp], cp0 := { kernel.cp0 with status := { clearStatus with ie := true, ipl := 3 }, intCtlVs := 1,
                                                cause := { Cause.reset with iv := true } } } : State)
    let q := fun ripl => { StepInput.quiet with eic := some { ripl := ripl, vector := 7, eicss := 1 } }
    after (step (s (q 4))) (fun t => (t.pc, t.cp0.cause.ripl, t.inputs)) = some (0x9D0012E0, 4, []) ∧
    after (step (s (q 3))) (fun t => (t.pc, t.cp0.cause.ripl, t.inputs)) = some (0x9D000014, 3, []) ∧
    after (step (s { StepInput.quiet with debugInterrupt := true })) (fun t => (t.pc, t.cp0.debugReg.dint, t.cp0.depc)) =
      some (0xBFC00480, true, 0x9D000010) := by decide

theorem witness_NmiAndReset :
    (({ kernel with inputs := [{ StepInput.quiet with nmi := true }] } : State).inputs =
      { StepInput.quiet with nmi := true } :: [] ∧ kernel.cp0.debugReg.dm = false ∧ kernel.cp0.debugReg.sst = false) ∧
    ({ kernel with inputs := [{ StepInput.quiet with reset := true }] } : State).inputs =
      { StepInput.quiet with reset := true } :: [] ∧
    ({ kernel with inputs := [{ StepInput.quiet with softReset := true }] } : State).inputs =
      { StepInput.quiet with softReset := true } :: [] := by decide

theorem witness_TimerTicks :
    (∃ c : Cp0, c.cause.dc = true ∨ c.debugReg.dm = true ∧ c.debugReg.countDm = false) ∧
    ¬ (kernel.cp0.cause.dc = true ∨ kernel.cp0.debugReg.dm = true ∧ kernel.cp0.debugReg.countDm = false) :=
  ⟨⟨{ kernel.cp0 with cause := { Cause.reset with dc := true } }, Or.inl rfl⟩, by decide⟩

/-- The first and the last address of each segment. -/
theorem witness_FixedMapping :
    ((0x1FFFFFFF : Word).toNat < 0x20000000 ∧ State.reset.cp0.status.erl = true) ∧
    ((0 : Word).toNat < 0x80000000 ∧ kernel.cp0.status.erl = false) ∧
    ((0x20000000 : Word).toNat < 0x80000000 ∧ 0x20000000 ≤ (0x20000000 : Word).toNat) ∧
    (0x7FFFFFFF : Word).toNat < 0x80000000 ∧ (0x80000000 ≤ (0x9FFFFFFF : Word).toNat ∧ (0x9FFFFFFF : Word).toNat < 0xA0000000) ∧
    (0xA0000000 ≤ (0xA0000000 : Word).toNat ∧ (0xBFFFFFFF : Word).toNat < 0xC0000000) ∧
    0xC0000000 ≤ (0xC0000000 : Word).toNat := by decide

/-- The state after reset meets the invariant and steps to a next state. -/
theorem witness_StepKeepsInvariant : State.reset.Inv ∧ ∃ t, step State.reset = .next t :=
  ⟨⟨by decide, by decide, nofun, by decide, by decide⟩, _, rfl⟩

/-- The invariant of a state with memory, a pending transfer and vector spacing 32. -/
theorem witness_invariant :
    ({ inSlot with mem := { cells := [(0x100, 1)] }, cp0 := { inSlot.cp0 with intCtlVs := 1, srsMap := 0x11 } } : State).Inv :=
  ⟨by decide, by decide, fun d h => by cases h; decide, by decide, by decide⟩

/-- `s` with one pending write, `n` instructions away. -/
def pending (s : State) (k : HazardReg) (n : Nat) : State := { s with hazards := [⟨k, Cp0.reset, n⟩] }

/-- MTC0 to STATUS with and without a change of mode, MTC0 to EPC, DI; and each pending write at the first distance beyond its spacing. -/
theorem witness_Coprocessor0Hazards :
    (kernel.delay = none ∧ (kernel.view .coprocessor).cop0Usable = true ∧ kernel.inputs = [] ∧
      (∃ t, exec (.mtc0 4 12 0) (at_ kernel 2) = .next t ∧ t.cp0.status.exl ≠ (at_ kernel 2).cp0.status.exl) ∧
      (∃ t, exec (.mtc0 4 12 0) (at_ kernel 1) = .next t ∧ t.cp0.status.um = (at_ kernel 1).cp0.status.um ∧
        t.cp0.status.exl = (at_ kernel 1).cp0.status.exl ∧ t.cp0.status.erl = (at_ kernel 1).cp0.status.erl) ∧
      (∃ t, exec (.mtc0 4 14 0) kernel = .next t) ∧ (∃ t, exec (.di 4) kernel = .next t)) ∧
    (({ kernel with hazards := [⟨.interruptEnable, Cp0.reset, 1⟩, ⟨.status, Cp0.reset, 3⟩] }).hazards.all fun h =>
      (h.reg = HazardReg.status → 2 < h.distance) ∧ (h.reg = HazardReg.interruptEnable → 0 < h.distance)) = true ∧
    ([(HazardReg.status, 1), (.interruptEnable, 1), (.status, 2), (.status, 3), (.interruptEnable, 2), (.epc, 2), (.depc, 2),
      (.errorEpc, 2), (.cause, 4), (.srsCtl, 2), (.compare, 5), (.hwrena, 3)].all fun p =>
      (pending kernel p.1 p.2).hazards.all fun h => h.reg = p.1 ∧ p.2 - 1 < h.distance) = true ∧
    ∀ k ∈ [HazardReg.status, .interruptEnable, .epc, .compare],
      ∃ h, (pending kernel k 1).hazards = [h] ∧ 0 < h.distance ∧ h.reg = k :=
  ⟨⟨by decide, by decide, by decide, ⟨_, rfl, by decide⟩, ⟨_, rfl, by decide⟩, ⟨_, rfl⟩, ⟨_, rfl⟩⟩, by decide, by decide,
    fun k _ => ⟨_, rfl, Nat.one_pos, rfl⟩⟩

/-- Table 2-1 at its edges (spec 70 R720): EPC two instructions before ERET, STATUS.CU0 two before a coprocessor instruction, CAUSE.IP four before the interrupt check, and IE written by EI seen by an instruction at once. -/
theorem test_hazard_spacing :
    let new : State := { kernel with cp0 := { kernel.cp0 with epc := 8, cause := { kernel.cp0.cause with ip := 3 },
                                                              status := { clearStatus with cu0 := true, ie := true } } }
    ((pending new .epc 2).view .eret).epc = 8 ∧ ((pending new .status 2).view .coprocessor).status.cu0 = true ∧
    ((pending new .cause 4).view .interrupt).cause.ip = 3 ∧ (pending new .interruptEnable 1).seen.status.ie = true ∧
    ((pending new .status 1).view .eret).status = new.cp0.status := by decide

theorem witness_DecodeEncode : (Instr.add 3 1 2).WellFormed = true ∧
    (Instr.m16Extend (.save 0 0 255 true true true)).WellFormed = true := by decide

end Sys2Proof.Tests
end

section
/-! PROOFS. Every instruction keeps the invariant of the machine. -/

namespace Sys2Proof.Machine

/-! ## Operations that keep the memory, the program counter, the pending transfer and coprocessor 0 -/

theorem State.writeSet_inv {s : State} (h : s.Inv) (k : ShadowSet) (r : Reg) (v : Word) : (s.writeSet k r v).Inv :=
  State.inv_same h (by simp) (by simp) (by simp) (by simp) (by simp)

theorem State.withHiLo_inv {s : State} (h : s.Inv) (hi lo : Word) (unread : Bool) :
    State.Inv { s with hi := hi, lo := lo, hiLoUnread := unread } :=
  State.inv_same h rfl rfl rfl rfl rfl

theorem State.withLlbit_inv {s : State} (h : s.Inv) (b : Bool) : State.Inv { s with llbit := b } :=
  State.inv_same h rfl rfl rfl rfl rfl

theorem State.withHazards_inv {s : State} (h : s.Inv) (hs : List Hazard) : State.Inv { s with hazards := hs } :=
  State.inv_same h rfl rfl rfl rfl rfl

theorem State.withDebug_inv {s : State} (h : s.Inv) (d : Debug) :
    State.Inv { s with cp0 := { s.cp0 with debugReg := d } } :=
  State.inv_same h rfl rfl rfl rfl rfl

theorem State.writeHiLo_inv {s : State} (h : s.Inv) (p : BitVec 64) : (s.writeHiLo p).Inv :=
  State.inv_same h rfl rfl rfl rfl rfl

theorem State.divide_inv {s : State} (h : s.Inv) (stated : Bool) (q r : Word) : (s.divide stated q r).Inv :=
  State.inv_same h (by simp) (by simp) (by simp) (by simp) (by simp)

theorem State.orderStores_inv {s : State} (h : s.Inv) : s.orderStores.Inv := State.inv_same h rfl rfl rfl rfl rfl

theorem State.syncAddress_inv {s : State} (h : s.Inv) (va : Word) : (s.syncAddress va).Inv :=
  State.inv_same h (by simp) (by simp) (by simp) (by simp) (by simp)

theorem State.setInterruptEnable_inv {s : State} (h : s.Inv) (b : Bool) : (s.setInterruptEnable b).Inv :=
  State.inv_same h rfl rfl rfl rfl rfl

/-! ## MTC0 -/

/-- MTC0 to IntCtl and SRSMap stops on an illegal value, and no other register holds VS or the map (spec 10 R55, R62). -/
theorem Cp0.write_legal {c c' seen : Cp0} {pc v : Word} {rd : Reg} {sel : BitVec 3}
    (hv : legalSpacing c.intCtlVs = true) (hm : legalSrsMap c.srsMap = true)
    (hw : c.write seen pc rd sel v = .ok c') :
    legalSpacing c'.intCtlVs = true ∧ legalSrsMap c'.srsMap = true := by
  unfold Cp0.write at hw
  split at hw
  all_goals try split at hw
  all_goals cases hw
  all_goals exact ⟨by assumption, by assumption⟩

/-- What MTC0 leaves in coprocessor 0: the registers as it wrote them, or all as they were if it names none it may write. -/
theorem State.writeCp0_cp0 (s : State) (rd : Reg) (sel : BitVec 3) (c : Cp0) :
    (s.writeCp0 rd sel c).cp0 = if (hazardReg rd sel).isSome then c else s.cp0 := by
  unfold State.writeCp0
  cases hazardReg rd sel with
  | none => rfl
  | some k => cases k <;> simp

/-! ### What MTC0 leaves unchanged -/

section
variable (s : State) (rd : Reg) (sel : BitVec 3) (c : Cp0)

@[simp] theorem State.writeCp0_gpr : (s.writeCp0 rd sel c).gpr = s.gpr := by
  unfold State.writeCp0; split <;> simp

@[simp] theorem State.writeCp0_hi : (s.writeCp0 rd sel c).hi = s.hi := by
  unfold State.writeCp0; split <;> simp

@[simp] theorem State.writeCp0_lo : (s.writeCp0 rd sel c).lo = s.lo := by
  unfold State.writeCp0; split <;> simp

@[simp] theorem State.writeCp0_hiLoUnread : (s.writeCp0 rd sel c).hiLoUnread = s.hiLoUnread := by
  unfold State.writeCp0; split <;> simp

@[simp] theorem State.writeCp0_pc : (s.writeCp0 rd sel c).pc = s.pc := by
  unfold State.writeCp0; split <;> simp

@[simp] theorem State.writeCp0_isaMode : (s.writeCp0 rd sel c).isaMode = s.isaMode := by
  unfold State.writeCp0; split <;> simp

@[simp] theorem State.writeCp0_delay : (s.writeCp0 rd sel c).delay = s.delay := by
  unfold State.writeCp0; split <;> simp

@[simp] theorem State.writeCp0_llbit : (s.writeCp0 rd sel c).llbit = s.llbit := by
  unfold State.writeCp0; split <;> simp

@[simp] theorem State.writeCp0_waiting : (s.writeCp0 rd sel c).waiting = s.waiting := by
  unfold State.writeCp0; split <;> simp

@[simp] theorem State.writeCp0_eicVector : (s.writeCp0 rd sel c).eicVector = s.eicVector := by
  unfold State.writeCp0; split <;> simp

@[simp] theorem State.writeCp0_mem : (s.writeCp0 rd sel c).mem = s.mem := by
  unfold State.writeCp0; split <;> simp

@[simp] theorem State.writeCp0_stale : (s.writeCp0 rd sel c).stale = s.stale := by
  unfold State.writeCp0; split <;> simp

@[simp] theorem State.writeCp0_physMap : (s.writeCp0 rd sel c).physMap = s.physMap := by
  unfold State.writeCp0; split <;> simp

@[simp] theorem State.writeCp0_inputs : (s.writeCp0 rd sel c).inputs = s.inputs := by
  unfold State.writeCp0; split <;> simp

@[simp] theorem State.writeCp0_between : (s.writeCp0 rd sel c).between = s.between := by
  unfold State.writeCp0; split <;> simp

@[simp] theorem State.writeCp0_draws : (s.writeCp0 rd sel c).draws = s.draws := by
  unfold State.writeCp0; split <;> simp

end

theorem State.writeCp0_inv {s : State} (h : s.Inv) (rd : Reg) (sel : BitVec 3) {c : Cp0}
    (hv : legalSpacing c.intCtlVs = true) (hm : legalSrsMap c.srsMap = true) : (s.writeCp0 rd sel c).Inv := by
  obtain ⟨hmem, hpc, hdelay, hs, hp⟩ := h
  refine ⟨by simpa using hmem, by simpa using hpc, by simpa using hdelay, ?_, ?_⟩ <;>
    (rw [State.writeCp0_cp0]; split <;> assumption)

/-! ## Shapes of meanings -/

theorem keepsInv_ite {p : Prop} [Decidable p] {a b : Result} (ha : KeepsInv a) (hb : KeepsInv b) :
    KeepsInv (if p then a else b) := by
  split <;> assumption

theorem keepsInv_unusable {s : State} (h : s.Inv) (n : BitVec 2) : KeepsInv (s.unusable n) := keepsInv_raise h _

theorem keepsInv_debugBreakpoint {s : State} (h : s.Inv) : KeepsInv s.debugBreakpoint :=
  keepsInv_ite (keepsInv_refused _) (keepsInv_next (State.takeDebug_inv h _))

theorem keepsInv_tlbOp {s : State} (h : s.Inv) : KeepsInv s.tlbOp := by
  apply keepsInv_needCop0 h
  split
  · exact keepsInv_advance h (by decide)
  · exact keepsInv_raise h _

theorem keepsInv_saveFrame {s : State} (h : s.Inv) {len : Word} (hl : len.getLsbD 0 = false) (size : Word)
    (ra s0 s1 : Bool) : KeepsInv (s.saveFrame len size ra s0 s1) :=
  keepsInv_pushWords h hl _ (fun _ ht => State.write_inv ht _ _) _

theorem keepsInv_restoreFrame {s : State} (h : s.Inv) {len : Word} (hl : len.getLsbD 0 = false) (size : Word)
    (ra s0 s1 : Bool) : KeepsInv (s.restoreFrame len size ra s0 s1) :=
  keepsInv_popWords h hl _ (fun _ ht => State.write_inv ht _ _) _

/-- A jump with a delay slot, from a state in which the link has been written (spec 42 R320). -/
theorem keepsInv_jump {s u : State} (h : u.Inv) {len target : Word} (hl : len.getLsbD 0 = false)
    (ht : target.getLsbD 0 = false) (mode : Isa) (barrier : Bool) :
    KeepsInv (s.outsideSlot (.next (u.delayed len target mode barrier))) :=
  keepsInv_outsideSlot (keepsInv_next (State.delayed_inv h hl ht mode barrier))

/-- A jump through a register clears bit 0 of its target (spec 42 R333). -/
theorem State.jumpRegister_inv {s : State} (h : s.Inv) {len : Word} (hl : len.getLsbD 0 = false) (t : Word)
    (barrier : Bool) : (s.jumpRegister len t barrier).Inv :=
  State.delayed_inv h hl (clearIsaBit_even t) _ barrier

theorem keepsInv_jumpRegister {s u : State} (h : u.Inv) {len : Word} (hl : len.getLsbD 0 = false) (t : Word)
    (barrier : Bool) : KeepsInv (s.outsideSlot (.next (u.jumpRegister len t barrier))) :=
  keepsInv_outsideSlot (keepsInv_next (State.jumpRegister_inv h hl t barrier))

theorem keepsInv_jumpCompact {s u : State} (h : u.Inv) (t : Word) :
    KeepsInv (s.outsideSlot (.next (u.jumpCompact t))) :=
  keepsInv_outsideSlot (keepsInv_next (State.jumpTo_inv h (clearIsaBit_even t) _))

/-! ## Instructions of more than one shape -/

theorem execLl_keepsInv {s : State} (h : s.Inv) (rt base : Reg) (offset : BitVec 16) :
    KeepsInv (execLl rt base offset s) :=
  keepsInv_loadWith h _ _ _
    (fun _ ht => keepsInv_advance (State.withLlbit_inv ht _) (by decide))
    (fun _ ht => keepsInv_advance (State.withLlbit_inv ht _) (by decide))

theorem execSc_keepsInv {s : State} (h : s.Inv) (rt base : Reg) (offset : BitVec 16) :
    KeepsInv (execSc rt base offset s) := by
  unfold execSc
  refine keepsInv_ite (keepsInv_raise h _) (keepsInv_ite ?_ (keepsInv_result (State.withLlbit_inv h _) (by decide) _ _))
  exact keepsInv_storeWith h (fun _ => State.memWrite_inv h)
    (fun _ ht => keepsInv_advance (State.write_inv (State.withLlbit_inv ht _) _ _) (by decide))
    (fun _ ht => keepsInv_advance (State.write_inv (State.withLlbit_inv ht _) _ _) (by decide))

theorem execMtc0_keepsInv {s : State} (h : s.Inv) (rt rd : Reg) (sel : Reg3) : KeepsInv (execMtc0 rt rd sel s) := by
  apply keepsInv_needCop0 h
  split
  case h_1 c hw =>
    have ⟨_, _, _, hs, hp⟩ := h
    obtain ⟨hv, hm⟩ := Cp0.write_legal hs hp hw
    exact keepsInv_advance (State.writeCp0_inv h rd sel hv hm) (by decide)
  case h_2 => exact keepsInv_fault _

theorem execWait_keepsInv {s : State} (h : s.Inv) (code : BitVec 19) : KeepsInv (execWait code s) :=
  have ha : (s.advance 4).Inv := State.advance_inv h (by decide)
  keepsInv_outsideSlot (keepsInv_needCop0 h _ (keepsInv_next (State.inv_same ha rfl rfl rfl rfl rfl)))

theorem execDeret_keepsInv {s : State} (h : s.Inv) : KeepsInv (execDeret s) := by
  refine keepsInv_outsideSlot (keepsInv_needCop0 h _ (keepsInv_next ?_))
  split
  · exact State.returnFromDebug_inv h
  · exact State.raise_inv h _

/-- The extended instructions of MIPS16e (spec 45 R448). -/
theorem execExtended_keepsInv {s : State} (h : s.Inv) (op : ExtOp) : KeepsInv (execExtended op s) := by
  cases op with
  | addiusp | addiupc | sll | srl | sra | addiu | addiu8 | slti | sltiu | adjsp | li | cmpi =>
    exact keepsInv_result h (by decide) _ _
  | b | beqz | bnez | bteqz | btnez => exact keepsInv_branch16 h (by decide) _ _
  | lb | lh | lwsp | lw | lbu | lhu | lwpc => exact keepsInv_loadTo h (by decide) _ _ _
  | swrasp | sb | sh | swsp | sw => exact keepsInv_storeTo h (by decide) fun _ => State.memWrite_inv h
  | save => exact keepsInv_ite (keepsInv_saveFrame h (by decide) _ _ _ _) (keepsInv_refused _)
  | restore => exact keepsInv_ite (keepsInv_restoreFrame h (by decide) _ _ _ _) (keepsInv_refused _)

/-! ## Every instruction -/

/-- The meaning of every instruction keeps the invariant, by the shape of the meaning. -/
theorem exec_keepsInv {s : State} (h : s.Inv) (i : Instr) : KeepsInv (exec i s) := by
  cases i with
  -- a result in a register
  | addu | subu | slt | sltu | and | or | xor | nor | addiu | slti | sltiu | andi | ori | xori | lui | sll | srl | sra
  | rotr | sllv | srlv | srav | rotrv | seb | seh | wsbh | m16Addiusp | m16Addiupc | m16Sll | m16Srl | m16Sra
  | m16Addiu | m16Addiu8 | m16Slti | m16Sltiu | m16Adjsp | m16Li | m16Cmpi | m16Mov32r | m16Movr32 | m16Addu
  | m16Subu | m16Slt | m16Sltu | m16Sllv | m16Srlv | m16Srav | m16Cmp | m16Neg | m16And | m16Or | m16Xor | m16Not
  | m16Zeb | m16Zeh | m16Seb | m16Seh =>
    exact keepsInv_result h (by decide) _ _
  | mul | mfhi | mflo | m16Mfhi | m16Mflo =>
    exact keepsInv_result (State.withHiLo_inv h _ _ _) (by decide) _ _
  | add | sub | addi => exact keepsInv_resultOrOverflow h _ _ _
  | clz | clo | ext | ins => exact keepsInv_ite (keepsInv_result h (by decide) _ _) (keepsInv_refused _)
  | movz => exact keepsInv_ite (keepsInv_result h (by decide) _ _) (keepsInv_advance h (by decide))
  | movn => exact keepsInv_ite (keepsInv_advance h (by decide)) (keepsInv_result h (by decide) _ _)
  -- no result in a register
  | nop | ssnop | pref | m16Nop => exact keepsInv_advance h (by decide)
  | ehb => exact keepsInv_advance (State.withHazards_inv h _) (by decide)
  | mthi | mtlo => exact keepsInv_advance (State.withHiLo_inv h _ _ _) (by decide)
  | mult | multu | madd | maddu | msub | msubu | m16Mult | m16Multu =>
    exact keepsInv_advance (State.writeHiLo_inv h _) (by decide)
  | div | divu | m16Div | m16Divu => exact keepsInv_advance (State.divide_inv h _ _ _) (by decide)
  | sync => exact keepsInv_advance (State.orderStores_inv h) (by decide)
  | synci => exact keepsInv_advance (State.syncAddress_inv h _) (by decide)
  | wait code => exact execWait_keepsInv h code
  -- loads and stores
  | lb | lbu | lh | lhu | lw | lwl | lwr | m16Lb | m16Lh | m16Lwsp | m16Lw | m16Lbu | m16Lhu | m16Lwpc =>
    exact keepsInv_loadTo h (by decide) _ _ _
  | sb | sh | sw | m16Swrasp | m16Sb | m16Sh | m16Swsp | m16Sw =>
    exact keepsInv_storeTo h (by decide) fun _ => State.memWrite_inv h
  | swl | swr => exact keepsInv_storeTo h (by decide) fun _ => State.memWritePartial_inv h
  | ll rt base offset => exact execLl_keepsInv h rt base offset
  | sc rt base offset => exact execSc_keepsInv h rt base offset
  | m16Save => exact keepsInv_saveFrame h (by decide) _ _ _ _
  | m16Restore => exact keepsInv_restoreFrame h (by decide) _ _ _ _
  -- jumps and branches
  | j => exact keepsInv_jump h (by decide) (jumpTarget_even _ _) _ _
  | jal | jalx | m16Jal | m16Jalx =>
    exact keepsInv_jump (State.write_inv h _ _) (by decide) (jumpTarget_even _ _) _ _
  | jr | jrHb | m16Jr | m16JrRa => exact keepsInv_jumpRegister h (by decide) _ _
  | m16Jalr => exact keepsInv_jumpRegister (State.write_inv h _ _) (by decide) _ _
  | jalr | jalrHb =>
    exact keepsInv_outsideSlot (keepsInv_ite (keepsInv_refused _)
      (keepsInv_next (State.jumpRegister_inv (State.write_inv h _ _) (by decide) _ _)))
  | m16Jrc | m16JrcRa => exact keepsInv_jumpCompact h _
  | m16Jalrc => exact keepsInv_jumpCompact (State.write_inv h _ _) _
  | beq | bne | blez | bgtz | bltz | bgez => exact keepsInv_branch h _ _
  | beql | bnel | blezl | bgtzl | bltzl | bgezl => exact keepsInv_branchLikely h _ _
  | bltzal | bgezal =>
    exact keepsInv_outsideSlot (keepsInv_ite (keepsInv_refused _) (keepsInv_branch (State.write_inv h _ _) _ _))
  | bltzall | bgezall =>
    exact keepsInv_outsideSlot (keepsInv_ite (keepsInv_refused _) (keepsInv_branchLikely (State.write_inv h _ _) _ _))
  | m16B | m16Beqz | m16Bnez | m16Bteqz | m16Btnez => exact keepsInv_branch16 h (by decide) _ _
  -- exceptions
  | syscall | break_ | m16Break => exact keepsInv_raise h _
  | sdbbp | m16Sdbbp => exact keepsInv_debugBreakpoint h
  | tge | tgeu | tlt | tltu | teq | tne | tgei | tgeiu | tlti | tltiu | teqi | tnei => exact keepsInv_trap h _
  | lwc1 | lwc2 | ldc1 | ldc2 | swc1 | swc2 | sdc1 | sdc2 | cop1 | cop2 => exact keepsInv_unusable h _
  | cop1x | movci => exact keepsInv_raise h _
  -- coprocessor 0
  | cache => exact keepsInv_needCop0 h _ (keepsInv_advance h (by decide))
  | mfc0 | rdpgpr => exact keepsInv_needCop0 h _ (keepsInv_result h (by decide) _ _)
  | wrpgpr => exact keepsInv_needCop0 h _ (keepsInv_advance (State.writeSet_inv h _ _ _) (by decide))
  | di | ei => exact keepsInv_needCop0 h _ (keepsInv_result (State.setInterruptEnable_inv h _) (by decide) _ _)
  | mtc0 rt rd sel => exact execMtc0_keepsInv h rt rd sel
  | eret => exact keepsInv_outsideSlot (keepsInv_needCop0 h _ (keepsInv_next (State.returnFromException_inv h)))
  | deret => exact execDeret_keepsInv h
  | tlbr | tlbwi | tlbwr | tlbp => exact keepsInv_tlbOp h
  | rdhwr =>
    exact keepsInv_ite (keepsInv_raise h _) (keepsInv_ite (keepsInv_raise h _) (keepsInv_result h (by decide) _ _))
  -- extended instructions
  | m16Extend op => exact keepsInv_ite (keepsInv_refused _) (execExtended_keepsInv h op)

/-! ## The step -/

/-- If an event ends the step, the outcome keeps the invariant. -/
def EventKeepsInv (o : Option Result) : Prop := ∀ r, o = some r → KeepsInv r

theorem eventKeepsInv_none : EventKeepsInv none := fun _ e => by cases e

theorem eventKeepsInv_ite {p : Prop} [Decidable p] {r : Result} {o : Option Result} (hr : KeepsInv r)
    (ho : EventKeepsInv o) : EventKeepsInv (if p then some r else o) := by
  split
  · intro q hq; cases hq; exact hr
  · exact ho

/-- The events that come before an instruction, in their order of precedence (spec 60 R625). -/
theorem State.event_keepsInv {s : State} (h : s.Inv) : EventKeepsInv s.event := by
  have hi : s.absorb.Inv := State.absorb_inv h
  have ha : s.absorb.age.Inv := State.age_inv hi
  unfold State.event
  apply eventKeepsInv_ite (keepsInv_next (State.takeReset_inv hi _))
  apply eventKeepsInv_ite (keepsInv_next (State.takeReset_inv hi _))
  apply eventKeepsInv_ite (keepsInv_refused _)
  apply eventKeepsInv_ite (keepsInv_next (State.takeDebug_inv hi _))
  apply eventKeepsInv_ite (keepsInv_next (State.takeDebug_inv hi _))
  apply eventKeepsInv_ite (keepsInv_next (State.takeNmi_inv hi))
  apply eventKeepsInv_ite (keepsInv_next (State.takeException_inv ha _))
  apply eventKeepsInv_ite (keepsInv_next (State.takeException_inv (State.withDebug_inv ha _) _))
  apply eventKeepsInv_ite (keepsInv_next (State.takeException_inv (State.withDebug_inv ha _) _))
  apply eventKeepsInv_ite (keepsInv_next hi)
  exact eventKeepsInv_none

theorem State.fetchFailed_keepsInv {s : State} (h : s.Inv) {α : Type} (m : MemResult α) :
    KeepsInv (s.fetchFailed m) := by
  have hb : KeepsInv s.fetchBusError :=
    keepsInv_ite (keepsInv_next (State.withDebug_inv h _)) (keepsInv_raise h _)
  cases m with
  | addressError va => exact keepsInv_raise h _
  | ok | busError | dseg => exact hb

/-- If the fetch ends the step, the outcome keeps the invariant. -/
def StopKeepsInv (f : Fetched) : Prop := ∀ r, f = .stop r → KeepsInv r

theorem stopKeepsInv_run (i : Instr) : StopKeepsInv (.run i) := fun _ e => by cases e

theorem stopKeepsInv_stop {r : Result} (h : KeepsInv r) : StopKeepsInv (.stop r) := fun _ e => by cases e; exact h

theorem State.ofDecoded_stopKeepsInv {s : State} (h : s.Inv) (d : Decoded) : StopKeepsInv (s.ofDecoded d) := by
  cases d with
  | instr i => exact stopKeepsInv_run i
  | reserved => exact stopKeepsInv_stop (keepsInv_raise h _)
  | reservedCop0 => exact stopKeepsInv_stop (keepsInv_needCop0 h _ (keepsInv_raise h _))
  | nonzeroField | notExtensible | truncated => exact stopKeepsInv_stop (keepsInv_refused _)

theorem State.fetchDecode_stopKeepsInv {s : State} (h : s.Inv) : StopKeepsInv s.fetchDecode := by
  have hf : ∀ {α : Type} (m : MemResult α), StopKeepsInv (.stop (s.fetchFailed m)) := fun m =>
    stopKeepsInv_stop (State.fetchFailed_keepsInv h m)
  have hd := State.ofDecoded_stopKeepsInv h
  unfold State.fetchDecode
  split
  case h_1 =>
    split
    · exact hd _
    · exact hf _
  case h_2 =>
    split
    · split
      · split
        · exact hd _
        · exact hf _
      · exact hd _
    · exact hf _

theorem step_keepsInv {s : State} (h : s.Inv) : KeepsInv (step s) := by
  unfold step
  split
  case h_1 r he => exact State.event_keepsInv h r he
  case h_2 =>
    split
    case h_1 i _ => exact exec_keepsInv (State.ready_inv h) i
    case h_2 r hf => exact State.fetchDecode_stopKeepsInv (State.ready_inv h) r hf

/-- Settles O57: the step lemma over every event, every outcome of a fetch and every instruction. -/
theorem stepKeepsInvariant : Obligations.StepKeepsInvariant := fun _ t h ht => step_keepsInv h t ht

end Sys2Proof.Machine
end

section
/-! PROOFS. MTC0 to STATUS, exceptions in Debug mode, and the state after reset. -/

namespace Sys2Proof.Machine

/-! ## MTC0 -/

/-- MTC0 where coprocessor 0 is usable: the next instruction after the write, or the fault of the write (spec 44 R408). -/
theorem exec_mtc0 {s : State} (h : (s.view .coprocessor).cop0Usable = true) (rt rd : Reg) (sel : Reg3) :
    exec (.mtc0 rt rd sel) s =
      match s.cp0.write s.seen s.pc rd sel (s.reg rt) with
      | .ok c => .next ((s.writeCp0 rd sel c).advance 4)
      | .error f => .fault f :=
  if_pos h

theorem exec_mtc0_ok {s : State} (h : (s.view .coprocessor).cop0Usable = true) {rt rd : Reg} {sel : Reg3} {c : Cp0}
    (hc : s.cp0.write s.seen s.pc rd sel (s.reg rt) = .ok c) :
    exec (.mtc0 rt rd sel) s = .next ((s.writeCp0 rd sel c).advance 4) := by
  rw [exec_mtc0 h, hc]

theorem exec_mtc0_fault {s : State} (h : (s.view .coprocessor).cop0Usable = true) {rt rd : Reg} {sel : Reg3} {f : Fault}
    (hf : s.cp0.write s.seen s.pc rd sel (s.reg rt) = .error f) : exec (.mtc0 rt rd sel) s = .fault f := by
  rw [exec_mtc0 h, hf]

/-- What MTC0 leaves unchanged, whichever register it writes (spec 44 R408). -/
theorem State.writeCp0_advance_frame (s : State) (rd : Reg) (sel : Reg3) (c : Cp0) :
    let t := (s.writeCp0 rd sel c).advance 4
    KeepsRegs s t [] ∧ KeepsHiLo s t ∧ KeepsMemory s t [] ∧ t.llbit = s.llbit ∧ KeepsOutside s t ∧ GoesOn s t 4 :=
  ⟨keepsRegs_of_gpr (by simp) _, ⟨by simp, by simp, by simp⟩, keepsMemory_of_mem (by simp) _, by simp,
    ⟨by simp, by simp, by simp, by simp, by simp, by simp⟩, goesOn_advance 4 (by simp) (by simp) (by simp)⟩

/-- MTC0 to STATUS stops where it changes ERL from 0 to 1 in kuseg (spec 10 R51; log 31). -/
theorem Cp0.write_status (c seen : Cp0) (pc v : Word) :
    c.write seen pc 12 0 v =
      if v.getLsbD 2 && !c.status.erl && !pc.getLsbD 31 then .error .errorLevelInKuseg
      else .ok { c with status := c.status.write v } := rfl

theorem Cp0.write_status_ok {c : Cp0} {pc v : Word}
    (h : v.getLsbD 2 = false ∨ c.status.erl = true ∨ pc.getLsbD 31 = true) (seen : Cp0) :
    c.write seen pc 12 0 v = .ok { c with status := c.status.write v } := by
  rw [Cp0.write_status, if_neg]
  rcases h with h | h | h <;> rw [h] <;> simp

theorem Cp0.write_status_fault {c : Cp0} {pc v : Word} (hv : v.getLsbD 2 = true) (he : c.status.erl = false)
    (hp : pc.getLsbD 31 = false) (seen : Cp0) : c.write seen pc 12 0 v = .error .errorLevelInKuseg := by
  rw [Cp0.write_status, hv, he, hp]; rfl

/-- Settles O32: the frame of every MTC0, with the fields that a write of STATUS takes. -/
theorem moveToStatus : Obligations.MoveToStatus := by
  intro s rt old v usable
  refine ⟨fun hok => ?_, fun hv he hp => exec_mtc0_fault usable (Cp0.write_status_fault hv he hp _)⟩
  refine ⟨_, exec_mtc0_ok usable (Cp0.write_status_ok hok _), ?_, State.writeCp0_advance_frame s 12 0 _⟩
  rw [State.advance_cp0, State.writeCp0_cp0]
  rfl

/-! ## Exceptions in Debug mode -/

theorem State.raise_debug {s : State} (h : s.cp0.debugReg.dm = true) (e : Exc) : s.raise e = s.takeInDebug e := by
  unfold State.raise; rw [h]; rfl

theorem State.restartPc_eq (s : State) : s.restartPc = savedPc (restartAddress s) s.isaMode := by
  unfold State.restartPc restartAddress
  cases s.delay <;> exact savedPc_eq _ _

theorem State.takeInDebug_cp0 (s : State) (e : Exc) : (s.takeInDebug e).cp0 = { s.cp0 with
    depc := s.restartPc
    badVAddr := entryBadVAddr s.cp0.badVAddr e
    debugReg := { s.cp0.debugReg with
      dbd := s.delay.isSome, dexcCode := e.code, iexi := true, halt := s.freeBit .halt, doze := s.freeBit .doze,
      dint := false, dib := false, ddbs := false, ddbl := false, dbp := false, dss := false } } := rfl

/-- Settles O48: coprocessor 0 after the entry, and the frame of `raise`. -/
theorem exceptionInDebugMode : Obligations.ExceptionInDebugMode := by
  intro s e hd t
  have ht : t = s.takeInDebug e := State.raise_debug hd e
  have hc := State.takeInDebug_cp0 s e
  rw [← ht] at hc
  refine ⟨by rw [ht]; rfl, by simp [t], by simp [t], by simp [t], by simp [t], ?_, by rw [hc], by rw [hc]; exact hd,
    by rw [hc], by rw [hc], by rw [hc], by rw [hc], by rw [hc], by rw [hc], keepsRegs_of_gpr (by simp [t]) _,
    ⟨by simp [t], by simp [t], by simp [t]⟩, keepsMemory_of_mem (by simp [t]) _, rfl⟩
  rw [hc]; exact State.restartPc_eq s

/-! ## Reset -/

/-- Settles O55: each field of the state after reset. -/
theorem resetValues : Obligations.ResetValues := by
  unfold Obligations.ResetValues
  simp only [State.regOf_zero, implies_true, true_and]
  decide

/-- Settles O56: empty memory, an even reset vector, no pending transfer, and zero in IntCtl.VS and SRSMap. -/
theorem resetMeetsInvariant : Obligations.ResetMeetsInvariant :=
  ⟨Memory.wf_reset, by decide, (by intro d h; cases h), by decide, by decide⟩

end Sys2Proof.Machine
end

section
/-! PROOFS. The fixed mapping of addresses, the modes, and word stores to peripheral registers, flash and devices. -/

namespace Sys2Proof.Machine

/-! ## The segments of the fixed mapping -/

theorem translate_kuseg_errorLevel {c : Cp0} {va : Word} (h : va.toNat < 0x20000000) (he : c.status.erl = true) :
    translate c va = va := by
  rw [translate, if_pos h, if_pos he]

theorem translate_kuseg {c : Cp0} {va : Word} (h : va.toNat < 0x80000000)
    (he : c.status.erl = false ∨ 0x20000000 ≤ va.toNat) : translate c va = va + 0x40000000 := by
  unfold translate
  by_cases hlow : va.toNat < 0x20000000
  · rw [if_pos hlow, he.resolve_right (by omega)]; rfl
  · rw [if_neg hlow, if_pos h]

theorem translate_kseg0 {va : Word} (h1 : 0x80000000 ≤ va.toNat) (h2 : va.toNat < 0xA0000000) (c : Cp0) :
    translate c va = va - 0x80000000 := by
  rw [translate, if_neg (by omega), if_neg (by omega), if_pos h2]

theorem translate_kseg1 {va : Word} (h1 : 0xA0000000 ≤ va.toNat) (h2 : va.toNat < 0xC0000000) (c : Cp0) :
    translate c va = va - 0xA0000000 := by
  rw [translate, if_neg (by omega), if_neg (by omega), if_neg (by omega), if_pos h2]

theorem translate_kseg2 {va : Word} (h : 0xC0000000 ≤ va.toNat) (c : Cp0) : translate c va = va := by
  rw [translate, if_neg (by omega), if_neg (by omega), if_neg (by omega), if_neg (by omega)]

/-! ## The modes -/

theorem Cp0.debugMode_iff (c : Cp0) : c.debugMode = true ↔ c.debugReg.dm = true := Iff.rfl

theorem Cp0.kernelMode_iff (c : Cp0) : c.kernelMode = true ↔
    c.debugReg.dm = false ∧ (c.status.um = false ∨ c.status.exl = true ∨ c.status.erl = true) := by
  simp [Cp0.kernelMode, or_assoc]

theorem Cp0.userMode_iff (c : Cp0) : c.userMode = true ↔
    c.debugReg.dm = false ∧ c.status.um = true ∧ c.status.exl = false ∧ c.status.erl = false := by
  simp [Cp0.userMode, and_assoc]

theorem Cp0.cop0Usable_iff (c : Cp0) :
    c.cop0Usable = true ↔ c.kernelMode = true ∨ c.debugMode = true ∨ c.status.cu0 = true := by
  simp [Cp0.cop0Usable, or_assoc]

/-- Settles O54: segment by segment, where no sum or difference leaves the 32-bit range, and mode by mode. -/
theorem fixedMapping : Obligations.FixedMapping := by
  intro c va
  refine ⟨fun h he => ?_, fun h he => ?_, fun h1 h2 => ?_, fun h1 h2 => ?_, fun h => ?_, c.debugMode_iff,
    c.kernelMode_iff, c.userMode_iff, c.cop0Usable_iff⟩
  · rw [translate_kuseg_errorLevel h he]
  · rw [translate_kuseg h he, BitVec.toNat_add_of_lt]
    · rfl
    · change va.toNat + 0x40000000 < 2 ^ 32; omega
  · rw [translate_kseg0 h1 h2, BitVec.toNat_sub_of_le (show (0x80000000 : Word) ≤ va from h1)]; rfl
  · rw [translate_kseg1 h1 h2, BitVec.toNat_sub_of_le (show (0xA0000000 : Word) ≤ va from h1)]; rfl
  · rw [translate_kseg2 h]

/-! ## The bytes of a word -/

theorem State.valueAt_lt (s : State) (pa : Word) (n : Nat) : s.valueAt pa n < 256 ^ n := by
  induction n with
  | zero => exact Nat.one_pos
  | succ n ih =>
    have hb : (s.mem.read (pa + BitVec.ofNat 32 n).toNat).toNat + 1 ≤ 256 := BitVec.isLt _
    have hm := Nat.mul_le_mul_left (256 ^ n) hb
    rw [Nat.mul_succ] at hm
    rw [State.valueAt, pow_succ]
    omega

/-- The bytes of a value in memory are the bytes of memory (spec 20 R110). -/
theorem State.numberByte_valueAt (s : State) (pa : Word) {n k : Nat} (h : k < n) :
    numberByte (s.valueAt pa n) k = s.mem.read (pa + BitVec.ofNat 32 k).toNat := by
  induction n with
  | zero => omega
  | succ n ih =>
    have hpos : 0 < 256 ^ k := by positivity
    rw [State.valueAt, numberByte]
    rcases Nat.lt_succ_iff_lt_or_eq.1 h with hk | rfl
    · obtain ⟨d, rfl⟩ := Nat.exists_eq_add_of_lt hk
      rw [← ih hk, numberByte, show 256 ^ (k + d + 1) = 256 ^ k * (256 * 256 ^ d) by ring, Nat.mul_assoc,
        Nat.add_mul_div_left _ _ hpos, Nat.mul_assoc]
      apply BitVec.eq_of_toNat_eq
      simp
    · rw [Nat.add_mul_div_left _ _ hpos, Nat.div_eq_of_lt (s.valueAt_lt pa k), Nat.zero_add, BitVec.ofNat_toNat,
        BitVec.setWidth_eq]

/-- A word read from memory has the bytes of memory (spec 20 R110). -/
theorem State.byteOf_valueAt (s : State) (pa : Word) {k : Nat} (h : k < 4) :
    byteOf (BitVec.ofNat 32 (s.valueAt pa 4)) k = s.mem.read (pa + BitVec.ofNat 32 k).toNat := by
  rw [byteOf_eq, BitVec.toNat_ofNat, Nat.mod_eq_of_lt (b := 2 ^ 32) (s.valueAt_lt pa 4), s.numberByte_valueAt pa h]

theorem byteOf_or (x y : Word) (k : Nat) : byteOf (x ||| y) k = byteOf x k ||| byteOf y k := BitVec.extractLsb'_or

theorem byteOf_and (x y : Word) (k : Nat) : byteOf (x &&& y) k = byteOf x k &&& byteOf y k := BitVec.extractLsb'_and

theorem byteOf_xor (x y : Word) (k : Nat) : byteOf (x ^^^ y) k = byteOf x k ^^^ byteOf y k := BitVec.extractLsb'_xor

theorem byteOf_not (x : Word) {k : Nat} (h : k < 4) : byteOf (~~~x) k = ~~~byteOf x k := by
  apply BitVec.eq_of_getLsbD_eq; intro i hi
  have hbit : 8 * k + i < 32 := by omega
  simp [byteOf, hi, hbit]

/-! ## Word stores to a peripheral register -/

theorem exec_sw_stores (s : State) (rt base : Reg) (offset : BitVec 16) :
    Stores (.sw rt base offset) s 4 .word (BitVec.ofInt 32 ((s.reg base).toNat + offset.toInt)) (s.reg rt) :=
  stores_of_storeTo (by rw [← add_sext]; rfl)

/-- Four bytes that are the bytes of a word store that word. -/
theorem stored_of_bytes {s t : State} {pa x : Word} {b : Nat → Byte} (h : StoredBytes s t pa 4 b)
    (hb : ∀ k < 4, byteOf x k = b k) : Stored s t pa 4 x.toNat :=
  ⟨fun k hk => by rw [h.1 k hk, ← hb k hk, byteOf_eq], h.2⟩

/-- A store to the word `pa` of a block of peripheral registers, by the place of the word (spec 20 R115, R119). -/
theorem storedAt_registers {s t : State} {pa v : Word} {r : Region} {clr set inv : BitVec 2}
    (hr : s.region pa = some r) (hk : r.kind = .registers clr set inv) (h : StoredAt s t pa 4 v.toNat) :
    let reg := pa &&& 0xFFFFFFF3
    let old := BitVec.ofNat 32 (s.valueAt reg 4)
    let slot := pa.extractLsb' 2 2
    if slot = 0 then Stored s t reg 4 v.toNat
    else if slot = set then Stored s t reg 4 (old ||| v).toNat
    else if slot = clr then Stored s t reg 4 (old &&& ~~~v).toNat
    else if slot = inv then Stored s t reg 4 (old ^^^ v).toNat
    else KeepsMemory s t [] := by
  intro reg old slot
  have hold : ∀ k < 4, byteOf old k = s.mem.read (reg + BitVec.ofNat 32 k).toNat := fun k => s.byteOf_valueAt reg
  simp only [StoredAt, hr, Option.map_some, hk] at h
  split_ifs at h ⊢
  · exact h
  · exact stored_of_bytes h fun k hk4 => by rw [byteOf_or, hold k hk4, byteOf_eq]
  · exact stored_of_bytes h fun k hk4 => by rw [byteOf_and, byteOf_not v hk4, hold k hk4, byteOf_eq]
  · exact stored_of_bytes h fun k hk4 => by rw [byteOf_xor, hold k hk4, byteOf_eq]
  · exact h

/-- Flash and a device ignore a store (log 37). -/
theorem storedAt_ignored {s t : State} {pa : Word} {n v : Nat} {r : Region} (hr : s.region pa = some r)
    (hk : r.kind = .rom ∨ r.kind = .device) (h : StoredAt s t pa n v) : KeepsMemory s t [] := by
  rcases hk with hk | hk <;> simpa only [StoredAt, hr, Option.map_some, hk] using h

/-- Settles O15: what SW stores, read word by word; the clauses are the branches of `storedAt_registers`. -/
theorem peripheralStores : Obligations.PeripheralStores := by
  intro s rt base offset r clr set inv va pa reg old v slot ha hw hr
  obtain ⟨t, he, hregs, hhilo, hsys, hgo, hst⟩ := (exec_sw_stores s rt base offset).1 ha hw
  refine ⟨t, he, hregs, hhilo, hsys, hgo, fun hk => ?_, fun hk => storedAt_ignored hr hk hst⟩
  have h := storedAt_registers hr hk hst
  refine ⟨fun h0 => ?_, fun h0 h1 => ?_, fun h0 h1 h2 => ?_, fun h0 h1 h2 h3 => ?_, fun h0 h1 h2 h3 => ?_⟩
  · exact (if_pos h0).mp h
  · rwa [if_neg h0, if_pos h1] at h
  · rwa [if_neg h0, if_neg h1, if_pos h2] at h
  · rwa [if_neg h0, if_neg h1, if_neg h2, if_pos h3] at h
  · rwa [if_neg h0, if_neg h1, if_neg h2, if_neg h3] at h

end Sys2Proof.Machine
end

section
/-! PROOFS. Fetches that give no instruction. -/

namespace Sys2Proof.Machine

/-! ## What a fetch answers -/

/-- A kernel address in User mode, as the fetch at `va` sees the mode (spec 20 R102, R122). -/
def ForbiddenFetch (s : State) (va : Word) : Prop := (s.fetchView va).userMode = true ∧ 0x80000000 ≤ va.toNat

/-- The bus answers the fetch at `va` (spec 20 R122). -/
def FetchAnswered (s : State) (va : Word) : Prop :=
  s.answers .fetch (s.fetchView va).userMode (translate (s.fetchView va) va) = true

/-- The check that both fetches make of their address. -/
theorem fetch_check_iff (s : State) (w : Width) (va : Word) :
    (misaligned w va || !allowed (s.fetchView va) va) = true ↔ va.toNat % w.bytes ≠ 0 ∨ ForbiddenFetch s va := by
  rw [Bool.or_eq_true, misaligned_iff, Bool.not_eq_true', allowed_iff]; rfl

theorem State.fetchWord_addressError {s : State} {va : Word} (h : va.toNat % 4 ≠ 0 ∨ ForbiddenFetch s va) :
    s.fetchWord va = .addressError va := if_pos ((fetch_check_iff s .word va).2 h)

theorem State.fetchHalf_addressError {s : State} {va : Word} (h : va.toNat % 2 ≠ 0 ∨ ForbiddenFetch s va) :
    s.fetchHalf va = .addressError va := if_pos ((fetch_check_iff s .half va).2 h)

theorem State.fetchWord_busError {s : State} {va : Word} (ha : va.toNat % 4 = 0) (hf : ¬ ForbiddenFetch s va)
    (hb : ¬ FetchAnswered s va) : s.fetchWord va = .busError :=
  (if_neg fun h => ((fetch_check_iff s .word va).1 h).elim (· ha) hf).trans (if_neg hb)

theorem State.fetchHalf_busError {s : State} {va : Word} (ha : va.toNat % 2 = 0) (hf : ¬ ForbiddenFetch s va)
    (hb : ¬ FetchAnswered s va) : s.fetchHalf va = .busError :=
  (if_neg fun h => ((fetch_check_iff s .half va).1 h).elim (· ha) hf).trans (if_neg hb)

theorem State.fetchHalf_ok_even {s : State} {va : Word} {h : Half} (hok : s.fetchHalf va = .ok h) :
    va.toNat % 2 = 0 := by
  by_contra hodd
  rw [State.fetchHalf_addressError (.inl hodd)] at hok
  cases hok

/-! ## What fetch and decoding give -/

/-- The access gives no bits. -/
def MemResult.Failed {α : Type} (m : MemResult α) : Prop := ∀ a, m ≠ .ok a

theorem failed_addressError {α : Type} (va : Word) : (.addressError va : MemResult α).Failed := nofun

theorem failed_busError {α : Type} : (.busError : MemResult α).Failed := nofun

theorem State.fetchDecode_word {s : State} (hm : s.isaMode = .mips32) {w : Word} (hw : s.fetchWord s.pc = .ok w) :
    s.fetchDecode = s.ofDecoded (decodeWord w) := by
  unfold State.fetchDecode; rw [hm]; dsimp only; rw [hw]

theorem State.fetchDecode_half {s : State} (hm : s.isaMode = .mips16) {h : Half} (hh : s.fetchHalf s.pc = .ok h)
    (h1 : hasSecondHalf h = false) : s.fetchDecode = s.ofDecoded (decodeHalf h) := by
  unfold State.fetchDecode; rw [hm]; dsimp only; rw [hh]; dsimp only; rw [h1]; rfl

theorem State.fetchDecode_pair {s : State} (hm : s.isaMode = .mips16) {h h2 : Half} (hh : s.fetchHalf s.pc = .ok h)
    (h1 : hasSecondHalf h = true) (hh2 : s.fetchHalf (s.pc + 2) = .ok h2) :
    s.fetchDecode = s.ofDecoded (decodePair h h2) := by
  unfold State.fetchDecode; rw [hm]; dsimp only; rw [hh]; dsimp only; rw [if_pos h1, hh2]

theorem State.fetchDecode_word_failed {s : State} (hm : s.isaMode = .mips32) {m : MemResult Word}
    (hw : s.fetchWord s.pc = m) (hf : m.Failed) : s.fetchDecode = .stop (s.fetchFailed m) := by
  unfold State.fetchDecode; rw [hm]; dsimp only; rw [hw]
  cases m with
  | ok w => exact absurd rfl (hf w)
  | addressError | busError | dseg => rfl

theorem State.fetchDecode_half_failed {s : State} (hm : s.isaMode = .mips16) {m : MemResult Half}
    (hh : s.fetchHalf s.pc = m) (hf : m.Failed) : s.fetchDecode = .stop (s.fetchFailed m) := by
  unfold State.fetchDecode; rw [hm]; dsimp only; rw [hh]
  cases m with
  | ok h => exact absurd rfl (hf h)
  | addressError | busError | dseg => rfl

theorem State.fetchDecode_pair_failed {s : State} (hm : s.isaMode = .mips16) {h : Half} (hh : s.fetchHalf s.pc = .ok h)
    (h1 : hasSecondHalf h = true) {m : MemResult Half} (hh2 : s.fetchHalf (s.pc + 2) = m) (hf : m.Failed) :
    s.fetchDecode = .stop (s.fetchFailed m) := by
  unfold State.fetchDecode; rw [hm]; dsimp only; rw [hh]; dsimp only; rw [if_pos h1, hh2]
  cases m with
  | ok h => exact absurd rfl (hf h)
  | addressError | busError | dseg => rfl

/-! ## What the step does then -/

/-- The step from `s` takes exception `e` in the state of its instruction, and no register, HI, LO or byte of memory changes. -/
def StepTakes (s : State) (e : Exc) : Prop :=
  ∃ t, step s = .next t ∧ Entered s.ready t e ∧ KeepsRegs s.ready t [] ∧ KeepsHiLo s.ready t ∧ KeepsMemory s.ready t []

/-- The fetch of the step from `s` ends in a bus error: the exception is taken, or held pending under DEBUG.IEXI (spec 60 R614, 10 R75; log 27). -/
def StepFetchBusError (s : State) : Prop :=
  (s.ready.cp0.debugReg.iexi = false → StepTakes s .ibe) ∧
  (s.ready.cp0.debugReg.iexi = true → step s = .next { s.ready with
    cp0 := { s.ready.cp0 with debugReg := { s.ready.cp0.debugReg with ibusep := true } } })

section
variable {s : State} (he : s.event = none)
include he

theorem step_of_stop {r : Result} (hf : s.ready.fetchDecode = .stop r) : step s = r := by
  unfold step; rw [he, hf]

variable (hd : s.ready.cp0.debugReg.dm = false)
include hd

theorem stepTakes_of_raise {e : Exc} (hf : s.ready.fetchDecode = .stop (.next (s.ready.raise e))) : StepTakes s e := by
  rw [State.raise_eq hd] at hf
  exact ⟨_, step_of_stop he hf, State.takeException_entered _ _, keepsRegs_of_gpr (by simp) _,
    ⟨by simp, by simp, by simp⟩, keepsMemory_of_mem (by simp) _⟩

theorem stepFetchBusError_of_fetch (hf : s.ready.fetchDecode = .stop s.ready.fetchBusError) : StepFetchBusError s := by
  refine ⟨fun hi => stepTakes_of_raise he hd (hf.trans (congrArg Fetched.stop ?_)), fun hi => (step_of_stop he hf).trans ?_⟩
  · rw [State.fetchBusError, hi]; rfl
  · exact if_pos hi

/-- The outcomes of a step whose bits decode to no instruction (spec 30 R166, R167, 44 R417, 45 R448, R527). -/
theorem step_of_decoded {d : Decoded} (hf : s.ready.fetchDecode = s.ready.ofDecoded d) :
    (d = .reserved → StepTakes s .ri) ∧
    (d = .reservedCop0 → (s.ready.view .coprocessor).cop0Usable = false → StepTakes s (.cpu 0)) ∧
    (d = .reservedCop0 → (s.ready.view .coprocessor).cop0Usable = true → StepTakes s .ri) ∧
    (d = .nonzeroField → step s = .refused .nonzeroField) ∧
    (d = .notExtensible → step s = .refused .notExtensible) := by
  refine ⟨?reserved, ?unusable, ?usable, ?nonzeroField, ?notExtensible⟩
  case reserved => rintro rfl; exact stepTakes_of_raise he hd hf
  case unusable =>
    rintro rfl hu
    refine stepTakes_of_raise he hd (hf.trans (congrArg Fetched.stop ?_))
    rw [State.needCop0, hu]; rfl
  case usable =>
    rintro rfl hu
    exact stepTakes_of_raise he hd (hf.trans (congrArg Fetched.stop (if_pos hu)))
  case nonzeroField => rintro rfl; exact step_of_stop he hf
  case notExtensible => rintro rfl; exact step_of_stop he hf

/-! ### In MIPS32 mode -/

theorem stepTakes_of_fetchWord (hm : s.ready.isaMode = .mips32)
    (h : s.ready.pc.toNat % 4 ≠ 0 ∨ ForbiddenFetch s.ready s.ready.pc) : StepTakes s (.adEL s.ready.pc) :=
  stepTakes_of_raise he hd
    (State.fetchDecode_word_failed hm (State.fetchWord_addressError h) (failed_addressError _))

theorem stepFetchBusError_of_fetchWord (hm : s.ready.isaMode = .mips32) (ha : s.ready.pc.toNat % 4 = 0)
    (hf : ¬ ForbiddenFetch s.ready s.ready.pc) (hb : ¬ FetchAnswered s.ready s.ready.pc) : StepFetchBusError s :=
  stepFetchBusError_of_fetch he hd
    (State.fetchDecode_word_failed hm (State.fetchWord_busError ha hf hb) failed_busError)

/-! ### In MIPS16e mode -/

theorem stepTakes_of_fetchHalf (hm : s.ready.isaMode = .mips16)
    (h : s.ready.pc.toNat % 2 ≠ 0 ∨ ForbiddenFetch s.ready s.ready.pc) : StepTakes s (.adEL s.ready.pc) :=
  stepTakes_of_raise he hd
    (State.fetchDecode_half_failed hm (State.fetchHalf_addressError h) (failed_addressError _))

theorem stepFetchBusError_of_fetchHalf (hm : s.ready.isaMode = .mips16) (ha : s.ready.pc.toNat % 2 = 0)
    (hf : ¬ ForbiddenFetch s.ready s.ready.pc) (hb : ¬ FetchAnswered s.ready s.ready.pc) : StepFetchBusError s :=
  stepFetchBusError_of_fetch he hd
    (State.fetchDecode_half_failed hm (State.fetchHalf_busError ha hf hb) failed_busError)

/-! ### At the second halfword of a pair -/

variable (hm : s.ready.isaMode = .mips16) {h : Half} (hh : s.ready.fetchHalf s.ready.pc = .ok h)
  (h1 : hasSecondHalf h = true)
include hm hh h1

theorem stepTakes_of_second (hf : ForbiddenFetch s.ready (s.ready.pc + 2)) : StepTakes s (.adEL (s.ready.pc + 2)) :=
  stepTakes_of_raise he hd
    (State.fetchDecode_pair_failed hm hh h1 (State.fetchHalf_addressError (.inr hf)) (failed_addressError _))

/-- The second halfword is aligned, since the first was fetched. -/
theorem stepFetchBusError_of_second (hf : ¬ ForbiddenFetch s.ready (s.ready.pc + 2))
    (hb : ¬ FetchAnswered s.ready (s.ready.pc + 2)) : StepFetchBusError s := by
  have hpc := State.fetchHalf_ok_even hh
  have ha : (s.ready.pc + 2).toNat % 2 = 0 := by bv_omega
  exact stepFetchBusError_of_fetch he hd
    (State.fetchDecode_pair_failed hm hh h1 (State.fetchHalf_busError ha hf hb) failed_busError)

end

/-- Settles O50: at each of the three fetches the check of the address, the answer of the bus and the decoding. -/
theorem fetchFaults : Obligations.FetchFaults := by
  intro s w h h2 r takes forbidden unanswered he hd
  refine ⟨fun hm => ⟨?_, ?_, fun hw => ?_⟩, fun hm => ⟨?_, ?_, fun hh h1 => ?_, fun hh h1 => ⟨?_, ?_, fun hh2 => ?_⟩⟩⟩
  · exact stepTakes_of_fetchWord he hd hm
  · exact fun ha hf hb => stepFetchBusError_of_fetchWord he hd hm ha hf (Bool.eq_false_iff.1 hb)
  · obtain ⟨hri, hcpu, hri0, hzero, -⟩ := step_of_decoded he hd (State.fetchDecode_word hm hw)
    exact ⟨hri, hcpu, hri0, hzero⟩
  · exact stepTakes_of_fetchHalf he hd hm
  · exact fun ha hf hb => stepFetchBusError_of_fetchHalf he hd hm ha hf (Bool.eq_false_iff.1 hb)
  · obtain ⟨hri, -, -, hzero, -⟩ := step_of_decoded he hd (State.fetchDecode_half hm hh h1)
    exact ⟨hri, hzero⟩
  · exact stepTakes_of_second he hd hm hh h1
  · exact fun hf hb => stepFetchBusError_of_second he hd hm hh h1 hf (Bool.eq_false_iff.1 hb)
  · obtain ⟨hri, -, -, hzero, hext⟩ := step_of_decoded he hd (State.fetchDecode_pair hm hh h1 hh2)
    exact ⟨hri, hext, hzero⟩

end Sys2Proof.Machine
end

section
/-! PROOFS. Decoding gives back what was encoded, and so reads the words that the spec writes out. -/

namespace Sys2Proof.Laws.RoundTrip

open Sys2Proof

/-- The round trip of every instruction: one lemma for each constructor, in the order of `Instr`. -/
theorem roundTrip (i : Instr) : Statement i :=
  Instr.casesOn i
    -- no operation
    nop ssnop ehb
    -- loads and stores
    lb lbu lh lhu lw lwl lwr sb sh sw swl swr ll sc pref cache lwc1 lwc2 ldc1 ldc2 swc1 swc2 sdc1 sdc2
    -- arithmetic and logic
    add addu sub subu slt sltu and or xor nor addi addiu slti sltiu andi ori xori lui
    sll srl sra rotr sllv srlv srav rotrv
    mult multu div divu madd maddu msub msubu mul mfhi mflo mthi mtlo
    clz clo ext ins seb seh wsbh
    -- jumps and branches
    j jal jalx jr jrHb jalr jalrHb
    beq bne beql bnel blez bgtz blezl bgtzl bltz bgez bltzl bgezl bltzal bgezal bltzall bgezall
    -- barriers, traps, conditional moves, RDHWR and WAIT
    sync synci syscall break_ sdbbp tge tgeu tlt tltu teq tne tgei tgeiu tlti tltiu teqi tnei movz movn rdhwr wait
    -- coprocessors
    mfc0 mtc0 rdpgpr wrpgpr di ei eret deret tlbr tlbwi tlbwr tlbp cop1 cop2 cop1x movci
    -- MIPS16e
    m16Extend m16Addiusp m16Addiupc m16B m16Jal m16Jalx m16Beqz m16Bnez m16Sll m16Srl m16Sra
    m16Addiu m16Addiu8 m16Slti m16Sltiu m16Bteqz m16Btnez m16Swrasp m16Adjsp m16Save m16Restore
    m16Mov32r m16Movr32 m16Li m16Cmpi m16Lb m16Lh m16Lwsp m16Lw m16Lbu m16Lhu m16Lwpc m16Sb m16Sh m16Swsp m16Sw
    m16Addu m16Subu m16Jr m16Jalr m16Jrc m16Jalrc m16JrRa m16JrcRa m16Sdbbp m16Break m16Slt m16Sltu
    m16Cmp m16Neg m16And m16Or m16Xor m16Not m16Mult m16Multu m16Div m16Divu m16Sllv m16Srlv m16Srav
    m16Mfhi m16Mflo m16Zeb m16Zeh m16Seb m16Seh m16Nop

end Sys2Proof.Laws.RoundTrip

namespace Sys2Proof.Machine

/-- Settles O59: the round trip of every instruction. -/
theorem decodeEncode : Obligations.DecodeEncode := Laws.RoundTrip.roundTrip

/-! ## Bits that are the encoding of an instruction read as it -/

theorem reads_of_eq_encode {w : Word} {i : Instr}
    (h : i.WellFormed = true ∧ encode i = .word (Fields.ofWord w)) : Reads w i :=
  reads_of_encode (decodeEncode i) h.1 h.2 rfl

theorem reads16_of_eq_encode {w : Half} {i : Instr}
    (h : i.WellFormed = true ∧ encode i = .half (Halfword.ofHalf w)) : Reads16 w i :=
  reads16_of_encode (decodeEncode i) h.1 h.2 rfl

theorem readsPair_of_eq_encode {v w : Half} {i : Instr}
    (h : i.WellFormed = true ∧ encode i = .pair (Halfword.ofHalf v) (Halfword.ofHalf w)) : ReadsPair v w i := by
  obtain ⟨hw, he⟩ := h
  have hd := decodeEncode i hw
  rw [he, Encoded.decode, Halfword.toHalf_ofHalf, Halfword.toHalf_ofHalf] at hd
  split at hd
  case isTrue h2 => exact ⟨h2, hd⟩
  case isFalse => cases hd

/-- Settles O58: each word is the encoding of its instruction, which decoding gives back. -/
theorem decodesSpecWords : Obligations.DecodesSpecWords := by
  unfold Obligations.DecodesSpecWords
  refine ⟨?_, ?_, ?_, ?_, ?_, ?_, ?_, ?_, ?_, ?_, ?_, ?_, ?_, ?_, ?_, ?_, ?_, ?addu, ?mov32r, ?save, ?jal, ?addiu8, ?sll,
    ?_, ?_, ?_, ?_, ?_, ?_, ?_, ?_, ?_, ?_, ?_, ?_, ?_, ?_, ?_⟩
  case addu | mov32r | save => exact reads16_of_eq_encode (by decide)
  case jal | addiu8 | sll => exact readsPair_of_eq_encode (by decide)
  all_goals exact reads_of_eq_encode (by decide)

end Sys2Proof.Machine
end

section
/-! PROOFS. Loads, stores and the instructions of absent coprocessors. -/

namespace Sys2Proof.Machine

/-! ## Words of an instruction's format -/

/-- A word with only a primary opcode, and the operands of format I (spec 30 R152). -/
theorem Fields.ofWord_iWord_op (op : BitVec 6) (rs rt : Reg) (imm : BitVec 16) :
    Fields.ofWord (iWord (op ++ 0#26) rs rt imm) = Fields.ofImm op rs rt imm := by
  have hop : (op ++ 0#26).extractLsb' 26 6 = op := BitVec.extractLsb'_append_eq_left
  have hlow : ∀ start len, start + len ≤ 26 → (op ++ 0#26).extractLsb' start len = 0#len := fun start len h => by
    rw [BitVec.extractLsb'_append_eq_of_add_le h, BitVec.extractLsb'_zero]
  rw [Fields.ofWord_iWord, hop, hlow 21 5 (by decide), hlow 16 5 (by decide), hlow 0 16 (by decide), BitVec.zero_or,
    BitVec.zero_or, BitVec.zero_or]

/-- A word with only a primary opcode, and an index (spec 30 R152). -/
theorem Fields.ofWord_jWord_op (op : BitVec 6) (index : BitVec 26) :
    Fields.ofWord (jWord (op ++ 0#26) index) = Fields.ofIndex op index := by
  have hop : (op ++ 0#26).extractLsb' 26 6 = op := BitVec.extractLsb'_append_eq_left
  have hindex : (op ++ 0#26).extractLsb' 0 26 = 0#26 := BitVec.extractLsb'_append_eq_right
  rw [Fields.ofWord_jWord, hop, hindex, BitVec.zero_or]

theorem reads_iWord {m : Word} {op : BitVec 6} {rs rt : Reg} {imm : BitVec 16} {i : Instr} (hw : i.WellFormed = true)
    (he : encode i = .word (Fields.ofImm op rs rt imm)) (hm : m = op ++ 0#26) : Reads (iWord m rs rt imm) i :=
  reads_of_encode (decodeEncode i) hw he (by rw [hm, Fields.ofWord_iWord_op])

theorem reads_jWord {m : Word} {op : BitVec 6} {index : BitVec 26} {i : Instr} (hw : i.WellFormed = true)
    (he : encode i = .word (Fields.ofIndex op index)) (hm : m = op ++ 0#26) : Reads (jWord m index) i :=
  reads_of_encode (decodeEncode i) hw he (by rw [hm, Fields.ofWord_jWord_op])

/-! ## PREF and CACHE -/

theorem needCop0_usable {s : State} {use : Consumer} (h : (s.view use).cop0Usable = true) (k : Result) :
    s.needCop0 use k = k := if_pos h

theorem needsCop0_of_needCop0 {i : Instr} {s : State} {use : Consumer} {k : Result} (h : exec i s = s.needCop0 use k) :
    NeedsCop0 i s use := fun hu hd =>
  raises_of_raise (h.trans (if_neg (Bool.eq_false_iff.1 hu))) hd

/-- Settles O17: PREF only advances, and so does CACHE behind the check of coprocessor 0. -/
theorem prefetchAndCache : Obligations.PrefetchAndCache := by
  intro s hint base offset
  refine ⟨reads_iWord rfl rfl rfl, doesNothing_of_advance rfl, reads_iWord rfl rfl rfl, fun hu => ?_,
    needsCop0_of_needCop0 rfl⟩
  exact doesNothing_of_advance (needCop0_usable hu _)

/-! ## Absent coprocessors -/

theorem raises_of_unusable {i : Instr} {s : State} {n : BitVec 2} (h : exec i s = s.unusable n)
    (hd : s.cp0.debugReg.dm = false) : Raises i s (.cpu n) := raises_of_raise h hd

/-- A floating-point encoding takes one of its two exceptions (spec 44 R412, R413; log 14). -/
theorem raises_of_absentFloat {i : Instr} {s : State} (h : exec i s = s.absentFloat)
    (hd : s.cp0.debugReg.dm = false) : Raises i s .ri ∨ Raises i s (.cpu 1) := by
  unfold State.absentFloat at h
  split at h
  · exact .inl (raises_of_raise h hd)
  · exact .inr (raises_of_raise h hd)

theorem reads_movci (operands : BitVec 20) : Reads (codeWord 0x00000001 operands) (.movci operands) := by
  have hcode : (0x00000001 : Word).extractLsb' 6 20 = 0#20 := by decide
  refine reads_of_encode (decodeEncode _) rfl rfl ?_
  rw [Fields.ofWord_codeWord, hcode, BitVec.zero_or]
  rfl

/-- Settles O18: each instruction raises the exception of its coprocessor, whatever its operands. -/
theorem absentCoprocessors : Obligations.AbsentCoprocessors := by
  intro s rt base offset f operands
  refine ⟨reads_iWord rfl rfl rfl, reads_iWord rfl rfl rfl, reads_iWord rfl rfl rfl, reads_iWord rfl rfl rfl,
    reads_iWord rfl rfl rfl, reads_iWord rfl rfl rfl, reads_iWord rfl rfl rfl, reads_iWord rfl rfl rfl,
    reads_jWord rfl rfl rfl, reads_jWord rfl rfl rfl, reads_jWord rfl rfl rfl, reads_movci operands,
    fun hd => ⟨?one, ?two, ?float⟩⟩
  case one | two =>
    simp only [List.forall_mem_cons]
    exact ⟨raises_of_unusable rfl hd, raises_of_unusable rfl hd, raises_of_unusable rfl hd, raises_of_unusable rfl hd,
      raises_of_unusable rfl hd, nofun⟩
  case float =>
    simp only [List.forall_mem_cons]
    exact ⟨raises_of_absentFloat rfl hd, raises_of_absentFloat rfl hd, nofun⟩

/-! ## Aligned loads and stores -/

/-- An access that passes the address check is aligned, so its bytes lie in one aligned word (spec 20 R112). -/
theorem Accessible.fits {s : State} {k : Access} {w : Width} {va : Word} (h : Accessible s k w va) :
    (dataAddress s.seen w va).toNat % 4 + w.bytes ≤ 4 :=
  dataAddress_fits _ w va (not_not.1 fun hn => h.1 (.inl hn))

theorem signByte_ofNat {n : Nat} (h : n < 256) : signByte (BitVec.ofNat 32 n) = signedValue n 1 := by
  rw [sign_byte_eq, BitVec.toNat_ofNat, Nat.mod_eq_of_lt (b := 2 ^ 32) (by omega), Nat.mod_eq_of_lt h]

theorem signHalf_ofNat {n : Nat} (h : n < 65536) : signHalf (BitVec.ofNat 32 n) = signedValue n 2 := by
  rw [sign_half_eq, BitVec.toNat_ofNat, Nat.mod_eq_of_lt (b := 2 ^ 32) (by omega), Nat.mod_eq_of_lt h]

/-- Settles O11: every load is `State.loadTo`; what differs is the width and the extension of the value read. -/
theorem alignedLoads : Obligations.AlignedLoads := by
  intro s rt base offset
  rw [← add_sext]
  intro va value
  refine ⟨reads_iWord rfl rfl rfl, ?lb, reads_iWord rfl rfl rfl, ?lbu, reads_iWord rfl rfl rfl, ?lh,
    reads_iWord rfl rfl rfl, ?lhu, reads_iWord rfl rfl rfl, ?lw⟩
  case lb => exact loads_of_loadTo rfl (signByte_ofNat (s.valueAt_lt _ 1))
  case lh => exact loads_of_loadTo rfl (signHalf_ofNat (s.valueAt_lt _ 2))
  case lbu | lhu | lw => exact loads_of_loadTo rfl rfl

/-- Settles O13: every store is `State.storeTo`; what differs is the width. -/
theorem alignedStores : Obligations.AlignedStores := by
  intro s rt base offset va
  have hva : va = s.reg base + sext offset := (add_sext _ _).symm
  refine ⟨reads_iWord rfl rfl rfl, stores_of_storeTo ?sb, reads_iWord rfl rfl rfl, stores_of_storeTo ?sh,
    reads_iWord rfl rfl rfl, exec_sw_stores s rt base offset⟩
  case sb | sh => rw [hva]; rfl

/-! ## Unaligned loads and stores -/

/-- Settles O12: the merge of `merge_left_eq` and `merge_right_eq`, applied to the aligned word. -/
theorem unalignedLoads : Obligations.UnalignedLoads := by
  intro s rt base offset
  rw [← add_sext]
  intro va w b old
  have hb : b < 4 := byteIndex_lt s va
  have hw : (BitVec.ofNat 32 w).toNat = w := BitVec.toNat_ofNat .. |>.trans (Nat.mod_eq_of_lt (s.valueAt_lt _ 4))
  refine ⟨reads_iWord rfl rfl rfl, partialLoads_of_loadTo rfl ?lwl, reads_iWord rfl rfl rfl,
    partialLoads_of_loadTo rfl ?lwr⟩
  case lwl => rw [partialByte_eq, merge_left_eq _ _ hb, hw]
  case lwr => rw [partialByte_eq, merge_right_eq _ _ hb, hw]

theorem leftBytes_length (v : Word) {b : Nat} (h : b < 4) : (leftBytes v b).length = b + 1 := by
  rw [leftBytes, List.length_drop, storedBytes_length, Width.bytes]; omega

theorem rightBytes_length (v : Word) (b : Nat) : (rightBytes v b).length = 4 - b := by
  rw [rightBytes, List.length_take, storedBytes_length, Width.bytes]; omega

/-- The bytes that SWL stores are the low bytes of the register shifted right (spec 40 R209). -/
theorem leftBytes_getD (v : Word) {b k : Nat} (hb : b < 4) (hk : k < b + 1) :
    (leftBytes v b).getD k 0 = numberByte (v.toNat / 256 ^ (3 - b)) k := by
  have hbyte := storedBytes_getD .word v (3 - b + k) (by simp only [Width.bytes]; omega)
  rw [leftBytes, List.getD_eq_getElem?_getD, List.getElem?_drop, ← List.getD_eq_getElem?_getD, hbyte, numberByte,
    numberByte, Nat.div_div_eq_div_mul, ← pow_add]

/-- The bytes that SWR stores are the low bytes of the register (spec 40 R210). -/
theorem rightBytes_getD (v : Word) {b k : Nat} (hk : k < 4 - b) : (rightBytes v b).getD k 0 = numberByte v.toNat k := by
  have hbyte := storedBytes_getD .word v k (by simp only [Width.bytes]; omega)
  rw [rightBytes, List.getD_eq_getElem?_getD, List.getElem?_take_of_lt hk, ← List.getD_eq_getElem?_getD, hbyte]

/-- Settles O14: both stores stay inside the aligned word, and their bytes are those of the register. -/
theorem unalignedStores : Obligations.UnalignedStores := by
  intro s rt base offset
  rw [← add_sext]
  intro va b
  have hb : b < 4 := byteIndex_lt s va
  have hal : (wordAt s va).toNat % 4 = 0 := wordAt_aligned s va
  refine ⟨reads_iWord rfl rfl rfl, ?swl, reads_iWord rfl rfl rfl, ?swr⟩
  case swl =>
    exact partialStores_of_storeTo rfl (leftBytes_length _ hb) rfl (by omega) fun k => leftBytes_getD _ hb
  case swr =>
    have hpa : (wordAt s va + BitVec.ofNat 32 b).toNat = (wordAt s va).toNat + b := toNat_add_small _ b (by omega)
    exact partialStores_of_storeTo rfl (rightBytes_length _ b) rfl (by omega) fun k => rightBytes_getD _

/-! ## LL and SC -/

/-- `i` completes with `v` in `rt` and `bit` in LLbit, and besides them only memory may change: the clause `ends` of the obligation (spec 40 R211, R212). -/
def EndsWithLlbit (i : Instr) (s t : State) (rt : Reg) (v : Word) (bit : Bool) : Prop :=
  exec i s = .next t ∧ t.reg rt = (if rt = 0 then 0 else v) ∧ KeepsRegs s t [rt] ∧ KeepsHiLo s t ∧ t.llbit = bit ∧
    t.cp0 = s.cp0 ∧ KeepsOutside s t ∧ KeepsHazards s t ∧ GoesOn s t 4

/-- A register result in a state that differs from `s` in LLbit and memory only. -/
theorem endsWithLlbit_of_result {i : Instr} {s : State} {rt : Reg} {v : Word} {bit : Bool} {m : Memory}
    {st : List StaleStore}
    (h : exec i s = State.result { s with llbit := bit, mem := m, stale := st } 4 rt v) :
    ∃ t, EndsWithLlbit i s t rt v bit ∧ t.mem = m := by
  obtain ⟨t, ht, hv, ⟨hregs, hhilo, -, ⟨hcp0, hbit, hout, hhaz⟩, -⟩, hgo⟩ :=
    State.result_spec { s with llbit := bit, mem := m, stale := st } 4 rt v
  refine ⟨t, ⟨h.trans ht, hv, hregs, hhilo, hbit, hcp0, hout, hhaz, hgo⟩, ?_⟩
  cases ht
  simp

theorem State.write_withLlbit (s : State) (r : Reg) (v : Word) (b : Bool) :
    { s.write r v with llbit := b } = State.write { s with llbit := b } r v := by
  unfold State.write State.writeSet; split <;> rfl

theorem State.write_holdBusError (s : State) (r : Reg) (v : Word) :
    (s.write r v).holdBusError = s.holdBusError.write r v := by
  unfold State.write State.writeSet; split <;> rfl

/-- A bus error held pending, after which a register and LLbit may have changed (spec 10 R75; log 27). -/
theorem holdsBusError_of_result {i : Instr} {s : State} {len : Word} {r : Reg} {v : Word} {bit : Bool}
    (h : exec i s = State.result { s.holdBusError with llbit := bit } len r v) : HoldsBusError i s len [r] := by
  obtain ⟨t, ht, -, ⟨hregs, hhilo, hmem, ⟨hcp0, -, hout, hhaz⟩, -⟩, hgo⟩ :=
    State.result_spec { s.holdBusError with llbit := bit } len r v
  exact ⟨t, h.trans ht, hcp0, hregs, hhilo, hmem, hout, hhaz, hgo⟩

theorem State.dataBusError_held {s : State} (h : s.cp0.debugReg.iexi = true) (k : State → Result) :
    s.dataBusError k = k s.holdBusError := if_pos h

/-! ### LL, by what its access answers (spec 40 R211) -/

section
variable {s : State} {base : Reg} {offset : BitVec 16} (rt : Reg)

theorem exec_ll : exec (.ll rt base offset) s = s.loadWith rt (s.memRead .word (s.reg base + sext offset)) id
    (fun t => { t with llbit := true }.done 4) fun t => { t with llbit := t.freeBit .llbit }.done 4 := rfl

theorem exec_ll_ok {w : Word} (h : s.memRead .word (s.reg base + sext offset) = .ok w) :
    exec (.ll rt base offset) s = State.result { s with llbit := true } 4 rt w := by
  rw [exec_ll, h, State.result, ← State.write_withLlbit]; rfl

theorem exec_ll_addressError {va : Word} (h : s.memRead .word (s.reg base + sext offset) = .addressError va) :
    exec (.ll rt base offset) s = .next (s.raise (.adEL va)) := by
  rw [exec_ll, h]; rfl

theorem exec_ll_busError (h : s.memRead .word (s.reg base + sext offset) = .busError) :
    exec (.ll rt base offset) s =
      (s.freeLoaded rt).dataBusError fun t => { t with llbit := t.freeBit .llbit }.done 4 := by
  rw [exec_ll, h]; rfl

theorem exec_ll_held (h : s.memRead .word (s.reg base + sext offset) = .busError) (hi : s.cp0.debugReg.iexi = true) :
    ∃ bit v, exec (.ll rt base offset) s = State.result { s.holdBusError with llbit := bit } 4 rt v := by
  rw [exec_ll_busError rt h, State.dataBusError_held (by simpa using hi), State.freeLoaded, State.write_holdBusError]
  exact ⟨_, _, congrArg (·.done 4) (State.write_withLlbit ..)⟩

theorem exec_ll_dseg (h : s.memRead .word (s.reg base + sext offset) = .dseg) :
    exec (.ll rt base offset) s = .refused .dsegAccess := by
  rw [exec_ll, h]; rfl

/-! ### SC, by its address, LLbit and what its access answers (spec 40 R212) -/

theorem exec_sc_addressError (h : AddressError s .word (s.reg base + sext offset)) :
    exec (.sc rt base offset) s = .next (s.raise (.adES (s.reg base + sext offset))) :=
  if_pos ((addressError_iff ..).1 h)

theorem exec_sc_unlinked (h : ¬ AddressError s .word (s.reg base + sext offset)) (hl : s.llbit = false) :
    exec (.sc rt base offset) s = State.result { s with llbit := false } 4 rt 0 :=
  (if_neg fun hc => h ((addressError_iff ..).2 hc)).trans (if_neg (Bool.eq_false_iff.1 hl))

theorem exec_sc_linked (h : ¬ AddressError s .word (s.reg base + sext offset)) (hl : s.llbit = true) :
    exec (.sc rt base offset) s = s.storeWith (s.memWrite .word (s.reg base + sext offset) (s.reg rt))
      (fun t => (State.write { t with llbit := false } rt 1).done 4)
      fun t => (State.freeLoaded { t with llbit := t.freeBit .llbit } rt).done 4 :=
  (if_neg fun hc => h ((addressError_iff ..).2 hc)).trans (if_pos hl)

theorem exec_sc_busError (h : BusError s .store .word (s.reg base + sext offset)) (hl : s.llbit = true) :
    exec (.sc rt base offset) s =
      s.dataBusError fun t => (State.freeLoaded { t with llbit := t.freeBit .llbit } rt).done 4 := by
  rw [exec_sc_linked rt h.1 hl, State.memWrite_busError h]; rfl

theorem exec_sc_held (h : BusError s .store .word (s.reg base + sext offset)) (hl : s.llbit = true)
    (hi : s.cp0.debugReg.iexi = true) :
    ∃ bit v, exec (.sc rt base offset) s = State.result { s.holdBusError with llbit := bit } 4 rt v :=
  ⟨_, _, (exec_sc_busError rt h hl).trans (State.dataBusError_held hi _)⟩

end

/-- A successful SC stores the word, sets `rt` to 1 and clears LLbit (spec 40 R212). -/
theorem sc_stores {s : State} {base : Reg} {offset : BitVec 16} (rt : Reg)
    (ha : Accessible s .store .word (s.reg base + sext offset)) (hl : s.llbit = true) (hw : s.mem.wf) :
    ∃ t, EndsWithLlbit (.sc rt base offset) s t rt 1 false ∧
      StoredAt s t (dataAddress s.seen .word (s.reg base + sext offset)) 4 (s.reg rt).toNat := by
  have hex := exec_sc_linked rt ha.1 hl
  rw [State.memWrite_ok ha] at hex
  obtain ⟨t, ht, hm⟩ := endsWithLlbit_of_result hex
  exact ⟨t, ht, storedAt_of_storeBytes hw hm ha.fits fun k => storedBytes_getD .word _ k⟩

/-- Settles O16: LL and SC by the outcomes of their checks and of the access. -/
theorem linkedLoadStore : Obligations.LinkedLoadStore := by
  intro s rt base offset
  rw [← add_sext]
  intro va pa ll sc ends held
  refine ⟨reads_iWord rfl rfl rfl, fun ha => ?llLoads, fun ha => ?llAddress, fun hb ht => ?llRaises,
    fun hb hi => ?llHolds, fun hg => exec_ll_dseg rt (State.memRead_dseg hg), reads_iWord rfl rfl rfl,
    sc_stores rt, fun ha hl => ?scFails, fun ha => ?scAddress, fun hb hl ht => ?scRaises, fun hb hl hi => ?scHolds,
    fun hg hl => ?scDseg⟩
  case llLoads =>
    obtain ⟨t, ht, hm⟩ := endsWithLlbit_of_result (exec_ll_ok rt (State.memRead_ok ha))
    exact ⟨t, _, ht, keepsMemory_of_mem hm _, fun hr => State.busValue_eq hr ha.fits⟩
  case llAddress => exact raises_of_raise (exec_ll_addressError rt (State.memRead_addressError ha))
  case llRaises => exact raisesBusError_of_faulted ht (exec_ll_busError rt (State.memRead_busError hb))
  case llHolds =>
    obtain ⟨bit, v, h⟩ := exec_ll_held rt (State.memRead_busError hb) hi
    exact holdsBusError_of_result h
  case scFails =>
    obtain ⟨t, ht, hm⟩ := endsWithLlbit_of_result (exec_sc_unlinked rt ha hl)
    exact ⟨t, ht, keepsMemory_of_mem hm _⟩
  case scAddress => exact raises_of_raise (exec_sc_addressError rt ha)
  case scRaises => exact raisesBusError_of_same ht (exec_sc_busError rt hb hl) _
  case scHolds =>
    obtain ⟨bit, v, h⟩ := exec_sc_held rt hb hl hi
    exact holdsBusError_of_result h
  case scDseg => exact (exec_sc_linked rt hg.1 hl).trans (by rw [State.memWrite_dseg hg]; rfl)

end Sys2Proof.Machine
end

section
/-! PROOFS. The computational instructions with a result in a general register. -/

namespace Sys2Proof.Machine

/-! ## Words of format R -/

/-- The fields of a word of format R, where its row may fix a number in the place of `rs` or of `sa` (spec 30 R152). -/
theorem Fields.ofWord_rWord_op {m : Word} {op fn : BitVec 6} {fixedRs fixedSa : BitVec 5}
    (hm : Fields.ofWord m = ⟨op, fixedRs, 0, 0, fixedSa, fn⟩) (rs rt rd sa : Reg) :
    Fields.ofWord (rWord m rs rt rd sa) = ⟨op, fixedRs ||| rs, rt, rd, fixedSa ||| sa, fn⟩ := by
  simp only [Fields.ofWord, Fields.mk.injEq] at hm
  obtain ⟨hop, hrs, hrt, hrd, hsa, hfn⟩ := hm
  rw [Fields.ofWord_rWord, hop, hrs, hrt, hrd, hsa, hfn]
  simp only [BitVec.ofNat_eq_ofNat, BitVec.zero_or]

/-- A row with a number in the place of `rs` (ROTR) or of `sa` (ROTRV, SEB, SEH, WSBH) (spec 41 R267, R268, R286, R287, R291). -/
theorem reads_rWord_fixed {m : Word} {op fn : BitVec 6} {fixedRs fixedSa : BitVec 5} {rs rt rd sa rs' sa' : Reg}
    {i : Instr} (hm : Fields.ofWord m = ⟨op, fixedRs, 0, 0, fixedSa, fn⟩) (hrs : fixedRs ||| rs = rs')
    (hsa : fixedSa ||| sa = sa') (hd : decodeFields ⟨op, rs', rt, rd, sa', fn⟩ = .instr i) :
    Reads (rWord m rs rt rd sa) i := by
  rwa [Reads, decodeWord, Fields.ofWord_rWord_op hm, hrs, hsa]

theorem reads_rWord {m : Word} {op fn : BitVec 6} {rs rt rd sa : Reg} {i : Instr}
    (hm : Fields.ofWord m = ⟨op, 0, 0, 0, 0, fn⟩) (hd : decodeFields ⟨op, rs, rt, rd, sa, fn⟩ = .instr i) :
    Reads (rWord m rs rt rd sa) i := reads_rWord_fixed hm BitVec.zero_or BitVec.zero_or hd

theorem decodeFields_of_encode {i : Instr} {f : Fields} (hw : i.WellFormed = true) (he : encode i = .word f) :
    decodeFields f = .instr i := by
  have h := decodeEncode i hw
  rwa [he, Encoded.decode, decodeWord, Fields.ofWord_toWord] at h

/-! ## A result given as a number -/

theorem writes_of_result_eq {i : Instr} {s : State} {len : Word} {r : Reg} {x v : Word}
    (h : exec i s = s.result len r x) (hv : x = v) : Writes i s len r v := hv ▸ writes_of_result h

/-! ## Addition and subtraction -/

/-- Settles O1: each result is the sum or difference of words, read as numbers. -/
theorem addSubtractWrap : Obligations.AddSubtractWrap := by
  intro s rd rs rt imm
  exact ⟨reads_rWord rfl rfl, writes_of_result_eq rfl (add_ofNat _ _), reads_rWord rfl rfl,
    writes_of_result_eq rfl (sub_ofInt _ _), reads_iWord rfl rfl rfl, writes_of_result_eq rfl (add_sext _ _)⟩

/-- A word is the exact result where it fits, and its overflow condition says where it does not (spec 41 R243). -/
theorem writesOrOverflows_of_result {i : Instr} {s : State} {rd : Reg} {v : Word} {x : Int}
    (h : exec i s = s.resultOrOverflow rd (outOfRange x) v) (hv : v = BitVec.ofInt 32 x) :
    WritesOrOverflows i s rd x := by
  refine ⟨fun hin => writes_of_result_eq (h.trans (if_neg ?_)) hv, fun hout => raises_of_raise (h.trans (if_pos ?_))⟩
  · rw [out_of_range_iff]; omega
  · rwa [out_of_range_iff]

theorem add_eq_ofInt (a b : Word) : a + b = BitVec.ofInt 32 (a.toInt + b.toInt) := by
  rw [BitVec.ofInt_add, BitVec.ofInt_toInt, BitVec.ofInt_toInt]

theorem sub_eq_ofInt (a b : Word) : a - b = BitVec.ofInt 32 (a.toInt - b.toInt) := by
  rw [ofInt_sub, BitVec.ofInt_toInt, BitVec.ofInt_toInt]

/-- Settles O2: the exact result decides between its word and the exception. -/
theorem addSubtractTrap : Obligations.AddSubtractTrap := by
  intro s rd rs rt imm
  refine ⟨reads_rWord rfl rfl, writesOrOverflows_of_result rfl (add_eq_ofInt _ _), reads_rWord rfl rfl,
    writesOrOverflows_of_result rfl (sub_eq_ofInt _ _), reads_iWord rfl rfl rfl, ?addi⟩
  case addi =>
    rw [← sext_toInt imm (by decide)]
    exact writesOrOverflows_of_result rfl (add_eq_ofInt _ _)

/-! ## Comparison -/

theorem flagWord_eq {b : Bool} {p : Prop} [Decidable p] (h : b = true ↔ p) : flagWord b = if p then 1 else 0 :=
  if_congr h rfl rfl

theorem lt_signed_sext_iff (a : Word) (imm : BitVec 16) : ltSigned a (sext imm) = true ↔ a.toInt < imm.toInt := by
  rw [lt_signed_iff, sext_toInt imm (by decide)]

/-- Settles O3: the flag word of each comparison. -/
theorem setOnLessThan : Obligations.SetOnLessThan := by
  intro s rd rs rt imm
  exact ⟨reads_rWord rfl rfl, writes_of_result_eq rfl (flagWord_eq (lt_signed_iff _ _)),
    reads_rWord rfl rfl, writes_of_result_eq rfl (flagWord_eq (lt_unsigned_iff _ _)),
    reads_iWord rfl rfl rfl, writes_of_result_eq rfl (flagWord_eq (lt_signed_sext_iff _ _)),
    reads_iWord rfl rfl rfl, writes_of_result_eq rfl (flagWord_eq (lt_unsigned_iff _ _))⟩

/-! ## Logic and conditional moves -/

theorem upper_half_eq (imm : BitVec 16) : (imm ++ 0#16 : Word) = BitVec.ofNat 32 (65536 * imm.toNat) := by
  apply BitVec.eq_of_toNat_eq
  have := imm.isLt
  rw [BitVec.toNat_append, Nat.shiftLeft_eq, BitVec.toNat_ofNat, BitVec.toNat_ofNat, Nat.zero_mod, Nat.or_zero]
  omega

/-- Settles O4: the logical instructions work on words, and the conditional moves are a result or an advance. -/
theorem logicAndConditionalMove : Obligations.LogicAndConditionalMove := by
  intro s rd rs rt imm
  refine ⟨reads_rWord rfl rfl, writes_of_result rfl, reads_rWord rfl rfl, writes_of_result rfl,
    reads_rWord rfl rfl, writes_of_result rfl, reads_rWord rfl rfl, writes_of_result rfl,
    reads_iWord rfl rfl rfl, ?andi, reads_iWord rfl rfl rfl, ?ori, reads_iWord rfl rfl rfl, ?xori,
    reads_iWord rfl rfl rfl, writes_of_result_eq rfl (upper_half_eq imm),
    reads_rWord rfl rfl, ?movz, ?movzKept, reads_rWord rfl rfl, ?movn, ?movnKept⟩
  case andi | ori | xori => rw [← zext_eq]; exact writes_of_result rfl
  case movz => exact fun hz => writes_of_result (if_pos hz)
  case movzKept => exact fun hn => doesNothing_of_advance (if_neg hn)
  case movn => exact fun hn => writes_of_result (if_neg hn)
  case movnKept => exact fun hz => doesNothing_of_advance (if_pos hz)

/-! ## Shifts and rotates -/

/-- The words that SLL shares with NOP, SSNOP and EHB are not its own (spec 30 R164, 43 R377). -/
theorem reads_sll {rd rt sa : Reg} (h : ¬ (rd = 0 ∧ rt = 0 ∧ (sa = 0 ∨ sa = 1 ∨ sa = 3))) :
    Reads (rWord 0x00000000 0 rt rd sa) (.sll rd rt sa) :=
  reads_rWord rfl (decodeFields_of_encode (decide_eq_true h) rfl)

/-- Settles O5: each shift of a word, read as a number, by a constant and by the low five bits of a register. -/
theorem shiftsAndRotates : Obligations.ShiftsAndRotates := by
  intro s rd rs rt sa x n m
  have hm : ((s.reg rs).extractLsb' 0 5).toNat = m := low_five _
  have hn : n < 32 := sa.isLt
  have hm32 : m < 32 := Nat.mod_lt _ (by decide)
  refine ⟨reads_sll, writes_of_result_eq rfl (shift_left_eq x n), reads_rWord rfl rfl,
    writes_of_result_eq rfl (shift_right_eq x n), reads_rWord rfl rfl, writes_of_result_eq rfl (shift_right_arith_eq x n),
    reads_rWord rfl rfl, ?sllv, reads_rWord rfl rfl, ?srlv, reads_rWord rfl rfl, ?srav,
    reads_rWord_fixed rfl BitVec.or_zero BitVec.zero_or rfl, writes_of_result_eq rfl (rotate_right_eq x hn),
    reads_rWord_fixed rfl BitVec.zero_or BitVec.or_zero rfl, ?rotrv⟩
  case sllv => exact hm ▸ writes_of_result_eq rfl (shift_left_eq x _)
  case srlv => exact hm ▸ writes_of_result_eq rfl (shift_right_eq x _)
  case srav => exact hm ▸ writes_of_result_eq rfl (shift_right_arith_eq x _)
  case rotrv => exact writes_of_result_eq rfl (hm ▸ rotate_right_eq x hm32)

/-! ## Bit fields, extensions and counts -/

/-- Settles O6: the check of the operands decides between the field and the refusal. -/
theorem bitFields : Obligations.BitFields := by
  intro s rt rs top lsb
  refine ⟨reads_rWord rfl rfl, fun h => ?ext, fun h => if_neg (Nat.not_le.2 h), reads_rWord rfl rfl, fun h => ?ins,
    fun h => if_neg (Nat.not_le.2 h)⟩
  case ext => exact writes_of_result_eq (if_pos h) (extract_field_eq _ top lsb)
  case ins => exact writes_of_result_eq (if_pos h) (insert_field_eq _ _ top lsb h)

/-- Settles O7: the bit functions as numbers, and the check of the `rt` field of CLZ and CLO. -/
theorem extendSwapCount : Obligations.ExtendSwapCount := by
  intro s rd rs rt x y
  exact ⟨reads_rWord_fixed rfl BitVec.zero_or BitVec.or_zero rfl, writes_of_result_eq rfl (sign_byte_eq _),
    reads_rWord_fixed rfl BitVec.zero_or BitVec.or_zero rfl, writes_of_result_eq rfl (sign_half_eq _),
    reads_rWord_fixed rfl BitVec.zero_or BitVec.or_zero rfl, writes_of_result_eq rfl (swap_bytes_eq _),
    reads_rWord rfl rfl, writes_of_result_eq (if_pos rfl) (count_zeros_eq _),
    reads_rWord rfl rfl, writes_of_result_eq (if_pos rfl) (count_ones_eq _),
    fun h => ⟨if_neg h, if_neg h⟩⟩

end Sys2Proof.Machine
end

section
/-! PROOFS. Multiplication, division, and the moves to and from HI and LO. -/

namespace Sys2Proof.Machine

/-! ## What an instruction leaves that writes HI and LO -/

/-- A result in a general register, from a state that differs from `s` in HI and LO only. -/
theorem State.result_withHiLo_spec (s : State) (hi lo : Word) (unread : Bool) (len : Word) (rd : Reg) (v : Word) :
    ∃ t, State.result { s with hi := hi, lo := lo, hiLoUnread := unread } len rd v = .next t ∧
      t.reg rd = (if rd = 0 then 0 else v) ∧ KeepsRegs s t [rd] ∧ t.hi = hi ∧ t.lo = lo ∧ t.hiLoUnread = unread ∧
      KeepsMemory s t [] ∧ KeepsSystem s t ∧ GoesOn s t len := by
  obtain ⟨t, ht, hv, ⟨hregs, ⟨hhi, hlo, hunread⟩, hmem, hsys, -⟩, hgo⟩ :=
    State.result_spec { s with hi := hi, lo := lo, hiLoUnread := unread } len rd v
  exact ⟨t, ht, hv, hregs, hhi, hlo, hunread, hmem, hsys, hgo⟩

/-- The end of an instruction that writes HI and LO only. -/
theorem State.advance_withHiLo_spec (s : State) (hi lo : Word) (unread : Bool) (len : Word) :
    let t := State.advance { s with hi := hi, lo := lo, hiLoUnread := unread } len
    t.hi = hi ∧ t.lo = lo ∧ t.hiLoUnread = unread ∧ KeepsRegs s t [] ∧ KeepsMemory s t [] ∧ KeepsSystem s t ∧
      GoesOn s t len :=
  ⟨by simp, by simp, by simp, keepsRegs_of_gpr (by simp) _, keepsMemory_of_mem (by simp) _,
    keepsSystem_advance len rfl rfl (keepsOutside_refl s) rfl rfl rfl, goesOn_advance len rfl rfl rfl⟩

/-! ## Multiplication -/

/-- The two halves of a 64-bit result (spec 41 R269). -/
theorem writesHiLo_of_writeHiLo {i : Instr} {s : State} {p : BitVec 64} {x : Int}
    (h : exec i s = .next ((s.writeHiLo p).advance 4)) (hp : p = BitVec.ofInt 64 x) :
    WritesHiLo i s 4 (BitVec.ofInt 32 (x / 4294967296)) (BitVec.ofInt 32 x) := by
  refine writesHiLo_of_advance h ?_
  rw [State.writeHiLo, hp, high_word_ofInt, low_word_ofInt]

theorem mul_eq_ofInt (a b : Word) : a * b = BitVec.ofInt 32 (a.toInt * b.toInt) := by
  rw [BitVec.ofInt_mul, BitVec.ofInt_toInt, BitVec.ofInt_toInt]

/-- Settles O8: each result as the 64-bit word of an integer, whose halves go to HI and LO. -/
theorem multiplies : Obligations.Multiplies := by
  intro s rd rs rt p u acc high low
  have hp : productSigned (s.reg rs) (s.reg rt) = BitVec.ofInt 64 p := product_signed_eq _ _
  have hu : productUnsigned (s.reg rs) (s.reg rt) = BitVec.ofInt 64 u := product_unsigned_eq _ _
  have hacc : hiLo s.hi s.lo = BitVec.ofInt 64 acc := hi_lo_eq _ _
  refine ⟨reads_rWord rfl rfl, writesHiLo_of_writeHiLo rfl hp, reads_rWord rfl rfl, writesHiLo_of_writeHiLo rfl hu,
    reads_rWord rfl rfl, writesHiLo_of_writeHiLo rfl ?madd, reads_rWord rfl rfl, writesHiLo_of_writeHiLo rfl ?maddu,
    reads_rWord rfl rfl, writesHiLo_of_writeHiLo rfl ?msub, reads_rWord rfl rfl, writesHiLo_of_writeHiLo rfl ?msubu,
    reads_rWord rfl rfl, ?mul⟩
  case madd => rw [hacc, hp, ← BitVec.ofInt_add]
  case maddu => rw [hacc, hu, ← BitVec.ofInt_add]
  case msub => rw [hacc, hp, ← ofInt_sub]
  case msubu => rw [hacc, hu, ← ofInt_sub]
  case mul =>
    obtain ⟨t, ht, hv, hregs, -, -, -, hmem, hsys, hgo⟩ :=
      s.result_withHiLo_spec (s.free .hi) (s.free .lo) s.hiLoUnread 4 rd (s.reg rs * s.reg rt)
    rw [mul_eq_ofInt] at hv
    exact ⟨t, ht, hv, hregs, hmem, hsys, hgo⟩

/-! ## Division -/

/-- A division writes quotient and remainder where its result is stated, and loses HI and LO where not (spec 41 R271, R272, R288; log 7). -/
theorem writesOrLosesHiLo_of_divide {i : Instr} {s : State} {b : Bool} {stated : Prop} {q r lo hi : Word}
    (h : exec i s = .next ((s.divide b q r).advance 4)) (hb : b = true ↔ stated) (hr : r = hi) (hq : q = lo) :
    (stated → WritesHiLo i s 4 hi lo) ∧ (¬ stated → LosesHiLo i s 4) := by
  subst hr hq
  refine ⟨fun hs => writesHiLo_of_advance h (if_pos (hb.2 hs)), fun hs => ?_⟩
  have hfree : s.divide b q r = s.freeHiLo := if_neg (mt hb.1 hs)
  obtain ⟨-, -, -, hkept⟩ := s.advance_withHiLo_spec (s.free .hi) (s.free .lo) true 4
  exact ⟨_, h.trans (by rw [hfree]; rfl), hkept⟩

theorem divisionStated_iff (a b : Word) :
    divisionStated a b = true ↔ b ≠ 0 ∧ ¬ (a = 0x80000000 ∧ b = 0xFFFFFFFF) := by
  simp only [divisionStated, Bool.and_eq_true, Bool.not_eq_true', Bool.and_eq_false_iff, decide_eq_false_iff_not,
    not_and_or, ne_eq]

/-- The remainder of the division that rounds toward zero (spec 41 R271). -/
theorem remainderSigned_eq (a b : Word) : remainderSigned a b = BitVec.ofInt 32 (a.toInt.tmod b.toInt) := by
  rw [remainderSigned, Int.tmod_def, Int.mul_comm]

/-- Settles O9: DIV and DIVU are `State.divide`; they differ in where the result is stated and in its numbers. -/
theorem divides : Obligations.Divides := by
  intro s rs rt a b stated
  have hdivu : (!decide (b = 0)) = true ↔ b ≠ 0 := by simp
  obtain ⟨div, divLoses⟩ :=
    writesOrLosesHiLo_of_divide (i := .div rs rt) rfl (divisionStated_iff a b) (remainderSigned_eq a b) rfl
  obtain ⟨divu, divuLoses⟩ := writesOrLosesHiLo_of_divide (i := .divu rs rt) rfl hdivu BitVec.umod_def BitVec.udiv_def
  exact ⟨reads_rWord rfl rfl, div, divLoses, reads_rWord rfl rfl, divu, fun hb => divuLoses (not_not.2 hb)⟩

/-! ## Moves -/

/-- Settles O10: MFHI and MFLO write a register, MTHI and MTLO a half; the other half is free after an unread result (log 7). -/
theorem hiLoMoves : Obligations.HiLoMoves := by
  intro s rd rs reads
  have hreads := s.result_withHiLo_spec s.hi s.lo false 4 rd
  have hwrites := fun hi lo => s.advance_withHiLo_spec hi lo false 4
  refine ⟨reads_rWord rfl rfl, hreads s.hi, reads_rWord rfl rfl, hreads s.lo, reads_rWord rfl rfl, ?mthi,
    reads_rWord rfl rfl, ?mtlo⟩
  case mthi =>
    obtain ⟨hhi, hlo, hkept⟩ := hwrites (s.reg rs) (if s.hiLoUnread then s.free .lo else s.lo)
    exact ⟨_, rfl, hhi, fun hr => hlo.trans (if_neg (Bool.eq_false_iff.1 hr)), hkept⟩
  case mtlo =>
    obtain ⟨hhi, hlo, hkept⟩ := hwrites (if s.hiLoUnread then s.free .hi else s.hi) (s.reg rs)
    exact ⟨_, rfl, hlo, fun hr => hhi.trans (if_neg (Bool.eq_false_iff.1 hr)), hkept⟩

end Sys2Proof.Machine
end

section
/-! PROOFS. Jumps and branches of MIPS32 mode, and what must not stand in a delay slot. -/

namespace Sys2Proof.Machine

/-! ## Region jumps -/

/-- Settles O19: each is a jump to the target of its index; JAL and JALX write the link, JALX changes the mode. -/
theorem regionJumps : Obligations.RegionJumps := by
  intro s index
  refine ⟨reads_jWord rfl rfl rfl, reads_jWord rfl rfl rfl, reads_jWord rfl rfl rfl, fun hd => ⟨?j, ?jal, ?jalx⟩⟩
  case j => exact jumps_of_delayed (outsideSlot_of_none hd _) (jump_target_eq s index)
  case jal | jalx => exact jumps_of_link (outsideSlot_of_none hd _) (jump_target_eq s index)

/-! ## Register jumps -/

/-- The bit above a hint tells the forms with hazard barrier (spec 42 R333 to R336, 30 R168). -/
theorem decodeFields_jr (rs : Reg) (barrier : BitVec 1) (hint : BitVec 4) :
    decodeFields ⟨0, rs, 0, 0, barrier ++ hint, 8⟩ = .instr (if barrier = 1 then .jrHb rs hint else .jr rs hint) := by
  change (if (barrier ++ hint).extractLsb' 4 1 = 1 then Decoded.instr (.jrHb rs ((barrier ++ hint).extractLsb' 0 4))
    else .instr (.jr rs ((barrier ++ hint).extractLsb' 0 4))) = _
  rw [BitVec.extractLsb'_append_eq_left, BitVec.extractLsb'_append_eq_right, apply_ite Decoded.instr]

/-- The word is read before its operand condition is checked, so with `rd = rs` too (spec 42 R323, R335). -/
theorem decodeFields_jalr (rd rs : Reg) (barrier : BitVec 1) (hint : BitVec 4) :
    decodeFields ⟨0, rs, 0, rd, barrier ++ hint, 9⟩ =
      .instr (if barrier = 1 then .jalrHb rd rs hint else .jalr rd rs hint) := by
  change (if (barrier ++ hint).extractLsb' 4 1 = 1 then Decoded.instr (.jalrHb rd rs ((barrier ++ hint).extractLsb' 0 4))
    else .instr (.jalr rd rs ((barrier ++ hint).extractLsb' 0 4))) = _
  rw [BitVec.extractLsb'_append_eq_left, BitVec.extractLsb'_append_eq_right, apply_ite Decoded.instr]

theorem append_or_hint (barrier : BitVec 1) (hint : BitVec 4) :
    (barrier ++ 0#4) ||| hint.setWidth 5 = barrier ++ hint := by
  revert barrier hint; decide

theorem jumps_of_jumpRegister {i : Instr} {s : State} {len t : Word} {barrier : Bool}
    (h : exec i s = .next (s.jumpRegister len t barrier)) : Jumps i s len (goalOf t) (modeOf t) barrier none :=
  isa_of_bit_eq t ▸ jumps_of_delayed h (clear_isa_bit_eq t)

theorem jumps_of_jumpRegister_link {i : Instr} {s : State} {len t v : Word} {barrier : Bool} {r : Reg}
    (h : exec i s = .next ((s.write r v).jumpRegister len t barrier)) :
    Jumps i s len (goalOf t) (modeOf t) barrier (some (r, v)) :=
  isa_of_bit_eq t ▸ jumps_of_link h (clear_isa_bit_eq t)

/-- Settles O20: each is a jump through its register; the check of `rd` and `rs` decides between the link and the refusal. -/
theorem registerJumps : Obligations.RegisterJumps := by
  intro s rd rs t
  refine ⟨fun hint => ⟨?_, ?_, ?_, ?_⟩,
    fun hd hint => ⟨?jr, ?jrHb, fun hne => ⟨?jalr, ?jalrHb⟩, fun heq => ⟨?_, ?_⟩⟩⟩
  · exact reads_rWord_fixed rfl BitVec.zero_or (append_or_hint 0 hint) (decodeFields_jr rs 0 hint)
  · exact reads_rWord_fixed rfl BitVec.zero_or (append_or_hint 1 hint) (decodeFields_jr rs 1 hint)
  · exact reads_rWord_fixed rfl BitVec.zero_or (append_or_hint 0 hint) (decodeFields_jalr rd rs 0 hint)
  · exact reads_rWord_fixed rfl BitVec.zero_or (append_or_hint 1 hint) (decodeFields_jalr rd rs 1 hint)
  case jr | jrHb => exact jumps_of_jumpRegister (outsideSlot_of_none hd _)
  case jalr | jalrHb => exact jumps_of_jumpRegister_link ((outsideSlot_of_none hd _).trans (if_neg hne))
  all_goals exact (outsideSlot_of_none hd _).trans (if_pos heq)

/-! ## Conditional branches -/

/-- A word of REGIMM, whose row has a number in the place of `rt` (spec 30 R159). -/
theorem Fields.ofWord_iWord_regimm (code rs : Reg) (offset : BitVec 16) :
    Fields.ofWord (iWord (1#6 ++ 0#5 ++ code ++ 0#16) rs 0 offset) = Fields.ofImm 1 rs code offset := by
  have hrow : ∀ code : Reg, (1#6 ++ 0#5 ++ code ++ 0#16).extractLsb' 26 6 = 1 ∧
      (1#6 ++ 0#5 ++ code ++ 0#16).extractLsb' 21 5 = 0#5 ∧ (1#6 ++ 0#5 ++ code ++ 0#16).extractLsb' 16 5 = code ∧
      (1#6 ++ 0#5 ++ code ++ 0#16).extractLsb' 0 16 = 0#16 := by decide
  obtain ⟨hop, hrs, hcode, himm⟩ := hrow code
  rw [Fields.ofWord_iWord, hop, hrs, hcode, himm, BitVec.zero_or, BitVec.zero_or]
  exact congrArg (Fields.ofImm 1 rs · offset) BitVec.or_zero

/-- The word is read before its operand condition is checked, so a linking form with `rs = 31` too (spec 42 R323, R343). -/
theorem reads_regimm (code : Reg) {m : Word} {rs : Reg} {offset : BitVec 16} {i : Reg → BitVec 16 → Instr}
    (hm : m = 1#6 ++ 0#5 ++ code ++ 0#16)
    (hd : decodeRegimm (Fields.ofImm 1 rs code offset) = .instr (i rs (Fields.ofImm 1 rs code offset).imm)) :
    Reads (iWord m rs 0 offset) (i rs offset) := by
  rw [Fields.imm_ofImm] at hd
  rwa [Reads, decodeWord, hm, Fields.ofWord_iWord_regimm]

theorem le_zero_iff (a : Word) : leZero a = true ↔ a.toInt ≤ 0 := decide_eq_true_iff

theorem gt_zero_iff (a : Word) : gtZero a = true ↔ 0 < a.toInt := decide_eq_true_iff

/-- Settles O21: each is `State.branch` on its condition; the check of `rs` decides between the link and the refusal. -/
theorem branches : Obligations.Branches := by
  intro s rs rt offset x goal
  refine ⟨reads_iWord rfl rfl rfl, reads_iWord rfl rfl rfl, reads_iWord rfl rfl rfl, reads_iWord rfl rfl rfl,
    reads_regimm 0x00 rfl rfl, reads_regimm 0x01 rfl rfl, reads_regimm 0x10 rfl rfl, reads_regimm 0x11 rfl rfl,
    fun hd => ?_⟩
  refine ⟨branchesIf_of_branch hd rfl beq_iff_eq, branchesIf_of_branch hd rfl bne_iff_ne,
    branchesIf_of_branch hd rfl (le_zero_iff _), branchesIf_of_branch hd rfl (gt_zero_iff _),
    branchesIf_of_branch hd rfl (lt_zero_iff _), branchesIf_of_branch hd rfl (ge_zero_iff _),
    fun hne => ⟨?bltzal, ?bgezal⟩, fun h31 => ⟨?_, ?_⟩⟩
  case bltzal => exact branchesIf_of_link hd ((outsideSlot_of_none hd _).trans (if_neg hne)) (lt_zero_iff _)
  case bgezal => exact branchesIf_of_link hd ((outsideSlot_of_none hd _).trans (if_neg hne)) (ge_zero_iff _)
  all_goals exact (outsideSlot_of_none hd _).trans (if_pos h31)

/-- Settles O22: each is `State.branchLikely` on the condition of its branch. -/
theorem likelyBranches : Obligations.LikelyBranches := by
  intro s rs rt offset x goal
  refine ⟨reads_iWord rfl rfl rfl, reads_iWord rfl rfl rfl, reads_iWord rfl rfl rfl, reads_iWord rfl rfl rfl,
    reads_regimm 0x02 rfl rfl, reads_regimm 0x03 rfl rfl, reads_regimm 0x12 rfl rfl, reads_regimm 0x13 rfl rfl,
    fun hd => ?_⟩
  refine ⟨branchesLikely_of_branchLikely hd rfl beq_iff_eq, branchesLikely_of_branchLikely hd rfl bne_iff_ne,
    branchesLikely_of_branchLikely hd rfl (le_zero_iff _), branchesLikely_of_branchLikely hd rfl (gt_zero_iff _),
    branchesLikely_of_branchLikely hd rfl (lt_zero_iff _), branchesLikely_of_branchLikely hd rfl (ge_zero_iff _),
    fun hne => ⟨?bltzall, ?bgezall⟩, fun h31 => ⟨?_, ?_⟩⟩
  case bltzall => exact branchesLikely_of_link hd ((outsideSlot_of_none hd _).trans (if_neg hne)) (lt_zero_iff _)
  case bgezall => exact branchesLikely_of_link hd ((outsideSlot_of_none hd _).trans (if_neg hne)) (ge_zero_iff _)
  all_goals exact (outsideSlot_of_none hd _).trans (if_pos h31)

/-! ## In a delay slot -/

/-- Settles O23: the meaning of each transfer, of ERET, DERET and WAIT is an `outsideSlot`; EXTEND has a check of its own. -/
theorem transferInDelaySlot : Obligations.TransferInDelaySlot := by
  intro s rd rs rt x offset off8 off11 index hint code op hslot
  refine ⟨fun i hi => ?transfer, if_pos hslot⟩
  case transfer =>
    have houtside : ∃ k, exec i s = s.outsideSlot k := by fin_cases hi <;> exact ⟨_, rfl⟩
    obtain ⟨k, hk⟩ := houtside
    rw [hk, outsideSlot_of_some hslot]

end Sys2Proof.Machine
end

section
/-! PROOFS. Exceptions by instruction, RDHWR and WAIT. -/

namespace Sys2Proof.Machine

/-! ## Words with a code -/

/-- A word with only an opcode and a function, and a code (spec 30 R153). -/
theorem Fields.ofWord_codeWord_op (op fn : BitVec 6) (code : BitVec 20) :
    Fields.ofWord (codeWord (op ++ 0#20 ++ fn) code) = Fields.ofCode20 op code fn := by
  have hop : (op ++ 0#20 ++ fn).extractLsb' 26 6 = op := by
    rw [BitVec.extractLsb'_append_eq_of_le (by decide)]
    exact BitVec.extractLsb'_append_eq_left
  have hcode : (op ++ 0#20 ++ fn).extractLsb' 6 20 = 0#20 := by
    rw [BitVec.extractLsb'_append_eq_of_le (by decide)]
    exact BitVec.extractLsb'_append_eq_right
  have hfn : (op ++ 0#20 ++ fn).extractLsb' 0 6 = fn := BitVec.extractLsb'_append_eq_right
  rw [Fields.ofWord_codeWord, hop, hcode, hfn, BitVec.zero_or]

theorem reads_codeWord {m : Word} {op fn : BitVec 6} {code : BitVec 20} {i : Instr} (hw : i.WellFormed = true)
    (he : encode i = .word (Fields.ofCode20 op code fn)) (hm : m = op ++ 0#20 ++ fn) : Reads (codeWord m code) i :=
  reads_of_encode (decodeEncode i) hw he (by rw [hm, Fields.ofWord_codeWord_op])

theorem reads_trapWord {m : Word} {fn : BitVec 6} {rs rt : Reg} {code : BitVec 10} {i : Instr}
    (hm : Fields.ofWord m = ⟨0, 0, 0, 0, 0, fn⟩) (hw : i.WellFormed = true)
    (he : encode i = .word (Fields.ofCode10 rs rt code fn)) : Reads (trapWord m rs rt code) i := by
  refine reads_of_encode (decodeEncode i) hw he ?_
  simp only [Fields.ofWord, Fields.mk.injEq] at hm
  obtain ⟨hop, hrs, hrt, hrd, hsa, hfn⟩ := hm
  rw [Fields.ofWord_trapWord, hop, hrs, hrt, hrd, hsa, hfn]
  simp only [BitVec.ofNat_eq_ofNat, BitVec.zero_or, Fields.ofCode10]

/-- BREAK of MIPS16e, whatever its code (spec 45 R507). -/
theorem Halfword.ofHalf_break (code : BitVec 6) :
    Halfword.ofHalf (0xE805 ||| code.setWidth 16 <<< 5) = Halfword.ofCode6 code 5 := by
  revert code; decide

/-- SDBBP of MIPS16e, whatever its code (spec 45 R503). -/
theorem Halfword.ofHalf_sdbbp (code : BitVec 6) :
    Halfword.ofHalf (0xE801 ||| code.setWidth 16 <<< 5) = Halfword.ofCode6 code 1 := by
  revert code; decide

theorem reads16_break (code : BitVec 6) : Reads16 (0xE805 ||| code.setWidth 16 <<< 5) (.m16Break code) :=
  reads16_of_encode (decodeEncode _) rfl rfl (Halfword.ofHalf_break code)

theorem reads16_sdbbp (code : BitVec 6) : Reads16 (0xE801 ||| code.setWidth 16 <<< 5) (.m16Sdbbp code) :=
  reads16_of_encode (decodeEncode _) rfl rfl (Halfword.ofHalf_sdbbp code)

/-- Settles O25: each word is read whatever its code, and each meaning is a `raise`. -/
theorem systemCallAndBreak : Obligations.SystemCallAndBreak := by
  intro s code code6
  exact ⟨reads_codeWord rfl rfl rfl, reads_codeWord rfl rfl rfl, reads16_break code6,
    fun hd => ⟨raises_of_raise rfl hd, raises_of_raise rfl hd, raises_of_raise rfl hd⟩⟩

/-! ## Traps -/

theorem trapsIf_of_trap {i : Instr} {s : State} {b : Bool} {c : Prop} (h : exec i s = s.trap b) (hb : b = true ↔ c) :
    TrapsIf i s c := by
  refine ⟨fun hc => raises_of_raise (h.trans ?raised), fun hc => doesNothing_of_advance (h.trans ?passed)⟩
  case raised => rw [State.trap, if_pos (hb.2 hc)]
  case passed => rw [State.trap, if_neg (mt hb.1 hc)]

theorem not_lt_signed_iff (a b : Word) : (!ltSigned a b) = true ↔ b.toInt ≤ a.toInt := by
  rw [Bool.not_eq_true', ← Bool.not_eq_true, lt_signed_iff, Int.not_lt]

theorem not_lt_unsigned_iff (a b : Word) : (!ltUnsigned a b) = true ↔ b.toNat ≤ a.toNat := by
  rw [Bool.not_eq_true', ← Bool.not_eq_true, lt_unsigned_iff, Nat.not_lt]

theorem not_lt_signed_sext_iff (a : Word) (imm : BitVec 16) : (!ltSigned a (sext imm)) = true ↔ imm.toInt ≤ a.toInt := by
  rw [not_lt_signed_iff, sext_toInt imm (by decide)]

theorem eq_sext_iff (a : Word) (imm : BitVec 16) : a = sext imm ↔ a.toInt = imm.toInt := by
  rw [← BitVec.toInt_inj, sext_toInt imm (by decide)]

/-- Settles O26: each is `State.trap` on its condition. -/
theorem traps : Obligations.Traps := by
  intro s rs rt code imm a b i
  have heq := eq_sext_iff a imm
  exact ⟨reads_trapWord rfl rfl rfl, trapsIf_of_trap rfl (not_lt_signed_iff a b),
    reads_trapWord rfl rfl rfl, trapsIf_of_trap rfl (not_lt_unsigned_iff a b),
    reads_trapWord rfl rfl rfl, trapsIf_of_trap rfl (lt_signed_iff a b),
    reads_trapWord rfl rfl rfl, trapsIf_of_trap rfl (lt_unsigned_iff a b),
    reads_trapWord rfl rfl rfl, trapsIf_of_trap rfl beq_iff_eq,
    reads_trapWord rfl rfl rfl, trapsIf_of_trap rfl bne_iff_ne,
    reads_regimm 0x08 rfl rfl, trapsIf_of_trap rfl (not_lt_signed_sext_iff a imm),
    reads_regimm 0x09 rfl rfl, trapsIf_of_trap rfl (not_lt_unsigned_iff a i),
    reads_regimm 0x0A rfl rfl, trapsIf_of_trap rfl (lt_signed_sext_iff a imm),
    reads_regimm 0x0B rfl rfl, trapsIf_of_trap rfl (lt_unsigned_iff a i),
    reads_regimm 0x0C rfl rfl, trapsIf_of_trap rfl (beq_iff_eq.trans heq),
    reads_regimm 0x0E rfl rfl, trapsIf_of_trap rfl (bne_iff_ne.trans (not_congr heq))⟩

/-! ## Debug breakpoints -/

/-- Debug exception entry, line by line (spec 60 R661). -/
theorem State.takeDebug_entered (s : State) (k : DebugExc) : DebugEntered s (s.takeDebug k) k :=
  ⟨State.restartPc_eq s, rfl, rfl, rfl, rfl, rfl, rfl, keepsRegs_of_gpr rfl _, ⟨rfl, rfl, rfl⟩, keepsMemory_of_mem rfl _⟩

/-- Settles O27: both are `State.debugBreakpoint`, which Debug mode refuses. -/
theorem debugBreakpoints : Obligations.DebugBreakpoints := by
  intro s code code6
  refine ⟨reads_codeWord rfl rfl rfl, reads16_sdbbp code6, fun i hi => ?_⟩
  have hexec : exec i s = s.debugBreakpoint := by fin_cases hi <;> rfl
  rw [hexec]
  exact ⟨fun hd => ⟨_, if_neg (Bool.eq_false_iff.1 hd), s.takeDebug_entered .dbp⟩, fun hd => if_pos hd⟩

/-! ## RDHWR -/

/-- The value of a hardware register (spec 43 R380). -/
def State.hardwareRegister (s : State) (rd : Reg) : Word :=
  match rd.toNat with
  | 2 => s.seen.count
  | 3 => 2
  | _ => 0

section
variable {s : State} {rd : Reg} (rt : Reg)

theorem exec_rdhwr_result (hrd : ¬ 3 < rd.toNat)
    (he : s.seen.cop0Usable = true ∨ s.seen.hwrena.getLsbD rd.toNat = true) :
    exec (.rdhwr rt rd) s = s.result 4 rt (s.hardwareRegister rd) := by
  rw [← Bool.or_eq_true] at he
  exact (if_neg hrd).trans (if_neg (by rw [he]; decide))

theorem exec_rdhwr_raise
    (h : 3 < rd.toNat ∨ ¬ (s.seen.cop0Usable = true ∨ s.seen.hwrena.getLsbD rd.toNat = true)) :
    exec (.rdhwr rt rd) s = .next (s.raise .ri) := by
  by_cases hrd : 3 < rd.toNat
  · exact if_pos hrd
  · have he := h.resolve_left hrd
    rw [← Bool.or_eq_true, Bool.not_eq_true, ← Bool.not_eq_true'] at he
    exact (if_neg hrd).trans (if_pos he)

end

/-- Settles O28: the checks of the register and of its enable decide between the value and the exception. -/
theorem readHardwareRegister : Obligations.ReadHardwareRegister := by
  intro s rt rd enabled
  refine ⟨reads_rWord rfl rfl, fun he => ?value, fun h => raises_of_raise (exec_rdhwr_raise rt h)⟩
  case value =>
    have hwrites : rd.toNat ≤ 3 → Writes (.rdhwr rt rd) s 4 rt (s.hardwareRegister rd) := fun hrd =>
      writes_of_result (exec_rdhwr_result rt (Nat.not_lt.2 hrd) he)
    refine ⟨?_, ?_, ?_, ?_⟩ <;> (rintro rfl; exact hwrites (by decide))

/-! ## WAIT -/

theorem reads_wait (code : BitVec 19) : Reads (codeWord 0x42000020 code) (.wait code) :=
  reads_of_encode (decodeEncode _) rfl rfl (Fields.ofWord_waitWord code)

theorem State.advance_of_none {s : State} (h : s.delay = none) (len : Word) :
    s.advance len = { s with pc := s.pc + len } := by
  unfold State.advance; rw [h]

/-- WAIT where it may stand and coprocessor 0 is usable: the next instruction, from a state that may idle. -/
theorem exec_wait {s : State} (hd : s.delay = none) (hu : (s.view .coprocessor).cop0Usable = true) (code : BitVec 19) :
    exec (.wait code) s = .next (State.advance { s with waiting := true } 4) := by
  have hexec : exec (.wait code) s = .next { s.advance 4 with waiting := true } :=
    (outsideSlot_of_none hd _).trans (needCop0_usable hu _)
  rw [hexec, State.advance_of_none hd, State.advance_of_none (s := { s with waiting := true }) hd]

/-- With no input but to stay idle, what arrives changes only the model's own fields. -/
theorem State.absorb_idle {s : State} (hi : s.inputs = [{ StepInput.quiet with stayIdle := true }])
    (hh : s.hazards = []) : s.absorb = { s with inputs := [], between := [], draws := s.draws + 1 } := by
  simp [State.absorb, State.input, hi, hh, StepInput.quiet, State.busWrites, Cp0.ticks]

/-- Nothing comes before idling: no reset, no debug event, no interrupt and no pending bus error (spec 60 R621; log 26). -/
theorem State.event_idle {s : State} (hw : s.waiting = true)
    (hi : s.inputs = [{ StepInput.quiet with stayIdle := true }]) (hh : s.hazards = [])
    (hdm : s.cp0.debugReg.dm = false) (hsst : s.cp0.debugReg.sst = false) (hib : s.cp0.debugReg.ibusep = false)
    (hdb : s.cp0.debugReg.dbusep = false) (hp : s.cp0.interruptPending = false) :
    s.event = some (.next { s with inputs := [], between := [], draws := s.draws + 1 }) := by
  have hin : s.input = { StepInput.quiet with stayIdle := true } := by rw [State.input, hi]; rfl
  have hage : s.absorb.age.hazards = [] := by rw [State.absorb_idle hi hh, State.age, hh]; rfl
  have hview : s.absorb.age.view .interrupt = s.cp0 := by
    rw [State.view_eq hage, State.age_cp0, State.absorb_idle hi hh]
  simp only [State.event, hin, hview, hp]
  simp [State.absorb_idle hi hh, StepInput.quiet, hw, hdm, hsst, hib, hdb]

/-- Settles O29: WAIT advances from a state that may idle, and the event of an idling step is to go on idling. -/
theorem waitMayIdle : Obligations.WaitMayIdle := by
  intro s code
  refine ⟨reads_wait code, fun hd hu => ?goesOn, fun hd => needsCop0_of_needCop0 (outsideSlot_of_none hd _), ?idles⟩
  case goesOn =>
    refine ⟨_, exec_wait hd hu code, by simp, ?_, goesOn_advance 4 rfl rfl rfl⟩
    exact keepsAllBut_advance 4 _ (fun _ _ _ => rfl) ⟨rfl, rfl, rfl⟩ rfl rfl rfl (keepsOutside_refl _) rfl rfl rfl rfl
  case idles =>
    intro hw hi hh hdm hsst hib hdb hp
    rw [step, State.event_idle hw hi hh hdm hsst hib hdb hp]

end Sys2Proof.Machine
end

section
/-! PROOFS. Barriers, and the sequence that makes new code visible to fetches. -/

namespace Sys2Proof.Machine

/-! ## The slot of a jump with barrier: every instruction that ends there settles the hazards -/

theorem settles_ite {p : Prop} [Decidable p] {a b : Result} (ha : Settles a) (hb : Settles b) :
    Settles (if p then a else b) := by
  split <;> assumption

theorem settles_takeDebug (s : State) (k : DebugExc) : Settles (.next (s.takeDebug k)) := fun t h => by cases h; simp

theorem settles_debugBreakpoint (s : State) : Settles s.debugBreakpoint :=
  settles_ite (settles_refused _) (settles_takeDebug s _)

theorem settles_tlbOp {s : State} (h : InBarrierSlot s) : Settles s.tlbOp := by
  apply settles_needCop0
  split
  · exact settles_advance h rfl _
  · exact settles_raise _ _

theorem execLl_settles {s : State} (h : InBarrierSlot s) (rt base : Reg) (offset : BitVec 16) :
    Settles (execLl rt base offset s) :=
  settles_loadWith rfl _ _ _ (fun _ ht => settles_advance h (by exact ht) _) (fun _ ht => settles_advance h (by exact ht) _)

theorem execSc_settles {s : State} (h : InBarrierSlot s) (rt base : Reg) (offset : BitVec 16) :
    Settles (execSc rt base offset s) := by
  unfold execSc
  refine settles_ite (settles_raise _ _) (settles_ite ?linked (settles_result h (by rfl) _ _ _))
  case linked =>
    refine settles_storeWith rfl (fun _ => State.memWrite_delay) (fun t ht => settles_advance h ?_ _)
      (fun t ht => settles_advance h ?_ _) <;> simpa using ht

theorem execMtc0_settles {s : State} (h : InBarrierSlot s) (rt rd : Reg) (sel : Reg3) :
    Settles (execMtc0 rt rd sel s) := by
  apply settles_needCop0
  split
  · exact settles_advance h (by simp) _
  · exact settles_fault _

/-- The barrier acts after the instruction in its slot, whichever it is, and an exception clears the hazards too (spec 70 R722; log 45). -/
theorem exec_settles {s : State} (h : InBarrierSlot s) (i : Instr) : Settles (exec i s) := by
  cases i with
  -- a result in a register
  | addu | subu | slt | sltu | and | or | xor | nor | addiu | slti | sltiu | andi | ori | xori | lui | sll | srl | sra
  | rotr | sllv | srlv | srav | rotrv | seb | seh | wsbh | mul | mfhi | mflo | m16Addiusp | m16Addiupc | m16Sll | m16Srl
  | m16Sra | m16Addiu | m16Addiu8 | m16Slti | m16Sltiu | m16Adjsp | m16Li | m16Cmpi | m16Mov32r | m16Movr32 | m16Addu
  | m16Subu | m16Slt | m16Sltu | m16Sllv | m16Srlv | m16Srav | m16Cmp | m16Neg | m16And | m16Or | m16Xor | m16Not
  | m16Zeb | m16Zeh | m16Seb | m16Seh | m16Mfhi | m16Mflo =>
    exact settles_result h (by rfl) _ _ _
  | add | sub | addi => exact settles_resultOrOverflow h _ _ _
  | clz | clo | ext | ins => exact settles_ite (settles_result h (by rfl) _ _ _) (settles_refused _)
  | movz => exact settles_ite (settles_result h (by rfl) _ _ _) (settles_advance h (by rfl) _)
  | movn => exact settles_ite (settles_advance h (by rfl) _) (settles_result h (by rfl) _ _ _)
  -- no result in a register
  | nop | ssnop | ehb | pref | m16Nop | mthi | mtlo | mult | multu | madd | maddu | msub | msubu | m16Mult | m16Multu
  | sync =>
    exact settles_advance h (by rfl) _
  | div | divu | m16Div | m16Divu | synci => exact settles_advance h (by simp) _
  -- loads and stores
  | lb | lbu | lh | lhu | lw | lwl | lwr | m16Lb | m16Lh | m16Lwsp | m16Lw | m16Lbu | m16Lhu | m16Lwpc =>
    exact settles_loadTo h _ _ _ _
  | sb | sh | sw | m16Swrasp | m16Sb | m16Sh | m16Swsp | m16Sw => exact settles_storeTo h _ fun _ => State.memWrite_delay
  | swl | swr => exact settles_storeTo h _ fun _ => State.memWritePartial_delay
  | ll rt base offset => exact execLl_settles h rt base offset
  | sc rt base offset => exact execSc_settles h rt base offset
  | m16Save => exact settles_pushWords h rfl _ _ (fun _ => by simp) _
  | m16Restore => exact settles_popWords h rfl _ _ (fun _ => by simp) _
  -- what must not stand in a slot
  | j | jal | jalx | jr | jrHb | jalr | jalrHb | beq | bne | blez | bgtz | bltz | bgez | beql | bnel | blezl | bgtzl
  | bltzl | bgezl | bltzal | bgezal | bltzall | bgezall | m16Jal | m16Jalx | m16Jr | m16JrRa | m16Jalr | m16Jrc
  | m16JrcRa | m16Jalrc | m16B | m16Beqz | m16Bnez | m16Bteqz | m16Btnez | eret | deret | wait =>
    exact settles_outsideSlot h _
  | m16Extend op =>
    obtain ⟨d, hd, -⟩ := h
    have hrefused : exec (.m16Extend op) s = .refused .extendInDelaySlot := if_pos (by rw [hd]; rfl)
    exact hrefused ▸ settles_refused _
  -- exceptions
  | syscall | break_ | m16Break | lwc1 | lwc2 | ldc1 | ldc2 | swc1 | swc2 | sdc1 | sdc2 | cop1 | cop2 | cop1x | movci =>
    exact settles_raise _ _
  | sdbbp | m16Sdbbp => exact settles_debugBreakpoint s
  | tge | tgeu | tlt | tltu | teq | tne | tgei | tgeiu | tlti | tltiu | teqi | tnei => exact settles_trap h _
  -- coprocessor 0
  | cache => exact settles_needCop0 s _ (settles_advance h (by rfl) _)
  | mfc0 | rdpgpr => exact settles_needCop0 s _ (settles_result h (by rfl) _ _ _)
  | wrpgpr => exact settles_needCop0 s _ (settles_advance h (by simp) _)
  | di | ei => exact settles_needCop0 s _ (settles_result h (by rfl) _ _ _)
  | mtc0 rt rd sel => exact execMtc0_settles h rt rd sel
  | tlbr | tlbwi | tlbwr | tlbp => exact settles_tlbOp h
  | rdhwr =>
    exact settles_ite (settles_raise _ _) (settles_ite (settles_raise _ _) (settles_result h (by rfl) _ _ _))

theorem exec_nop_settles {s : State} {d : Delay} (hd : s.delay = some d) (hb : d.barrier = true) :
    ∃ t, exec .nop s = .next t ∧ t.hazards = [] ∧ t.fetchHazards = [] ∧ t.pc = d.target ∧ t.isaMode = d.mode := by
  obtain ⟨hhazards, hfetch⟩ := exec_settles ⟨d, hd, hb⟩ .nop _ rfl
  exact ⟨_, rfl, hhazards, hfetch, by simp [State.advance, hd], by simp [State.advance, hd]⟩

/-! ## EHB, SYNC and SYNCI -/

theorem State.advance_hazards_nil {s : State} (h : s.hazards = []) (len : Word) : (s.advance len).hazards = [] := by
  unfold State.advance
  split
  · unfold State.land; split
    · rfl
    · exact h
  · exact h

/-- EHB: what it clears and what it keeps (spec 43 R377). -/
theorem exec_ehb_spec (s : State) :
    ∃ t, exec .ehb s = .next t ∧ t.hazards = [] ∧ (NoBarrier s → t.fetchHazards = s.fetchHazards) ∧ t.seen = s.cp0 ∧
      KeepsRegs s t [] ∧ KeepsHiLo s t ∧ KeepsMemory s t [] ∧ t.cp0 = s.cp0 ∧ t.llbit = s.llbit ∧ KeepsOutside s t ∧
      GoesOn s t 4 := by
  have hnil : (State.advance { s with hazards := [] } 4).hazards = [] := State.advance_hazards_nil rfl 4
  have hkept : NoBarrier s → (State.advance { s with hazards := [] } 4).fetchHazards = s.fetchHazards := fun hb => by
    obtain ⟨-, hfetch, -⟩ := State.advance_hazards (s := { s with hazards := [] }) 4 hb
    exact hfetch
  exact ⟨_, rfl, hnil, hkept, (State.seen_eq hnil).trans (by simp),
    keepsRegs_of_gpr (by simp) _, ⟨by simp, by simp, by simp⟩, keepsMemory_of_mem (by simp) _, by simp, by simp,
    ⟨by simp, by simp, by simp, by simp, by simp, by simp⟩, goesOn_advance 4 rfl rfl rfl⟩

/-- The end of an instruction that changes only how far the sequence for new code has come. -/
theorem State.advance_withStale_spec (s : State) (es : List StaleStore) (len : Word) :
    let t := State.advance { s with stale := es } len
    KeepsRegs s t [] ∧ KeepsHiLo s t ∧ KeepsMemory s t [] ∧ KeepsSystem s t ∧ GoesOn s t len :=
  ⟨keepsRegs_of_gpr (by simp) _, ⟨by simp, by simp, by simp⟩, keepsMemory_of_mem (by simp) _,
    keepsSystem_advance len rfl rfl (keepsOutside_refl s) rfl rfl rfl, goesOn_advance len rfl rfl rfl⟩

theorem State.syncAddress_eq (s : State) (va : Word) : ∃ es, s.syncAddress va = { s with stale := es } := by
  unfold State.syncAddress
  dsimp only
  split
  · exact ⟨_, rfl⟩
  · exact ⟨s.stale, rfl⟩

theorem exec_sync_spec (s : State) (stype : Reg) :
    ∃ t, exec (.sync stype) s = .next t ∧ KeepsRegs s t [] ∧ KeepsHiLo s t ∧ KeepsMemory s t [] ∧ KeepsSystem s t ∧
      GoesOn s t 4 :=
  ⟨_, rfl, s.advance_withStale_spec _ 4⟩

theorem exec_synci_spec (s : State) (base : Reg) (offset : BitVec 16) :
    ∃ t, exec (.synci base offset) s = .next t ∧ KeepsRegs s t [] ∧ KeepsHiLo s t ∧ KeepsMemory s t [] ∧
      KeepsSystem s t ∧ GoesOn s t 4 := by
  obtain ⟨es, hes⟩ := s.syncAddress_eq (s.reg base + sext offset)
  refine ⟨_, rfl, ?_⟩
  rw [hes]
  exact s.advance_withStale_spec es 4

/-! ## The sequence for new code (spec 20 R141) -/

/-- Every store that touches the word at `a` has passed its SYNCI. -/
def SyncedAt (es : List StaleStore) (a : Nat) : Prop := ∀ e ∈ es, e.touches a = true → e.stage ≠ .stored

/-- Every store that touches the word at `a` has passed its SYNCI and the SYNC after it. -/
def OrderedAt (es : List StaleStore) (a : Nat) : Prop := ∀ e ∈ es, e.touches a = true → e.stage = .ordered

theorem syncedAt_syncAddress {s : State} {va : Word} (h : ¬ AddressError s .byte va) :
    SyncedAt (s.syncAddress va).stale (wordAt s va).toNat := by
  have hallowed : allowed s.seen va = true := by rw [addressError_byte_iff] at h; simpa using h
  intro e he ht
  rw [wordAt, translate_wordAddress] at ht
  simp only [State.syncAddress, if_pos hallowed, List.mem_map] at he
  obtain ⟨e₀, -, rfl⟩ := he
  split at ht
  case isTrue hstored => simp [hstored]
  case isFalse hnot =>
    rw [if_neg hnot]
    intro hs
    simp [ht, hs] at hnot

theorem orderedAt_orderStores {s : State} {a : Nat} (h : SyncedAt s.stale a) : OrderedAt s.orderStores.stale a := by
  intro e he ht
  obtain ⟨e₀, h₀, rfl⟩ := List.mem_map.1 he
  split at ht
  case isTrue hsynced => rw [if_pos hsynced]
  case isFalse hnot =>
    rw [if_neg hnot]
    have hstored := h e₀ h₀ ht
    cases hstage : e₀.stage with
    | stored => exact absurd hstage hstored
    | synced => exact absurd hstage hnot
    | ordered => rfl

theorem touches_false_of_elsewhere {e : StaleStore} {a : Nat} (ha : a % 4 = 0) (h : ∀ c ∈ e.cells, c.1 / 4 ≠ a / 4) :
    e.touches a = false := by
  simp only [StaleStore.touches, List.any_eq_false, Bool.and_eq_true, decide_eq_true_eq]
  intro c hc
  have := h c hc
  omega

/-- A store elsewhere leaves a word's sequence as it is. -/
theorem OrderedAt.append {new es : List StaleStore} {a : Nat} (h : OrderedAt es a) (ha : a % 4 = 0)
    (hnew : ∀ e ∈ new, ∀ c ∈ e.cells, c.1 / 4 ≠ a / 4) : OrderedAt (new ++ es) a := by
  intro e he ht
  rcases List.mem_append.1 he with he | he
  · rw [touches_false_of_elsewhere ha (hnew e he)] at ht; cases ht
  · exact h e he ht

/-- The fetches of an aligned word see memory as it is. -/
def Visible (s : State) (a : Word) : Prop := ∀ f pa : Word, wordAddress pa = a → s.fetchByte f pa = s.busByte pa

/-- The end of the sequence: no pending store touches the word, so fetches see it (spec 20 R141). -/
theorem visible_of_orderedAt {s t : State} {a : Word} (h : OrderedAt s.stale a.toNat)
    (ht : t.stale = s.endNewCode.stale) : Visible t a := by
  rintro f pa rfl
  refine State.fetchByte_untouched (fun e he => Bool.eq_false_iff.2 fun htouch => ?_) f
  rw [ht, State.endNewCode, List.mem_filter] at he
  obtain ⟨hmem, hstage⟩ := he
  simp [h e hmem htouch] at hstage

/-- The jump with barrier keeps the pending stores, and what follows stands in its slot. -/
theorem Jumps.barrierSlot {i : Instr} {s t : State} {len target : Word} {mode : Isa} {link : Option (Reg × Word)}
    (h : Jumps i s len target mode true link) (hd : s.delay = none) (ht : exec i s = .next t) :
    t.stale = s.stale ∧ InBarrierSlot t := by
  obtain ⟨t', ht', ⟨-, -, hdelay⟩, ⟨-, -, -, -, hstale⟩, -⟩ := h
  cases ht.symm.trans ht'
  exact ⟨hstale (by simp [NoBarrier, hd]), _, hdelay, rfl⟩

/-- What JR.HB and JALR.HB do outside a slot, by O20. -/
theorem exec_barrierJump {s t : State} {rd rs : Reg} {hint : BitVec 4} {i : Instr} (hd : s.delay = none)
    (hi : i = .jrHb rs hint ∨ i = .jalrHb rd rs hint) (ht : exec i s = .next t) :
    t.stale = s.stale ∧ InBarrierSlot t := by
  obtain ⟨-, hjrHb, hlinked, hrefused⟩ := (registerJumps s rd rs).2 hd hint
  rcases hi with rfl | rfl
  · exact hjrHb.barrierSlot hd ht
  · by_cases hr : rd = rs
    · rw [(hrefused hr).2] at ht; cases ht
    · exact (hlinked hr).2.barrierSlot hd ht

theorem State.advance_stale_of_barrierSlot {s : State} (h : InBarrierSlot s) (len : Word) :
    (s.advance len).stale = s.endNewCode.stale := by
  obtain ⟨d, hd, hb⟩ := h
  simp only [State.advance, hd, State.land, hb, if_true]
  rfl

theorem State.returnFromException_stale (s : State) : s.returnFromException.stale = s.endNewCode.stale := by
  unfold State.returnFromException
  dsimp only
  split <;> rfl

/-- After SYNCI and SYNC outside a slot every store into the word is ordered, and no transfer is pending. -/
theorem orderedAt_of_synci_sync {s t u : State} {base stype : Reg} {offset : BitVec 16} (hd : s.delay = none)
    (ha : ¬ AddressError s .byte (s.reg base + sext offset)) (ht : exec (.synci base offset) s = .next t)
    (hu : exec (.sync stype) t = .next u) :
    u.delay = none ∧ OrderedAt u.stale (wordAt s (s.reg base + sext offset)).toNat := by
  have ht' : t = (s.syncAddress (s.reg base + sext offset)).advance 4 := by cases ht; rfl
  have hu' : u = t.orderStores.advance 4 := by cases hu; rfl
  rw [State.advance_of_none (by simpa using hd)] at ht'
  have htd : t.delay = none := by rw [ht']; simpa using hd
  have hts : t.stale = (s.syncAddress (s.reg base + sext offset)).stale := by rw [ht']
  rw [State.advance_of_none (by simpa using htd)] at hu'
  refine ⟨by rw [hu']; exact htd, ?_⟩
  rw [hu']
  exact orderedAt_orderStores (hts ▸ syncedAt_syncAddress ha)

theorem wordAt_mod_four (s : State) (va : Word) : (wordAt s va).toNat % 4 = 0 := by
  rw [wordAt, translate_wordAddress, wordAddress_toNat]; omega

/-- The sequence ended by a jump with barrier and an instruction in its slot that stores elsewhere, if anywhere. -/
theorem visible_after_barrierJump {u w x : State} {rd rs : Reg} {hint : BitVec 4} {j : Instr} {a : Word}
    {new : List StaleStore} (hd : u.delay = none) (ho : OrderedAt u.stale a.toNat) (ha : a.toNat % 4 = 0)
    (hj : j = .jrHb rs hint ∨ j = .jalrHb rd rs hint) (hw : exec j u = .next w) (hx : x.delay = w.delay)
    (hs : x.stale = new ++ w.stale) (hnew : ∀ e ∈ new, ∀ c ∈ e.cells, c.1 / 4 ≠ a.toNat / 4) (len : Word) :
    Visible (x.advance len) a := by
  obtain ⟨hws, d, hwd, hb⟩ := exec_barrierJump hd hj hw
  have hox : OrderedAt x.stale a.toNat := by
    rw [hs, hws]
    exact ho.append ha hnew
  exact visible_of_orderedAt hox (State.advance_stale_of_barrierSlot ⟨d, hx.trans hwd, hb⟩ len)

theorem visible_after_eret {u v : State} {a : Word} (hd : u.delay = none) (hu : (u.view .eret).cop0Usable = true)
    (ho : OrderedAt u.stale a.toNat) (hv : exec .eret u = .next v) : Visible v a := by
  have hexec : exec .eret u = .next u.returnFromException := (outsideSlot_of_none hd _).trans (needCop0_usable hu _)
  cases hexec.symm.trans hv
  exact visible_of_orderedAt ho u.returnFromException_stale

/-- Settles O24: the no-operations only advance, every instruction in a barrier's slot settles the hazards, and the sequence for new code leaves no pending store to its word. -/
theorem noOperationsAndBarriers : Obligations.NoOperationsAndBarriers := by
  intro s stype base offset rd rs hint
  refine ⟨reads_of_eq_encode (by decide), doesNothing_of_advance rfl, reads_of_eq_encode (by decide),
    doesNothing_of_advance rfl, reads_of_eq_encode (by decide), exec_ehb_spec s, fun d hd hb => ?barrier,
    reads_rWord rfl rfl, exec_sync_spec s stype, reads_regimm 0x1F rfl rfl, exec_synci_spec s base offset, ?newCode⟩
  case barrier => exact ⟨exec_nop_settles hd hb, fun i => exec_settles ⟨d, hd, hb⟩ i⟩
  case newCode =>
    intro t u va visible hd ht hu ha
    have hva : va = s.reg base + sext offset := (add_sext _ _).symm
    obtain ⟨hud, ho⟩ := orderedAt_of_synci_sync hd (hva ▸ ha) ht hu
    rw [← hva] at ho
    refine ⟨fun j i w x len hj hw _ hx ⟨new, hs, hnew⟩ => ?jump, fun husable v hv => ?eret⟩
    case jump => exact visible_after_barrierJump hud ho (wordAt_mod_four s va) hj hw hx hs hnew len
    case eret => exact visible_after_eret hud husable ho hv

end Sys2Proof.Machine
end

section
/-! PROOFS. Moves from and to coprocessor 0, its returns, and the instructions that need it. -/

namespace Sys2Proof.Machine

/-! ## Words of coprocessor 0 -/

/-- A select in bits 2:0 changes only the function field (spec 44 R403, R408). -/
theorem Fields.ofWord_or_sel (w : Word) (sel : Reg3) :
    Fields.ofWord (w ||| sel.setWidth 32) =
      { Fields.ofWord w with fn := (Fields.ofWord w).fn ||| (0#3 ++ sel) } := by
  have hlow : (sel.setWidth 32).extractLsb' 0 6 = 0#3 ++ sel := by revert sel; decide
  have hhigh : ∀ start len, 3 ≤ start → (sel.setWidth 32).extractLsb' start len = 0#len := fun start len h => by
    apply BitVec.eq_of_getLsbD_eq
    intro i _
    have hi : sel.getLsbD (start + i) = false := BitVec.getLsbD_of_ge _ _ (by omega)
    simp [BitVec.getLsbD_extractLsb', BitVec.getLsbD_setWidth, hi]
  simp only [Fields.ofWord, BitVec.extractLsb'_or, hlow, hhigh 26 6 (by decide), hhigh 21 5 (by decide),
    hhigh 16 5 (by decide), hhigh 11 5 (by decide), hhigh 6 5 (by decide), BitVec.or_zero]

/-- MFC0 and MTC0: a number in the place of `rs`, and a select (spec 44 R403, R408). -/
theorem reads_moveWord {m : Word} {fixedRs : BitVec 5} {rt rd : Reg} {sel : Reg3} {i : Instr}
    (hm : Fields.ofWord m = ⟨0x10, fixedRs, 0, 0, 0, 0⟩) (hw : i.WellFormed = true)
    (he : encode i = .word ⟨0x10, fixedRs, rt, rd, 0, 0#3 ++ sel⟩) :
    Reads (rWord m 0 rt rd 0 ||| sel.setWidth 32) i := by
  refine reads_of_encode (decodeEncode i) hw he ?_
  rw [Fields.ofWord_or_sel, Fields.ofWord_rWord_op hm]
  simp only [BitVec.ofNat_eq_ofNat, BitVec.or_zero, BitVec.zero_or]

/-- DI and EI: a word with only the field `rt` free (spec 44 R409, R415). -/
theorem reads_rtWord {m : Word} {op fn : BitVec 6} {fixedRs fixedRd : BitVec 5} {rt : Reg} {i : Instr}
    (hm : Fields.ofWord m = ⟨op, fixedRs, 0, fixedRd, 0, fn⟩) (hw : i.WellFormed = true)
    (he : encode i = .word ⟨op, fixedRs, rt, fixedRd, 0, fn⟩) : Reads (rWord m 0 rt 0 0) i := by
  refine reads_of_encode (decodeEncode i) hw he ?_
  simp only [Fields.ofWord, Fields.mk.injEq] at hm
  obtain ⟨hop, hrs, hrt, hrd, hsa, hfn⟩ := hm
  rw [Fields.ofWord_rWord, hop, hrs, hrt, hrd, hsa, hfn]
  simp only [BitVec.ofNat_eq_ofNat, BitVec.or_zero, BitVec.zero_or]

/-! ## The registers as words, where the layouts do not say it yet -/

/-- IntCtl as a word (spec 10 R54). -/
theorem intCtlWord_eq (vs : BitVec 5) : intCtlWord vs = vs.setWidth 32 <<< 5 := by
  revert vs; decide

/-- PRId as a word (spec 10 R66). -/
theorem prIdWord_eq : prIdWord = 0x00018700 + Config.pridRevision.setWidth 32 := by
  unfold prIdWord
  generalize Config.pridRevision = revision
  revert revision; decide

/-- EBase as a word: its top bit is no bit of the base (spec 10 R67). -/
theorem ebaseWord_eq_add (base : BitVec 18) : ebaseWord base = 0x80000000 + base.setWidth 32 <<< 12 := by
  have hdisjoint : 0x80000000#32 &&& base.setWidth 32 <<< 12 = 0#32 := by
    apply BitVec.eq_of_getLsbD_eq
    intro i hi
    interval_cases i <;> simp
  exact (ebaseWord_eq base).trans (BitVec.add_eq_or_of_and_eq_zero _ _ hdisjoint).symm

/-- DEBUG read outside Debug mode: DM and VER (spec 10 R73). -/
theorem Debug.toWordOutside_spec (d : Debug) (free : Word) :
    (d.toWordOutside free).getLsbD 30 = d.dm ∧ (d.toWordOutside free).extractLsb' 15 3 = 2 := by
  have hword : ∀ i, (d.toWordOutside free).getLsbD i =
      (free.extractLsb' 31 1 ++ bit d.dm ++ free.extractLsb' 18 12 ++ 2#3 ++ free.extractLsb' 0 15 :
        BitVec (1 + 1 + 12 + 3 + 15)).getLsbD i := fun _ => rfl
  constructor
  · rw [hword]
    simp only [BitVec.getLsbD_append]
    simp
  · apply BitVec.eq_of_getLsbD_eq
    intro i hi
    simp only [BitVec.getLsbD_extractLsb', hword, BitVec.getLsbD_append]
    interval_cases i <;> simp

/-- What a read of DEBUG tells: DM and VER, and in Debug mode every other field, the reserved bits zero (spec 10 R73). -/
def DebugWord (v : Word) (d : Debug) : Prop :=
  v.getLsbD 30 = d.dm ∧ v.extractLsb' 15 3 = 2 ∧
    (d.dm = true → v.getLsbD 31 = d.dbd ∧ v.getLsbD 28 = d.lsnm ∧ v.getLsbD 27 = d.doze ∧ v.getLsbD 26 = d.halt ∧
      v.getLsbD 25 = d.countDm ∧ v.getLsbD 24 = d.ibusep ∧ v.getLsbD 21 = d.dbusep ∧ v.getLsbD 20 = d.iexi ∧
      v.extractLsb' 10 5 = d.dexcCode ∧ v.getLsbD 8 = d.sst ∧ v.getLsbD 5 = d.dint ∧ v.getLsbD 4 = d.dib ∧
      v.getLsbD 3 = d.ddbs ∧ v.getLsbD 2 = d.ddbl ∧ v.getLsbD 1 = d.dbp ∧ v.getLsbD 0 = d.dss ∧ v &&& 0x20CC02C0 = 0)

theorem Debug.toWord_debugWord (d : Debug) : DebugWord d.toWord d := by
  obtain ⟨hdbd, hlsnm, hdoze, hhalt, hcount, hibus, hdbus, hiexi, hcode, hsst, hdint, hdib, hddbs, hddbl, hdbp, hdss,
    hzero, hdm, hver⟩ := d.toWord_spec
  exact ⟨hdm, hver, fun _ => ⟨hdbd, hlsnm, hdoze, hhalt, hcount, hibus, hdbus, hiexi, hcode, hsst, hdint, hdib, hddbs,
    hddbl, hdbp, hdss, hzero⟩⟩

theorem Cp0.read_debug (c : Cp0) (free : Draw → Word) : DebugWord (c.read free 23 0) c.debugReg := by
  have hread : c.read free 23 0 =
      if c.debugReg.dm then c.debugReg.toWord else c.debugReg.toWordOutside (free .debugRead) := rfl
  rw [hread]
  split
  case isTrue => exact c.debugReg.toWord_debugWord
  case isFalse hdm =>
    obtain ⟨hbit, hver⟩ := c.debugReg.toWordOutside_spec (free .debugRead)
    exact ⟨hbit, hver, fun h => absurd h hdm⟩

/-! ## MFC0 -/

section
variable {s : State} (usable : (s.view .coprocessor).cop0Usable = true) (rt : Reg) {rd : Reg} {sel : Reg3}
include usable

theorem writes_mfc0 (rd : Reg) (sel : Reg3) : Writes (.mfc0 rt rd sel) s 4 rt (s.seen.read s.free rd sel) :=
  writes_of_result (needCop0_usable usable _)

/-- MFC0 of the register with a number and a select writes what that register reads as. -/
theorem mfc0_reads {n k : Nat} {p : Word → Prop}
    (h : p (s.seen.read s.free (BitVec.ofNat 5 n) (BitVec.ofNat 3 k))) (hn : rd.toNat = n) (hk : sel.toNat = k) :
    ∃ v, Writes (.mfc0 rt rd sel) s 4 rt v ∧ p v := by
  subst hn hk
  simp only [BitVec.ofNat_toNat, BitVec.setWidth_eq] at h
  exact ⟨_, writes_mfc0 usable rt rd sel, h⟩

end

/-- Settles O30: MFC0 is a result, and each register reads as the word of its layout. -/
theorem moveFromCoprocessor0 : Obligations.MoveFromCoprocessor0 := by
  intro s rt rd sel c reads
  refine ⟨reads_moveWord rfl rfl rfl, needsCop0_of_needCop0 rfl, fun usable => ?_⟩
  have value := @mfc0_reads s usable rt rd sel
  exact ⟨⟨_, writes_mfc0 usable rt rd sel⟩, value rfl, value rfl, value rfl, value rfl,
    value (Status.toWord_spec c.status), value (intCtlWord_eq c.intCtlVs), value (SrsCtl.toWord_spec c.srsCtl), value rfl,
    value (Cause.toWord_spec c.cause), value rfl, value prIdWord_eq, value (ebaseWord_eq_add c.ebase),
    value (Config0.toWord_spec c.config), value rfl, value rfl, value rfl, value (c.read_debug s.free), value rfl,
    value rfl, value rfl⟩

/-! ## MTC0 -/

/-- The instruction completes with the registers `c` in coprocessor 0, and changes no register, memory or LLbit (spec 44 R408). -/
def WritesCp0 (i : Instr) (s : State) (c : Cp0) : Prop :=
  ∃ t, exec i s = .next t ∧ t.cp0 = c ∧ KeepsRegs s t [] ∧ KeepsHiLo s t ∧ KeepsMemory s t [] ∧ t.llbit = s.llbit ∧
    KeepsOutside s t ∧ GoesOn s t 4

/-- The registers that MTC0 writes (spec 44 R408, 10 R40, R41). -/
theorem hazardReg_eq_none {rd : Reg} {sel : Reg3}
    (h : (rd.toNat, sel.toNat) ∉ [(7, 0), (9, 0), (11, 0), (12, 0), (12, 1), (12, 2), (12, 3), (13, 0), (14, 0), (15, 1),
      (16, 0), (23, 0), (24, 0), (30, 0), (31, 0)]) : hazardReg rd sel = none := by
  unfold hazardReg
  split
  case h_16 => rfl
  all_goals
    rename_i hn hk
    rw [hn, hk] at h
    exact absurd h (by decide)

/-- A write that makes no hazard is one of a read-only or reserved register, which keeps its value (spec 10 R41). -/
theorem Cp0.write_of_hazardReg_none {rd : Reg} {sel : BitVec 3} (h : hazardReg rd sel = none) (c seen : Cp0) (pc v : Word) :
    c.write seen pc rd sel v = .ok c := by
  unfold Cp0.write
  split
  case h_16 => rfl
  all_goals
    rename_i hn hk
    simp [hazardReg, hn, hk] at h

theorem State.writeCp0_cp0_of_write {s : State} {seen c : Cp0} {pc v : Word} {rd : Reg} {sel : BitVec 3}
    (h : s.cp0.write seen pc rd sel v = .ok c) : (s.writeCp0 rd sel c).cp0 = c := by
  rw [State.writeCp0_cp0]
  cases hz : hazardReg rd sel with
  | some k => rfl
  | none =>
    rw [Cp0.write_of_hazardReg_none hz] at h
    cases h
    rfl

/-- The allowed values of IntCtl.VS, as the statement lists them (spec 10 R55). -/
theorem legalSpacing_iff (vs : BitVec 5) : legalSpacing vs = true ↔ vs ∈ [0, 1, 2, 4, 8, 16] := by
  revert vs; decide

theorem legalSrsMap_iff (v : Word) :
    legalSrsMap v = true ↔ ∀ k < 8, (v.extractLsb' (4 * k) 4).toNat ≤ Config.hss := by
  simp [legalSrsMap, List.all_eq_true]

theorem setOfField_of_le {n : BitVec 4} (h : n.toNat < Config.hss + 1) : setOfField n = some ⟨n.toNat, h⟩ := dif_pos h

theorem setOfField_of_lt {n : BitVec 4} (h : Config.hss < n.toNat) : setOfField n = none := dif_neg (by omega)

theorem SrsCtl.write_ok (c : SrsCtl) {v : Word} (hess : (v.extractLsb' 12 4).toNat < Config.hss + 1)
    (hpss : (v.extractLsb' 6 4).toNat < Config.hss + 1) :
    c.write v = .ok { c with ess := ⟨_, hess⟩, pss := ⟨_, hpss⟩ } := by
  rw [SrsCtl.write, setOfField_of_le hess, setOfField_of_le hpss]

theorem SrsCtl.write_fault (c : SrsCtl) {v : Word}
    (h : Config.hss < (v.extractLsb' 12 4).toNat ∨ Config.hss < (v.extractLsb' 6 4).toNat) :
    c.write v = .error .shadowSetTooLarge := by
  rw [SrsCtl.write]
  rcases h with h | h
  · rw [setOfField_of_lt h]
  · rw [setOfField_of_lt h]
    cases setOfField (v.extractLsb' 12 4) <;> rfl

theorem Cp0.write_srsCtl_ok {c : Cp0} {v : Word} {r : SrsCtl} (h : c.srsCtl.write v = .ok r) (seen : Cp0) (pc : Word) :
    c.write seen pc 12 2 v = .ok { c with srsCtl := r } := by
  simp [Cp0.write, h]

theorem Cp0.write_srsCtl_fault {c : Cp0} {v : Word} {f : Fault} (h : c.srsCtl.write v = .error f) (seen : Cp0) (pc : Word) :
    c.write seen pc 12 2 v = .error f := by
  simp [Cp0.write, h]

/-- EBase is written while BEV is 1, or with the base it has (spec 10 R67). -/
theorem Cp0.write_ebase {c seen : Cp0} {v : Word}
    (h : seen.status.bev = true ∨ v.extractLsb' 12 18 = c.ebase) (pc : Word) :
    c.write seen pc 15 1 v = .ok { c with ebase := v.extractLsb' 12 18 } :=
  if_neg (by rcases h with h | h <;> simp [h])

theorem Cp0.write_ebase_fault {c seen : Cp0} {v : Word} (hbev : seen.status.bev = false)
    (hne : v.extractLsb' 12 18 ≠ c.ebase) (pc : Word) : c.write seen pc 15 1 v = .error .ebaseWithoutBev :=
  if_pos (by simp [hbev, hne])

section
variable {s : State} (usable : (s.view .coprocessor).cop0Usable = true) {rt rd : Reg} {sel : Reg3}
include usable

theorem writesCp0_of_write {c : Cp0} (h : s.cp0.write s.seen s.pc rd sel (s.reg rt) = .ok c) :
    WritesCp0 (.mtc0 rt rd sel) s c :=
  ⟨_, exec_mtc0_ok usable h, (State.advance_cp0 _ _).trans (State.writeCp0_cp0_of_write h),
    State.writeCp0_advance_frame s rd sel c⟩

/-- MTC0 to the register with a number and a select, where the write is allowed. -/
theorem mtc0_writes {n k : Nat} {c : Cp0} (hn : rd.toNat = n) (hk : sel.toNat = k)
    (h : s.cp0.write s.seen s.pc (BitVec.ofNat 5 n) (BitVec.ofNat 3 k) (s.reg rt) = .ok c) :
    WritesCp0 (.mtc0 rt rd sel) s c := by
  subst hn hk
  simp only [BitVec.ofNat_toNat, BitVec.setWidth_eq] at h
  exact writesCp0_of_write usable h

/-- MTC0 to the register with a number and a select, where the write stops (log 11 for CAUSE bit 22, else UNDEFINED). -/
theorem mtc0_stops {n k : Nat} {f : Fault} (hn : rd.toNat = n) (hk : sel.toNat = k)
    (h : s.cp0.write s.seen s.pc (BitVec.ofNat 5 n) (BitVec.ofNat 3 k) (s.reg rt) = .error f) :
    exec (.mtc0 rt rd sel) s = .fault f := by
  subst hn hk
  simp only [BitVec.ofNat_toNat, BitVec.setWidth_eq] at h
  exact exec_mtc0_fault usable h

end

/-- Settles O31: what `Cp0.write` answers for each register, with the frame of every MTC0. -/
theorem moveToCoprocessor0 : Obligations.MoveToCoprocessor0 := by
  intro s rt rd sel c v i gives writes setOf
  refine ⟨reads_moveWord rfl rfl rfl, needsCop0_of_needCop0 rfl, fun usable => ?_⟩
  have ok := @mtc0_writes s usable rt rd sel
  have stops := @mtc0_stops s usable rt rd sel
  refine ⟨(ok · · rfl), (ok · · rfl), (ok · · rfl), ?spacing, ?spacingReserved, ?sets, ?setsTooLarge, ?map, ?mapTooLarge,
    ?cause, ?causeRefused, (ok · · rfl), ?ebase, ?ebaseWithoutBev, (ok · · rfl), ?debugOutside, ?debug, (ok · · rfl),
    (ok · · rfl), (ok · · rfl), ?reserved⟩
  case spacing => exact fun hn hk h => ok hn hk (if_pos ((legalSpacing_iff _).2 h))
  case spacingReserved => exact fun hn hk h => stops hn hk (if_neg (mt (legalSpacing_iff _).1 h))
  case sets => exact fun hn hk hess hpss => ok hn hk (Cp0.write_srsCtl_ok (c.srsCtl.write_ok hess hpss) _ _)
  case setsTooLarge => exact fun hn hk h => stops hn hk (Cp0.write_srsCtl_fault (c.srsCtl.write_fault h) _ _)
  case map => exact fun hn hk h => ok hn hk (if_pos ((legalSrsMap_iff v).2 h))
  case mapTooLarge =>
    intro hn hk ⟨k, hlt, hset⟩
    exact stops hn hk (if_neg fun h => Nat.not_le.2 hset ((legalSrsMap_iff v).1 h k hlt))
  case cause => exact fun hn hk h => ok hn hk (if_neg (Bool.eq_false_iff.1 h))
  case causeRefused => exact fun hn hk h => stops hn hk (if_pos h)
  case ebase => exact fun hn hk h => ok hn hk (Cp0.write_ebase h _)
  case ebaseWithoutBev => exact fun hn hk hbev hne => stops hn hk (Cp0.write_ebase_fault hbev hne _)
  case debugOutside => exact fun hn hk h => stops hn hk (if_neg (Bool.eq_false_iff.1 h))
  case debug => exact fun hn hk h => ok hn hk (if_pos h)
  case reserved => exact fun h => writesCp0_of_write usable (Cp0.write_of_hazardReg_none (hazardReg_eq_none h) _ _ _ _)

/-! ## DI and EI -/

/-- The instruction returns the old STATUS in `rt` and sets IE to `b` (spec 44 R409, R415). -/
def SetsInterruptEnable (i : Instr) (s : State) (rt : Reg) (b : Bool) : Prop :=
  ∃ t v, exec i s = .next t ∧ StatusWord v s.seen.status ∧ t.reg rt = (if rt = 0 then 0 else v) ∧
    t.cp0 = { s.cp0 with status := { s.cp0.status with ie := b } } ∧
    KeepsRegs s t [rt] ∧ KeepsHiLo s t ∧ KeepsMemory s t [] ∧ t.llbit = s.llbit ∧ KeepsOutside s t ∧ GoesOn s t 4

theorem setsInterruptEnable_of_result {i : Instr} {s : State} {rt : Reg} {b : Bool}
    (h : exec i s = (s.setInterruptEnable b).result 4 rt s.seen.status.toWord) : SetsInterruptEnable i s rt b := by
  obtain ⟨t, hresult, hreg, ⟨hregs, hhilo, hmem, ⟨hcp0, hllbit, houtside, _⟩, _⟩, hgoes⟩ :=
    (s.setInterruptEnable b).result_spec 4 rt s.seen.status.toWord
  exact ⟨t, _, h.trans hresult, Status.toWord_spec _, hreg, hcp0, hregs, hhilo, hmem, hllbit, houtside, hgoes⟩

/-- Settles O33: both are a result from a state with IE written. -/
theorem interruptEnable : Obligations.InterruptEnable := by
  intro s rt gives
  exact ⟨reads_rtWord rfl rfl rfl, needsCop0_of_needCop0 rfl, reads_rtWord rfl rfl rfl, needsCop0_of_needCop0 rfl,
    fun usable => ⟨setsInterruptEnable_of_result (needCop0_usable usable _),
      setsInterruptEnable_of_result (needCop0_usable usable _)⟩⟩

/-! ## RDPGPR and WRPGPR -/

theorem State.writeSet_regOf_self (s : State) (k : ShadowSet) (r : Reg) (v : Word) :
    (s.writeSet k r v).regOf k r = if r = 0 then 0 else v := by
  rw [State.regOf_writeSet]
  by_cases h : r = 0
  · rw [if_neg fun ⟨_, _, hne⟩ => hne h, if_pos h, h, State.regOf_zero]
  · rw [if_pos ⟨rfl, rfl, h⟩, if_neg h]

theorem State.writeSet_regOf_other (s : State) {j k : ShadowSet} {q r : Reg} (h : ¬ (j = k ∧ q = r)) (v : Word) :
    (s.writeSet k r v).regOf j q = s.regOf j q := by
  rw [State.regOf_writeSet, if_neg fun ⟨hset, hreg, _⟩ => h ⟨hset, hreg⟩]

/-- Settles O34: RDPGPR is a result, and WRPGPR a write of one register of the previous set. -/
theorem shadowSetMoves : Obligations.ShadowSetMoves := by
  intro s rd rt k
  refine ⟨reads_rWord_fixed rfl BitVec.or_zero BitVec.zero_or (decodeFields_of_encode rfl rfl), needsCop0_of_needCop0 rfl,
    reads_rWord_fixed rfl BitVec.or_zero BitVec.zero_or (decodeFields_of_encode rfl rfl), needsCop0_of_needCop0 rfl,
    fun usable => ⟨writes_of_result (needCop0_usable usable _), _, needCop0_usable usable _, ?written, ?kept,
      ⟨by simp, by simp, by simp⟩, keepsMemory_of_mem (by simp) _, ?system, goesOn_advance 4 (by simp) (by simp) (by simp)⟩⟩
  case written => rw [State.advance_regOf, State.writeSet_regOf_self]
  case kept =>
    intro j r hother
    rw [State.advance_regOf, State.writeSet_regOf_other s hother]
  case system =>
    exact keepsSystem_advance 4 (by simp) (by simp) ⟨by simp, by simp, by simp, by simp, by simp, by simp⟩ (by simp)
      (by simp) (by simp)

/-! ## ERET and DERET -/

/-- The return of ERET and DERET to the address `a`, with a barrier (spec 44 R404, R405). -/
def State.returnTo (s : State) (a : Word) (llbit : Bool) (c : Cp0) : State :=
  State.barrier { s with pc := clearIsaBit a, isaMode := isaOfBit (a.getLsbD 0), llbit := llbit, cp0 := c }

/-- Control goes to `a` and its mode, no hazard stays, and neither registers nor memory change. -/
def ArrivesAt (s t : State) (a : Word) : Prop :=
  t.pc = goalOf a ∧ t.isaMode = modeOf a ∧ t.delay = none ∧ t.hazards = [] ∧ t.fetchHazards = [] ∧ KeepsRegs s t [] ∧
    KeepsHiLo s t ∧ KeepsMemory s t [] ∧ KeepsOutside s t

theorem arrives_of_returnTo {i : Instr} {s : State} {a : Word} {llbit : Bool} {c : Cp0} (hd : s.delay = none)
    (h : exec i s = .next (s.returnTo a llbit c)) :
    ∃ t, exec i s = .next t ∧ ArrivesAt s t a ∧ t.llbit = llbit ∧ t.cp0 = c :=
  ⟨_, h, ⟨clear_isa_bit_eq a, isa_of_bit_eq a, hd, rfl, rfl, keepsRegs_of_gpr rfl _, ⟨rfl, rfl, rfl⟩,
    keepsMemory_of_mem rfl _, ⟨rfl, rfl, rfl, rfl, rfl, rfl⟩⟩, rfl, rfl⟩

theorem State.returnFromException_of_erl {s : State} (h : s.cp0.status.erl = true) :
    s.returnFromException = s.returnTo (s.view .eret).errorEpc false
      { s.cp0 with status := { s.cp0.status with erl := false } } :=
  congrArg State.barrier (if_pos h)

theorem State.returnFromException_of_not_erl {s : State} (h : s.cp0.status.erl = false) :
    s.returnFromException = s.returnTo (s.view .eret).epc false
      { s.cp0 with
        status := { s.cp0.status with exl := false }
        srsCtl := { s.cp0.srsCtl with
          css := if (s.view .eret).status.bev = false then (s.view .eret).srsCtl.pss else s.cp0.srsCtl.css } } := by
  refine (congrArg State.barrier (if_neg (Bool.eq_false_iff.1 h))).trans ?_
  cases (s.view .eret).status.bev <;> rfl

theorem State.returnFromDebug_eq (s : State) :
    s.returnFromDebug = s.returnTo (s.view .eret).depc s.llbit
      { s.cp0 with debugReg := { s.cp0.debugReg with dm := false, iexi := false } } := rfl

theorem HazardReg.put_dm (r : HazardReg) (dst src : Cp0) : (r.put dst src).debugReg.dm = dst.debugReg.dm := by
  cases r <;> rfl

theorem putPart_dm (p : HazardPart) (dst src : Cp0) : (putPart p dst src).debugReg.dm = dst.debugReg.dm := by
  cases p <;> rfl

/-- No write of coprocessor 0 changes DEBUG.DM, so every consumer sees it as it is (spec 10 R73). -/
theorem State.view_dm (s : State) (use : Consumer) : (s.view use).debugReg.dm = s.cp0.debugReg.dm := by
  refine State.view_field (fun c => c.debugReg.dm) use fun x _ old older now hold => ?_
  have hwhole : (if x.distance ≤ x.reg.spacing use && old .main then older else x.reg.put older now).debugReg.dm =
      now.debugReg.dm := by
    have hnow := hold.trans (HazardReg.put_dm _ _ _)
    split
    · exact hnow
    · exact (HazardReg.put_dm _ _ _).trans hnow
  unfold Hazard.apply
  cases x.reg.part use with
  | none => exact hwhole
  | some part => exact (putPart_dm _ _ _).trans hwhole

theorem Cp0.cop0Usable_of_dm {c : Cp0} (h : c.debugReg.dm = true) : c.cop0Usable = true := by
  simp [Cp0.cop0Usable, Cp0.debugMode, h]

theorem exec_eret {s : State} (hd : s.delay = none) (usable : (s.view .eret).cop0Usable = true) :
    exec .eret s = .next s.returnFromException :=
  (outsideSlot_of_none hd _).trans (needCop0_usable usable _)

theorem exec_deret {s : State} (hd : s.delay = none) (usable : (s.view .eret).cop0Usable = true) :
    exec .deret s = .next (if s.cp0.debugReg.dm then s.returnFromDebug else s.raise .ri) :=
  (outsideSlot_of_none hd _).trans (needCop0_usable usable _)

theorem needsCop0_eret {s : State} (hd : s.delay = none) : NeedsCop0 .eret s .eret :=
  needsCop0_of_needCop0 (outsideSlot_of_none hd _)

theorem needsCop0_deret {s : State} (hd : s.delay = none) : NeedsCop0 .deret s .eret :=
  needsCop0_of_needCop0 (outsideSlot_of_none hd _)

/-- Settles O35: ERET by ERL and DERET by Debug mode, which makes coprocessor 0 usable, are one return. -/
theorem returns : Obligations.Returns := by
  intro s c arrives
  refine ⟨reads_of_eq_encode (by decide), reads_of_eq_encode (by decide), fun hd =>
    ⟨needsCop0_eret hd, fun usable => ⟨fun herl => ?error, fun herl => ?exception⟩, fun hdm => ?debug,
      fun hdm usable => ?reserved, needsCop0_deret hd⟩⟩
  case error => exact arrives_of_returnTo hd (by rw [exec_eret hd usable, State.returnFromException_of_erl herl])
  case exception => exact arrives_of_returnTo hd (by rw [exec_eret hd usable, State.returnFromException_of_not_erl herl])
  case debug =>
    have usable : c.cop0Usable = true := Cp0.cop0Usable_of_dm ((s.view_dm .eret).trans hdm)
    exact arrives_of_returnTo hd (by rw [exec_deret hd usable, if_pos hdm, State.returnFromDebug_eq])
  case reserved => exact raises_of_raise (by rw [exec_deret hd usable, if_neg (Bool.eq_false_iff.1 hdm)]) hdm

/-! ## The TLB instructions -/

/-- Settles O36: all four are `State.tlbOp`, which the parameter decides. -/
theorem tlbInstructions : Obligations.TlbInstructions := by
  intro s
  refine ⟨reads_of_eq_encode (by decide), reads_of_eq_encode (by decide), reads_of_eq_encode (by decide),
    reads_of_eq_encode (by decide), fun i hi => ?_⟩
  have hexec : exec i s = s.tlbOp := by fin_cases hi <;> rfl
  refine ⟨needsCop0_of_needCop0 hexec, fun usable hdm => ?_⟩
  have hnext : exec i s = .next (if Config.tlbOpIsNop then s.advance 4 else s.raise .ri) :=
    hexec.trans (needCop0_usable usable _)
  cases hnop : Config.tlbOpIsNop with
  | true => exact .inl ⟨rfl, doesNothing_of_advance (by rw [hnext, if_pos hnop])⟩
  | false => exact .inr ⟨rfl, raises_of_raise (by rw [hnext, if_neg (Bool.eq_false_iff.1 hnop)]) hdm⟩

/-! ## User mode -/

/-- User mode without CU0 is one of the states where coprocessor 0 is not usable (spec 44 R402). -/
theorem Cp0.not_cop0Usable {c : Cp0} (hu : c.userMode = true) (hcu : c.status.cu0 = false) : c.cop0Usable = false := by
  simp only [Cp0.userMode, Bool.and_eq_true, Bool.not_eq_true'] at hu
  obtain ⟨⟨⟨hdm, hum⟩, hexl⟩, herl⟩ := hu
  simp [Cp0.cop0Usable, Cp0.kernelMode, Cp0.debugMode, hdm, hum, hexl, herl, hcu]

/-- Settles O37: each of them begins with the check of coprocessor 0, which User mode without CU0 does not pass. -/
theorem userModeLacksCoprocessor0 : Obligations.UserModeLacksCoprocessor0 := by
  intro s rd rt sel offset code lacks hd hdm
  refine ⟨fun ⟨hu, hcu⟩ => ?coprocessor, fun ⟨hu, hcu⟩ => ?eret⟩
  case coprocessor =>
    have raises : ∀ {i : Instr} {k : Result}, exec i s = s.needCop0 .coprocessor k → Raises i s (.cpu 0) := fun h =>
      needsCop0_of_needCop0 h (Cp0.not_cop0Usable hu hcu) hdm
    simp only [List.forall_mem_cons]
    exact ⟨raises rfl, raises rfl, raises rfl, raises rfl, raises rfl, raises rfl, raises rfl, raises rfl, raises rfl,
      raises rfl, raises (outsideSlot_of_none hd _), raises rfl, nofun⟩
  case eret =>
    have unusable := Cp0.not_cop0Usable hu hcu
    simp only [List.forall_mem_cons]
    exact ⟨needsCop0_eret hd unusable hdm, needsCop0_deret hd unusable hdm, nofun⟩

end Sys2Proof.Machine
end

section
/-! PROOFS. The halfwords of MIPS16e as the statements write them, and the instructions with a result in a register. -/

namespace Sys2Proof.Machine

/-! ## Halfwords of an instruction's format -/

/-- The fields of the bits that a row fixes (spec 45 R447). -/
theorem fixedHalf_fields (op fn : BitVec 5) (x y : Reg3) :
    (op ++ x ++ y ++ fn).extractLsb' 11 5 = op ∧ (op ++ x ++ y ++ fn).extractLsb' 8 3 = x ∧
      (op ++ x ++ y ++ fn).extractLsb' 5 3 = y ∧ (op ++ x ++ y ++ fn).extractLsb' 0 5 = fn := by
  refine ⟨?_, ?_, ?_, ?_⟩ <;>
    (apply BitVec.eq_of_getLsbD_eq; intro i hi
     simp only [BitVec.getLsbD_extractLsb', BitVec.getLsbD_append]
     interval_cases i <;> simp)

/-- Registers and an immediate beside fixed bits in their places (spec 45 R447). -/
theorem Halfword.ofHalf_xyHalf_fixed (op fn : BitVec 5) (f x y : Reg3) (imm : BitVec 5) :
    Halfword.ofHalf (xyHalf (op ++ f ++ 0#3 ++ fn) x y imm) = Halfword.ofImm5 op (f ||| x) y (fn ||| imm) := by
  obtain ⟨hop, hf, hy, hfn⟩ := fixedHalf_fields op fn f 0#3
  rw [Halfword.ofHalf_xyHalf5, hop, hf, hy, hfn, BitVec.zero_or]

theorem Halfword.ofHalf_xHalf5_fixed (op fn : BitVec 5) (f x y : Reg3) (imm : BitVec 5) :
    Halfword.ofHalf (xHalf (op ++ f ++ y ++ fn) x imm) = Halfword.ofImm5 op (f ||| x) y (fn ||| imm) := by
  obtain ⟨hop, hf, hy, hfn⟩ := fixedHalf_fields op fn f y
  rw [Halfword.ofHalf_xHalf5, hop, hf, hy, hfn]

theorem Halfword.ofHalf_xHalf8_fixed (op : BitVec 5) (f x : Reg3) (imm : BitVec 8) :
    Halfword.ofHalf (xHalf (op ++ f ++ 0#8) x imm) = Halfword.ofImm8 op (f ||| x) imm := by
  have hop : (op ++ f ++ 0#8).extractLsb' 11 5 = op := by
    rw [BitVec.extractLsb'_append_eq_of_le (by decide)]
    exact BitVec.extractLsb'_append_eq_left
  have hf : (op ++ f ++ 0#8).extractLsb' 8 3 = f := by
    rw [BitVec.extractLsb'_append_eq_of_le (by decide)]
    exact BitVec.extractLsb'_append_eq_right
  have himm : (op ++ f ++ 0#8).extractLsb' 0 8 = 0#8 := BitVec.extractLsb'_append_eq_right
  rw [Halfword.ofHalf_xHalf8, hop, hf, himm, BitVec.zero_or]

theorem Halfword.ofHalf_xyzHalf_fixed (op : BitVec 5) (f : BitVec 2) (x y z : Reg3) :
    Halfword.ofHalf (xyzHalf (op ++ 0#9 ++ f) x y z) = Halfword.ofRz op x y z f := by
  have hm : ∀ (op : BitVec 5) (f : BitVec 2), (op ++ 0#9 ++ f).extractLsb' 11 5 = op ∧
      (op ++ 0#9 ++ f).extractLsb' 8 3 = 0#3 ∧ (op ++ 0#9 ++ f).extractLsb' 5 3 = 0#3 ∧
      (op ++ 0#9 ++ f).extractLsb' 2 3 = 0#3 ∧ (op ++ 0#9 ++ f).extractLsb' 0 2 = f := by decide
  obtain ⟨hop, hx, hy, hz, hf⟩ := hm op f
  rw [Halfword.ofHalf_xyzHalf, hop, hx, hy, hz, hf, BitVec.zero_or, BitVec.zero_or, BitVec.zero_or]

/-- A halfword with only an operation, and an immediate of eleven bits (spec 45 R447). -/
theorem Halfword.ofHalf_imm11 (op : BitVec 5) (imm : BitVec 11) :
    Halfword.ofHalf (op ++ 0#11 ||| imm.setWidth 16) = Halfword.ofImm11 op imm := by
  simp only [Halfword.ofHalf, Halfword.ofImm11, Halfword.mk.injEq]
  refine ⟨?_, ?_, ?_, ?_, ?_, ?_, ?_, ?_, ?_⟩ <;>
    (apply BitVec.eq_of_getLsbD_eq; intro i hi
     simp only [BitVec.getLsbD_extractLsb', BitVec.getLsbD_or, BitVec.getLsbD_append, BitVec.getLsbD_setWidth]
     interval_cases i <;> simp)

theorem setWidth_append_or {n k : Nat} (a : BitVec n) (b : BitVec k) (w : Nat) :
    (a ++ b).setWidth w = a.setWidth w <<< k ||| b.setWidth w := by
  apply BitVec.eq_of_getLsbD_eq; intro i hi
  simp only [BitVec.getLsbD_setWidth, BitVec.getLsbD_append, BitVec.getLsbD_or, BitVec.getLsbD_shiftLeft]
  by_cases h : i < k
  · simp [h, hi]
  · have hik : i - k < w := by omega
    simp [h, hi, hik, BitVec.getLsbD_of_ge b i (by omega)]

/-! ## Halfwords that are the encoding of an instruction read as it -/

theorem reads16_xHalf_fixed {m : Half} {op : BitVec 5} {f x x' : Reg3} {imm : BitVec 8} {i : Instr}
    (hw : i.WellFormed = true) (he : encode i = .half (Halfword.ofImm8 op x' imm)) (hx : f ||| x = x')
    (hm : m = op ++ f ++ 0#8) : Reads16 (xHalf m x imm) i :=
  reads16_of_encode (decodeEncode i) hw he (by rw [hm, Halfword.ofHalf_xHalf8_fixed, hx])

theorem reads16_xHalf {m : Half} {op : BitVec 5} {x : Reg3} {imm : BitVec 8} {i : Instr} (hw : i.WellFormed = true)
    (he : encode i = .half (Halfword.ofImm8 op x imm)) (hm : m = op ++ 0#3 ++ 0#8) : Reads16 (xHalf m x imm) i :=
  reads16_xHalf_fixed hw he BitVec.zero_or hm

/-- A row of I8, with a number in the place of `rx` (spec 45 R450). -/
theorem reads16_i8 {m : Half} {f : Reg3} {imm : BitVec 8} {i : Instr} (hw : i.WellFormed = true)
    (he : encode i = .half (Halfword.ofImm8 12 f imm)) (hm : m = 12#5 ++ f ++ 0#8) : Reads16 (xHalf m 0 imm) i :=
  reads16_xHalf_fixed hw he BitVec.or_zero hm

theorem reads16_xyHalf {m : Half} {op : BitVec 5} {x y : Reg3} {imm : BitVec 5} {i : Instr} (hw : i.WellFormed = true)
    (he : encode i = .half (Halfword.ofImm5 op x y imm)) (hm : m = op ++ 0#3 ++ 0#3 ++ 0#5) :
    Reads16 (xyHalf m x y imm) i :=
  reads16_of_encode (decodeEncode i) hw he (by
    rw [hm, Halfword.ofHalf_xyHalf_fixed, BitVec.zero_or, BitVec.zero_or])

/-- A row of RR, with its function in the place of the immediate (spec 45 R450). -/
theorem reads16_rr {m : Half} {x y : Reg3} {fn : BitVec 5} {i : Instr} (hw : i.WellFormed = true)
    (he : encode i = .half (Halfword.ofImm5 0x1D x y fn)) (hm : m = 0x1D#5 ++ 0#3 ++ 0#3 ++ fn) :
    Reads16 (xyHalf m x y 0#5) i :=
  reads16_of_encode (decodeEncode i) hw he (by
    rw [hm, Halfword.ofHalf_xyHalf_fixed, BitVec.zero_or, BitVec.or_zero]; rfl)

/-- A row of RR with a number in the place of `ry` (spec 45 R497 to R502, R516, R517, R522 to R525). -/
theorem reads16_rr_fixed {m : Half} {x y : Reg3} {fn : BitVec 5} {i : Instr} (hw : i.WellFormed = true)
    (he : encode i = .half (Halfword.ofImm5 0x1D x y fn)) (hm : m = 0x1D#5 ++ 0#3 ++ y ++ fn) :
    Reads16 (xHalf m x 0#5) i :=
  reads16_of_encode (decodeEncode i) hw he (by
    rw [hm, Halfword.ofHalf_xHalf5_fixed, BitVec.zero_or, BitVec.or_zero]; rfl)

theorem reads16_xyzHalf {m : Half} {op : BitVec 5} {f : BitVec 2} {x y z : Reg3} {i : Instr} (hw : i.WellFormed = true)
    (he : encode i = .half (Halfword.ofRz op x y z f)) (hm : m = op ++ 0#9 ++ f) : Reads16 (xyzHalf m x y z) i :=
  reads16_of_encode (decodeEncode i) hw he (by rw [hm, Halfword.ofHalf_xyzHalf_fixed])

theorem readsPair_of_encode {v w : Half} {p h : Halfword} {i : Instr} (hw : i.WellFormed = true)
    (he : encode i = .pair p h) (hp : Halfword.ofHalf v = p) (hh : Halfword.ofHalf w = h) : ReadsPair v w i :=
  readsPair_of_eq_encode ⟨hw, by rw [he, hp, hh]⟩

/-! ## The first halfword of EXTEND (spec 45 R448) -/

/-- An EXTEND halfword whose bits `E` are written in two parts. -/
theorem Halfword.ofHalf_extend {n k : Nat} (a : BitVec n) (b : BitVec k) (h : n + k = 11) :
    Halfword.ofHalf (0xF000 ||| a.setWidth 16 <<< k ||| b.setWidth 16) = Halfword.ofImm11 0x1E ((a ++ b).cast h) := by
  have e := setWidth_append_or a b 16
  rw [← Halfword.ofHalf_imm11, BitVec.setWidth_cast, e, BitVec.or_assoc]
  rfl

theorem xHalf_or {n k : Nat} (m : Half) (x : Reg3) (v : BitVec k) : xHalf m x 0#n ||| v.setWidth 16 = xHalf m x v := by
  simp [xHalf]

theorem xyHalf_or {n k : Nat} (m : Half) (x y : Reg3) (v : BitVec k) :
    xyHalf m x y 0#n ||| v.setWidth 16 = xyHalf m x y v := by
  simp [xyHalf]

section
variable {m : Half} {imm : BitVec 16} {op : ExtOp} {o : BitVec 5} {f x y : Reg3}

theorem readsExtended_fixed (hw : (Instr.m16Extend op).WellFormed = true)
    (he : op.encode = Encoded.extI o (f ||| x) imm) (hm : m = o ++ f ++ 0#3 ++ 0#5) :
    ReadsExtended (xHalf m x 0#8) imm op := by
  refine readsPair_of_encode hw he (Halfword.ofHalf_extend _ _ rfl) ?_
  rw [xHalf_or, hm, Halfword.ofHalf_xHalf5_fixed, BitVec.zero_or]; rfl

theorem readsExtended_xHalf (hw : (Instr.m16Extend op).WellFormed = true) (he : op.encode = Encoded.extI o x imm)
    (hm : m = o ++ 0#3 ++ 0#3 ++ 0#5) : ReadsExtended (xHalf m x 0#8) imm op :=
  readsExtended_fixed hw (by rw [he, BitVec.zero_or]) hm

/-- A row without registers, with a number in the place of `rx` (spec 45 R450). -/
theorem readsExtended_half (hw : (Instr.m16Extend op).WellFormed = true) (he : op.encode = Encoded.extI o f imm)
    (hm : m = o ++ f ++ 0#3 ++ 0#5) : ReadsExtended m imm op := by
  have h : xHalf m 0 0#8 = m := by simp [xHalf]
  exact h ▸ readsExtended_fixed hw (by rw [he]; exact congrArg (Encoded.extI o · imm) BitVec.or_zero.symm) hm

theorem readsExtended_xyHalf (hw : (Instr.m16Extend op).WellFormed = true)
    (he : op.encode = Encoded.extRri o x y imm) (hm : m = o ++ 0#3 ++ 0#3 ++ 0#5) :
    ReadsExtended (xyHalf m x y 0#5) imm op := by
  refine readsPair_of_encode hw he (Halfword.ofHalf_extend _ _ rfl) ?_
  rw [xyHalf_or, hm, Halfword.ofHalf_xyHalf_fixed, BitVec.zero_or, BitVec.zero_or]

end

theorem readsExtendedA_addiu (x y : Reg3) (imm : BitVec 15) :
    ReadsExtendedA (xyHalf 0x4000 x y 0#4) imm (.addiu y x imm) := by
  refine readsPair_of_encode rfl rfl (Halfword.ofHalf_extend _ _ rfl) ?_
  rw [xyHalf_or, Halfword.ofHalf_xyHalf4]

theorem readsExtendedShift_xyzHalf {m : Half} {x y : Reg3} {sa : BitVec 5} {f : BitVec 2} {op : ExtOp}
    (hw : (Instr.m16Extend op).WellFormed = true) (he : op.encode = Encoded.extShift x y sa f)
    (hm : m = 6#5 ++ 0#9 ++ f) : ReadsExtendedShift (xyzHalf m x y 0) sa op := by
  refine readsPair_of_encode hw he ?_ (by rw [hm]; exact Halfword.ofHalf_xyzHalf_fixed 6 f x y 0)
  have h := Halfword.ofHalf_extend sa 0#6 rfl
  rwa [BitVec.setWidth_zero, BitVec.or_zero] at h

end Sys2Proof.Machine
end

section
/-! PROOFS. The computational instructions of MIPS16e. -/

namespace Sys2Proof.Machine

/-- Outside a delay slot EXTEND is the instruction it widens (spec 45 R448). -/
theorem exec_m16Extend {s : State} (hd : s.delay = none) (op : ExtOp) :
    exec (.m16Extend op) s = execExtended op s := if_neg (by simp [hd])

theorem writes_of_extended {s : State} (hd : s.delay = none) {op : ExtOp} {r : Reg} {x v : Word}
    (h : execExtended op s = s.result 4 r x) (hv : x = v) : Writes (.m16Extend op) s 4 r v :=
  writes_of_result_eq ((exec_m16Extend hd op).trans h) hv

/-- The register map (spec 45 R442). -/
theorem mapReg_toNat (x : Reg3) : (mapReg x).toNat = if x.toNat < 2 then 16 + x.toNat else x.toNat := by
  revert x; decide

theorem mapReg_ne_zero (x : Reg3) : mapReg x ≠ 0 := by revert x; decide

theorem basePc_eq (s : State) : s.basePc = restartAddress s &&& 0xFFFFFFFC := rfl

theorem restartAddress_of_none {s : State} (hd : s.delay = none) : restartAddress s = s.pc := by
  rw [restartAddress, hd]

/-! ## Addition and moves -/

theorem add_zext_scaled (a : Word) {n : Nat} (i : BitVec n) (k : Nat) :
    a + scaled i k = BitVec.ofNat 32 (a.toNat + 2 ^ k * i.toNat) := by
  rw [scaled_eq, BitVec.ofNat_add, BitVec.ofNat_toNat, BitVec.setWidth_eq]

theorem add_sext_shift (a : Word) {n : Nat} (i : BitVec n) (k : Nat) :
    a + (sext i <<< k) = BitVec.ofInt 32 (a.toNat + 2 ^ k * i.toInt) := by
  rw [sext_shift, BitVec.ofInt_add, BitVec.ofInt_natCast, BitVec.ofNat_toNat, BitVec.setWidth_eq]

theorem neg_ofInt (b : Word) : 0 - b = BitVec.ofInt 32 (-b.toNat) := (sub_ofInt 0 b).trans (by simp)

/-- MOVE into a general register splits the register's number (spec 45 R480). -/
theorem Halfword.ofHalf_mov32r (r : Reg) (z : Reg3) :
    Halfword.ofHalf (xyHalf 0x6500 0 (r.extractLsb' 0 3) (r.extractLsb' 3 2 ++ z)) = Halfword.ofMov32r r z := by
  revert r z; decide

/-- The halfword of both register 0 and r16 is NOP (spec 45 R526). -/
theorem reads16_mov32r {r : Reg} {z : Reg3} (h : r ≠ 0 ∨ z ≠ 0) :
    Reads16 (xyHalf 0x6500 0 (r.extractLsb' 0 3) (r.extractLsb' 3 2 ++ z)) (.m16Mov32r r z) :=
  reads16_of_encode (decodeEncode _) (decide_eq_true (not_and_or.2 h)) rfl (Halfword.ofHalf_mov32r r z)

theorem reads16_movr32 (y : Reg3) (r : Reg) : Reads16 (xyHalf 0x6700 0 y r) (.m16Movr32 y r) :=
  reads16_of_encode (decodeEncode _) rfl rfl (by
    rw [show (0x6700 : Half) = 12#5 ++ 7#3 ++ 0#3 ++ 0#5 from rfl, Halfword.ofHalf_xyHalf_fixed, BitVec.zero_or]; rfl)

theorem reads16_addiu (x y : Reg3) (imm : BitVec 4) : Reads16 (xyHalf 0x4000 x y imm) (.m16Addiu y x imm) :=
  reads16_of_encode (decodeEncode _) rfl rfl (Halfword.ofHalf_xyHalf4 x y imm)

/-- Settles O38: each is a register result; the operand forms are read as numbers. -/
theorem mips16AddAndMove : Obligations.Mips16AddAndMove := by
  intro s x y z r i4 i8 i15 i16 sp a b
  refine ⟨mapReg_toNat x,
    reads16_xHalf rfl rfl rfl, writes_of_result_eq rfl (add_zext_scaled _ i8 2),
    reads16_xHalf rfl rfl rfl, writes_of_result_eq rfl (congrArg (s.basePc + ·) (scaled_eq i8 2)),
    reads16_addiu x y i4, writes_of_result_eq rfl (add_sext _ i4),
    reads16_xHalf rfl rfl rfl, writes_of_result_eq rfl (add_sext _ i8),
    reads16_i8 rfl rfl rfl, writes_of_result_eq rfl (add_sext_shift _ i8 3),
    reads16_mov32r, writes_of_result rfl, reads16_movr32 y r, writes_of_result rfl,
    reads16_xHalf rfl rfl rfl, writes_of_result_eq rfl (zext_eq i8),
    reads16_xyzHalf rfl rfl rfl, writes_of_result_eq rfl (add_ofNat _ _),
    reads16_xyzHalf rfl rfl rfl, writes_of_result_eq rfl (sub_ofInt _ _),
    reads16_rr rfl rfl rfl, writes_of_result_eq rfl (neg_ofInt _),
    reads16_of_eq_encode (by decide), doesNothing_of_advance rfl,
    readsExtended_xHalf rfl rfl rfl, readsExtended_xHalf rfl rfl rfl, readsExtendedA_addiu x y i15,
    readsExtended_xHalf rfl rfl rfl, readsExtended_half rfl rfl rfl, readsExtended_xHalf rfl rfl rfl,
    fun hd => ?_⟩
  refine ⟨writes_of_extended hd rfl (add_sext _ i16), writes_of_extended hd rfl ?addiupc,
    writes_of_extended hd rfl (add_sext _ i15), writes_of_extended hd rfl (add_sext _ i16),
    writes_of_extended hd rfl (add_sext _ i16), writes_of_extended hd rfl (zext_eq i16)⟩
  case addiupc => rw [basePc_eq, restartAddress_of_none hd]; rfl

/-! ## Logic and comparison -/

theorem zext_toNat {n : Nat} (i : BitVec n) (h : n ≤ 32) : (zext i).toNat = i.toNat :=
  BitVec.toNat_setWidth_of_le h

theorem zext_toInt {n : Nat} (i : BitVec n) (h : n < 32) : (zext i).toInt = i.toNat := by
  have hi : i.toNat < 2 ^ 31 := lt_of_lt_of_le i.isLt (Nat.pow_le_pow_right (by decide) (by omega))
  rw [BitVec.toInt_eq_toNat_of_lt (by rw [zext_toNat i h.le]; omega), zext_toNat i h.le]

theorem lt_signed_zext_iff (a : Word) (i : BitVec 8) : ltSigned a (zext i) = true ↔ a.toInt < i.toNat := by
  rw [lt_signed_iff, zext_toInt i (by decide)]

theorem lt_unsigned_zext_iff (a : Word) (i : BitVec 8) : ltUnsigned a (zext i) = true ↔ a.toNat < i.toNat := by
  rw [lt_unsigned_iff, zext_toNat i (by decide)]

theorem xor_zext (a : Word) {n : Nat} (i : BitVec n) : a ^^^ zext i = a ^^^ BitVec.ofNat 32 i.toNat :=
  congrArg (a ^^^ ·) (zext_eq i)

/-- Settles O39: the comparisons are flag words in t8, the others words. -/
theorem mips16LogicAndCompare : Obligations.Mips16LogicAndCompare := by
  intro s x y i8 i16 a b
  refine ⟨reads16_xHalf rfl rfl rfl, writes_of_result_eq rfl (flagWord_eq (lt_signed_zext_iff a i8)),
    reads16_xHalf rfl rfl rfl, writes_of_result_eq rfl (flagWord_eq (lt_unsigned_zext_iff a i8)),
    reads16_xHalf rfl rfl rfl, writes_of_result_eq rfl (xor_zext a i8),
    reads16_rr rfl rfl rfl, writes_of_result_eq rfl (flagWord_eq (lt_signed_iff a b)),
    reads16_rr rfl rfl rfl, writes_of_result_eq rfl (flagWord_eq (lt_unsigned_iff a b)),
    reads16_rr rfl rfl rfl, writes_of_result rfl, reads16_rr rfl rfl rfl, writes_of_result rfl,
    reads16_rr rfl rfl rfl, writes_of_result rfl, reads16_rr rfl rfl rfl, writes_of_result rfl,
    reads16_rr rfl rfl rfl, writes_of_result rfl,
    readsExtended_xHalf rfl rfl rfl, readsExtended_xHalf rfl rfl rfl, readsExtended_xHalf rfl rfl rfl, fun hd => ?_⟩
  exact ⟨writes_of_extended hd rfl (flagWord_eq (lt_signed_sext_iff a i16)),
    writes_of_extended hd rfl (flagWord_eq (lt_unsigned_iff a (sext i16))),
    writes_of_extended hd rfl (xor_zext a i16)⟩

/-! ## Shifts and conversions -/

theorem shiftAmount3_eq (sa : Reg3) : shiftAmount3 sa = if sa.toNat = 0 then 8 else sa.toNat := by
  revert sa; decide

theorem zero_byte_eq (x : Word) : zeroByte x = BitVec.ofNat 32 (x.toNat % 256) :=
  (zext_eq _).trans (by simp [BitVec.extractLsb'_toNat])

theorem zero_half_eq (x : Word) : zeroHalf x = BitVec.ofNat 32 (x.toNat % 65536) :=
  (zext_eq _).trans (by simp [BitVec.extractLsb'_toNat])

/-- Settles O40: each shift and conversion of a word, read as a number; the amounts differ. -/
theorem mips16ShiftAndConvert : Obligations.Mips16ShiftAndConvert := by
  intro s x y sa sa5 a b n m
  have hn : shiftAmount3 sa = n := shiftAmount3_eq sa
  have hm : (a.extractLsb' 0 5).toNat = m := low_five a
  refine ⟨reads16_xyzHalf rfl rfl rfl, hn ▸ writes_of_result_eq rfl (shift_left_eq b _),
    reads16_xyzHalf rfl rfl rfl, hn ▸ writes_of_result_eq rfl (shift_right_eq b _),
    reads16_xyzHalf rfl rfl rfl, hn ▸ writes_of_result_eq rfl (shift_right_arith_eq b _),
    reads16_rr rfl rfl rfl, hm ▸ writes_of_result_eq rfl (shift_left_eq b _),
    reads16_rr rfl rfl rfl, hm ▸ writes_of_result_eq rfl (shift_right_eq b _),
    reads16_rr rfl rfl rfl, hm ▸ writes_of_result_eq rfl (shift_right_arith_eq b _),
    reads16_rr_fixed rfl rfl rfl, writes_of_result_eq rfl (zero_byte_eq a),
    reads16_rr_fixed rfl rfl rfl, writes_of_result_eq rfl (zero_half_eq a),
    reads16_rr_fixed rfl rfl rfl, writes_of_result_eq rfl (sign_byte_eq a),
    reads16_rr_fixed rfl rfl rfl, writes_of_result_eq rfl (sign_half_eq a),
    readsExtendedShift_xyzHalf rfl rfl rfl, readsExtendedShift_xyzHalf rfl rfl rfl,
    readsExtendedShift_xyzHalf rfl rfl rfl, fun hd => ?_⟩
  exact ⟨writes_of_extended hd rfl (shift_left_eq b _), writes_of_extended hd rfl (shift_right_eq b _),
    writes_of_extended hd rfl (shift_right_arith_eq b _)⟩

/-! ## HI and LO -/

/-- The two halves of a 64-bit result, after an instruction of any length (spec 41 R269, 45 R518). -/
theorem writesHiLo_of_product {i : Instr} {s : State} {len : Word} {p : BitVec 64} {x : Int}
    (h : exec i s = .next ((s.writeHiLo p).advance len)) (hp : p = BitVec.ofInt 64 x) :
    WritesHiLo i s len (BitVec.ofInt 32 (x / 4294967296)) (BitVec.ofInt 32 x) := by
  refine writesHiLo_of_advance h ?_
  rw [State.writeHiLo, hp, high_word_ofInt, low_word_ofInt]

/-- A division whose result is stated. -/
theorem writesHiLo_of_divide {i : Instr} {s : State} {len : Word} {b : Bool} {q r lo hi : Word}
    (h : exec i s = .next ((s.divide b q r).advance len)) (hb : b = true) (hr : r = hi) (hq : q = lo) :
    WritesHiLo i s len hi lo := by
  subst hr hq
  exact writesHiLo_of_advance h (if_pos hb)

/-- A division without a stated result (spec 41 R288; log 7). -/
theorem losesHiLo_of_divide {i : Instr} {s : State} {len : Word} {b : Bool} {q r : Word}
    (h : exec i s = .next ((s.divide b q r).advance len)) (hb : ¬ b = true) : LosesHiLo i s len := by
  have hfree : s.divide b q r = s.freeHiLo := if_neg hb
  obtain ⟨-, -, -, hkept⟩ := s.advance_withHiLo_spec (s.free .hi) (s.free .lo) true len
  exact ⟨_, h.trans (by rw [hfree]; rfl), hkept⟩

/-- Settles O41: the arithmetic of MULT, DIV and MFHI of MIPS32 mode on mapped registers. -/
theorem mips16HiLo : Obligations.Mips16HiLo := by
  intro s x y a b p u stated reads
  have hreads : ∀ v, ∃ t, State.result { s with hiLoUnread := false } 2 (mapReg x) v = .next t ∧
      t.reg (mapReg x) = v ∧ KeepsRegs s t [mapReg x] ∧ t.hi = s.hi ∧ t.lo = s.lo ∧ t.hiLoUnread = false ∧
      KeepsMemory s t [] ∧ KeepsSystem s t ∧ GoesOn s t 2 := fun v => by
    obtain ⟨t, ht, hv, hkept⟩ := s.result_withHiLo_spec s.hi s.lo false 2 (mapReg x) v
    exact ⟨t, ht, hv.trans (if_neg (mapReg_ne_zero x)), hkept⟩
  have hdiv : divisionStated a b = true ↔ stated := divisionStated_iff a b
  have hdivu : (!decide (b = 0)) = true ↔ b ≠ 0 := by simp
  refine ⟨reads16_rr_fixed rfl rfl rfl, hreads s.hi, reads16_rr_fixed rfl rfl rfl, hreads s.lo,
    reads16_rr rfl rfl rfl, writesHiLo_of_product rfl (product_signed_eq a b),
    reads16_rr rfl rfl rfl, writesHiLo_of_product rfl (product_unsigned_eq a b),
    reads16_rr rfl rfl rfl, fun hs => ?div, fun hs => losesHiLo_of_divide rfl (mt hdiv.1 hs),
    reads16_rr rfl rfl rfl, fun hb => ?divu, fun hb => losesHiLo_of_divide rfl (mt hdivu.1 (not_not.2 hb))⟩
  case div => exact writesHiLo_of_divide rfl (hdiv.2 hs) (remainderSigned_eq a b) rfl
  case divu => exact writesHiLo_of_divide rfl (hdivu.2 hb) BitVec.umod_def BitVec.udiv_def

end Sys2Proof.Machine
end

section
/-! PROOFS. The loads, stores, branches and jumps of MIPS16e. -/

namespace Sys2Proof.Machine

/-! ## Loads and stores -/

theorem add_zext (a : Word) {n : Nat} (i : BitVec n) : a + zext i = a + BitVec.ofNat 32 i.toNat :=
  congrArg (a + ·) (zext_eq i)

theorem add_scaled (a : Word) {n : Nat} (i : BitVec n) (k : Nat) :
    a + scaled i k = a + BitVec.ofNat 32 (2 ^ k * i.toNat) :=
  congrArg (a + ·) (scaled_eq i k)

section
variable {i : Instr} {s : State} {len : Word} {rd : Reg} {w : Width} {va' va : Word}

theorem loads_unsigned (h : exec i s = s.loadTo len rd (s.memRead w va') id) (hva : va' = va) :
    Loads i s len rd w va (BitVec.ofNat 32 (s.valueAt (dataAddress s.seen w va) w.bytes)) :=
  hva ▸ loads_of_loadTo h rfl

theorem loads_signByte (h : exec i s = s.loadTo len rd (s.memRead .byte va') signByte) (hva : va' = va) :
    Loads i s len rd .byte va (signedValue (s.valueAt (dataAddress s.seen .byte va) 1) 1) :=
  hva ▸ loads_of_loadTo h (signByte_ofNat (s.valueAt_lt _ 1))

theorem loads_signHalf (h : exec i s = s.loadTo len rd (s.memRead .half va') signHalf) (hva : va' = va) :
    Loads i s len rd .half va (signedValue (s.valueAt (dataAddress s.seen .half va) 2) 2) :=
  hva ▸ loads_of_loadTo h (signHalf_ofNat (s.valueAt_lt _ 2))

end

/-- Settles O42: every load is `State.loadTo`; they differ in base, width and extension. -/
theorem mips16Loads : Obligations.Mips16Loads := by
  intro s x y i5 i8 i16 near far value loads loadsSigned base
  refine ⟨reads16_xyHalf rfl rfl rfl, loads_signByte rfl (add_zext _ i5),
    reads16_xyHalf rfl rfl rfl, loads_signHalf rfl (add_scaled _ i5 1),
    reads16_xHalf rfl rfl rfl, loads_unsigned rfl (add_scaled _ i8 2),
    reads16_xyHalf rfl rfl rfl, loads_unsigned rfl (add_scaled _ i5 2),
    reads16_xyHalf rfl rfl rfl, loads_unsigned rfl (add_zext _ i5),
    reads16_xyHalf rfl rfl rfl, loads_unsigned rfl (add_scaled _ i5 1),
    reads16_xHalf rfl rfl rfl, loads_unsigned rfl (add_scaled _ i8 2),
    readsExtended_xyHalf rfl rfl rfl, readsExtended_xyHalf rfl rfl rfl, readsExtended_xHalf rfl rfl rfl,
    readsExtended_xyHalf rfl rfl rfl, readsExtended_xyHalf rfl rfl rfl, readsExtended_xyHalf rfl rfl rfl,
    readsExtended_xHalf rfl rfl rfl, fun hd => ?_⟩
  have hex := exec_m16Extend hd
  exact ⟨loads_signByte (hex _) (add_sext _ i16), loads_signHalf (hex _) (add_sext _ i16),
    loads_unsigned (hex _) (add_sext _ i16), loads_unsigned (hex _) (add_sext _ i16),
    loads_unsigned (hex _) (add_sext _ i16), loads_unsigned (hex _) (add_sext _ i16),
    loads_unsigned (hex _) (add_sext _ i16)⟩

theorem stores_at {i : Instr} {s : State} {len : Word} {w : Width} {va' va v : Word}
    (h : exec i s = s.storeTo len (s.memWrite w va' v)) (hva : va' = va) : Stores i s len w va v :=
  hva ▸ stores_of_storeTo h

/-- Settles O43: every store is `State.storeTo`; they differ in base, width and the register stored. -/
theorem mips16Stores : Obligations.Mips16Stores := by
  intro s x y i5 i8 i16 near far
  refine ⟨reads16_xyHalf rfl rfl rfl, stores_at rfl (add_zext _ i5),
    reads16_xyHalf rfl rfl rfl, stores_at rfl (add_scaled _ i5 1),
    reads16_xHalf rfl rfl rfl, stores_at rfl (add_scaled _ i8 2),
    reads16_xyHalf rfl rfl rfl, stores_at rfl (add_scaled _ i5 2),
    reads16_i8 rfl rfl rfl, stores_at rfl (add_scaled _ i8 2),
    readsExtended_xyHalf rfl rfl rfl, readsExtended_xyHalf rfl rfl rfl, readsExtended_xHalf rfl rfl rfl,
    readsExtended_xyHalf rfl rfl rfl, readsExtended_half rfl rfl rfl, fun hd => ?_⟩
  have hex := exec_m16Extend hd
  exact ⟨stores_at (hex _) (add_sext _ i16), stores_at (hex _) (add_sext _ i16), stores_at (hex _) (add_sext _ i16),
    stores_at (hex _) (add_sext _ i16), stores_at (hex _) (add_sext _ i16)⟩

/-! ## Branches -/

/-- A branch of MIPS16e by its condition (spec 45 R451, R465). -/
theorem transfers_of_branch16 {i : Instr} {s : State} {len n : Nat} {b : Bool} {c : Prop} {offset : BitVec n}
    (hd : s.delay = none) (h : exec i s = s.branch16 (BitVec.ofNat 32 len) b offset) (hc : b = true ↔ c) :
    (c → Transfers i s (BitVec.ofInt 32 (s.pc.toNat + len + 2 * offset.toInt)) s.isaMode none) ∧
      (¬ c → Transfers i s (BitVec.ofInt 32 (s.pc.toNat + len + 2 * 0)) s.isaMode none) := by
  have hnext := h.trans (outsideSlot_of_none hd _)
  refine ⟨fun k => transfers_of_pc hd hnext ?taken, fun k => transfers_of_pc hd hnext ?passed⟩
  case taken => rw [if_pos (hc.2 k), halfword_target_eq]
  case passed => rw [if_neg (mt hc.1 k), BitVec.ofInt_add, BitVec.ofInt_add]; simp

theorem reads16_b (offset : BitVec 11) : Reads16 (0x1000 ||| offset.setWidth 16) (.m16B offset) :=
  reads16_of_encode (decodeEncode _) rfl rfl (Halfword.ofHalf_imm11 2 offset)

/-- Settles O44: each is `State.branch16` on its condition; B on one that always holds. -/
theorem mips16Branches : Obligations.Mips16Branches := by
  intro s x i8 i11 i16 goal goes
  refine ⟨reads16_b i11, reads16_xHalf rfl rfl rfl, reads16_xHalf rfl rfl rfl, reads16_i8 rfl rfl rfl,
    reads16_i8 rfl rfl rfl, readsExtended_half (f := 0) rfl rfl rfl, readsExtended_xHalf rfl rfl rfl,
    readsExtended_xHalf rfl rfl rfl, readsExtended_half rfl rfl rfl, readsExtended_half rfl rfl rfl, fun hd => ?_⟩
  have hex := exec_m16Extend hd
  exact ⟨(transfers_of_branch16 (len := 2) hd rfl (iff_of_true rfl trivial)).1 trivial,
    transfers_of_branch16 hd rfl beq_iff_eq, transfers_of_branch16 hd rfl bne_iff_ne,
    transfers_of_branch16 hd rfl beq_iff_eq, transfers_of_branch16 hd rfl bne_iff_ne,
    (transfers_of_branch16 (len := 4) hd (hex _) (iff_of_true rfl trivial)).1 trivial,
    transfers_of_branch16 hd (hex _) beq_iff_eq, transfers_of_branch16 hd (hex _) bne_iff_ne,
    transfers_of_branch16 hd (hex _) beq_iff_eq, transfers_of_branch16 hd (hex _) bne_iff_ne⟩

/-! ## Jumps -/

/-- The first halfword of JAL and JALX holds index bits 20:16 above bits 25:21 (spec 45 R463). -/
theorem Halfword.ofHalf_jump (x : BitVec 1) (a b : BitVec 5) :
    Halfword.ofHalf (3#5 ++ x ++ 0#10 ||| a.setWidth 16 <<< 5 ||| b.setWidth 16) =
      Halfword.ofImm11 3 (x ++ a ++ b) := by
  have hx : ∀ x : BitVec 1, 3#5 ++ x ++ 0#10 = 3#5 ++ 0#11 ||| x.setWidth 16 <<< 5 <<< 5 := by decide
  have e : (x ++ a ++ b).setWidth 16 = (x.setWidth 16 <<< 5 ||| a.setWidth 16) <<< 5 ||| b.setWidth 16 := by
    rw [setWidth_append_or, setWidth_append_or]
  rw [← Halfword.ofHalf_imm11, hx, e, BitVec.shiftLeft_or_distrib, ← BitVec.or_assoc, ← BitVec.or_assoc]
  rfl

theorem Halfword.ofHalf_low_index (index : BitVec 26) :
    Halfword.ofHalf (index.extractLsb' 0 16) = Halfword.ofImm11 (index.extractLsb' 11 5) (index.extractLsb' 0 11) := by
  simp only [Halfword.ofHalf, Halfword.ofImm11, Halfword.mk.injEq]
  refine ⟨?_, ?_, ?_, ?_, ?_, ?_, ?_, ?_, ?_⟩ <;>
    (apply BitVec.eq_of_getLsbD_eq; intro i hi
     simp only [BitVec.getLsbD_extractLsb']
     interval_cases i <;> simp)

theorem readsPair_jump {m : Half} {x : BitVec 1} {index : BitVec 26} {i : Instr} (hw : i.WellFormed = true)
    (he : encode i = Encoded.ofJump x index) (hm : m = 3#5 ++ x ++ 0#10) :
    ReadsPair (m ||| (index.extractLsb' 16 5).setWidth 16 <<< 5 ||| (index.extractLsb' 21 5).setWidth 16)
      (index.extractLsb' 0 16) i :=
  readsPair_of_encode hw he (hm ▸ Halfword.ofHalf_jump x _ _) (Halfword.ofHalf_low_index index)

theorem transfers_of_jumpCompact {i : Instr} {s : State} {t : Word} (hd : s.delay = none)
    (h : exec i s = .next (s.jumpCompact t)) : Transfers i s (goalOf t) (modeOf t) none :=
  isa_of_bit_eq t ▸ transfers_of_pc hd h (clear_isa_bit_eq t)

theorem transfers_of_jumpCompact_link {i : Instr} {s : State} {t v : Word} {r : Reg} (hd : s.delay = none)
    (h : exec i s = .next ((s.write r v).jumpCompact t)) : Transfers i s (goalOf t) (modeOf t) (some (r, v)) :=
  isa_of_bit_eq t ▸ transfers_of_link hd h (clear_isa_bit_eq t)

/-- Settles O45: JAL and JALX jump in the region, the others through a register, the compact ones without slot. -/
theorem mips16Jumps : Obligations.Mips16Jumps := by
  intro s x index t ra first
  refine ⟨readsPair_jump rfl rfl rfl, readsPair_jump rfl rfl rfl, reads16_rr_fixed rfl rfl rfl,
    reads16_of_eq_encode (by decide), reads16_rr_fixed rfl rfl rfl, reads16_rr_fixed rfl rfl rfl,
    reads16_of_eq_encode (by decide), reads16_rr_fixed rfl rfl rfl, fun hd => ?_⟩
  have outside : ∀ k : Result, s.outsideSlot k = k := outsideSlot_of_none hd
  exact ⟨jumps_of_link (outside _) (jump_target_eq s index), jumps_of_link (outside _) (jump_target_eq s index),
    jumps_of_jumpRegister (outside _), jumps_of_jumpRegister (outside _), jumps_of_jumpRegister_link (outside _),
    transfers_of_jumpCompact hd (outside _), transfers_of_jumpCompact hd (outside _),
    transfers_of_jumpCompact_link hd (outside _)⟩

end Sys2Proof.Machine
end

section
/-! PROOFS. The words of a frame of SAVE and RESTORE, and the state between two accesses to them. -/

namespace Sys2Proof.Machine

/-! ## A bus error held pending does not change what a data access sees -/

/-- Two states of coprocessor 0 under which every data access is checked and translated alike. -/
def SameAccess (c d : Cp0) : Prop :=
  d.status = c.status ∧ d.debugReg.dm = c.debugReg.dm ∧ d.debugReg.lsnm = c.debugReg.lsnm

theorem HazardReg.put_sameAccess (r : HazardReg) {dst dst' src src' : Cp0} (hd : SameAccess dst dst')
    (hs : SameAccess src src') : SameAccess (r.put dst src) (r.put dst' src') := by
  obtain ⟨hst, hdm, hlsnm⟩ := hd
  obtain ⟨hst', -, hlsnm'⟩ := hs
  cases r <;> simp only [SameAccess, HazardReg.put, hst, hst', hdm, hlsnm, hlsnm', and_self]

theorem putPart_sameAccess (p : HazardPart) {dst dst' src src' : Cp0} (hd : SameAccess dst dst')
    (hs : SameAccess src src') : SameAccess (putPart p dst src) (putPart p dst' src') := by
  obtain ⟨hst, hdm, hlsnm⟩ := hd
  obtain ⟨hst', -, -⟩ := hs
  cases p <;> simp only [SameAccess, putPart, hst, hst', hdm, hlsnm, and_self]

theorem sameAccess_ite {b : Bool} {c d c' d' : Cp0} (hc : SameAccess c c') (hd : SameAccess d d') :
    SameAccess (if b then c else d) (if b then c' else d') := by
  cases b <;> assumption

theorem Hazard.apply_sameAccess (h : Hazard) (use : Consumer) (old : HazardPart → Bool) {older older' now now' : Cp0}
    (ho : SameAccess older older') (hn : SameAccess now now') :
    SameAccess (h.apply use old older now) (h.apply use old older' now') := by
  have whole := sameAccess_ite (b := h.distance ≤ h.reg.spacing use && old .main) ho (h.reg.put_sameAccess ho hn)
  unfold Hazard.apply
  cases h.reg.part use with
  | none => exact whole
  | some part => exact putPart_sameAccess _ whole (sameAccess_ite ho hn)

theorem viewFrom_sameAccess (draws : Nat) (use : Consumer) (hs : List Hazard) (k : Nat) {now now' : Cp0}
    (hn : SameAccess now now') : SameAccess (viewFrom draws use hs k now) (viewFrom draws use hs k now') := by
  induction hs generalizing k now now' with
  | nil => exact hn
  | cons h hs ih =>
    exact h.apply_sameAccess use _ (ih _ (h.reg.put_sameAccess hn ⟨rfl, rfl, rfl⟩)) hn

theorem SameAccess.userMode {c d : Cp0} (h : SameAccess c d) : d.userMode = c.userMode := by
  obtain ⟨hst, hdm, -⟩ := h
  rw [Cp0.userMode, hst, hdm, Cp0.userMode]

theorem SameAccess.dataAddress {c d : Cp0} (h : SameAccess c d) (w : Width) (va : Word) :
    Machine.dataAddress d w va = Machine.dataAddress c w va := by
  unfold Machine.dataAddress laneMask reversed translate
  rw [h.userMode, h.1]

theorem SameAccess.inDseg {c d : Cp0} (h : SameAccess c d) (va : Word) : Machine.inDseg d va = Machine.inDseg c va := by
  obtain ⟨-, hdm, hlsnm⟩ := h
  rw [Machine.inDseg, hdm, hlsnm, Machine.inDseg]

/-! ## The words of a frame -/

/-- The address of word `k` of a frame, counted downwards from its top (spec 45 R478). -/
def frameSlot (top : Word) (k : Nat) : Word := top - BitVec.ofNat 32 (4 * (k + 1))

theorem frameSlot_eq (top : Word) (k : Nat) : top - BitVec.ofNat 32 (4 * k) - 4 = frameSlot top k := by
  rw [frameSlot, BitVec.sub_sub, Nat.mul_succ, BitVec.ofNat_add]; rfl

/-- The physical address of word `k`. -/
def State.framePa (s : State) (top : Word) (k : Nat) : Word := dataAddress s.seen .word (frameSlot top k)

/-- The bus answers the access to word `k`. -/
def State.frameAnswered (s : State) (a : Access) (top : Word) (k : Nat) : Bool :=
  s.answers a s.seen.userMode (s.framePa top k)

/-- The accesses to the first `n` words do not end the instruction. -/
def State.FramePassed (s : State) (a : Access) (top : Word) (n : Nat) : Prop :=
  ∀ k < n, ¬ AddressError s .word (frameSlot top k) ∧ inDseg s.seen (frameSlot top k) = false ∧
    (s.frameAnswered a top k = true ∨ s.cp0.debugReg.iexi = true)

/-- A word that passes is accessed, or its bus error is held pending. -/
theorem State.FramePassed.access {s : State} {a : Access} {top : Word} {n k : Nat} (h : s.FramePassed a top n)
    (hk : k < n) :
    (s.frameAnswered a top k = true ∧ Accessible s a .word (frameSlot top k)) ∨
      (s.frameAnswered a top k = false ∧ BusError s a .word (frameSlot top k) ∧ s.cp0.debugReg.iexi = true) := by
  obtain ⟨haddr, hdseg, hanswer⟩ := h k hk
  cases ha : s.frameAnswered a top k with
  | true => exact .inl ⟨rfl, haddr, hdseg, ha⟩
  | false => exact .inr ⟨rfl, ⟨haddr, hdseg, ha⟩, hanswer.resolve_left (Bool.eq_false_iff.1 ha)⟩

theorem State.FramePassed.mono {s : State} {a : Access} {top : Word} {m n : Nat} (h : s.FramePassed a top n)
    (hmn : m ≤ n) : s.FramePassed a top m := fun k hk => h k (by omega)

/-- What the accesses to the first `n` words leave, memory and general registers apart: the clause `reached` of Mips16Frames. -/
def State.FrameReached (s : State) (a : Access) (top : Word) (n : Nat) (u : State) : Prop :=
  KeepsHiLo s u ∧ u.llbit = s.llbit ∧ KeepsOutside s u ∧
    u.cp0 = { s.cp0 with debugReg := { s.cp0.debugReg with
      dbusep := s.cp0.debugReg.dbusep || (List.range n).any fun k => !s.frameAnswered a top k } }

/-- `u` is in the middle of the instruction that `s` begins: the accesses to the first `n` words have happened. -/
structure DuringFrame (s : State) (a : Access) (top : Word) (n : Nat) (u : State) : Prop where
  reached : s.FrameReached a top n u
  pc : u.pc = s.pc
  isaMode : u.isaMode = s.isaMode
  delay : u.delay = s.delay
  hazards : u.hazards = s.hazards
  fetchHazards : u.fetchHazards = s.fetchHazards

namespace DuringFrame

variable {s u : State} {a : Access} {top : Word} {n : Nat}

theorem zero (s : State) (a : Access) (top : Word) : DuringFrame s a top 0 s :=
  ⟨⟨⟨rfl, rfl, rfl⟩, rfl, keepsOutside_refl s, by simp⟩, rfl, rfl, rfl, rfl, rfl⟩

theorem storeBytes (h : DuringFrame s a top n u) (pa : Word) (vs : List Byte) :
    DuringFrame s a top n (u.storeBytes pa vs) :=
  ⟨h.reached, h.pc, h.isaMode, h.delay, h.hazards, h.fetchHazards⟩

theorem write (h : DuringFrame s a top n u) (r : Reg) (v : Word) : DuringFrame s a top n (u.write r v) := by
  unfold State.write State.writeSet
  split
  · exact h
  · exact ⟨h.reached, h.pc, h.isaMode, h.delay, h.hazards, h.fetchHazards⟩

theorem succ_answered (h : DuringFrame s a top n u) (hn : s.frameAnswered a top n = true) :
    DuringFrame s a top (n + 1) u := by
  obtain ⟨⟨hhilo, hbit, hout, hcp0⟩, hpc, hmode, hdelay, hhaz, hfetch⟩ := h
  refine ⟨⟨hhilo, hbit, hout, hcp0.trans ?_⟩, hpc, hmode, hdelay, hhaz, hfetch⟩
  simp [List.range_succ, hn]

theorem succ_held (h : DuringFrame s a top n u) (hn : s.frameAnswered a top n = false) :
    DuringFrame s a top (n + 1) u.holdBusError := by
  obtain ⟨⟨hhilo, hbit, hout, hcp0⟩, hpc, hmode, hdelay, hhaz, hfetch⟩ := h
  refine ⟨⟨hhilo, hbit, hout, ?_⟩, hpc, hmode, hdelay, hhaz, hfetch⟩
  simp [List.range_succ, hn, hcp0]

theorem sameAccess (h : DuringFrame s a top n u) : SameAccess s.seen u.seen := by
  obtain ⟨⟨-, -, ⟨-, -, -, -, -, hdraws⟩, hcp0⟩, -, -, -, hhaz, -⟩ := h
  have hnow : SameAccess s.cp0 u.cp0 := by rw [hcp0]; exact ⟨rfl, rfl, rfl⟩
  unfold State.seen State.view
  rw [hdraws, hhaz]
  exact viewFrom_sameAccess _ _ _ _ hnow

theorem physMap (h : DuringFrame s a top n u) : u.physMap = s.physMap := by
  obtain ⟨⟨-, -, ⟨-, -, hmap, -⟩, -⟩, -⟩ := h
  exact hmap

theorem between (h : DuringFrame s a top n u) : u.between = s.between := by
  obtain ⟨⟨-, -, ⟨-, -, -, -, hbet, -⟩, -⟩, -⟩ := h
  exact hbet

theorem kept (h : DuringFrame s a top n u) : u.cp0.srsCtl.css = s.cp0.srsCtl.css ∧
    u.cp0.debugReg.dm = s.cp0.debugReg.dm ∧ u.cp0.debugReg.iexi = s.cp0.debugReg.iexi := by
  obtain ⟨⟨-, -, -, hcp0⟩, -⟩ := h
  rw [hcp0]
  exact ⟨rfl, rfl, rfl⟩

theorem region (h : DuringFrame s a top n u) (pa : Word) : u.region pa = s.region pa := by
  unfold State.region; rw [h.physMap]

theorem addressError_iff (h : DuringFrame s a top n u) (w : Width) (va : Word) :
    AddressError u w va ↔ AddressError s w va := by
  unfold AddressError; rw [h.sameAccess.userMode]

theorem goesToDseg_iff (h : DuringFrame s a top n u) (w : Width) (va : Word) :
    GoesToDseg u w va ↔ GoesToDseg s w va := by
  unfold GoesToDseg; rw [h.addressError_iff, h.sameAccess.inDseg]

theorem answers (h : DuringFrame s a top n u) (k : Access) (w : Width) (va : Word) :
    u.answers k u.seen.userMode (dataAddress u.seen w va) = s.answers k s.seen.userMode (dataAddress s.seen w va) := by
  unfold State.answers; rw [h.region, h.sameAccess.userMode, h.sameAccess.dataAddress]

theorem accessible_iff (h : DuringFrame s a top n u) (k : Access) (w : Width) (va : Word) :
    Accessible u k w va ↔ Accessible s k w va := by
  unfold Accessible; rw [h.addressError_iff, h.sameAccess.inDseg, h.answers]

theorem busError_iff (h : DuringFrame s a top n u) (k : Access) (w : Width) (va : Word) :
    BusError u k w va ↔ BusError s k w va := by
  unfold BusError; rw [h.addressError_iff, h.sameAccess.inDseg, h.answers]

theorem framePa (h : DuringFrame s a top n u) (k : Nat) : u.framePa top k = s.framePa top k :=
  h.sameAccess.dataAddress _ _

/-- The end of the instruction. -/
theorem advance (h : DuringFrame s a top n u) (len : Word) :
    s.FrameReached a top n (u.advance len) ∧ KeepsHazards s (u.advance len) ∧ GoesOn s (u.advance len) len ∧
      (NoBarrier s → (u.advance len).stale = u.stale) := by
  obtain ⟨⟨⟨hhi, hlo, hunread⟩, hbit, hout, hcp0⟩, hpc, hmode, hdelay, hhaz, hfetch⟩ := h
  obtain ⟨hwait, hvec, hmap, hin, hbet, hdraws⟩ := hout
  have hb : NoBarrier s → NoBarrier u := fun hb d hd => hb d (hdelay ▸ hd)
  refine ⟨⟨⟨by simp [hhi], by simp [hlo], by simp [hunread]⟩, by simp [hbit],
    ⟨by simp [hwait], by simp [hvec], by simp [hmap], by simp [hin], by simp [hbet], by simp [hdraws]⟩, by simp [hcp0]⟩,
    fun k => ?_, goesOn_advance len hdelay hpc hmode, fun k => (State.advance_hazards len (hb k)).2.2⟩
  obtain ⟨hz, hf, -⟩ := State.advance_hazards len (hb k)
  exact ⟨hz.trans hhaz, hf.trans hfetch⟩

end DuringFrame

end Sys2Proof.Machine
end

section
/-! PROOFS. Word stores one after the other, and the addresses of the words of a frame. -/

namespace Sys2Proof.Machine

/-! ## Word stores one after the other -/

theorem StoresMemory.congr {s t : State} {pa : Word} (h : StoresMemory s pa) (hm : t.physMap = s.physMap) :
    StoresMemory t pa := by
  unfold StoresMemory State.region at *
  rwa [hm]

/-- In plain memory and RAM a store changes exactly its bytes. -/
theorem stored_of_storesMemory {s t : State} {pa : Word} {n v : Nat} (hm : StoresMemory s pa)
    (h : StoredAt s t pa n v) : Stored s t pa n v := by
  unfold StoredAt at h
  cases hr : s.region pa with
  | none => simpa only [hr, Option.map_none] using h
  | some r => simpa only [hr, Option.map_some, hm r hr] using h

/-- A store sees of the state before it only memory and the regions. -/
theorem StoredAt.congr {s s' t : State} {pa : Word} {n v : Nat} (hmem : KeepsMemory s s' [])
    (hmap : s'.physMap = s.physMap) (h : StoredAt s' t pa n v) : StoredAt s t pa n v := by
  have hread : ∀ b, s'.mem.read b = s.mem.read b := fun b => hmem b (by simp)
  unfold StoredAt Stored StoredBytes KeepsMemory State.region at *
  simpa only [hread, hmap] using h

theorem storedInTurn_snoc {s t u : State} {ws : List (Word × Word)} {w : Word × Word} (h : StoredInTurn s t ws)
    (hs : StoredAt t u w.1 4 w.2.toNat) (ht : t.physMap = s.physMap) (hu : u.physMap = s.physMap) :
    StoredInTurn s u (ws ++ [w]) := by
  induction ws generalizing s with
  | nil => exact ⟨u, hu, hs.congr h ht, fun _ _ => rfl⟩
  | cons v vs ih =>
    obtain ⟨m, hm, hfirst, hrest⟩ := h
    exact ⟨m, hm, hfirst, ih hrest (ht.trans hm.symm) (hu.trans hm.symm)⟩

theorem storedInTurn_of_mem {s t t' : State} {ws : List (Word × Word)} (h : StoredInTurn s t ws) (hm : t'.mem = t.mem) :
    StoredInTurn s t' ws := by
  induction ws generalizing s with
  | nil => exact fun b hb => by rw [hm, h b hb]
  | cons v vs ih =>
    obtain ⟨m, hmap, hfirst, hrest⟩ := h
    exact ⟨m, hmap, hfirst, ih hrest⟩

/-- The physical addresses of the bytes of words. -/
def bytesOf (pas : List Word) : List Nat :=
  pas.flatMap fun pa => (List.range 4).map fun j => (pa + BitVec.ofNat 32 j).toNat

theorem mem_bytesOf {pas : List Word} (ha : ∀ pa ∈ pas, pa.toNat % 4 = 0) {b : Nat} :
    b ∈ bytesOf pas ↔ ∃ pa ∈ pas, b / 4 = pa.toNat / 4 := by
  simp only [bytesOf, List.mem_flatMap, List.mem_map, List.mem_range]
  refine exists_congr fun pa => and_congr_right fun hpa => ?_
  have hal := ha pa hpa
  constructor
  · rintro ⟨j, hj, rfl⟩
    rw [toNat_add_small pa j (by omega)]; omega
  · intro hb
    exact ⟨b % 4, by omega, by rw [toNat_add_small pa _ (by omega)]; omega⟩

theorem word_eq_of_bytes {x y : Word} (h : ∀ k < 4, byteOf x k = byteOf y k) : x = y := by
  apply BitVec.eq_of_getLsbD_eq; intro i hi
  have hb := congrArg (·.getLsbD (i % 8)) (h (i / 8) (by omega))
  have hmod : i % 8 < 8 := Nat.mod_lt _ (by decide)
  simpa [byteOf, hmod, Nat.div_add_mod] using hb

/-- Stored words at distinct aligned addresses of memory can all be read back, and no other byte changes. -/
theorem storedInTurn_memory {s t : State} {ws : List (Word × Word)} (h : StoredInTurn s t ws)
    (hm : ∀ w ∈ ws, StoresMemory s w.1) (ha : ∀ w ∈ ws, w.1.toNat % 4 = 0) (hd : ws.Pairwise fun v w => v.1 ≠ w.1) :
    (∀ w ∈ ws, BitVec.ofNat 32 (t.valueAt w.1 4) = w.2) ∧ KeepsMemory s t (bytesOf (ws.map Prod.fst)) := by
  induction ws generalizing s with
  | nil => exact ⟨by simp, h⟩
  | cons w ws ih =>
    obtain ⟨u, hmap, hfirst, hrest⟩ := h
    obtain ⟨hne, hd'⟩ := List.pairwise_cons.1 hd
    obtain ⟨hmw, hmws⟩ := List.forall_mem_cons.1 hm
    obtain ⟨haw, haws⟩ := List.forall_mem_cons.1 ha
    obtain ⟨hvalues, hkeeps⟩ := ih hrest (fun v hv => (hmws v hv).congr hmap) haws hd'
    obtain ⟨hbytes, hothers⟩ := stored_of_storesMemory hmw hfirst
    have haws' : ∀ pa ∈ ws.map Prod.fst, pa.toNat % 4 = 0 := by simpa using fun pa v hv => haws (pa, v) hv
    refine ⟨List.forall_mem_cons.2 ⟨word_eq_of_bytes fun k hk => ?value, hvalues⟩, fun b hb => ?frame⟩
    case value =>
      have hout : (w.1 + BitVec.ofNat 32 k).toNat ∉ bytesOf (ws.map Prod.fst) := fun hmem => by
        obtain ⟨pa, hpa, heq⟩ := (mem_bytesOf haws').1 hmem
        obtain ⟨v, hv, rfl⟩ := List.mem_map.1 hpa
        have hav := haws v hv
        rw [toNat_add_small w.1 k (by omega)] at heq
        exact hne v hv (BitVec.eq_of_toNat_eq (by omega))
      rw [State.byteOf_valueAt t w.1 hk, hkeeps _ hout, hbytes k hk, byteOf_eq]
    case frame =>
      rw [List.map_cons, bytesOf, List.flatMap_cons, List.mem_append, not_or] at hb
      rw [hkeeps b hb.2, hothers b hb.1]

/-! ## The words of a frame lie at distinct addresses -/

theorem add_mod_segment {x k : Word} (h : k.toNat % 0x20000000 = 0) :
    (x + k).toNat % 0x20000000 = x.toNat % 0x20000000 := by
  rw [BitVec.toNat_add]; omega

theorem sub_mod_segment {x k : Word} (h : k.toNat % 0x20000000 = 0) :
    (x - k).toNat % 0x20000000 = x.toNat % 0x20000000 := by
  rw [BitVec.toNat_sub]; have := k.isLt; omega

/-- The fixed mapping moves segments by multiples of 512 MB (spec 20 R105). -/
theorem translate_mod_segment (c : Cp0) (va : Word) : (translate c va).toNat % 0x20000000 = va.toNat % 0x20000000 := by
  unfold translate
  split_ifs
  · rfl
  · exact add_mod_segment (by decide)
  · exact add_mod_segment (by decide)
  · exact sub_mod_segment (by decide)
  · exact sub_mod_segment (by decide)
  · rfl

theorem dataAddress_word (c : Cp0) (va : Word) : dataAddress c .word va = translate c va := by
  have hmask : laneMask c .word = 0 := ite_self 0
  rw [dataAddress, hmask]
  exact BitVec.xor_zero

theorem State.framePa_aligned {s : State} {top : Word} {k : Nat} (h : ¬ AddressError s .word (frameSlot top k)) :
    (s.framePa top k).toNat % 4 = 0 := by
  rw [State.framePa, dataAddress_word, translate_mod]
  exact not_not.1 fun hn => h (.inl hn)

theorem State.framePa_ne (s : State) (top : Word) {j k : Nat} (hjk : j < k) (hk : k < 16) :
    s.framePa top j ≠ s.framePa top k := by
  intro h
  have hmod := congrArg (fun pa : Word => pa.toNat % 0x20000000) h
  simp only [State.framePa, dataAddress_word, translate_mod_segment, frameSlot, BitVec.toNat_sub,
    BitVec.toNat_ofNat] at hmod
  omega

end Sys2Proof.Machine
end

section
/-! PROOFS. SAVE, word by word. -/

namespace Sys2Proof.Machine

/-! ## Shared by SAVE and RESTORE -/

theorem State.othersWrite_of_quiet {s : State} (h : s.between = []) : s.othersWrite = s := by
  have hnone : s.busWrites (s.between.headD []) = s := by rw [h]; rfl
  rw [State.othersWrite, hnone, h, List.tail_nil, ← h]

theorem KeepsRegs.trans {s u t : State} {rs qs : List Reg} (h : KeepsRegs s u rs)
    (hcss : u.cp0.srsCtl.css = s.cp0.srsCtl.css) (h' : KeepsRegs u t qs) : KeepsRegs s t (rs ++ qs) := by
  intro k r hk
  have hnot : k = s.cp0.srsCtl.css → r ∉ rs ∧ r ∉ qs := by simpa only [List.mem_append, not_or] using hk
  exact (h' k r fun e => (hnot (e.trans hcss)).2).trans (h k r fun e => (hnot e).1)

theorem drop_eq_getD_cons {regs : List Reg} {n : Nat} (h : n < regs.length) :
    regs.drop n = regs.getD n 0 :: regs.drop (n + 1) := by
  rw [List.drop_eq_getElem_cons h, List.getD_eq_getElem _ _ h]

/-- `i` begins in `s` and takes exception `e` in `u`, which has the control state of `s`: the clause `fails` of Mips16Frames. -/
def FrameFails (i : Instr) (s u : State) (e : Exc) (regs : List Reg) : Prop :=
  u.pc = s.pc ∧ u.isaMode = s.isaMode ∧ u.delay = s.delay ∧ u.hazards = s.hazards ∧ u.fetchHazards = s.fetchHazards ∧
    ∃ t, exec i s = .next t ∧ Entered u t e ∧ KeepsRegs u t regs ∧ KeepsHiLo u t ∧ KeepsMemory u t []

theorem DuringFrame.fails {i : Instr} {s u : State} {a : Access} {top : Word} {n : Nat} {e : Exc}
    (h : DuringFrame s a top n u) (hd : s.cp0.debugReg.dm = false) (hex : exec i s = .next (u.raise e)) :
    FrameFails i s u e [] := by
  obtain ⟨-, hdm, -⟩ := h.kept
  rw [State.raise_eq (hdm.trans hd)] at hex
  exact ⟨h.pc, h.isaMode, h.delay, h.hazards, h.fetchHazards, _, hex, State.takeException_entered u e,
    keepsRegs_of_gpr (by simp) _, ⟨by simp, by simp, by simp⟩, keepsMemory_of_mem (by simp) _⟩

/-- The same where the register of a failed load has been written (spec 20 R124). -/
theorem DuringFrame.fails_loaded {i : Instr} {s u : State} {a : Access} {top v : Word} {n : Nat} {e : Exc} {r : Reg}
    (h : DuringFrame s a top n u) (hd : s.cp0.debugReg.dm = false) (hex : exec i s = .next ((u.write r v).raise e)) :
    FrameFails i s u e [r] := by
  obtain ⟨-, hdm, -⟩ := (h.write r v).kept
  rw [State.raise_eq (hdm.trans hd)] at hex
  exact ⟨h.pc, h.isaMode, h.delay, h.hazards, h.fetchHazards, _, hex,
    State.write_entered (State.takeException_entered _ e),
    fun k q hq => (State.regOf_congr (by simp) k q).trans (keepsRegs_write u r v [r] (by simp) k q hq),
    ⟨by simp, by simp, by simp⟩, keepsMemory_of_mem (by simp) _⟩

/-! ## SAVE -/

/-- The stores of the first `n` words of a frame, of the registers `regs` (spec 45 R478). -/
def State.frameStores (s : State) (top : Word) (regs : List Reg) (n : Nat) : List (Word × Word) :=
  ((List.range n).filter (s.frameAnswered .store top)).map fun k => (s.framePa top k, s.reg (regs.getD k 0))

theorem State.frameStores_succ (s : State) (top : Word) (regs : List Reg) (n : Nat) :
    s.frameStores top regs (n + 1) = s.frameStores top regs n ++
      if s.frameAnswered .store top n then [(s.framePa top n, s.reg (regs.getD n 0))] else [] := by
  rw [State.frameStores, List.range_succ, List.filter_append, List.map_append, ← State.frameStores]
  cases h : s.frameAnswered .store top n <;> simp [h]

/-- What the stores of the first `n` words leave in memory: the clause `stored` of Mips16Frames. -/
def State.FrameStored (s : State) (top : Word) (regs : List Reg) (n : Nat) (t : State) : Prop :=
  StoredInTurn s t (s.frameStores top regs n) ∧
    ((∀ k < n, s.frameAnswered .store top k = true ∧ StoresMemory s (s.framePa top k)) →
      (∀ k < n, BitVec.ofNat 32 (t.valueAt (s.framePa top k) 4) = s.reg (regs.getD k 0)) ∧
      KeepsMemory s t
        ((List.range n).flatMap fun k => (List.range 4).map fun j => (s.framePa top k + BitVec.ofNat 32 j).toNat))

/-- The words of a frame lie apart, so in memory each can be read back. -/
theorem frameStored_of_storedInTurn {s t : State} {top : Word} {regs : List Reg} {n : Nat}
    (hp : s.FramePassed .store top n) (hn : n ≤ 16) (h : StoredInTurn s t (s.frameStores top regs n)) :
    s.FrameStored top regs n t := by
  refine ⟨h, fun hall => ?_⟩
  have hstores : s.frameStores top regs n =
      (List.range n).map fun k => (s.framePa top k, s.reg (regs.getD k 0)) := by
    rw [State.frameStores, List.filter_eq_self.2 fun k hk => (hall k (List.mem_range.1 hk)).1]
  rw [hstores] at h
  have hapart : ((List.range n).map fun k => (s.framePa top k, s.reg (regs.getD k 0))).Pairwise
      fun v w => v.1 ≠ w.1 :=
    List.pairwise_map.2 (List.pairwise_lt_range.imp_of_mem fun _ hk hjk =>
      s.framePa_ne top hjk (by have := List.mem_range.1 hk; omega))
  obtain ⟨hvalues, hkeeps⟩ := storedInTurn_memory h
    (by simpa using fun k hk => (hall k hk).2)
    (by simpa using fun k hk => State.framePa_aligned (hp k hk).1) hapart
  refine ⟨fun k hk => ?_, ?_⟩
  · exact hvalues (s.framePa top k, s.reg (regs.getD k 0)) (List.mem_map.2 ⟨k, List.mem_range.2 hk, rfl⟩)
  · rwa [bytesOf, List.map_map, List.flatMap_map] at hkeeps

/-- The store of word `n`, where it does not end the instruction. -/
theorem DuringFrame.push {s u : State} {top : Word} {regs : List Reg} {n : Nat} (hu : DuringFrame s .store top n u)
    (hw : u.mem.wf) (hst : StoredInTurn s u (s.frameStores top regs n)) (hp : s.FramePassed .store top (n + 1)) :
    ∃ u', DuringFrame s .store top (n + 1) u' ∧ u'.gpr = u.gpr ∧ u'.mem.wf ∧
      StoredInTurn s u' (s.frameStores top regs (n + 1)) ∧
      ∀ k : State → Result, u.storeWith (u.memWrite .word (frameSlot top n) (s.reg (regs.getD n 0))) k k = k u' := by
  rw [State.frameStores_succ]
  generalize s.reg (regs.getD n 0) = v
  rcases hp.access (Nat.lt_succ_self n) with ⟨hans, hacc⟩ | ⟨hans, hbus, hi⟩
  · have hacc' := (hu.accessible_iff ..).2 hacc
    have hat : StoredAt u (u.storeBytes (u.framePa top n) (storedBytes .word v)) (u.framePa top n) 4 v.toNat :=
      storedAt_of_storeBytes hw rfl hacc'.fits fun k => storedBytes_getD .word v k
    rw [hu.framePa] at hat
    rw [hans]
    exact ⟨_, (hu.storeBytes (s.framePa top n) (storedBytes .word v)).succ_answered hans, rfl,
      State.storeBytes_wf hw _ _, storedInTurn_snoc hst hat hu.physMap hu.physMap,
      fun k => by rw [State.memWrite_ok hacc', ← hu.framePa]; rfl⟩
  · obtain ⟨-, -, hiexi⟩ := hu.kept
    rw [hans]
    refine ⟨_, hu.succ_held hans, rfl, hw, ?_, fun k => ?_⟩
    · simpa using storedInTurn_of_mem hst (State.holdBusError_mem u)
    · rw [State.memWrite_busError ((hu.busError_iff ..).2 hbus)]
      exact State.dataBusError_held (hiexi.trans hi) k

theorem pushWords_at (s u : State) (len top : Word) (f : State → State) {regs : List Reg} {n : Nat}
    (hn : n < regs.length) :
    ∃ k : State → Result, u.pushWords len (top - BitVec.ofNat 32 (4 * n)) f ((regs.drop n).map s.reg) =
        u.storeWith (u.memWrite .word (frameSlot top n) (s.reg (regs.getD n 0))) k k ∧
      ∀ w : State, w.between = [] →
        k w = w.pushWords len (top - BitVec.ofNat 32 (4 * (n + 1))) f ((regs.drop (n + 1)).map s.reg) := by
  rw [drop_eq_getD_cons hn, List.map_cons, State.pushWords, frameSlot_eq]
  exact ⟨_, rfl, fun w hb => by rw [State.othersWrite_of_quiet hb]; rfl⟩

/-- Where the stores of the first `n` words pass, SAVE goes on from a state in which they have happened. -/
theorem pushWords_passed {s : State} (hb : s.between = []) (hw : s.mem.wf) (len : Word) {top : Word}
    (f : State → State) {regs : List Reg} {n : Nat} (hn : n ≤ regs.length) (hp : s.FramePassed .store top n) :
    ∃ u, DuringFrame s .store top n u ∧ u.gpr = s.gpr ∧ u.mem.wf ∧ StoredInTurn s u (s.frameStores top regs n) ∧
      s.pushWords len top f (regs.map s.reg) =
        u.pushWords len (top - BitVec.ofNat 32 (4 * n)) f ((regs.drop n).map s.reg) := by
  induction n with
  | zero => exact ⟨s, .zero s _ _, rfl, hw, fun _ _ => rfl, by simp⟩
  | succ n ih =>
    obtain ⟨u, hu, hgpr, hwf, hst, hrun⟩ := ih (by omega) (hp.mono (Nat.le_succ n))
    obtain ⟨u', hu', hgpr', hwf', hst', hstep⟩ := hu.push hwf hst hp
    obtain ⟨k, hk, hnext⟩ := pushWords_at s u len top f hn
    exact ⟨u', hu', hgpr'.trans hgpr, hwf', hst',
      ((hrun.trans hk).trans (hstep k)).trans (hnext u' (hu'.between.trans hb))⟩

/-- Where the store of word `n` ends the instruction. -/
theorem DuringFrame.stops_store {i : Instr} {s u : State} {top v : Word} {n : Nat} {k : State → Result}
    (hu : DuringFrame s .store top n u) (h : exec i s = u.storeWith (u.memWrite .word (frameSlot top n) v) k k) :
    (GoesToDseg s .word (frameSlot top n) → exec i s = .refused .dsegAccess) ∧
      (AddressError s .word (frameSlot top n) → s.cp0.debugReg.dm = false →
        FrameFails i s u (.adES (frameSlot top n)) []) ∧
      (BusError s .store .word (frameSlot top n) → TakesExceptions s → FrameFails i s u .dbe []) := by
  refine ⟨fun hg => ?dseg, fun ha hd => hu.fails hd ?address, fun he ⟨hd, hi⟩ => hu.fails hd ?bus⟩
  case dseg => rw [h, State.memWrite_dseg ((hu.goesToDseg_iff ..).2 hg)]; rfl
  case address => rw [h, State.memWrite_addressError ((hu.addressError_iff ..).2 ha)]; rfl
  case bus =>
    obtain ⟨-, -, hiexi⟩ := hu.kept
    rw [h, State.memWrite_busError ((hu.busError_iff ..).2 he)]
    exact if_neg (Bool.eq_false_iff.1 (hiexi.trans hi))

/-- `i`, of `len` bytes, is SAVE of `regs` with a frame of `size` bytes: the clause `saves` of Mips16Frames (spec 45 R478). -/
def Saves (i : Instr) (s : State) (len size : Word) (regs : List Reg) : Prop :=
  s.mem.wf →
  (s.FramePassed .store (s.reg 29) regs.length →
    ∃ t, exec i s = .next t ∧ t.reg 29 = s.reg 29 - size ∧ KeepsRegs s t [29] ∧
      s.FrameReached .store (s.reg 29) regs.length t ∧ KeepsHazards s t ∧ GoesOn s t len ∧
      s.FrameStored (s.reg 29) regs regs.length t) ∧
  ∀ j < regs.length, s.FramePassed .store (s.reg 29) j →
    (GoesToDseg s .word (frameSlot (s.reg 29) j) → exec i s = .refused .dsegAccess) ∧
    (AddressError s .word (frameSlot (s.reg 29) j) → s.cp0.debugReg.dm = false →
      ∃ u, KeepsRegs s u [] ∧ s.FrameReached .store (s.reg 29) j u ∧ s.FrameStored (s.reg 29) regs j u ∧
        FrameFails i s u (.adES (frameSlot (s.reg 29) j)) []) ∧
    (BusError s .store .word (frameSlot (s.reg 29) j) → TakesExceptions s →
      ∃ u, KeepsRegs s u [] ∧ s.FrameReached .store (s.reg 29) j u ∧ s.FrameStored (s.reg 29) regs j u ∧
        FrameFails i s u .dbe [])

theorem frameRegs_length (ra s0 s1 : Bool) : (frameRegs ra s0 s1).length ≤ 3 := by
  revert ra s0 s1; decide

/-- SAVE stores word by word; the first access that fails ends it. -/
theorem saves_of_saveFrame {i : Instr} {s : State} {len size : Word} {ra s0 s1 : Bool} (hb : s.between = [])
    (h : exec i s = s.saveFrame len size ra s0 s1) : Saves i s len size (frameRegs ra s0 s1) := by
  intro hw
  have hshort := frameRegs_length ra s0 s1
  generalize hregs : frameRegs ra s0 s1 = regs at hshort
  rw [State.saveFrame, hregs] at h
  have hpassed : ∀ {n}, n ≤ regs.length → s.FramePassed .store (s.reg 29) n → _ :=
    pushWords_passed hb hw len (top := s.reg 29) (fun t => t.write 29 (s.reg 29 - size))
  refine ⟨fun hp => ?completes, fun j hj hp => ?_⟩
  case completes =>
    obtain ⟨u, hu, hgpr, -, hst, hrun⟩ := hpassed le_rfl hp
    rw [List.drop_length] at hrun
    obtain ⟨hreached, hhaz, hgo, -⟩ := (hu.write 29 (s.reg 29 - size)).advance len
    have hframe : KeepsRegs s (u.write 29 (s.reg 29 - size)) [29] :=
      (keepsRegs_of_gpr hgpr []).trans hu.kept.1 (keepsRegs_write u 29 _ [29] (by simp))
    refine ⟨_, h.trans hrun, ?_, fun k r hk => ?_, hreached, hhaz, hgo,
      frameStored_of_storedInTurn hp (by omega) (storedInTurn_of_mem hst (by simp))⟩
    · rw [State.advance_reg, State.write_reg_self]; rfl
    · rw [State.advance_regOf]; exact hframe k r hk
  obtain ⟨u, hu, hgpr, -, hst, hrun⟩ := hpassed hj.le hp
  obtain ⟨k, hk, -⟩ := pushWords_at s u len (s.reg 29) (fun t => t.write 29 (s.reg 29 - size)) hj
  obtain ⟨hdseg, haddress, hbus⟩ := hu.stops_store ((h.trans hrun).trans hk)
  have hstored := frameStored_of_storedInTurn hp (by omega) hst
  have hkeeps : KeepsRegs s u [] := keepsRegs_of_gpr hgpr []
  exact ⟨hdseg, fun ha hd => ⟨u, hkeeps, hu.reached, hstored, haddress ha hd⟩,
    fun he ht => ⟨u, hkeeps, hu.reached, hstored, hbus he ht⟩⟩

end Sys2Proof.Machine
end

section
/-! PROOFS. RESTORE, and the halfwords of SAVE and RESTORE. -/

namespace Sys2Proof.Machine

/-! ## RESTORE -/

theorem State.valueAt_congr {s t : State} (h : t.mem = s.mem) (pa : Word) (n : Nat) :
    t.valueAt pa n = s.valueAt pa n := by
  induction n with
  | zero => rfl
  | succ n ih => rw [State.valueAt, ih, h, State.valueAt]

theorem DuringFrame.readsMemory {s u : State} {a : Access} {top pa : Word} {n : Nat} (h : DuringFrame s a top n u)
    (hr : ReadsMemory s pa) : ReadsMemory u pa := by
  unfold ReadsMemory; rwa [h.region]

/-- What the loads of the first `n` words leave: the clause `loaded` of Mips16Frames. -/
def State.FrameLoaded (s : State) (top : Word) (regs : List Reg) (n : Nat) (t : State) : Prop :=
  KeepsMemory s t [] ∧ ∀ k < n, s.frameAnswered .load top k = true → ReadsMemory s (s.framePa top k) →
    t.reg (regs.getD k 0) = BitVec.ofNat 32 (s.valueAt (s.framePa top k) 4)

/-- A write outside the registers loaded so far keeps what they hold. -/
theorem State.FrameLoaded.write {s u : State} {top : Word} {regs : List Reg} {n : Nat} {r : Reg} (v : Word)
    (h : s.FrameLoaded top regs n u) (hr : ∀ k < n, regs.getD k 0 ≠ r) : s.FrameLoaded top regs n (u.write r v) := by
  obtain ⟨hmem, hvalues⟩ := h
  refine ⟨fun b hb => by rw [← hmem b hb]; simp, fun k hk hans hread => ?_⟩
  rw [State.reg_write, if_neg fun e => hr k hk e.1, hvalues k hk hans hread]

theorem getD_ne_of_nodup {regs : List Reg} (hd : regs.Nodup) {k n : Nat} (hk : k < n) (hn : n < regs.length) :
    regs.getD k 0 ≠ regs.getD n 0 := by
  rw [List.getD_eq_getElem _ _ (hk.trans hn), List.getD_eq_getElem _ _ hn]
  exact fun e => absurd ((List.Nodup.getElem_inj_iff hd).1 e) (by omega)

theorem keepsRegs_take_succ {s u : State} {regs : List Reg} {n : Nat} {a : Access} {top : Word}
    (hu : DuringFrame s a top n u) (h : KeepsRegs s u (regs.take n)) (hn : n < regs.length) (v : Word) :
    KeepsRegs s (u.write (regs.getD n 0) v) (regs.take (n + 1)) := by
  rw [List.take_succ_eq_append_getElem hn, ← List.getD_eq_getElem _ 0 hn]
  exact h.trans hu.kept.1 (keepsRegs_write u _ v _ (by simp))

theorem State.FrameLoaded.succ {s u : State} {top v : Word} {regs : List Reg} {n : Nat} (h : s.FrameLoaded top regs n u)
    (hd : regs.Nodup) (h0 : (0 : Reg) ∉ regs) (hn : n < regs.length)
    (hv : s.frameAnswered .load top n = true → ReadsMemory s (s.framePa top n) →
      v = BitVec.ofNat 32 (s.valueAt (s.framePa top n) 4)) :
    s.FrameLoaded top regs (n + 1) (u.write (regs.getD n 0) v) := by
  obtain ⟨hmem, hvalues⟩ := h.write v fun k hk => getD_ne_of_nodup hd hk hn
  refine ⟨hmem, fun k hk hans hread => ?_⟩
  rcases Nat.lt_succ_iff_lt_or_eq.1 hk with hlt | rfl
  · exact hvalues k hlt hans hread
  · have hne : regs.getD k 0 ≠ 0 := by
      rw [List.getD_eq_getElem _ _ hn]
      exact fun e => h0 (e ▸ List.getElem_mem hn)
    rw [State.write_reg_self, if_neg hne, hv hans hread]

/-- The load of word `n`, where it does not end the instruction. -/
theorem DuringFrame.pop {s u : State} {top : Word} {regs : List Reg} {n : Nat} (hu : DuringFrame s .load top n u)
    (hd : regs.Nodup) (h0 : (0 : Reg) ∉ regs) (hn : n < regs.length) (hm : u.mem = s.mem) (hs : u.stale = s.stale)
    (hk : KeepsRegs s u (regs.take n)) (hl : s.FrameLoaded top regs n u) (hp : s.FramePassed .load top (n + 1)) :
    ∃ u', DuringFrame s .load top (n + 1) u' ∧ u'.mem = s.mem ∧ u'.stale = s.stale ∧
      KeepsRegs s u' (regs.take (n + 1)) ∧ s.FrameLoaded top regs (n + 1) u' ∧
      ∀ k : State → Result, u.loadWith (regs.getD n 0) (u.memRead .word (frameSlot top n)) id k k = k u' := by
  have hkeeps := keepsRegs_take_succ hu hk hn
  rcases hp.access (Nat.lt_succ_self n) with ⟨hans, hacc⟩ | ⟨hans, hbus, hi⟩
  · have hacc' := (hu.accessible_iff ..).2 hacc
    have hvalue : ReadsMemory s (s.framePa top n) →
        u.busValue .word (u.framePa top n) = BitVec.ofNat 32 (s.valueAt (s.framePa top n) 4) := fun hread => by
      rw [← State.valueAt_congr hm, ← hu.framePa]
      exact State.busValue_eq (by rw [hu.framePa]; exact hu.readsMemory hread) hacc'.fits
    exact ⟨_, (hu.write _ _).succ_answered hans, (State.write_mem ..).trans hm, (State.write_stale ..).trans hs,
      hkeeps _, hl.succ hd h0 hn fun _ => hvalue, fun k => by rw [State.memRead_ok hacc']; rfl⟩
  · obtain ⟨-, -, hiexi⟩ := (hu.write (regs.getD n 0) (u.free (.loadDestination (regs.getD n 0).toNat))).kept
    refine ⟨(u.freeLoaded (regs.getD n 0)).holdBusError, (hu.write _ _).succ_held hans, (State.write_mem ..).trans hm,
      (State.write_stale ..).trans hs, hkeeps _, hl.succ hd h0 hn fun h => absurd h (Bool.eq_false_iff.1 hans),
      fun k => ?_⟩
    rw [State.memRead_busError ((hu.busError_iff ..).2 hbus)]
    exact State.dataBusError_held (hiexi.trans hi) k

theorem popWords_at (u : State) (len top : Word) (f : State → State) {regs : List Reg} {n : Nat}
    (hn : n < regs.length) :
    ∃ k : State → Result, u.popWords len (top - BitVec.ofNat 32 (4 * n)) f (regs.drop n) =
        u.loadWith (regs.getD n 0) (u.memRead .word (frameSlot top n)) id k k ∧
      ∀ w : State, w.between = [] →
        k w = w.popWords len (top - BitVec.ofNat 32 (4 * (n + 1))) f (regs.drop (n + 1)) := by
  rw [drop_eq_getD_cons hn, State.popWords, frameSlot_eq]
  exact ⟨_, rfl, fun w hb => by rw [State.othersWrite_of_quiet hb]; rfl⟩

/-- Where the loads of the first `n` words pass, RESTORE goes on from a state in which they have happened. -/
theorem popWords_passed {s : State} (hb : s.between = []) (len : Word) {top : Word} (f : State → State)
    {regs : List Reg} (hd : regs.Nodup) (h0 : (0 : Reg) ∉ regs) {n : Nat} (hn : n ≤ regs.length)
    (hp : s.FramePassed .load top n) :
    ∃ u, DuringFrame s .load top n u ∧ u.mem = s.mem ∧ u.stale = s.stale ∧ KeepsRegs s u (regs.take n) ∧
      s.FrameLoaded top regs n u ∧
      s.popWords len top f regs = u.popWords len (top - BitVec.ofNat 32 (4 * n)) f (regs.drop n) := by
  induction n with
  | zero => exact ⟨s, .zero s _ _, rfl, rfl, fun _ _ _ => rfl, ⟨fun _ _ => rfl, by simp⟩, by simp⟩
  | succ n ih =>
    obtain ⟨u, hu, hm, hs, hk, hl, hrun⟩ := ih (by omega) (hp.mono (Nat.le_succ n))
    obtain ⟨u', hu', hm', hs', hk', hl', hstep⟩ := hu.pop hd h0 hn hm hs hk hl hp
    obtain ⟨k, hnow, hnext⟩ := popWords_at u len top f hn
    exact ⟨u', hu', hm', hs', hk', hl',
      ((hrun.trans hnow).trans (hstep k)).trans (hnext u' (hu'.between.trans hb))⟩

/-- Where the load of word `n` ends the instruction. -/
theorem DuringFrame.stops_load {i : Instr} {s u : State} {top : Word} {n : Nat} {r : Reg} {k : State → Result}
    (hu : DuringFrame s .load top n u) (h : exec i s = u.loadWith r (u.memRead .word (frameSlot top n)) id k k) :
    (GoesToDseg s .word (frameSlot top n) → exec i s = .refused .dsegAccess) ∧
      (AddressError s .word (frameSlot top n) → s.cp0.debugReg.dm = false →
        FrameFails i s u (.adEL (frameSlot top n)) []) ∧
      (BusError s .load .word (frameSlot top n) → TakesExceptions s → FrameFails i s u .dbe [r]) := by
  refine ⟨fun hg => ?dseg, fun ha hd => hu.fails hd ?address, fun he ⟨hd, hi⟩ => ?bus⟩
  case dseg => rw [h, State.memRead_dseg ((hu.goesToDseg_iff ..).2 hg)]; rfl
  case address => rw [h, State.memRead_addressError ((hu.addressError_iff ..).2 ha)]; rfl
  case bus =>
    obtain ⟨-, -, hiexi⟩ := (hu.write r (u.free (.loadDestination r.toNat))).kept
    have hraise : exec i s = .next ((u.freeLoaded r).raise .dbe) := by
      rw [h, State.memRead_busError ((hu.busError_iff ..).2 he)]
      exact if_neg (Bool.eq_false_iff.1 (hiexi.trans hi))
    exact hu.fails_loaded hd hraise

/-- `i`, of `len` bytes, is RESTORE of `regs` with a frame that ends at `top`: the clause `restores` of Mips16Frames (spec 45 R479). -/
def Restores (i : Instr) (s : State) (len top : Word) (regs : List Reg) : Prop :=
  (s.FramePassed .load top regs.length →
    ∃ t, exec i s = .next t ∧ t.reg 29 = top ∧ KeepsRegs s t (29 :: regs) ∧ s.FrameReached .load top regs.length t ∧
      KeepsHazards s t ∧ (NoBarrier s → t.stale = s.stale) ∧ GoesOn s t len ∧ s.FrameLoaded top regs regs.length t) ∧
  ∀ j < regs.length, s.FramePassed .load top j →
    (GoesToDseg s .word (frameSlot top j) → exec i s = .refused .dsegAccess) ∧
    (AddressError s .word (frameSlot top j) → s.cp0.debugReg.dm = false →
      ∃ u, KeepsRegs s u (regs.take j) ∧ s.FrameReached .load top j u ∧ s.FrameLoaded top regs j u ∧
        FrameFails i s u (.adEL (frameSlot top j)) []) ∧
    (BusError s .load .word (frameSlot top j) → TakesExceptions s →
      ∃ u, KeepsRegs s u (regs.take j) ∧ s.FrameReached .load top j u ∧ s.FrameLoaded top regs j u ∧
        FrameFails i s u .dbe [regs.getD j 0])

theorem frameRegs_distinct (ra s0 s1 : Bool) :
    (frameRegs ra s0 s1).Nodup ∧ (0 : Reg) ∉ frameRegs ra s0 s1 ∧ (29 : Reg) ∉ frameRegs ra s0 s1 := by
  revert ra s0 s1; decide

/-- RESTORE loads word by word; the first access that fails ends it. -/
theorem restores_of_restoreFrame {i : Instr} {s : State} {len size : Word} {ra s0 s1 : Bool} (hb : s.between = [])
    (h : exec i s = s.restoreFrame len size ra s0 s1) : Restores i s len (s.reg 29 + size) (frameRegs ra s0 s1) := by
  obtain ⟨hd, h0, h29⟩ := frameRegs_distinct ra s0 s1
  rw [State.restoreFrame] at h
  generalize frameRegs ra s0 s1 = regs at *
  generalize s.reg regSp + size = top at *
  refine ⟨fun hp => ?completes, fun j hj hp => ?_⟩
  case completes =>
    obtain ⟨u, hu, hm, hs, hk, hl, hrun⟩ := popWords_passed hb len (fun t => t.write 29 top) hd h0 le_rfl hp
    rw [List.drop_length] at hrun
    rw [List.take_length] at hk
    obtain ⟨hreached, hhaz, hgo, hstale⟩ := (hu.write 29 top).advance len
    have hsp : ∀ k < regs.length, regs.getD k 0 ≠ 29 := fun k hk e => by
      rw [List.getD_eq_getElem _ _ hk] at e
      exact h29 (e ▸ List.getElem_mem hk)
    obtain ⟨hmem, hvalues⟩ := hl.write top hsp
    have hframe := hk.trans hu.kept.1 (keepsRegs_write u 29 top [29] (by simp))
    refine ⟨_, h.trans hrun, ?_, fun k r hk => ?_, hreached, hhaz, fun hb => ?_, hgo, fun b hb => ?_,
      fun k hk hans hread => ?_⟩
    · rw [State.advance_reg, State.write_reg_self]; rfl
    · rw [State.advance_regOf]
      exact hframe k r fun e => by simpa [or_comm] using hk e
    · rw [hstale hb, State.write_stale, hs]
    · rw [State.advance_mem, hmem b hb]
    · rw [State.advance_reg, hvalues k hk hans hread]
  obtain ⟨u, hu, -, -, hk, hl, hrun⟩ := popWords_passed hb len (fun t => t.write 29 top) hd h0 hj.le hp
  obtain ⟨k, hnow, -⟩ := popWords_at u len top (fun t => t.write 29 top) hj
  obtain ⟨hdseg, haddress, hbus⟩ := hu.stops_load ((h.trans hrun).trans hnow)
  exact ⟨hdseg, fun ha hdm => ⟨u, hk, hu.reached, hl, haddress ha hdm⟩,
    fun he ht => ⟨u, hk, hu.reached, hl, hbus he ht⟩⟩

/-! ## The halfwords of SAVE and RESTORE -/

/-- The fields of SAVE and RESTORE that name registers (spec 45 R478). -/
def frameFields (ra s0 s1 : Bool) : Half :=
  (if ra then 0x40 else 0) ||| (if s0 then 0x20 else 0) ||| (if s1 then (0x10 : Half) else 0)

theorem Halfword.ofHalf_save (ra s0 s1 : Bool) (frame : BitVec 4) :
    Halfword.ofHalf (0x6480 ||| frameFields ra s0 s1 ||| frame.setWidth 16) = Halfword.ofFrame true ra s0 s1 frame := by
  revert ra s0 s1 frame; decide

theorem Halfword.ofHalf_restore (ra s0 s1 : Bool) (frame : BitVec 4) :
    Halfword.ofHalf (0x6400 ||| frameFields ra s0 s1 ||| frame.setWidth 16) =
      Halfword.ofFrame false ra s0 s1 frame := by
  revert ra s0 s1 frame; decide

/-- The EXTEND halfword of SAVE and RESTORE: statics, the high half of the frame size, arguments (spec 45 R478). -/
theorem Halfword.ofHalf_frameExtend (xsregs : BitVec 3) (high aregs : BitVec 4) :
    Halfword.ofHalf (0xF000 ||| xsregs.setWidth 16 <<< 8 ||| high.setWidth 16 <<< 4 ||| aregs.setWidth 16) =
      Halfword.ofImm11 0x1E (xsregs ++ high ++ aregs) := by
  have e : (xsregs ++ high).setWidth 16 <<< 4 = xsregs.setWidth 16 <<< 8 ||| high.setWidth 16 <<< 4 := by
    rw [setWidth_append_or, BitVec.shiftLeft_or_distrib, ← BitVec.shiftLeft_add]
  have h := Halfword.ofHalf_extend (xsregs ++ high) aregs rfl
  rwa [e, ← BitVec.or_assoc] at h

/-- The halfwords are read before the statics and arguments are refused (spec 45 R478). -/
theorem decodePairFields_frame (save : Bool) (xsregs : BitVec 3) (aregs : BitVec 4) (frame : BitVec 8)
    (ra s0 s1 : Bool) :
    decodePairFields (Halfword.ofImm11 0x1E (xsregs ++ frame.extractLsb' 4 4 ++ aregs))
        (Halfword.ofFrame save ra s0 s1 (frame.extractLsb' 0 4)) =
      .instr (.m16Extend
        (if save then .save xsregs aregs frame ra s0 s1 else .restore xsregs aregs frame ra s0 s1)) := by
  obtain ⟨hxs, ha, hframe⟩ := extFrame_eq xsregs aregs frame
  have hbit : ∀ b : Bool, (BitVec.ofBool b == 1) = b := by decide
  rw [decodePairFields, if_pos (Halfword.op_ofImm11 ..), Laws.RoundTrip.frame_of_fields rfl rfl, decodeExtFrame,
    Halfword.imm11_ofImm11, Halfword.imm4_ofFrame, hxs, ha, hframe]
  simp only [Halfword.ofFrame, hbit]
  cases save <;> rfl

theorem readsPair_frame {m : Half} {save : Bool} {xsregs : BitVec 3} {aregs : BitVec 4} {frame : BitVec 8}
    {ra s0 s1 : Bool}
    (hm : Halfword.ofHalf (m ||| frameFields ra s0 s1 ||| (frame.extractLsb' 0 4).setWidth 16) =
      Halfword.ofFrame save ra s0 s1 (frame.extractLsb' 0 4)) :
    ReadsPair
      (0xF000 ||| xsregs.setWidth 16 <<< 8 ||| (frame.extractLsb' 4 4).setWidth 16 <<< 4 ||| aregs.setWidth 16)
      (m ||| frameFields ra s0 s1 ||| (frame.extractLsb' 0 4).setWidth 16)
      (.m16Extend (if save then .save xsregs aregs frame ra s0 s1 else .restore xsregs aregs frame ra s0 s1)) := by
  have hp := Halfword.ofHalf_frameExtend xsregs (frame.extractLsb' 4 4) aregs
  refine ⟨decide_eq_true (.inr (congrArg Halfword.op hp)), ?_⟩
  rw [decodePair, hp, hm, decodePairFields_frame]

theorem frameBytes_eq (frame : BitVec 4) :
    frameBytes frame = BitVec.ofNat 32 (if frame.toNat = 0 then 128 else 8 * frame.toNat) := by
  revert frame; decide

theorem extFrameBytes_eq (frame : BitVec 8) : extFrameBytes frame = BitVec.ofNat 32 (8 * frame.toNat) := by
  rw [extFrameBytes, zext_eq, Nat.mul_comm, BitVec.ofNat_mul]; rfl

/-- Settles O46: the clauses are `Saves` and `Restores`, by induction on the words accessed. -/
theorem mips16Frames : Obligations.Mips16Frames := by
  intro s ra s0 s1 f4 f8 xsregs aregs fields half extended regs reg sp slot pa answered passed reached fails saves
    restores size4 size8
  have h4 : frameBytes f4 = size4 := frameBytes_eq f4
  have h8 : extFrameBytes f8 = size8 := extFrameBytes_eq f8
  refine ⟨reads16_of_encode (decodeEncode _) rfl rfl (Halfword.ofHalf_save ra s0 s1 f4),
    reads16_of_encode (decodeEncode _) rfl rfl (Halfword.ofHalf_restore ra s0 s1 f4),
    readsPair_frame (save := true) (Halfword.ofHalf_save ra s0 s1 _),
    readsPair_frame (save := false) (Halfword.ofHalf_restore ra s0 s1 _),
    fun hb => ⟨?save, ?restore, fun hd => ⟨?extSave, ?extRestore⟩⟩, fun hd hne => ?refused⟩
  case save => exact saves_of_saveFrame hb (by rw [← h4]; rfl)
  case restore => exact restores_of_restoreFrame hb (by rw [← h4]; rfl)
  case extSave => exact saves_of_saveFrame hb ((exec_m16Extend hd _).trans (by rw [← h8]; rfl))
  case extRestore => exact restores_of_restoreFrame hb ((exec_m16Extend hd _).trans (by rw [← h8]; rfl))
  case refused =>
    have hstatics : ¬ (xsregs = 0 ∧ aregs = 0) := not_and_or.2 hne
    exact ⟨(exec_m16Extend hd _).trans (if_neg hstatics), (exec_m16Extend hd _).trans (if_neg hstatics)⟩

end Sys2Proof.Machine
end

section
/-! PROOFS. The core timer, and exception entry. -/

namespace Sys2Proof.Machine

/-! ## The core timer -/

/-- The core timer stands still (spec 60 R650). -/
def Cp0.TimerStopped (c : Cp0) : Prop := c.cause.dc = true ∨ c.debugReg.dm = true ∧ c.debugReg.countDm = false

theorem Cp0.timerStopped_iff (c : Cp0) :
    (c.cause.dc || (c.debugReg.dm && !c.debugReg.countDm)) = true ↔ c.TimerStopped := by
  simp [Cp0.TimerStopped]

theorem Cp0.tick_of_stopped {c : Cp0} (h : c.TimerStopped) : c.tick = c := if_pos (c.timerStopped_iff.2 h)

theorem Cp0.tick_of_running {c : Cp0} (h : ¬ c.TimerStopped) : c.tick =
    { c with count := c.count + 1, cause := { c.cause with ti := c.cause.ti || c.count + 1 == c.compare } } :=
  if_neg (mt c.timerStopped_iff.1 h)

theorem Cp0.tick_frame (c : Cp0) :
    c.tick = { c with count := c.tick.count, cause := { c.cause with ti := c.tick.cause.ti } } := by
  by_cases h : c.TimerStopped
  · rw [Cp0.tick_of_stopped h]
  · rw [Cp0.tick_of_running h]

theorem Cp0.ticks_succ (c : Cp0) (n : Nat) : c.ticks (n + 1) = (c.ticks n).tick := by
  induction n generalizing c with
  | zero => rfl
  | succ n ih => exact ih c.tick

/-- Ticks change COUNT and the timer request only, and so neither COMPARE nor whether the timer stands still. -/
theorem Cp0.ticks_frame (c : Cp0) (n : Nat) :
    c.ticks n = { c with count := (c.ticks n).count, cause := { c.cause with ti := (c.ticks n).cause.ti } } := by
  induction n with
  | zero => rfl
  | succ n ih =>
    generalize hm : c.ticks (n + 1) = m
    rw [Cp0.ticks_succ, Cp0.tick_frame, ih] at hm
    rw [← hm]

theorem Cp0.ticks_compare (c : Cp0) (n : Nat) : (c.ticks n).compare = c.compare := by rw [Cp0.ticks_frame]

theorem Cp0.ticks_timerStopped (c : Cp0) (n : Nat) : (c.ticks n).TimerStopped ↔ c.TimerStopped := by
  rw [Cp0.ticks_frame]; rfl

theorem Cp0.ticks_of_stopped {c : Cp0} (h : c.TimerStopped) (n : Nat) : c.ticks n = c := by
  induction n with
  | zero => rfl
  | succ n ih => rw [Cp0.ticks_succ, ih, Cp0.tick_of_stopped h]

theorem Cp0.ticks_succ_of_running {c : Cp0} (h : ¬ c.TimerStopped) (n : Nat) :
    (c.ticks (n + 1)).count = (c.ticks n).count + 1 ∧
    (c.ticks (n + 1)).cause.ti = ((c.ticks n).cause.ti || (c.ticks n).count + 1 == c.compare) := by
  rw [Cp0.ticks_succ, Cp0.tick_of_running (mt (c.ticks_timerStopped n).1 h), ← c.ticks_compare n]
  exact ⟨rfl, rfl⟩

theorem Cp0.ticks_count {c : Cp0} (h : ¬ c.TimerStopped) (n : Nat) :
    (c.ticks n).count = c.count + BitVec.ofNat 32 n := by
  induction n with
  | zero => exact (BitVec.add_zero _).symm
  | succ n ih => rw [(Cp0.ticks_succ_of_running h n).1, ih, BitVec.ofNat_add, BitVec.add_assoc]; rfl

/-- The last of the increments lands on COMPARE, or one before it does. -/
theorem Cp0.ticks_ti {c : Cp0} (h : ¬ c.TimerStopped) (n : Nat) : (c.ticks n).cause.ti = true ↔
    c.cause.ti = true ∨ ∃ k, 1 ≤ k ∧ k ≤ n ∧ c.count + BitVec.ofNat 32 k = c.compare := by
  induction n with
  | zero => exact ⟨.inl, fun h => h.resolve_right fun ⟨k, h1, h0, _⟩ => absurd (h1.trans h0) (by decide)⟩
  | succ n ih =>
    obtain ⟨hcount, hti⟩ := Cp0.ticks_succ_of_running h n
    rw [hti, ← hcount, Cp0.ticks_count h, Bool.or_eq_true, ih, beq_iff_eq, or_assoc]
    refine or_congr_right ⟨?_, fun ⟨k, h1, hk, hc⟩ => ?_⟩
    · rintro (⟨k, h1, hk, hc⟩ | hc)
      · exact ⟨k, h1, hk.trans n.le_succ, hc⟩
      · exact ⟨n + 1, n.succ_pos, le_rfl, hc⟩
    · rcases Nat.le_succ_iff.1 hk with hk | rfl
      · exact .inl ⟨k, h1, hk, hc⟩
      · exact .inr hc

/-- Settles O53: by induction on the ticks, COUNT, the timer request and the rest. -/
theorem timerTicks : Obligations.TimerTicks := fun c n =>
  ⟨fun h => Cp0.ticks_of_stopped h n, fun h => ⟨Cp0.ticks_count h n, Cp0.ticks_ti h n, c.ticks_frame n⟩⟩

/-! ## Exception entry -/

/-- Every general register, HI, LO and every byte of memory is kept. -/
def Unharmed (s t : State) : Prop := KeepsRegs s t [] ∧ KeepsHiLo s t ∧ KeepsMemory s t []

theorem Unharmed.of_eq {s t : State} (hg : t.gpr = s.gpr) (hh : KeepsHiLo s t) (hm : t.mem = s.mem) : Unharmed s t :=
  ⟨keepsRegs_of_gpr hg _, hh, keepsMemory_of_mem hm _⟩

theorem Unharmed.withCp0 {s u : State} (h : Unharmed s u) (c : Cp0) : Unharmed s { u with cp0 := c } := h

/-- Taking an exception harms nothing that was not harmed before. -/
theorem Unharmed.takeException {s u : State} (h : Unharmed s u) (e : Exc) : Unharmed s (u.takeException e) := h

/-- Settles O47: the entry line by line, its frame, and the codes. -/
theorem exceptionEntry : Obligations.ExceptionEntry := by
  intro s e va n hd
  rw [State.raise_eq hd]
  obtain ⟨hregs, hhilo, hmem⟩ := (Unharmed.of_eq (s := s) rfl ⟨rfl, rfl, rfl⟩ rfl).takeException e
  exact ⟨s.takeException_entered e, hregs, hhilo, hmem, rfl, rfl, rfl, rfl, rfl, rfl, rfl, rfl, rfl, rfl, rfl⟩

/-! ### The vector of an interrupt -/

theorem and_low30_of_top (x : Word) : (0x80000000 + x) &&& 0x3FFFFFFF = x &&& 0x3FFFFFFF := by
  apply BitVec.eq_of_toNat_eq
  rw [BitVec.toNat_and, BitVec.toNat_and, show (0x3FFFFFFF : Word).toNat = 2 ^ 30 - 1 from rfl,
    Nat.and_two_pow_sub_one_eq_mod, Nat.and_two_pow_sub_one_eq_mod, BitVec.toNat_add]
  change (0x80000000 + x.toNat) % 4294967296 % 1073741824 = x.toNat % 1073741824
  omega

theorem vectorGoal_ebase (b : BitVec 18) (offset : Word) :
    vectorGoal (0x80000000 ||| b.setWidth 32 <<< 12) offset =
      0x80000000 ||| ((b.setWidth 32 <<< 12 + offset) &&& 0x3FFFFFFF) := by
  rw [vectorGoal, ← ebaseWord_eq, ebaseWord_eq_add, BitVec.add_assoc]
  exact congrArg (0x80000000 ||| ·) (and_low30_of_top _)

theorem vector_mul_spacing (v : BitVec 6) (vs : BitVec 5) :
    v.setWidth 32 * (vs.setWidth 32 <<< 5) = BitVec.ofNat 32 (v.toNat * (32 * vs.toNat)) := by
  apply BitVec.eq_of_toNat_eq
  simp [BitVec.toNat_mul, Nat.shiftLeft_eq, Nat.mul_comm]

/-- Where a vectored interrupt goes (spec 60 R627, R634). -/
theorem State.takeException_pc_vectored {s : State} (hh : s.hazards = []) (hexl : s.cp0.status.exl = false)
    (hbev : s.cp0.status.bev = false) (hiv : s.cp0.cause.iv = true) : (s.takeException .int).pc =
      0x80000000 ||| (((s.cp0.ebase.setWidth 32 <<< 12) + 0x200 +
        BitVec.ofNat 32 (s.eicVector.toNat * (32 * s.cp0.intCtlVs.toNat))) &&& 0x3FFFFFFF) := by
  have hoffset : vectorOffset s.cp0 s.eicVector .int =
      0x200 + s.eicVector.setWidth 32 * (s.cp0.intCtlVs.setWidth 32 <<< 5) := by
    simp [vectorOffset, zext, hexl, hbev, hiv]
  rw [State.takeException_pc, vectorAddress_eq (vectorBase_top _), State.entryView_eq hh, vectorBase_eq, hbev, hoffset,
    vector_mul_spacing, BitVec.add_assoc]
  exact vectorGoal_ebase _ _

end Sys2Proof.Machine
end

section
/-! PROOFS. The events that come before an instruction: resets, NMI, debug events, interrupts and pending bus errors. -/

namespace Sys2Proof.Machine

/-! ## What arrives -/

/-- The step from `s` takes in `inp`, and `u` is the state when it has arrived. -/
structure State.Receives (s : State) (inp : StepInput) (u : State) : Prop where
  input : s.input = inp
  absorb : s.absorb = u

theorem State.receives_of_nil {s : State} (h : s.inputs = []) :
    s.Receives StepInput.quiet { s with draws := s.draws + 1, between := [] } := by
  have hi : s.input = StepInput.quiet := by rw [State.input, h]; rfl
  refine ⟨hi, ?_⟩
  simp [State.absorb, hi, h, StepInput.quiet, State.busWrites, Cp0.ticks]

/-- An input without timer ticks and writes of other bus masters changes only what the interrupt controller presents, and the model's own fields. -/
theorem State.receives_of_cons {s : State} {inp : StepInput} {rest : List StepInput} (h : s.inputs = inp :: rest)
    (ht : inp.ticks = 0) (hw : inp.writes = []) :
    s.Receives inp { inp.eic.elim s s.present with
      inputs := rest, draws := s.draws + 1, between := inp.between } := by
  have hi : s.input = inp := by rw [State.input, h]; rfl
  refine ⟨hi, ?_⟩
  cases he : inp.eic <;> simp [State.absorb, hi, h, he, ht, hw, State.busWrites, Cp0.ticks, State.present]

theorem State.age_of_noHazards {s : State} (h : s.hazards = []) : s.age = s := by
  rw [State.age, h]
  exact congrArg (fun l => { s with hazards := l }) h.symm

/-! ## The events, in their order of precedence (spec 60 R625) -/

/-- No reset comes with `inp`, and `u` is not in Debug mode. -/
structure NoReset (inp : StepInput) (u : State) : Prop where
  reset : inp.reset = false
  softReset : inp.softReset = false
  debugMode : u.cp0.debugReg.dm = false

/-- None of the events comes that precede an interrupt. -/
structure Undisturbed (inp : StepInput) (u : State) : Prop extends NoReset inp u where
  singleStep : (u.cp0.debugReg.sst && u.freeBit .singleStep) = false
  debugInterrupt : inp.debugInterrupt = false
  nmi : inp.nmi = false

namespace State.Receives
variable {s u : State} {inp : StepInput} (h : s.Receives inp u)
include h

theorem event_reset (hr : inp.reset = true) : s.event = some (.next (u.takeReset false)) := by
  obtain ⟨rfl, rfl⟩ := h
  exact if_pos hr

theorem event_softReset (hr : inp.reset = false) (hs : inp.softReset = true) :
    s.event = some (.next (u.takeReset true)) := by
  obtain ⟨rfl, rfl⟩ := h
  simp [State.event, hr, hs]

theorem event_singleStep (hn : NoReset inp u) (hss : (u.cp0.debugReg.sst && u.freeBit .singleStep) = true) :
    s.event = some (.next (u.takeDebug .dss)) := by
  obtain ⟨rfl, rfl⟩ := h
  obtain ⟨hr, hs, hd⟩ := hn
  simp only [State.event, hr, hs, hd, hss, Bool.false_eq_true, if_false, if_true]

theorem event_debugInterrupt (hn : NoReset inp u) (hss : (u.cp0.debugReg.sst && u.freeBit .singleStep) = false)
    (hdi : inp.debugInterrupt = true) : s.event = some (.next (u.takeDebug .dint)) := by
  obtain ⟨rfl, rfl⟩ := h
  obtain ⟨hr, hs, hd⟩ := hn
  simp only [State.event, hr, hs, hd, hss, hdi, Bool.false_eq_true, if_false, if_true]

theorem event_nmi (hn : NoReset inp u) (hss : (u.cp0.debugReg.sst && u.freeBit .singleStep) = false)
    (hdi : inp.debugInterrupt = false) (hnmi : inp.nmi = true) : s.event = some (.next u.takeNmi) := by
  obtain ⟨rfl, rfl⟩ := h
  obtain ⟨hr, hs, hd⟩ := hn
  simp only [State.event, hr, hs, hd, hss, hdi, hnmi, Bool.false_eq_true, if_false, if_true]

variable (hu : Undisturbed inp u) (hh : u.hazards = [])
include hu hh

/-- The events that are left, with no hazard pending, from the interrupt on. -/
theorem event_undisturbed : s.event =
    if u.cp0.interruptPending then some (.next (u.takeException .int))
    else if u.cp0.debugReg.ibusep && !u.cp0.debugReg.iexi then
      some (.next (State.takeException
        { u with cp0 := { u.cp0 with debugReg := { u.cp0.debugReg with ibusep := false } } } .ibe))
    else if u.cp0.debugReg.dbusep && !u.cp0.debugReg.iexi then
      some (.next (State.takeException
        { u with cp0 := { u.cp0 with debugReg := { u.cp0.debugReg with dbusep := false } } } .dbe))
    else if u.waiting && inp.stayIdle then some (.next u)
    else none := by
  obtain ⟨rfl, rfl⟩ := h
  obtain ⟨⟨hr, hs, hd⟩, hss, hdi, hnmi⟩ := hu
  simp only [State.event, hr, hs, hd, hss, hdi, hnmi, State.age_of_noHazards hh, State.view_eq hh, Bool.false_eq_true,
    if_false]

theorem event_interrupt (hp : u.cp0.interruptPending = true) : s.event = some (.next (u.takeException .int)) := by
  rw [h.event_undisturbed hu hh, if_pos hp]

variable (hp : ¬ u.cp0.interruptPending = true)
include hp

theorem event_fetchBusError (hx : u.cp0.debugReg.iexi = false) (hib : u.cp0.debugReg.ibusep = true) :
    s.event = some (.next (State.takeException
      { u with cp0 := { u.cp0 with debugReg := { u.cp0.debugReg with ibusep := false } } } .ibe)) := by
  simp [h.event_undisturbed hu hh, hp, hx, hib]

theorem event_dataBusError (hx : u.cp0.debugReg.iexi = false) (hib : u.cp0.debugReg.ibusep = false)
    (hdb : u.cp0.debugReg.dbusep = true) : s.event = some (.next (State.takeException
      { u with cp0 := { u.cp0 with debugReg := { u.cp0.debugReg with dbusep := false } } } .dbe)) := by
  simp [h.event_undisturbed hu hh, hp, hx, hib, hdb]

theorem event_none (hib : u.cp0.debugReg.ibusep = false) (hdb : u.cp0.debugReg.dbusep = false)
    (hidle : inp.stayIdle = false) : s.event = none := by
  simp [h.event_undisturbed hu hh, hp, hib, hdb, hidle]

end State.Receives

theorem step_of_event {s t : State} (h : s.event = some (.next t)) : step s = .next t := by rw [step, h]

/-! ## NMI and resets -/

/-- Execution starts at the reset vector, with the inputs `rest` to come (spec 60 R645, 70 R703). -/
def StartsAtReset (rest : List StepInput) (t : State) : Prop :=
  t.pc = 0xBFC00000 ∧ t.isaMode = .mips32 ∧ t.delay = none ∧ t.inputs = rest ∧
    t.cp0.status.bev = true ∧ t.cp0.status.erl = true

/-- What a reset and a soft reset write alike (spec 70 R701, R706). -/
def ResetWrites (t : State) : Prop :=
  t.cp0.status.rp = false ∧ t.cp0.status.nmi = false ∧
    t.cp0.hwrena = 0 ∧ t.cp0.intCtlVs = 0 ∧ t.cp0.srsMap = 0 ∧ t.cp0.srsCtl.ess = 0 ∧ t.cp0.srsCtl.pss = 0 ∧
    t.cp0.srsCtl.css = 0 ∧ t.cp0.cause.dc = false ∧ t.cp0.ebase = 0 ∧
    t.cp0.config = { k23 := 2, ku := 2, k0 := 2 } ∧ t.cp0.debugReg.dm = false ∧ t.cp0.debugReg.lsnm = false ∧
    t.cp0.debugReg.ibusep = false ∧ t.cp0.debugReg.iexi = false ∧ t.cp0.debugReg.sst = false ∧
    t.cp0.debugReg.countDm = true ∧ t.cp0.debugReg.dbusep = false

theorem State.takeReset_spec (s : State) (soft : Bool) :
    (StartsAtReset s.inputs (s.takeReset soft) ∧ ResetWrites (s.takeReset soft)) ∧
      (s.takeReset soft).cp0.status.sr = soft :=
  ⟨⟨⟨rfl, rfl, rfl, rfl, rfl, rfl⟩, rfl, rfl, rfl, rfl, rfl, rfl, rfl, rfl, rfl, rfl, rfl, rfl, rfl, rfl, rfl, rfl, rfl,
    rfl⟩, rfl⟩

theorem State.takeNmi_starts (s : State) : StartsAtReset s.inputs s.takeNmi := ⟨rfl, rfl, rfl, rfl, rfl, rfl⟩

theorem State.takeNmi_cp0 (s : State) : s.takeNmi.cp0 = { s.cp0 with
    errorEpc := savedPc (restartAddress s) s.isaMode
    status := { s.cp0.status with erl := true, nmi := true, sr := false, bev := true } } := by
  rw [← State.restartPc_eq]; rfl

/-- Settles O52: the first events of a step, each with the state it leads to. -/
theorem nmiAndReset : Obligations.NmiAndReset := by
  intro s rest starts resets
  refine ⟨fun hi hd hsst => ?nmi, fun hi => ?reset, fun hi => ?softReset⟩
  case nmi =>
    have hr := State.receives_of_cons hi rfl rfl
    refine ⟨_, step_of_event (hr.event_nmi ⟨rfl, rfl, hd⟩ (Bool.and_eq_false_imp.2 fun h => ?_) rfl rfl),
      State.takeNmi_starts _, fun _ _ _ => rfl, ⟨rfl, rfl, rfl⟩, fun _ _ => rfl, rfl, State.takeNmi_cp0 _⟩
    exact absurd h (Bool.eq_false_iff.1 hsst)
  case reset =>
    have hr := State.receives_of_cons hi rfl rfl
    exact ⟨_, step_of_event (hr.event_reset rfl), State.takeReset_spec _ false⟩
  case softReset =>
    have hr := State.receives_of_cons hi rfl rfl
    obtain ⟨hresets, hsr⟩ := State.takeReset_spec _ true
    exact ⟨_, step_of_event (hr.event_softReset rfl rfl), hresets, hsr, State.restartPc_eq _⟩

/-! ## Interrupts, debug events and pending bus errors -/

/-- The interrupt controller requests an interrupt above STATUS.IPL, and interrupts are enabled (spec 60 R623). -/
def Cp0.InterruptRequested (c : Cp0) : Prop :=
  c.status.ie = true ∧ c.status.exl = false ∧ c.status.erl = false ∧ c.status.ipl.toNat < c.cause.ripl.toNat

theorem Cp0.interruptPending_iff {c : Cp0} (h : c.debugReg.dm = false) :
    c.interruptPending = true ↔ c.InterruptRequested := by
  simp [Cp0.interruptPending, Cp0.interruptsEnabled, Cp0.InterruptRequested, h, BitVec.ult, and_assoc]

/-- The step from `s` takes an interrupt in `u`. -/
def StepInterrupted (s u : State) : Prop :=
  ∃ t, step s = .next t ∧ Entered u t .int ∧ Unharmed s t ∧
    (u.cp0.status.bev = false → u.cp0.cause.iv = true →
      t.pc = 0x80000000 ||| (((u.cp0.ebase.setWidth 32 <<< 12) + 0x200 +
        BitVec.ofNat 32 (u.eicVector.toNat * (32 * u.cp0.intCtlVs.toNat))) &&& 0x3FFFFFFF))

/-- Where nothing precedes interrupts, a request is taken, and without one the instruction runs if no bus error is pending. -/
theorem State.Receives.interrupted_or_none {s u : State} {inp : StepInput} (h : s.Receives inp u)
    (hu : Undisturbed inp u) (hh : u.hazards = []) (hk : Unharmed s u) (hidle : inp.stayIdle = false) :
    (u.cp0.InterruptRequested → StepInterrupted s u) ∧
    (¬ u.cp0.InterruptRequested → u.cp0.debugReg.ibusep = false ∧ u.cp0.debugReg.dbusep = false → s.waiting = false →
      s.event = none) := by
  have hp := Cp0.interruptPending_iff hu.debugMode
  refine ⟨fun hreq => ?_, fun hreq ⟨hib, hdb⟩ _ => h.event_none hu hh (mt hp.1 hreq) hib hdb hidle⟩
  obtain ⟨-, hexl, -, -⟩ := id hreq
  exact ⟨_, step_of_event (h.event_interrupt hu hh (hp.2 hreq)), State.takeException_entered _ _, hk.takeException _,
    State.takeException_pc_vectored hh hexl⟩

/-- Settles O51: what arrives, and the first event in the order of precedence. -/
theorem interruptTaken : Obligations.InterruptTaken := by
  intro s rest q quiet arrived requested unharmed interrupted debug noBusError calm hh hd
  have hsst : s.cp0.debugReg.sst = false → ∀ u : State, u.cp0.debugReg = s.cp0.debugReg →
      (u.cp0.debugReg.sst && u.freeBit .singleStep) = false := fun h u hu => by rw [hu, h]; rfl
  have hk : Unharmed s quiet := .of_eq rfl ⟨rfl, rfl, rfl⟩ rfl
  refine ⟨fun hi hs => ?presented, fun hi hs => ?arriving, fun hi hs => ?debugInterrupt, fun hi _ => ?singleStep,
    fun hi hs hreq hx => ⟨fun hib => ?fetchBusError, fun hib hdb => ?dataBusError⟩⟩
  case presented =>
    exact (State.receives_of_nil hi).interrupted_or_none ⟨⟨rfl, rfl, hd⟩, hsst hs _ rfl, rfl, rfl⟩ hh hk rfl
  case arriving =>
    exact (State.receives_of_cons hi rfl rfl).interrupted_or_none ⟨⟨rfl, rfl, hd⟩, hsst hs _ rfl, rfl, rfl⟩ hh hk rfl
  case debugInterrupt =>
    have hr := State.receives_of_cons hi rfl rfl
    exact ⟨_, step_of_event (hr.event_debugInterrupt ⟨rfl, rfl, hd⟩ (hsst hs _ rfl) rfl), State.takeDebug_entered _ _⟩
  case singleStep =>
    have hr := State.receives_of_nil hi
    cases hss : quiet.cp0.debugReg.sst && quiet.freeBit .singleStep with
    | true => exact .inl ⟨_, step_of_event (hr.event_singleStep ⟨rfl, rfl, hd⟩ hss), State.takeDebug_entered _ _⟩
    | false => exact .inr (hr.interrupted_or_none ⟨⟨rfl, rfl, hd⟩, hss, rfl, rfl⟩ hh hk rfl)
  case fetchBusError =>
    have he := (State.receives_of_nil hi).event_fetchBusError ⟨⟨rfl, rfl, hd⟩, hsst hs _ rfl, rfl, rfl⟩ hh
      (mt (Cp0.interruptPending_iff hd).1 hreq) hx hib
    exact ⟨_, step_of_event he, (hk.withCp0 _).takeException .ibe, State.takeException_entered _ _⟩
  case dataBusError =>
    have he := (State.receives_of_nil hi).event_dataBusError ⟨⟨rfl, rfl, hd⟩, hsst hs _ rfl, rfl, rfl⟩ hh
      (mt (Cp0.interruptPending_iff hd).1 hreq) hx hib hdb
    exact ⟨_, step_of_event he, (hk.withCp0 _).takeException .dbe, State.takeException_entered _ _⟩

end Sys2Proof.Machine
end

section
/-! PROOFS. The instruction that runs where no event comes. -/

namespace Sys2Proof.Machine

/-! ## Fetches from plain memory -/

/-- Nothing keeps a fetch from the bytes of memory: no STATUS and no store that it may still see old, and no region of the memory map. -/
structure State.FetchesMemory (s : State) : Prop where
  fetchHazards : s.fetchHazards = []
  stale : s.stale = []
  physMap : s.physMap = []

namespace State.FetchesMemory
variable {s : State} (h : s.FetchesMemory)
include h

theorem region (pa : Word) : s.region pa = none := by rw [State.region, h.physMap]; rfl

theorem answers (k : Access) (user : Bool) (pa : Word) : s.answers k user pa = true := by
  rw [State.answers, h.region]

theorem readsMemory (pa : Word) : ReadsMemory s pa := fun r hr => by rw [h.region] at hr; cases hr

theorem fetchByte (f pa : Word) : s.fetchByte f pa = s.busByte pa :=
  State.fetchByte_untouched (by rw [h.stale]; nofun) f

/-- The fetch passes the check of its address (spec 20 R102, R122). -/
theorem check {w : Width} {va : Word} (ha : va.toNat % w.bytes = 0)
    (hu : s.cp0.userMode = true → va.toNat < 0x80000000) :
    ¬ (misaligned w va || !allowed (s.fetchView va) va) = true := by
  rw [fetch_check_iff, ForbiddenFetch, State.fetchView_eq h.fetchHazards]
  exact fun hbad => hbad.elim (· ha) fun ⟨hm, hk⟩ => absurd (hu hm) (by omega)

theorem fetchWord {va : Word} (ha : va.toNat % 4 = 0) (hu : s.cp0.userMode = true → va.toNat < 0x80000000) :
    s.fetchWord va = .ok (BitVec.ofNat 32 (s.valueAt (translate s.cp0 va) 4)) := by
  have hfits : (translate s.cp0 va).toNat % 4 + Width.word.bytes ≤ 4 := by rw [translate_mod, ha]; rfl
  rw [State.fetchWord, if_neg (h.check (w := .word) ha hu), State.fetchView_eq h.fetchHazards]
  simp only [h.answers, h.fetchByte, if_true]
  exact congrArg MemResult.ok (State.busValue_eq (h.readsMemory _) hfits)

theorem fetchHalf {va : Word} (ha : va.toNat % 2 = 0) (hu : s.cp0.userMode = true → va.toNat < 0x80000000) :
    s.fetchHalf va = .ok (BitVec.ofNat 16 (s.valueAt (translate s.cp0 va) 2)) := by
  have hfits : (translate s.cp0 va).toNat % 4 + Width.half.bytes ≤ 4 := by
    rw [translate_mod]; simp only [Width.bytes]; omega
  have hvalue : s.busByte (translate s.cp0 va + 1) ++ s.busByte (translate s.cp0 va) =
      BitVec.ofNat 16 (s.valueAt (translate s.cp0 va) 2) := by
    have hz := congrArg (BitVec.setWidth 16) (State.busValue_eq (h.readsMemory _) hfits)
    rwa [BitVec.setWidth_ofNat_of_le (by decide), State.busValue, zext, BitVec.setWidth_setWidth_of_le _ (by decide),
      BitVec.setWidth_eq] at hz
  rw [State.fetchHalf, if_neg (h.check (w := .half) ha hu), State.fetchView_eq h.fetchHazards]
  simp only [h.answers, h.fetchByte, if_true, hvalue]

end State.FetchesMemory

/-- Within a page the fixed mapping keeps halfwords next to each other (spec 20 R105). -/
theorem translate_add_two {va : Word} (ha : va.toNat % 2 = 0) (hp : va.toNat % 4096 ≠ 4094) (c : Cp0) :
    translate c (va + 2) = translate c va + 2 := by
  have hn : (va + 2).toNat = va.toNat + 2 := by bv_omega
  have hlt : ∀ k, k % 4096 = 0 → ((va + 2).toNat < k ↔ va.toNat < k) := fun k hk => by omega
  simp only [translate, hlt 0x20000000 rfl, hlt 0x80000000 rfl, hlt 0xA0000000 rfl, hlt 0xC0000000 rfl]
  split_ifs <;> ring

/-! ## The step -/

theorem step_of_run {s : State} {i : Instr} (he : s.event = none) (hf : s.ready.fetchDecode = .run i) :
    step s = exec i s.ready := by
  rw [step, he]; dsimp only; rw [hf]

theorem State.Receives.ready {s u : State} {inp : StepInput} (h : s.Receives inp u) (hh : u.hazards = []) :
    s.ready = { u with waiting := false } := by
  rw [State.ready, h.absorb, State.age_of_noHazards hh]

/-- Settles O49: no event comes, and the fetch finds the bytes of memory at the program counter. -/
theorem stepRunsInstruction : Obligations.StepRunsInstruction := by
  refine ⟨fun s i => step_of_run, ?_⟩
  intro s i pa quiet half hi hh hfh hst hpm hd hsst hib hdb hp hu
  have hr := State.receives_of_nil hi
  have he : s.event = none :=
    hr.event_none ⟨⟨rfl, rfl, hd⟩, by rw [hsst]; rfl, rfl, rfl⟩ hh (Bool.eq_false_iff.1 hp) hib hdb rfl
  have hquiet : s.ready = quiet := hr.ready hh
  have runs : quiet.fetchDecode = .run i → step s = exec i quiet := hquiet ▸ step_of_run he
  have hm : quiet.FetchesMemory := ⟨hfh, hst, hpm⟩
  have hfirst : quiet.cp0.userMode = true → s.pc.toNat < 0x80000000 := fun h => (Nat.le_add_right _ 2).trans_lt (hu h)
  have hhalf : half 0 = BitVec.ofNat 16 (s.valueAt pa 2) := by simp only [half, BitVec.add_zero]
  refine ⟨fun hm32 ha hdec => runs ?word, fun hm16 ha h1 hdec => runs ?half, fun hm16 ha hpage h1 hdec => runs ?pair⟩
  case word =>
    rw [State.fetchDecode_word (s := quiet) hm32 (hm.fetchWord ha hfirst)]
    exact congrArg quiet.ofDecoded hdec
  case half =>
    rw [hhalf] at h1 hdec
    rw [State.fetchDecode_half (s := quiet) hm16 (hm.fetchHalf ha hfirst) h1]
    exact congrArg quiet.ofDecoded hdec
  case pair =>
    rw [hhalf] at h1 hdec
    have ha2 : (s.pc + 2).toNat % 2 = 0 := by bv_omega
    have hsecond : quiet.cp0.userMode = true → (s.pc + 2).toNat < 0x80000000 := fun h => by
      have := hu h
      bv_omega
    have hh2 := hm.fetchHalf ha2 hsecond
    rw [translate_add_two ha hpage] at hh2
    rw [State.fetchDecode_pair (s := quiet) hm16 (hm.fetchHalf ha hfirst) h1 hh2]
    exact congrArg quiet.ofDecoded hdec

end Sys2Proof.Machine
end

section
/-! PROOFS. The hazards of coprocessor 0: the writes that note them, how they age, and what each consumer sees of each field. -/

namespace Sys2Proof.Machine

/-! ## The fields of coprocessor 0, as far as the hazards of table 2-1 tell them apart -/

/-- A part of coprocessor 0 that a write of one register replaces whole or leaves alone (spec 44 R408, 70 R720). -/
inductive Cp0Field where
  | hwrena | badVAddr | count | compare
  | cu0 | ie
  /-- STATUS but for CU0 and IE. -/
  | statusRest
  | intCtlVs | ess | pss
  /-- The sets of SRSCtl that no instruction writes. -/
  | currentSets
  | srsMap | ti | ip
  /-- CAUSE.DC and CAUSE.IV. -/
  | dcIv
  | epc | ebase | config
  /-- The fields of DEBUG that MTC0 writes. -/
  | debugControl
  /-- The other fields of DEBUG. -/
  | debugRest
  | depc | errorEpc | deSave
  deriving DecidableEq

namespace Cp0Field

/-- What the field holds. -/
abbrev Value : Cp0Field → Type
  | .hwrena => BitVec 4
  | .badVAddr | .count | .compare | .srsMap | .epc | .depc | .errorEpc | .deSave => Word
  | .cu0 | .ie | .ti => Bool
  | .statusRest => Status
  | .intCtlVs => BitVec 5
  | .ess | .pss => ShadowSet
  | .currentSets => ShadowSet × ShadowSet
  | .ip => BitVec 2
  | .dcIv => Bool × Bool
  | .ebase => BitVec 18
  | .config => Config0
  | .debugControl => Bool × Bool × Bool × Bool × Bool × Bool
  | .debugRest => Debug

/-- The field in the registers `c`. -/
def get (c : Cp0) : (f : Cp0Field) → f.Value
  | .hwrena => c.hwrena
  | .badVAddr => c.badVAddr
  | .count => c.count
  | .compare => c.compare
  | .cu0 => c.status.cu0
  | .ie => c.status.ie
  | .statusRest => { c.status with cu0 := false, ie := false }
  | .intCtlVs => c.intCtlVs
  | .ess => c.srsCtl.ess
  | .pss => c.srsCtl.pss
  | .currentSets => (c.srsCtl.eicss, c.srsCtl.css)
  | .srsMap => c.srsMap
  | .ti => c.cause.ti
  | .ip => c.cause.ip
  | .dcIv => (c.cause.dc, c.cause.iv)
  | .epc => c.epc
  | .ebase => c.ebase
  | .config => c.config
  | .debugControl =>
    (c.debugReg.lsnm, c.debugReg.countDm, c.debugReg.ibusep, c.debugReg.dbusep, c.debugReg.iexi, c.debugReg.sst)
  | .debugRest =>
    { c.debugReg with lsnm := false, countDm := false, ibusep := false, dbusep := false, iexi := false, sst := false }
  | .depc => c.depc
  | .errorEpc => c.errorEpc
  | .deSave => c.deSave

/-- The writes that change the field. -/
def writers : Cp0Field → List HazardReg
  | .hwrena => [.hwrena]
  | .badVAddr | .currentSets | .debugRest => []
  | .count => [.count]
  | .compare | .ti => [.compare]
  | .cu0 | .statusRest => [.status]
  | .ie => [.status, .interruptEnable]
  | .intCtlVs => [.intCtl]
  | .ess | .pss => [.srsCtl]
  | .srsMap => [.srsMap]
  | .ip | .dcIv => [.cause]
  | .epc => [.epc]
  | .ebase => [.ebase]
  | .config => [.config]
  | .debugControl => [.debugReg]
  | .depc => [.depc]
  | .errorEpc => [.errorEpc]
  | .deSave => [.deSave]

/-- A write of a register takes the fields it writes and keeps the others. -/
theorem get_put (f : Cp0Field) (r : HazardReg) (dst src : Cp0) :
    f.get (r.put dst src) = f.get (if r ∈ f.writers then src else dst) := by
  cases r <;> cases f <;> rfl

end Cp0Field

/-- The field that has a row of its own in table 2-1 (spec 70 R720). -/
def Cp0Field.ofPart : HazardPart → Option Cp0Field
  | .cu => some .cu0
  | .ie => some .ie
  | .ip => some .ip
  | .ti => some .ti
  | .pss => some .pss
  | .main => none

theorem Cp0Field.get_putPart (f : Cp0Field) (p : HazardPart) (dst src : Cp0) :
    f.get (putPart p dst src) = f.get (if ofPart p = some f then src else dst) := by
  cases p <;> cases f <;> rfl

/-! ## The rows of table 2-1 by field -/

/-- The row of table 2-1 for a producer, a consumer and a field, with its spacing (spec 70 R720). -/
def HazardReg.row (r : HazardReg) (use : Consumer) (f : Cp0Field) : HazardPart × Nat :=
  match r.part use with
  | some (p, n) => if Cp0Field.ofPart p = some f then (p, n) else (.main, r.spacing use)
  | none => (.main, r.spacing use)

theorem HazardReg.spacing_le_two (r : HazardReg) (use : Consumer) : r.spacing use ≤ 2 := by
  unfold HazardReg.spacing
  split <;> decide

theorem HazardReg.part_spacing_le_two {r : HazardReg} {use : Consumer} {p : HazardPart} {n : Nat}
    (h : r.part use = some (p, n)) (hip : p ≠ .ip) (hti : p ≠ .ti) : n ≤ 2 := by
  unfold HazardReg.part at h
  split at h <;> cases h
  case h_4 => exact absurd rfl hip
  case h_6 => exact absurd rfl hti
  all_goals decide

/-- Only CAUSE.IP and the timer request of COMPARE have a spacing above 2 (spec 70 R720). -/
theorem HazardReg.row_spacing_le_two {f : Cp0Field} (hip : f ≠ .ip) (hti : f ≠ .ti) (r : HazardReg) (use : Consumer) :
    (r.row use f).2 ≤ 2 := by
  unfold HazardReg.row
  split
  case h_2 => exact r.spacing_le_two use
  case h_1 p n hpart =>
    split
    case isFalse => exact r.spacing_le_two use
    case isTrue hown =>
      refine HazardReg.part_spacing_le_two hpart ?_ ?_ <;> rintro rfl <;> cases hown <;> contradiction

/-! ## What a consumer sees of a field -/

/-- A consumer within the row's spacing may see the field as without the write; any other sees it after the write. -/
theorem Hazard.get_apply (h : Hazard) (use : Consumer) (old : HazardPart → Bool) {older now : Cp0} {f : Cp0Field}
    (hkeep : h.reg ∉ f.writers → f.get older = f.get now) :
    f.get (h.apply use old older now) =
      f.get (if h.distance ≤ (h.reg.row use f).2 && old (h.reg.row use f).1 then older else now) := by
  have hput : f.get (h.reg.put older now) = f.get now := by
    rw [Cp0Field.get_put]
    split
    case isTrue => rfl
    case isFalse hw => exact hkeep hw
  have hwhole : f.get (if h.distance ≤ h.reg.spacing use && old .main then older else h.reg.put older now) =
      f.get (if h.distance ≤ h.reg.spacing use && old .main then older else now) := by
    split
    case isTrue => rfl
    case isFalse => exact hput
  unfold Hazard.apply HazardReg.row
  cases h.reg.part use with
  | none => exact hwhole
  | some row =>
    dsimp only
    rw [Cp0Field.get_putPart]
    split
    case isTrue => rfl
    case isFalse => exact hwhole

/-- A field whose writes all lie farther back than their spacing is seen as it is. -/
theorem State.view_get {s : State} {use : Consumer} {f : Cp0Field}
    (h : ∀ x ∈ s.hazards, x.reg ∈ f.writers → (x.reg.row use f).2 < x.distance) :
    f.get (s.view use) = f.get s.cp0 := by
  refine State.view_field f.get use fun x hx old older now hold => ?_
  rw [Cp0Field.get_put] at hold
  rw [Hazard.get_apply x use old fun hw => by rwa [if_neg hw] at hold]
  by_cases hw : x.reg ∈ f.writers
  · rw [decide_eq_false (Nat.not_le.2 (h x hx hw))]
    rfl
  · rw [if_neg hw] at hold
    split
    case isTrue => exact hold
    case isFalse => rfl

/-- Every pending write of one of the registers is more than `n` instructions away. -/
def State.Far (s : State) (n : Nat) (regs : List HazardReg) : Prop := ∀ x ∈ s.hazards, x.reg ∈ regs → n < x.distance

theorem State.Far.view_get {s : State} {n : Nat} {use : Consumer} {f : Cp0Field} (far : s.Far n f.writers)
    (hrow : ∀ r ∈ f.writers, (r.row use f).2 ≤ n) : f.get (s.view use) = f.get s.cp0 :=
  State.view_get fun x hx hw => (hrow _ hw).trans_lt (far x hx hw)

theorem State.Far.view_get_of_two {s : State} {f : Cp0Field} (far : s.Far 2 f.writers) (use : Consumer) (hip : f ≠ .ip)
    (hti : f ≠ .ti) : f.get (s.view use) = f.get s.cp0 :=
  far.view_get fun r _ => r.row_spacing_le_two hip hti use

/-! ### STATUS, SRSCtl and DEBUG from their fields -/

theorem status_eq_of_get {c d : Cp0} (hcu : Cp0Field.cu0.get c = Cp0Field.cu0.get d)
    (hrest : Cp0Field.statusRest.get c = Cp0Field.statusRest.get d) : c.status = { d.status with ie := c.status.ie } := by
  have hparts (x : Cp0) : x.status = { Cp0Field.statusRest.get x with cu0 := Cp0Field.cu0.get x, ie := x.status.ie } := rfl
  rw [hparts c, hcu, hrest]
  rfl

theorem srsCtl_eq_of_get {c d : Cp0} (hess : Cp0Field.ess.get c = Cp0Field.ess.get d)
    (hpss : Cp0Field.pss.get c = Cp0Field.pss.get d)
    (hcurrent : Cp0Field.currentSets.get c = Cp0Field.currentSets.get d) : c.srsCtl = d.srsCtl := by
  obtain ⟨heicss, hcss⟩ := Prod.mk.inj hcurrent
  exact (SrsCtl.mk.injEq ..).mpr ⟨heicss, hess, hpss, hcss⟩

theorem debugReg_eq_of_get {c d : Cp0} (hcontrol : Cp0Field.debugControl.get c = Cp0Field.debugControl.get d)
    (hrest : Cp0Field.debugRest.get c = Cp0Field.debugRest.get d) : c.debugReg = d.debugReg := by
  have hparts (x : Cp0) : x.debugReg = { Cp0Field.debugRest.get x with
      lsnm := (Cp0Field.debugControl.get x).1, countDm := (Cp0Field.debugControl.get x).2.1,
      ibusep := (Cp0Field.debugControl.get x).2.2.1, dbusep := (Cp0Field.debugControl.get x).2.2.2.1,
      iexi := (Cp0Field.debugControl.get x).2.2.2.2.1, sst := (Cp0Field.debugControl.get x).2.2.2.2.2 } := rfl
  rw [hparts c, hparts d, hcontrol, hrest]

/-! ## The rows of table 2-1 -/

section
variable {s : State} {n m : Nat} {use : Consumer} (far : s.Far n [.status])
  (hrow : ∀ f ∈ [Cp0Field.cu0, .ie, .statusRest], (HazardReg.row .status use f).2 ≤ n)
include far hrow

/-- A consumer far from the writes of STATUS sees all of it but IE, which EI and DI write too. -/
theorem State.Far.view_status_but_ie : (s.view use).status = { s.cp0.status with ie := (s.view use).status.ie } := by
  simp only [List.forall_mem_cons] at hrow
  obtain ⟨hcu, -, hrest, -⟩ := hrow
  exact status_eq_of_get (far.view_get (f := .cu0) (List.forall_mem_singleton.2 hcu))
    (far.view_get (f := .statusRest) (List.forall_mem_singleton.2 hrest))

theorem State.Far.view_status (farEnable : s.Far m [.interruptEnable])
    (hrowEnable : (HazardReg.row .interruptEnable use .ie).2 ≤ m) : (s.view use).status = s.cp0.status := by
  have hie : (s.view use).status.ie = s.cp0.status.ie := by
    refine State.view_get (f := .ie) fun x hx hw => ?_
    obtain hw | hw : x.reg = .status ∨ x.reg = .interruptEnable := by simpa [Cp0Field.writers] using hw
    · exact hw ▸ (hrow .ie (by decide)).trans_lt (far x hx (List.mem_singleton.2 hw))
    · exact hw ▸ hrowEnable.trans_lt (farEnable x hx (List.mem_singleton.2 hw))
  rw [far.view_status_but_ie hrow, hie]

end

theorem State.Far.mono {s : State} {n : Nat} {regs regs' : List HazardReg} (far : s.Far n regs) (h : regs' ⊆ regs) :
    s.Far n regs' := fun x hx hw => far x hx (h hw)

/-- With one write pending, a field is seen as it is or as it was before the write. -/
theorem State.view_get_one {s : State} {h : Hazard} (hs : s.hazards = [h]) (use : Consumer) (f : Cp0Field) :
    f.get (s.view use) = f.get s.cp0 ∨ f.get (s.view use) = f.get h.old := by
  have hold := Cp0Field.get_put f h.reg s.cp0 h.old
  rw [State.view_one hs, Hazard.get_apply h use _ fun hw => by rw [hold, if_neg hw]]
  split
  case isFalse => exact .inl rfl
  case isTrue =>
    rw [hold]
    split
    case isTrue => exact .inr rfl
    case isFalse => exact .inl rfl

/-- Writing a register back undoes the write. -/
theorem HazardReg.put_put (r : HazardReg) (c old : Cp0) : r.put (r.put c old) c = c := by
  cases r <;> rfl

/-- With one write pending that has one row for the consumer, its register is seen as it is or as it was. -/
theorem State.view_one_whole {s : State} {h : Hazard} (hs : s.hazards = [h]) {r : HazardReg}
    (hr : h.reg = r) {use : Consumer} (hpart : r.part use = none) :
    s.view use = s.cp0 ∨ s.view use = r.put s.cp0 h.old := by
  subst hr
  rw [State.view_one hs, Hazard.apply, hpart, HazardReg.put_put]
  dsimp only
  split
  case isTrue => exact .inr rfl
  case isFalse => exact .inl rfl

/-- An instruction sees the IE that EI or DI wrote at once; the interrupt check may see the old one (spec 70 R720; log 8). -/
theorem State.view_one_interruptEnable {s : State} {h : Hazard} (hs : s.hazards = [h]) (hd : 0 < h.distance)
    (hreg : h.reg = .interruptEnable) : s.seen = s.cp0 ∧ (s.view .interrupt = s.cp0 ∨
      s.view .interrupt = { s.cp0 with status := { s.cp0.status with ie := h.old.status.ie } }) := by
  have hfar : ¬ h.distance ≤ 0 := by omega
  unfold State.seen
  rw [State.view_one hs, State.view_one hs]
  simp only [Hazard.apply, hreg, HazardReg.spacing, HazardReg.part, hfar, decide_false, Bool.false_and, Bool.false_eq_true,
    if_false, HazardReg.put_put, true_and]
  split
  case isTrue => exact .inr rfl
  case isFalse => exact .inl rfl

/-! ## Fetches -/

/-- A fetch is made under the STATUS given or one of those replaced since the last barrier (spec 70 R721). -/
theorem fetchStatusFrom_mem (draws fetch : Nat) (olds : List Status) (k : Nat) (now : Status) :
    fetchStatusFrom draws fetch olds k now ∈ now :: olds := by
  induction olds generalizing k now with
  | nil => exact List.mem_singleton.2 rfl
  | cons old olds ih =>
    rw [fetchStatusFrom]
    split
    case isTrue => exact List.mem_cons_of_mem _ (ih _ _)
    case isFalse => exact List.cons_subset_cons now (List.subset_cons_self old olds) (ih _ _)

/-! ## The hazards one step later -/

theorem State.age_hazards (s : State) :
    s.age.hazards = (s.hazards.filter (·.distance < 4)).map fun h => { h with distance := h.distance + 1 } :=
  List.filter_map

theorem State.ready_of_nil {s : State} (h : s.inputs = []) : s.ready.cp0 = s.cp0 ∧
    s.ready.fetchHazards = s.fetchHazards ∧
    s.ready.hazards = (s.hazards.filter (·.distance < 4)).map fun h => { h with distance := h.distance + 1 } := by
  rw [State.ready, (State.receives_of_nil h).absorb]
  exact ⟨rfl, rfl, State.age_hazards _⟩

/-! ## The writes that note a hazard -/

/-- The registers that make a hazard, with their numbers and selects (spec 44 R408, 70 R720). -/
theorem hazardReg_eq_some {rd : Reg} {sel : Reg3} : ∀ x ∈ [(7, 0, HazardReg.hwrena), (9, 0, .count), (11, 0, .compare),
    (12, 0, .status), (12, 1, .intCtl), (12, 2, .srsCtl), (12, 3, .srsMap), (13, 0, .cause), (14, 0, .epc), (15, 1, .ebase),
    (16, 0, .config), (23, 0, .debugReg), (24, 0, .depc), (30, 0, .errorEpc), (31, 0, .deSave)],
    rd.toNat = x.1 → sel.toNat = x.2.1 → hazardReg rd sel = some x.2.2 := by
  unfold hazardReg
  simp +contextual only [List.forall_mem_cons, List.not_mem_nil, false_imp_iff, implies_true, and_true]

theorem hazardReg_eq_status_iff {rd : Reg} {sel : Reg3} : hazardReg rd sel = some .status ↔ rd = 12 ∧ sel = 0 := by
  revert rd sel; decide

theorem State.writeCp0_of_none {rd : Reg} {sel : Reg3} (h : hazardReg rd sel = none) (s : State) (c : Cp0) :
    s.writeCp0 rd sel c = s := by
  rw [State.writeCp0, h]

theorem State.writeCp0_of_status {rd : Reg} {sel : Reg3} (h : hazardReg rd sel = some .status) (s : State) (c : Cp0) :
    s.writeCp0 rd sel c = (s.noteWrite .status c).noteStatus s.cp0.status := by
  rw [State.writeCp0, h]

theorem State.writeCp0_of_some {rd : Reg} {sel : Reg3} {k : HazardReg} (h : hazardReg rd sel = some k) (hk : k ≠ .status)
    (s : State) (c : Cp0) : s.writeCp0 rd sel c = s.noteWrite k c := by
  rw [State.writeCp0, h]
  cases k
  case status => exact absurd rfl hk
  all_goals rfl

/-- MTC0 notes one hazard for the register it writes (spec 70 R720). -/
theorem State.writeCp0_hazards {rd : Reg} {sel : Reg3} {k : HazardReg} (h : hazardReg rd sel = some k) (s : State)
    (c : Cp0) : (s.writeCp0 rd sel c).hazards = ⟨k, s.cp0, 0⟩ :: s.hazards := by
  by_cases hk : k = .status
  · subst hk
    rw [State.writeCp0_of_status h, State.noteStatus_hazards, State.noteWrite_hazards]
  · rw [State.writeCp0_of_some h hk, State.noteWrite_hazards]

/-- The two values of STATUS make the same mode and mapping of a fetch (spec 70 R721). -/
def SameMode (a b : Status) : Prop := a.um = b.um ∧ a.exl = b.exl ∧ a.erl = b.erl

theorem State.noteStatus_fetchHazards_of_sameMode {s : State} {old : Status} (h : SameMode s.cp0.status old) :
    (s.noteStatus old).fetchHazards = s.fetchHazards := congrArg State.fetchHazards (if_pos h)

theorem State.noteStatus_fetchHazards_of_not_sameMode {s : State} {old : Status} (h : ¬ SameMode s.cp0.status old) :
    (s.noteStatus old).fetchHazards = old :: s.fetchHazards := congrArg State.fetchHazards (if_neg h)

/-- A fetch may use the old STATUS after an MTC0 that changes the mode (spec 70 R721). -/
theorem State.writeCp0_fetchHazards_of_not_sameMode {rd : Reg} {sel : Reg3} {s : State} {c : Cp0}
    (h : hazardReg rd sel = some .status) (hmode : ¬ SameMode (s.writeCp0 rd sel c).cp0.status s.cp0.status) :
    (s.writeCp0 rd sel c).fetchHazards = s.cp0.status :: s.fetchHazards := by
  rw [State.writeCp0_of_status h, State.noteStatus_cp0] at hmode
  rw [State.writeCp0_of_status h, State.noteStatus_fetchHazards_of_not_sameMode hmode, State.noteWrite_fetchHazards]

/-- No other MTC0 changes what a fetch sees (spec 70 R721). -/
theorem State.writeCp0_fetchHazards {rd : Reg} {sel : Reg3} {s : State} {c : Cp0}
    (h : hazardReg rd sel ≠ some .status ∨ SameMode (s.writeCp0 rd sel c).cp0.status s.cp0.status) :
    (s.writeCp0 rd sel c).fetchHazards = s.fetchHazards := by
  cases hz : hazardReg rd sel with
  | none => rw [State.writeCp0_of_none hz]
  | some k =>
    by_cases hk : k = .status
    · subst hk
      have hmode := h.resolve_left (absurd hz)
      rw [State.writeCp0_of_status hz, State.noteStatus_cp0] at hmode
      rw [State.writeCp0_of_status hz, State.noteStatus_fetchHazards_of_sameMode hmode, State.noteWrite_fetchHazards]
    · rw [State.writeCp0_of_some hz hk, State.noteWrite_fetchHazards]

theorem noBarrier_of_none {s : State} (h : s.delay = none) : NoBarrier s := fun d hd => by
  rw [h] at hd; cases hd

/-- An MTC0 that goes on has written the register and advanced. -/
theorem exec_mtc0_next {s t : State} {rt rd : Reg} {sel : Reg3} (usable : (s.view .coprocessor).cop0Usable = true)
    (h : exec (.mtc0 rt rd sel) s = .next t) : ∃ c, t = (s.writeCp0 rd sel c).advance 4 := by
  cases hw : s.cp0.write s.seen s.pc rd sel (s.reg rt) with
  | ok c =>
    rw [exec_mtc0_ok usable hw] at h
    cases h
    exact ⟨c, rfl⟩
  | error f =>
    rw [exec_mtc0_fault usable hw] at h
    cases h

/-- DI and EI, each a result from a state with IE written, note the hazard of that write (spec 70 R720). -/
theorem hazards_of_setInterruptEnable {s t : State} {rt : Reg} {b : Bool} {v : Word} (hd : s.delay = none)
    (h : (s.setInterruptEnable b).result 4 rt v = .next t) :
    t.hazards = ⟨.interruptEnable, s.cp0, 0⟩ :: s.hazards ∧ t.fetchHazards = s.fetchHazards := by
  obtain ⟨u, hu, -, ⟨-, -, -, ⟨-, -, -, hkeeps⟩, -⟩, -⟩ := (s.setInterruptEnable b).result_spec 4 rt v
  cases hu.symm.trans h
  exact hkeeps (noBarrier_of_none hd)

/-! ## The statement -/

/-- Settles O60: the writes that note a hazard, their age, and the row of table 2-1 for each field and consumer. -/
theorem coprocessor0Hazards : Obligations.Coprocessor0Hazards := by
  intro s rt rd sel now far check eret usable writes sameMode
  refine ⟨fun t hd hu ht => ?mtc0, ?enable, State.ready_of_nil, fun h => ?eretStatus,
    fun h => State.Far.view_get (f := .cu0) h (by decide), fun h he => ?instructionStatus,
    fun h => State.Far.view_status_but_ie h (by decide), fun h => State.Far.view_get (f := .ie) h (by decide),
    fun h => State.Far.view_get (f := .epc) h (by decide), fun h => State.Far.view_get (f := .depc) h (by decide),
    fun h => State.Far.view_get (f := .errorEpc) h (by decide), fun h => State.Far.view_get (f := .ip) h (by decide),
    fun h => State.Far.view_get (f := .pss) h (by decide), fun u => ?everyConsumer, fun h hs hd => ?onePending,
    fun va => ⟨rfl, fetchStatusFrom_mem ..⟩⟩
  case mtc0 =>
    obtain ⟨c, rfl⟩ := exec_mtc0_next hu ht
    obtain ⟨hhazards, hfetch, -⟩ :=
      State.advance_hazards (s := s.writeCp0 rd sel c) 4 (noBarrier_of_none ((State.writeCp0_delay ..).trans hd))
    have hsame : sameMode ((s.writeCp0 rd sel c).advance 4) ↔ SameMode (s.writeCp0 rd sel c).cp0.status now.status := by
      simp only [sameMode, State.advance_cp0, SameMode]
    rw [hhazards, hfetch, hsame]
    refine ⟨fun x hx hn hk => State.writeCp0_hazards (hazardReg_eq_some x hx hn hk) s c, ?some,
      fun hn hk => State.writeCp0_fetchHazards_of_not_sameMode (hazardReg_eq_status_iff.2 ⟨hn, hk⟩),
      fun h => State.writeCp0_fetchHazards ?other⟩
    case some =>
      cases hz : hazardReg rd sel with
      | none => exact .inl (by rw [State.writeCp0_of_none hz])
      | some k => exact .inr ⟨k, State.writeCp0_hazards hz s c⟩
    case other =>
      rw [Ne, hazardReg_eq_status_iff, not_and_or, or_assoc]
      exact h
  case enable =>
    simp only [List.forall_mem_cons]
    exact ⟨fun t hd hu ht => hazards_of_setInterruptEnable hd ((needCop0_usable hu _).symm.trans ht),
      fun t hd hu ht => hazards_of_setInterruptEnable hd ((needCop0_usable hu _).symm.trans ht), nofun⟩
  case eretStatus =>
    have hstatus : s.Far 0 [.status] := State.Far.mono h (by simp)
    have henable : s.Far 0 [.interruptEnable] := State.Far.mono h (by simp)
    exact hstatus.view_status (by decide) henable (by decide)
  case instructionStatus =>
    exact ⟨State.Far.view_status h (by decide) he (by decide), State.Far.view_status h (by decide) he (by decide)⟩
  case everyConsumer =>
    have seesNew (f : Cp0Field) (hip : f ≠ .ip) (hti : f ≠ .ti) (h : s.Far 2 f.writers) :
        f.get (s.view u) = f.get s.cp0 := h.view_get_of_two u hip hti
    have alwaysNew (f : Cp0Field) (hw : f.writers = []) : f.get (s.view u) = f.get s.cp0 :=
      State.view_get fun x _ hx => by rw [hw] at hx; cases hx
    refine ⟨fun h => State.Far.view_get (f := .ti) h (by cases u <;> decide), seesNew .hwrena nofun nofun,
      seesNew .count nofun nofun, seesNew .compare nofun nofun, seesNew .intCtlVs nofun nofun, fun h => ?srsCtl,
      seesNew .srsMap nofun nofun, fun h => Prod.mk.inj (seesNew .dcIv nofun nofun h), seesNew .epc nofun nofun,
      seesNew .ebase nofun nofun, seesNew .config nofun nofun, fun h => ?debugReg, seesNew .depc nofun nofun,
      seesNew .errorEpc nofun nofun, seesNew .deSave nofun nofun, alwaysNew .badVAddr rfl⟩
    case srsCtl =>
      exact srsCtl_eq_of_get (seesNew .ess nofun nofun h) (seesNew .pss nofun nofun h) (alwaysNew .currentSets rfl)
    case debugReg => exact debugReg_eq_of_get (seesNew .debugControl nofun nofun h) (alwaysNew .debugRest rfl)
  case onePending =>
    refine ⟨fun hr => State.view_one_whole hs hr rfl, fun _ => ?userMode, State.view_one_interruptEnable hs hd,
      fun hr => State.view_one_whole hs hr rfl, fun _ => State.view_get_one hs .other .compare⟩
    case userMode =>
      obtain h | h := State.view_get_one hs .coprocessor .statusRest
      · exact .inl (congrArg Status.um h :)
      · exact .inr (congrArg Status.um h :)

end Sys2Proof.Machine
end
